-- ==== Sys2Proof/Config.lean ====
section
/-! DEFINITION. What this hardware fixes (00_scope R8, R9), the open parameter `REBUILD_READING`
(92_eei_decisions D17), and the free values: constants with no body, of which nothing can be proved. -/

namespace Sys2Proof.Config

/-- `BLOCK_BYTES` (R8). -/
abbrev blockBytes : Nat := 32
/-- `WC_BITS` (R8). -/
abbrev wcBits : Nat := 128
/-- `PERM_ENTRIES` (R8). -/
abbrev permEntries : Nat := 256
/-- `N_STAGE_MAX` (R8). -/
abbrev stageMax : Nat := 9
/-- `MIRROR_BITS` (R8). -/
abbrev mirrorBits : Nat := 256
/-- `PAD_BYTES` (R8). -/
abbrev padBytes : Nat := 32
/-- `SIZE_MIN` (R9). -/
abbrev sizeMin : Nat := 256
/-- `SIZE_MAX` (R9). -/
abbrev sizeMax : Nat := 4095
/-- `RBUF_BYTES` (R9). -/
abbrev rbufBytes : Nat := 544
/-- `STG_BYTES` (R9). -/
abbrev stgBytes : Nat := 1024
/-- `STR_CAP` (R9). -/
abbrev strCap : Nat := 64
/-- `QDEPTH` (R9): how many blocks a handoff slot holds. -/
abbrev queueDepth : Nat := 1
/-- `REG_BITS` (R9): the width of a host-visible register. -/
abbrev regBits : Nat := 64
/-- `CMD_BITS` (R9): the width of a command word. -/
abbrev cmdBits : Nat := 32
/-- The bound of every wide-counter value, `2^WC_BITS` (R8, 44_wide_counter R235). -/
abbrev wideLimit : Nat := 2 ^ 128
/-- The constant the identity register reads (10_state R24). -/
abbrev idValue : BitVec 64 := 0x544E544500070001#64

/-- The three readings of the document's garbled rebuild formula (91_not_in_source N3). -/
inductive RebuildReading where
  /-- `bitPerm[randp[s+k]] = randp[s + (k+c) mod n]`. -/
  | a
  /-- `bitPerm[s+k] = randp[s + (k+c) mod n]`. -/
  | b
  /-- `bitPerm[seg[k]] = randp[seg[(k+c) mod n]]` with `seg[k] = randp[s+k]`. -/
  | c
deriving DecidableEq, Repr

/-- `REBUILD_READING`: an open parameter of the spec, here at the value `a` that rule R184 of
42_permutator uses (92_eei_decisions D17; log 11). -/
abbrev rebuildReading : RebuildReading := .a

/-- FREE VALUE. Which agents move next, in order, when State lists no coming turn: a finite list of any length, since 70_reset
R410 fixes no order and no bound (log 1). Applied to the counter `draws` of State. -/
opaque freePicks : Nat → List Nat

/-- FREE VALUE. The bits 46_pipeline R319 leaves undefined: `freeBits w d k` is the `k`-th `w`-bit value of
draw `d` (log 8, log 9). -/
opaque freeBits (w d k : Nat) : BitVec w

/-- FREE VALUE. `PROBE`, the host's open parameter (92_eei_decisions D50): the content of probe block number `n`, given the block
popped last (log 22). -/
opaque probe (n : Nat) (last : BitVec 256) : BitVec 256

/-- In which order `Intn` assembles the bytes it reads (45_keystream_host R283). -/
inductive IntnOrder where
  | firstMost
  | firstLeast
deriving DecidableEq, Repr

/-- `INTN_ORDER`, the host's open parameter, at the default of R283: the first byte read is the most significant (92_eei_decisions
D44; log 22). -/
abbrev intnOrder : IntnOrder := .firstMost

end Sys2Proof.Config
end

