-- ==== Sys2Proof/Word.lean ====
section
/-! DEFINITION. The bit-vector widths of the block: bytes, 64-bit registers, 32-bit command words, the
128-bit wide counter, 12-bit register numbers and 4-bit unit ids (00_scope R9, R11; 10_state R21, R22). -/

namespace Sys2Proof

/-- One byte of a buffer (00_scope R12). -/
abbrev Byte := BitVec 8

/-- A host-visible register, `REG_BITS` wide (00_scope R9, 10_state R22; `word_width` ties the literal to
`Config.regBits`). -/
abbrev Word := BitVec 64

/-- A command word, `CMD_BITS` wide (00_scope R9, 30_encoding R101; `cmd_width` ties the literal to `Config.cmdBits`). -/
abbrev Cmd := BitVec 32

/-- A wide-counter value, `WC_BITS` wide (00_scope R8; `wide_width` ties the literal to `Config.wcBits`). -/
abbrev Wide := BitVec 128

/-- A register number (10_state R22). -/
abbrev RegNum := BitVec 12

/-- A unit id as it stands in a command word, in `ORDER` and in `BIND` (10_state R21). -/
abbrev UnitCode := BitVec 4

/-- The width of a register is the parameter `REG_BITS`. -/
theorem word_width : Word = BitVec Config.regBits := rfl

/-- The width of a command word is the parameter `CMD_BITS`. -/
theorem cmd_width : Cmd = BitVec Config.cmdBits := rfl

/-- The width of a wide-counter value is the parameter `WC_BITS`. -/
theorem wide_width : Wide = BitVec Config.wcBits := rfl

end Sys2Proof
end

