-- ==== Sys2Proof/Syntax.lean ====
section
/-! DEFINITION. The 41 commands of 30_encoding R106, one constructor per row of the opcode table.
`u` is the 4-bit unit id of format U, `n` and `d` the 8-bit immediate of format I (R101, R102). The counter
commands carry no operand: their `u` field has the one legal value 8. -/

namespace Sys2Proof

inductive Instr where
  | nop
  | engInit
  | engSetdir (d : Byte)
  | engBuild
  | engSetindex
  | engIndex
  | wcAdd
  | wcSub
  | wcMul
  | wcDiv
  | wcDivmod
  | wcMod
  | wcInc
  | wcIszero
  | wcParse
  | wcTostr
  | rotConstruct (u : UnitCode)
  | rotApplyf (u : UnitCode)
  | rotApplyg (u : UnitCode)
  | rotSetindex (u : UnitCode)
  | rotIndex (u : UnitCode)
  | rotUpdate (u : UnitCode)
  | rotDump (u : UnitCode)
  | prmConstruct (u : UnitCode)
  | prmApplyf (u : UnitCode)
  | prmApplyg (u : UnitCode)
  | prmSetindex (u : UnitCode)
  | prmIndex (u : UnitCode)
  | prmUpdate (u : UnitCode)
  | prmDump (u : UnitCode)
  | prmAdvance (u : UnitCode)
  | prmRebuild (u : UnitCode)
  | ctrReset
  | ctrApplyf
  | ctrApplyg
  | ctrSetindex
  | ctrIndex
  | ctrUpdate
  | bitGet (n : Byte)
  | bitSet (n : Byte)
  | bitClr (n : Byte)
deriving DecidableEq, Repr

end Sys2Proof
end

