-- ==== Sys2Proof/WellFormed.lean ====
section
/-! DEFINITION. Which commands have a word: the unit id of a rotor command is 0..5, that of a permutator
command 6 or 7 (30_encoding R103 step 4, R104). Every immediate is encodable (R102). -/

namespace Sys2Proof

/-- A unit id the rotor group accepts (30_encoding R104). -/
abbrev isRotorUnit (u : UnitCode) : Bool := decide (u.toNat ≤ 5)

/-- A unit id the permutator group accepts (30_encoding R104). -/
abbrev isPermUnit (u : UnitCode) : Bool := decide (6 ≤ u.toNat ∧ u.toNat ≤ 7)

/-- The command has an encoding (30_encoding R101 to R105). -/
def WellFormed : Instr → Bool
  | .nop => true
  | .engInit => true
  | .engSetdir _ => true
  | .engBuild => true
  | .engSetindex => true
  | .engIndex => true
  | .wcAdd => true
  | .wcSub => true
  | .wcMul => true
  | .wcDiv => true
  | .wcDivmod => true
  | .wcMod => true
  | .wcInc => true
  | .wcIszero => true
  | .wcParse => true
  | .wcTostr => true
  | .rotConstruct u => isRotorUnit u
  | .rotApplyf u => isRotorUnit u
  | .rotApplyg u => isRotorUnit u
  | .rotSetindex u => isRotorUnit u
  | .rotIndex u => isRotorUnit u
  | .rotUpdate u => isRotorUnit u
  | .rotDump u => isRotorUnit u
  | .prmConstruct u => isPermUnit u
  | .prmApplyf u => isPermUnit u
  | .prmApplyg u => isPermUnit u
  | .prmSetindex u => isPermUnit u
  | .prmIndex u => isPermUnit u
  | .prmUpdate u => isPermUnit u
  | .prmDump u => isPermUnit u
  | .prmAdvance u => isPermUnit u
  | .prmRebuild u => isPermUnit u
  | .ctrReset => true
  | .ctrApplyf => true
  | .ctrApplyg => true
  | .ctrSetindex => true
  | .ctrIndex => true
  | .ctrUpdate => true
  | .bitGet _ => true
  | .bitSet _ => true
  | .bitClr _ => true

end Sys2Proof
end

