-- ==== Sys2Proof/Decode.lean ====
section
/-! DEFINITION. The decoder and the encoder of command words, both written from 30_encoding R101 to R108.
Every 32-bit word decodes to one command or is rejected by name. -/

namespace Sys2Proof

/-- Why a word is no command (30_encoding R103): all three raise `ILLEGAL_COMMAND`. -/
inductive Reject where
  /-- Step (2): the opcode is not in the table. -/
  | unknownOpcode
  /-- Step (3): a must-be-zero bit of the opcode's format is 1; `u` is what `FAULT.UNIT` records for the word. -/
  | mustBeZero (u : UnitCode)
  /-- Step (4): the unit id is outside the group's range. -/
  | unitRange (u : UnitCode)
deriving DecidableEq, Repr

/-- The three formats of R101, each with what builds the command from its field; format U carries the
range of unit ids of R103 step 4. -/
inductive Form where
  | formN (i : Instr)
  | formU (lo hi : Nat) (mk : UnitCode → Instr)
  | formI (mk : Byte → Instr)

/-- `opcode`, bits 31:24 (R101). -/
def opcodeField (w : Cmd) : Byte := w.extractLsb' 24 8

/-- `u`, bits 23:20 of format U (R101). -/
def unitBits (w : Cmd) : UnitCode := w.extractLsb' 20 4

/-- `imm8`, bits 7:0 of format I (R101). -/
def immField (w : Cmd) : Byte := w.extractLsb' 0 8

/-- The opcode map (R104, R106). -/
def opcodeForm (op : Nat) : Option Form :=
  match op with
  | 0x00 => some (.formN .nop)
  | 0x01 => some (.formN .engInit)
  | 0x02 => some (.formI .engSetdir)
  | 0x03 => some (.formN .engBuild)
  | 0x04 => some (.formN .engSetindex)
  | 0x05 => some (.formN .engIndex)
  | 0x10 => some (.formN .wcAdd)
  | 0x11 => some (.formN .wcSub)
  | 0x12 => some (.formN .wcMul)
  | 0x13 => some (.formN .wcDiv)
  | 0x14 => some (.formN .wcDivmod)
  | 0x15 => some (.formN .wcMod)
  | 0x16 => some (.formN .wcInc)
  | 0x17 => some (.formN .wcIszero)
  | 0x18 => some (.formN .wcParse)
  | 0x19 => some (.formN .wcTostr)
  | 0x20 => some (.formU 0 5 .rotConstruct)
  | 0x21 => some (.formU 0 5 .rotApplyf)
  | 0x22 => some (.formU 0 5 .rotApplyg)
  | 0x23 => some (.formU 0 5 .rotSetindex)
  | 0x24 => some (.formU 0 5 .rotIndex)
  | 0x25 => some (.formU 0 5 .rotUpdate)
  | 0x26 => some (.formU 0 5 .rotDump)
  | 0x30 => some (.formU 6 7 .prmConstruct)
  | 0x31 => some (.formU 6 7 .prmApplyf)
  | 0x32 => some (.formU 6 7 .prmApplyg)
  | 0x33 => some (.formU 6 7 .prmSetindex)
  | 0x34 => some (.formU 6 7 .prmIndex)
  | 0x35 => some (.formU 6 7 .prmUpdate)
  | 0x36 => some (.formU 6 7 .prmDump)
  | 0x37 => some (.formU 6 7 .prmAdvance)
  | 0x38 => some (.formU 6 7 .prmRebuild)
  | 0x40 => some (.formU 8 8 fun _ => .ctrReset)
  | 0x41 => some (.formU 8 8 fun _ => .ctrApplyf)
  | 0x42 => some (.formU 8 8 fun _ => .ctrApplyg)
  | 0x43 => some (.formU 8 8 fun _ => .ctrSetindex)
  | 0x44 => some (.formU 8 8 fun _ => .ctrIndex)
  | 0x45 => some (.formU 8 8 fun _ => .ctrUpdate)
  | 0x50 => some (.formI .bitGet)
  | 0x51 => some (.formI .bitSet)
  | 0x52 => some (.formI .bitClr)
  | _ => none

/-- Steps (3) and (4) of R103 for a word whose opcode has the given format. -/
def decodeForm (f : Form) (w : Cmd) : Except Reject Instr :=
  match f with
  | .formN i =>
    if w.extractLsb' 0 24 = 0#24 then .ok i else .error (.mustBeZero 0xF#4)
  | .formU lo hi mk =>
    if w.extractLsb' 0 20 ≠ 0#20 then .error (.mustBeZero (unitBits w))
    else if lo ≤ (unitBits w).toNat ∧ (unitBits w).toNat ≤ hi then .ok (mk (unitBits w))
    else .error (.unitRange (unitBits w))
  | .formI mk =>
    if w.extractLsb' 8 16 = 0#16 then .ok (mk (immField w)) else .error (.mustBeZero 0xF#4)

/-- The decoder: steps (2) to (4) of R103. Steps (1), (5) and (6) are the executor's
(`Machine.command`). -/
def decode (w : Cmd) : Except Reject Instr :=
  match opcodeForm (opcodeField w).toNat with
  | none => .error .unknownOpcode
  | some f => decodeForm f w

/-- What `FAULT.UNIT` records for a rejected word (60_exceptions R353): the `u` field for a word of format
U, `0xF` for every other word. That R353 also covers a format U word rejected at step (3) is DEDUCED
(log 10). -/
def Reject.unit : Reject → UnitCode
  | .unknownOpcode => 0xF#4
  | .mustBeZero u => u
  | .unitRange u => u

/-- The opcode byte of each command (R106). -/
def opcodeOf : Instr → Byte
  | .nop => 0x00#8
  | .engInit => 0x01#8
  | .engSetdir _ => 0x02#8
  | .engBuild => 0x03#8
  | .engSetindex => 0x04#8
  | .engIndex => 0x05#8
  | .wcAdd => 0x10#8
  | .wcSub => 0x11#8
  | .wcMul => 0x12#8
  | .wcDiv => 0x13#8
  | .wcDivmod => 0x14#8
  | .wcMod => 0x15#8
  | .wcInc => 0x16#8
  | .wcIszero => 0x17#8
  | .wcParse => 0x18#8
  | .wcTostr => 0x19#8
  | .rotConstruct _ => 0x20#8
  | .rotApplyf _ => 0x21#8
  | .rotApplyg _ => 0x22#8
  | .rotSetindex _ => 0x23#8
  | .rotIndex _ => 0x24#8
  | .rotUpdate _ => 0x25#8
  | .rotDump _ => 0x26#8
  | .prmConstruct _ => 0x30#8
  | .prmApplyf _ => 0x31#8
  | .prmApplyg _ => 0x32#8
  | .prmSetindex _ => 0x33#8
  | .prmIndex _ => 0x34#8
  | .prmUpdate _ => 0x35#8
  | .prmDump _ => 0x36#8
  | .prmAdvance _ => 0x37#8
  | .prmRebuild _ => 0x38#8
  | .ctrReset => 0x40#8
  | .ctrApplyf => 0x41#8
  | .ctrApplyg => 0x42#8
  | .ctrSetindex => 0x43#8
  | .ctrIndex => 0x44#8
  | .ctrUpdate => 0x45#8
  | .bitGet _ => 0x50#8
  | .bitSet _ => 0x51#8
  | .bitClr _ => 0x52#8

/-- The 24 bits below the opcode, by format (R101). -/
def operandBits : Instr → BitVec 24
  | .nop => 0#24
  | .engInit => 0#24
  | .engSetdir d => 0#16 ++ d
  | .engBuild => 0#24
  | .engSetindex => 0#24
  | .engIndex => 0#24
  | .wcAdd => 0#24
  | .wcSub => 0#24
  | .wcMul => 0#24
  | .wcDiv => 0#24
  | .wcDivmod => 0#24
  | .wcMod => 0#24
  | .wcInc => 0#24
  | .wcIszero => 0#24
  | .wcParse => 0#24
  | .wcTostr => 0#24
  | .rotConstruct u => u ++ 0#20
  | .rotApplyf u => u ++ 0#20
  | .rotApplyg u => u ++ 0#20
  | .rotSetindex u => u ++ 0#20
  | .rotIndex u => u ++ 0#20
  | .rotUpdate u => u ++ 0#20
  | .rotDump u => u ++ 0#20
  | .prmConstruct u => u ++ 0#20
  | .prmApplyf u => u ++ 0#20
  | .prmApplyg u => u ++ 0#20
  | .prmSetindex u => u ++ 0#20
  | .prmIndex u => u ++ 0#20
  | .prmUpdate u => u ++ 0#20
  | .prmDump u => u ++ 0#20
  | .prmAdvance u => u ++ 0#20
  | .prmRebuild u => u ++ 0#20
  | .ctrReset => 8#4 ++ 0#20
  | .ctrApplyf => 8#4 ++ 0#20
  | .ctrApplyg => 8#4 ++ 0#20
  | .ctrSetindex => 8#4 ++ 0#20
  | .ctrIndex => 8#4 ++ 0#20
  | .ctrUpdate => 8#4 ++ 0#20
  | .bitGet n => 0#16 ++ n
  | .bitSet n => 0#16 ++ n
  | .bitClr n => 0#16 ++ n

/-- The encoder: the one word of a command (R101, R106). -/
def encode (i : Instr) : Cmd := opcodeOf i ++ operandBits i

/-- What `FAULT.UNIT` records when a legal command faults and its rule names no other unit
(60_exceptions R353): the `u` field of a format U command, `0xF` otherwise. -/
def unitOfInstr : Instr → UnitCode
  | .nop => 0xF#4
  | .engInit => 0xF#4
  | .engSetdir _ => 0xF#4
  | .engBuild => 0xF#4
  | .engSetindex => 0xF#4
  | .engIndex => 0xF#4
  | .wcAdd => 0xF#4
  | .wcSub => 0xF#4
  | .wcMul => 0xF#4
  | .wcDiv => 0xF#4
  | .wcDivmod => 0xF#4
  | .wcMod => 0xF#4
  | .wcInc => 0xF#4
  | .wcIszero => 0xF#4
  | .wcParse => 0xF#4
  | .wcTostr => 0xF#4
  | .rotConstruct u => u
  | .rotApplyf u => u
  | .rotApplyg u => u
  | .rotSetindex u => u
  | .rotIndex u => u
  | .rotUpdate u => u
  | .rotDump u => u
  | .prmConstruct u => u
  | .prmApplyf u => u
  | .prmApplyg u => u
  | .prmSetindex u => u
  | .prmIndex u => u
  | .prmUpdate u => u
  | .prmDump u => u
  | .prmAdvance u => u
  | .prmRebuild u => u
  | .ctrReset => 8#4
  | .ctrApplyf => 8#4
  | .ctrApplyg => 8#4
  | .ctrSetindex => 8#4
  | .ctrIndex => 8#4
  | .ctrUpdate => 8#4
  | .bitGet _ => 0xF#4
  | .bitSet _ => 0xF#4
  | .bitClr _ => 0xF#4

/-- The command an opcode-table word of `nbits` bits stands for. A command word is one 32-bit value handed over
by `CMD(w)` (30_encoding R100, R109), so there is no byte order to undo; bits above `nbits` are 0. -/
def decodeTableWord (nbits w : Nat) : Option Instr :=
  match decode (BitVec.ofNat 32 (w % 2 ^ nbits)) with
  | .ok i => some i
  | .error _ => none

end Sys2Proof
end

