-- ==== Sys2Proof/Machine/State.lean ====
section
/-! DEFINITION. The state of the block (10_state R20), the pending host actions and the schedule that drive
it, the reasons a step of the MODEL can stop, and the state after reset (10_state R54). -/

namespace Sys2Proof.Machine

/-- A byte buffer: (address, byte) pairs, addresses strictly rising, no entry equal to what an unlisted
address reads as. One value of this type is one private memory or byte register of 20_memory R70. -/
abbrev Mem := List Host.Cell

/-- What an unlisted address of a buffer reads as. For `STG`, `BLK` and `WSTR` it is the reset value of
10_state R54; for the memories R54 leaves unspecified it is a DESIGN CHOICE (log 6). -/
abbrev unlistedByte : BitVec 8 := 0#8

/-- The canonical form of a buffer. -/
abbrev Mem.wf (m : Mem) : Prop :=
  List.Pairwise (fun c d : Host.Cell => c.1 < d.1) m ∧ ∀ c ∈ m, c.2 ≠ unlistedByte

/-- Every listed address lies in a space of `n` bytes. -/
abbrev Mem.within (n : Nat) (m : Mem) : Prop := ∀ c ∈ m, c.1 < n

/-- `ESTATE` (10_state R26): the codes 5 to 7 are never held. -/
inductive EState where
  | created
  | initialized
  | encBuilt
  | decBuilt
  | closed
deriving DecidableEq, Repr

/-- The values of `DIR` and `BDIR` (10_state R27, R52): the code 3 is never held. -/
inductive Dir where
  | none
  | encrypt
  | decrypt
deriving DecidableEq, Repr

/-- `W[p].ST` (10_state R51): the code 3 is never held. -/
inductive WState where
  | off
  | wait
  | hold
deriving DecidableEq, Repr

/-- The units (10_state R21): rotor units 0..5, permutator units 6 and 7 (here 0 and 1), the counter unit 8. -/
inductive UnitId where
  | rotor (u : Fin 6)
  | perm (u : Fin 2)
  | counter
deriving DecidableEq, Repr

/-- The fields of `FAULT` (10_state R28). -/
structure FaultReg where
  cause : BitVec 8
  unit : BitVec 4
  src : BitVec 4
  worker : BitVec 4
deriving DecidableEq, Repr

/-- A rotor unit (10_state R39); `buf` is `RBUF[u]`. -/
structure Rotor where
  size : BitVec 12
  start : BitVec 12
  step : BitVec 12
  current : BitVec 12
  valid : Bool
  buf : Mem
deriving DecidableEq, Repr

/-- A permutator unit (10_state R43). -/
structure Perm where
  len : Vector (BitVec 9) 4
  start : Vector (BitVec 8) 4
  cur : Vector (BitVec 8) 4
  cstate : BitVec 25
  maxst : BitVec 25
  valid : Bool
  randp : Mem
  bperm : Mem
deriving DecidableEq, Repr

/-- A handoff slot `Q[k]` (10_state R49). -/
structure Slot where
  v : Bool
  len : BitVec 6
  data : Mem
deriving DecidableEq, Repr

/-- A worker `W[p]` (10_state R50). -/
structure Worker where
  st : WState
  hlen : BitVec 6
  hdata : Mem
  last : Bool
deriving DecidableEq, Repr

/-- The six host actions (30_encoding R100). `push` carries the bytes alone: its length operand is their
number (log 12). -/
inductive HostAction where
  | wr (a : BitVec 12) (v : Word)
  | rd (a : BitVec 12)
  | cmd (w : Cmd)
  | push (bytes : List (BitVec 8))
  | pop
  | reset
deriving DecidableEq, Repr

/-- What an action returns to the host: the value of `RD`, the block of `POP` (R100). -/
inductive Reply where
  | value (v : Word)
  | block (bytes : List (BitVec 8))
deriving DecidableEq, Repr

/-- Who moves next (00_scope R18, 70_reset R410): the host performs its oldest pending action; a worker
takes its enabled step; the host gives up a blocked `PUSH` or `POP` for the `RESET` that follows it
(70_reset R390; log 5). -/
inductive Turn where
  | host
  | worker (p : Fin 9)
  | hostReset
deriving DecidableEq, Repr

/-- The whole state. The last six fields are the model's own: they are outside the block or stand for what
the spec leaves open (log 1, 2, 3, 8, 9). -/
structure State where
  /-- `ESTATE`, 10_state R26. -/
  estate : EState
  /-- `STATUS.FAULTED`, R25. -/
  faulted : Bool
  /-- `STATUS.CLOSING`, R25, R52. -/
  closing : Bool
  /-- `STATUS.Z`, R25. -/
  flagZ : Bool
  /-- `STATUS.B`, R25. -/
  flagB : Bool
  /-- `STATUS.UNTRACKED`, R25. -/
  untracked : Bool
  /-- `DIR`, R27. -/
  dir : Dir
  /-- `FAULT`, R28. -/
  fault : FaultReg
  /-- `FCMD`, R29. -/
  fcmd : Word
  /-- `NST`, R30. -/
  nst : BitVec 4
  /-- `ORDER`, R30. -/
  order : BitVec 36
  /-- `NB`, R52. -/
  nb : BitVec 4
  /-- `BDIR`, R52. -/
  bdir : Dir
  /-- `BIND[0..8]`, R52. -/
  binding : Vector (BitVec 4) 9
  /-- `WACC_LO`, R32. -/
  waccLo : Word
  /-- `WACC_HI`, R32. -/
  waccHi : Word
  /-- `WOP`, R33. -/
  wop : Word
  /-- `WREM`, R33. -/
  wrem : Word
  /-- `WSTRLEN`, R34. -/
  wstrLen : BitVec 7
  /-- `WSTR`, R34. -/
  wstr : Mem
  /-- `BLK`, R36. -/
  blk : Mem
  /-- `BLKLEN`, R36. -/
  blkLen : BitVec 6
  /-- `PSIZE`, R37. -/
  psize : Word
  /-- `PSTART`, R37. -/
  pstart : Word
  /-- `PSTEP`, R37. -/
  pstep : Word
  /-- `PLEN0..PLEN3`, R37. -/
  plen : Vector Word 4
  /-- `STG`, R38. -/
  stg : Mem
  /-- `R[0..5]`, R39. -/
  rotors : Vector Rotor 6
  /-- `P[6]`, `P[7]`, R43. -/
  perms : Vector Perm 2
  /-- `C.IDX`, R48. -/
  idx : Wide
  /-- `Q[0..9]`, R49. -/
  slots : Vector Slot 10
  /-- `W[0..8]`, R50. -/
  workers : Vector Worker 9
  /-- Model's own: unit `u` was mutated against 46_pipeline R319 and has not been constructed or sought at a quiescent
  point since, so its state is undefined (93_implementation_defined item 1; log 8). -/
  loose : Vector Bool 9
  /-- Model's own: unit `u` was mutated against 46_pipeline R319 since the last ENG.BUILD, so the blocks it transforms carry
  undefined data (log 8). -/
  tainted : Vector Bool 9
  /-- Model's own: how many free values have been drawn (log 9). -/
  draws : Nat
  /-- Model's own: the coming turns, oldest first (log 1). -/
  sched : List Turn
  /-- Model's own: the host's pending actions, oldest first (log 2). -/
  hostq : List HostAction
  /-- Model's own: what `RD` and `POP` have returned, oldest first (log 3). -/
  replies : List Reply
deriving DecidableEq, Repr

/-- Why a step of the model stops. The block's own fatal fault (60_exceptions R351) is no stop: it is a next
state in which nothing but `RD` and `RESET` has an effect. -/
inductive Fault where
  /-- Raised by a worker step whose `BIND[p]` names no unit (9 to 15). No run reaches it: ENG.BUILD latches only
  unit ids (46_pipeline R303). Safe: the model stops where the spec says nothing (log 13). -/
  | unboundWorker
deriving DecidableEq, Repr

/-- Why the model gives an instruction no meaning. -/
inductive Refusal where
  /-- Raised by an arm of `exec` whose instruction has no meaning yet; safe. No arm does. -/
  | notModelled (mnemonic : String)
deriving DecidableEq, Repr

/-- A rotor unit after reset (10_state R54). -/
def Rotor.reset : Rotor :=
  { size := 0, start := 0, step := 0, current := 0, valid := false, buf := [] }

/-- A permutator unit after reset (10_state R54). -/
def Perm.reset : Perm :=
  { len := Vector.replicate 4 0, start := Vector.replicate 4 0, cur := Vector.replicate 4 0, cstate := 0,
    maxst := 0, valid := false, randp := [], bperm := [] }

/-- A slot after reset (10_state R54); `len` and `data` are a DESIGN CHOICE (log 7). -/
def Slot.reset : Slot := { v := false, len := 0, data := [] }

/-- A worker after reset (10_state R54); all but `st` is a DESIGN CHOICE (log 7). -/
def Worker.reset : Worker := { st := .off, hlen := 0, hdata := [], last := false }

/-- The machine right after reset (10_state R54, 70_reset R390). -/
def State.reset : State :=
  { estate := .created, faulted := false, closing := false, flagZ := false, flagB := false,
    untracked := false, dir := .none, fault := { cause := 0, unit := 0, src := 0, worker := 0 }, fcmd := 0,
    nst := 0, order := 0, nb := 0, bdir := .none, binding := Vector.replicate 9 0,
    waccLo := 0, waccHi := 0, wop := 0, wrem := 0, wstrLen := 0, wstr := [],
    blk := [], blkLen := 0,
    psize := 0, pstart := 0, pstep := 0, plen := Vector.replicate 4 0, stg := [],
    rotors := Vector.replicate 6 Rotor.reset, perms := Vector.replicate 2 Perm.reset, idx := 0,
    slots := Vector.replicate 10 Slot.reset, workers := Vector.replicate 9 Worker.reset,
    loose := Vector.replicate 9 false, tainted := Vector.replicate 9 false, draws := 0, sched := [], hostq := [], replies := [] }

end Sys2Proof.Machine
end

