-- ==== Sys2Proof/Machine/Ops.lean ====
section
/-! DEFINITION. The named operations the meanings share: bytes and bits of a buffer (00_scope R12, R14), the byte
order of 64-bit words (20_memory R75), the unit accessors, the command executor's frame (30_encoding R103), taking
the fatal fault (60_exceptions R351) and leaving it by reset (70_reset R390). -/

namespace Sys2Proof.Machine

/-! ### Bytes of a buffer (00_scope R14) -/

/-- One byte of a buffer. -/
def readByte (m : Mem) (a : Nat) : Byte :=
  match m with
  | [] => unlistedByte
  | (a', b') :: t => if a = a' then b' else readByte t a

/-- Write one byte, keeping the canonical form. -/
def writeByte (m : Mem) (a : Nat) (b : Byte) : Mem :=
  match m with
  | [] => if b = unlistedByte then [] else [(a, b)]
  | (a', b') :: t =>
    if a < a' then (if b = unlistedByte then (a', b') :: t else (a, b) :: (a', b') :: t)
    else if a = a' then (if b = unlistedByte then t else (a, b) :: t)
    else (a', b') :: writeByte t a b

/-- `MemRead(space, addr, n)` (R14), lowest address first. -/
def readBytes (m : Mem) (a : Nat) : Nat → List Byte
  | 0 => []
  | n + 1 => readByte m a :: readBytes m (a + 1) n

/-- `MemWrite(space, addr, n, v)` (R14), lowest address first. -/
def writeBytes (m : Mem) (a : Nat) : List Byte → Mem
  | [] => m
  | b :: t => writeBytes (writeByte m a b) (a + 1) t

/-! ### Byte order (20_memory R75) -/

/-- `num` of 41_rotor R155: a byte list read as a little-endian number. -/
def leNat : List Byte → Nat
  | [] => 0
  | b :: t => b.toNat + 256 * leNat t

/-- `le64` (00_scope R14). -/
def le64 (bs : List Byte) : Word := BitVec.ofNat 64 (leNat bs)

/-- The eight bytes of a 64-bit register, byte 0 in bits 7:0. -/
def bytesOfWord (v : Word) : List Byte := (List.range 8).map fun k => v.extractLsb' (8 * k) 8

/-- The 64-bit register that shows bytes `8k .. 8k+7` of a buffer (R75 (b)). -/
def wordAt (m : Mem) (k : Nat) : Word := le64 (readBytes m (8 * k) 8)

/-- Writing that register. -/
def setWordAt (m : Mem) (k : Nat) (v : Word) : Mem := writeBytes m (8 * k) (bytesOfWord v)

/-! ### Bits of a buffer (00_scope R12, 20_memory R74) -/

/-- The weight of bit `i` in its byte. -/
def bitMask (i : Nat) : Byte := 1#8 <<< (i % 8)

/-- `bit(buf, i)`. -/
def bufBit (m : Mem) (i : Nat) : Bool := (readByte m (i / 8)).getLsbD (i % 8)

/-- `setbit(buf, i)`. -/
def setBit (m : Mem) (i : Nat) : Mem := writeByte m (i / 8) (readByte m (i / 8) ||| bitMask i)

/-- `clrbit(buf, i)`. -/
def clrBit (m : Mem) (i : Nat) : Mem := writeByte m (i / 8) (readByte m (i / 8) &&& ~~~(bitMask i))

/-- `putbit(buf, i, b)`. -/
def putBit (m : Mem) (i : Nat) (b : Bool) : Mem := if b then setBit m i else clrBit m i

/-- `bit(b, i)` of a block held as a byte list. -/
def blockBit (b : List Byte) (i : Nat) : Bool := (b.getD (i / 8) 0#8).getLsbD (i % 8)

/-- `setbit(r, i)` of a block held as a byte list. -/
def blockSetBit (b : List Byte) (i : Nat) : List Byte := b.modify (i / 8) (· ||| bitMask i)

/-! ### Fields of the state -/

/-- A rotor unit. -/
def rotor (s : State) (k : Fin 6) : Rotor := s.rotors[k]

/-- Replace a rotor unit. -/
def setRotor (k : Fin 6) (r : Rotor) (s : State) : State := { s with rotors := s.rotors.set k r }

/-- A permutator unit. -/
def perm (s : State) (k : Fin 2) : Perm := s.perms[k]

/-- Replace a permutator unit. -/
def setPerm (k : Fin 2) (p : Perm) (s : State) : State := { s with perms := s.perms.set k p }

/-- A slot. -/
def slot (s : State) (k : Fin 10) : Slot := s.slots[k]

/-- Replace a slot. -/
def setSlot (k : Fin 10) (q : Slot) (s : State) : State := { s with slots := s.slots.set k q }

/-- A worker. -/
def worker (s : State) (p : Fin 9) : Worker := s.workers[p]

/-- Replace a worker. -/
def setWorker (p : Fin 9) (w : Worker) (s : State) : State := { s with workers := s.workers.set p w }

/-- `WACC` as one value (10_state R32). -/
def wacc (s : State) : Nat := 2 ^ 64 * s.waccHi.toNat + s.waccLo.toNat

/-- `WACC <- v`, both words (10_state R32). -/
def setWacc (v : Nat) (s : State) : State :=
  { s with waccLo := BitVec.ofNat 64 v, waccHi := BitVec.ofNat 64 (v / 2 ^ 64) }

/-- The unit id of a unit (10_state R21). -/
def unitCode : UnitId → UnitCode
  | .rotor k => BitVec.ofNat 4 k.val
  | .perm k => BitVec.ofNat 4 (6 + k.val)
  | .counter => 8#4

/-- The unit a unit id names; ids 9 to 15 name none (10_state R21). -/
def unitOfCode (u : UnitCode) : Option UnitId :=
  if h : u.toNat < 6 then some (.rotor ⟨u.toNat, h⟩)
  else if h : u.toNat - 6 < 2 then some (.perm ⟨u.toNat - 6, h⟩)
  else if u.toNat = 8 then some .counter
  else none

/-- The place of a unit in a table of the nine units. -/
def unitIndex : UnitId → Fin 9
  | .rotor k => ⟨k.val, by omega⟩
  | .perm k => ⟨6 + k.val, by omega⟩
  | .counter => 8

/-- `VALID` of a unit; the counter unit is always valid (10_state R48). -/
def unitValid (s : State) : UnitId → Bool
  | .rotor k => (rotor s k).valid
  | .perm k => (perm s k).valid
  | .counter => true

/-! ### The fatal fault (60_exceptions R350 to R356) -/

/-- The cause names of R352. -/
inductive Cause where
  | illegalCommand
  | illegalState
  | illegalRegister
  | wcAddOverflow
  | wcSubUnderflow
  | wcMulOverflow
  | wcDivZero
  | wcIncOverflow
  | wcParse
  | badRotorParam
  | badPermParam
  | unitNotValid
  | emptyStageList
  | badDirection
  | badOrder
  | badBlockLen
  | badBitIndex
deriving DecidableEq, Repr

/-- The cause codes of R352. -/
def causeCode : Cause → BitVec 8
  | .illegalCommand => 0x01
  | .illegalState => 0x02
  | .illegalRegister => 0x03
  | .wcAddOverflow => 0x10
  | .wcSubUnderflow => 0x11
  | .wcMulOverflow => 0x12
  | .wcDivZero => 0x13
  | .wcIncOverflow => 0x14
  | .wcParse => 0x15
  | .badRotorParam => 0x20
  | .badPermParam => 0x21
  | .unitNotValid => 0x22
  | .emptyStageList => 0x30
  | .badDirection => 0x31
  | .badOrder => 0x32
  | .badBlockLen => 0x40
  | .badBitIndex => 0x41

/-- Who raises a fault (`FAULT.SRC`, 10_state R28). -/
inductive Source where
  | executor
  | worker
  | registerPort
  | streamPort
deriving DecidableEq, Repr

/-- The code of `FAULT.SRC` (10_state R28). -/
def sourceCode : Source → BitVec 4
  | .executor => 0
  | .worker => 1
  | .registerPort => 2
  | .streamPort => 3

/-- What a rule raises: the cause and what `FAULT.UNIT` records (R353). -/
structure Trap where
  cause : Cause
  unit : UnitCode
deriving DecidableEq, Repr

/-- `FAULT.UNIT` of a fault about no unit (R353). -/
abbrev noUnit : UnitCode := 0xF#4

/-- TAKING THE FATAL FAULT (R351): `FAULT`, `FCMD` and `FAULTED` are written and nothing else. While `FAULTED` = 1
no second fault is recorded (10_state R28, R356). -/
def raiseFault (src : Source) (e : Trap) (wrk : BitVec 4) (info : Word) (s : State) : State :=
  if s.faulted then s
  else
    { s with
      fault := { cause := causeCode e.cause, unit := e.unit, src := sourceCode src, worker := wrk }
      fcmd := info
      faulted := true }

/-- THE WAY OUT (R356): the `RESET` action puts every piece of the block at its reset value (70_reset R390, 10_state
R54). What is outside the block stays: the host's pending actions and replies, the schedule, the draws. -/
def resetBlock (s : State) : State :=
  { State.reset with draws := s.draws, sched := s.sched, hostq := s.hostq, replies := s.replies }

/-- The line `FATAL` (R360). -/
def fatalLine (s : State) : Bool := s.faulted

/-! ### The command executor (30_encoding R103) -/

/-- Which command is legal in which engine state (46_pipeline R302). -/
def legalIn (i : Instr) (e : EState) : Bool :=
  match i with
  | .engInit => e == .created
  | .engBuild => e == .initialized || e == .closed
  | .engSetindex | .engIndex => e != .created
  | .nop | .engSetdir _ => true
  | .wcAdd | .wcSub | .wcMul | .wcDiv | .wcDivmod | .wcMod | .wcInc | .wcIszero | .wcParse | .wcTostr => true
  | .rotConstruct _ | .rotApplyf _ | .rotApplyg _ | .rotSetindex _ | .rotIndex _ | .rotUpdate _ | .rotDump _ => true
  | .prmConstruct _ | .prmApplyf _ | .prmApplyg _ | .prmSetindex _ | .prmIndex _ | .prmUpdate _ | .prmDump _ => true
  | .prmAdvance _ | .prmRebuild _ => true
  | .ctrReset | .ctrApplyf | .ctrApplyg | .ctrSetindex | .ctrIndex | .ctrUpdate => true
  | .bitGet _ | .bitSet _ | .bitClr _ => true

/-- The fault of a command: `FAULT.SRC` = 0 and `FCMD` its word (10_state R29, R351). -/
def commandFault (i : Instr) (e : Trap) (s : State) : State :=
  raiseFault .executor e 0#4 ((encode i).setWidth 64) s

/-- Steps (1), (5) and (6) of R103: a faulted block drops the command; a command its engine state does not
allow raises `ILLEGAL_STATE`; otherwise the command's own rule runs, and answers its new state or the
fault it raises. -/
def command (i : Instr) (s : State) (body : Except Trap State) : Host.Outcome State Fault Refusal :=
  if s.faulted then .next s
  else if legalIn i s.estate then
    match body with
    | .ok t => .next t
    | .error e => .next (commandFault i e s)
  else .next (commandFault i ⟨.illegalState, unitOfInstr i⟩ s)

end Sys2Proof.Machine
end

