-- ==== Sys2Proof/Machine/Flags.lean ====
section
/-! DEFINITION. The condition flags and every predicate the block derives from its state: `BUILT` (10_state R26),
`IN_READY`, `OUT_VALID`, `Quiescent` and live-bound (46_pipeline R306, R310, R313, R319), and the words that show them
(10_state R25, R28, R31). -/

namespace Sys2Proof.Machine

/-! ### The stored condition flags (10_state R25) -/

/-- `STATUS.Z`, written by WC.ISZERO only. -/
def setFlagZ (z : Bool) (s : State) : State := { s with flagZ := z }

/-- `STATUS.B`, written by BIT.GET only. -/
def setFlagB (b : Bool) (s : State) : State := { s with flagB := b }

/-- `STATUS.UNTRACKED`, written by the INDEX commands only. -/
def setUntracked (u : Bool) (s : State) : State := { s with untracked := u }

/-! ### Derived predicates -/

/-- `BUILT` (10_state R26). -/
def built (s : State) : Bool := s.estate == .encBuilt || s.estate == .decBuilt

/-- `Quiescent` (46_pipeline R306). -/
def quiescent (s : State) : Bool :=
  !s.closing && s.slots.toList.all (fun q => !q.v) && s.workers.toList.all (fun w => w.st != .hold)

/-- How many blocks a handoff slot holds (10_state R49). -/
def slotCount (q : Slot) : Nat := q.v.toNat

/-- A handoff slot has room for one more block: it holds fewer than `QDEPTH` (00_scope R9, 10_state R49). -/
def slotRoom (q : Slot) : Bool := decide (slotCount q < Config.queueDepth)

/-- `IN_READY` (46_pipeline R310). -/
def inReady (s : State) : Bool := !s.faulted && built s && !s.closing && slotRoom (slot s 0)

/-- The slot at the output end, `Q[NB]` (46_pipeline R313); none where `NB` names no slot, which no run reaches. -/
def outSlot (s : State) : Option (Fin 10) :=
  if h : s.nb.toNat < 10 then some ⟨s.nb.toNat, h⟩ else none

/-- `OUT_VALID` (46_pipeline R313). -/
def outValid (s : State) : Bool :=
  !s.faulted && built s && (match outSlot s with | some k => (slot s k).v | none => false)

/-- A worker that exists in the built pipeline and has not terminated. -/
def liveWorker (s : State) (p : Fin 9) : Bool := decide (p.val < s.nb.toNat) && (worker s p).st != .off

/-- Unit `u` is live-bound (46_pipeline R319). -/
def liveBound (s : State) (u : UnitCode) : Bool :=
  built s && (List.finRange 9).any fun p => liveWorker s p && s.binding[p] == u

/-! ### Codes and words (10_state R25 to R31) -/

/-- The code of `ESTATE` (R26). -/
def estateCode : EState → Nat
  | .created => 0
  | .initialized => 1
  | .encBuilt => 2
  | .decBuilt => 3
  | .closed => 4

/-- The code of `DIR` and `BDIR` (R27). -/
def dirCode : Dir → Nat
  | .none => 0
  | .encrypt => 1
  | .decrypt => 2

/-- The code of `W[p].ST` (R51). -/
def wstateCode : WState → Nat
  | .off => 0
  | .wait => 1
  | .hold => 2

/-- `STATUS` (R25). `QUIESCENT` reads 0 while faulted (46_pipeline R306). -/
def statusWord (s : State) : Word :=
  BitVec.ofNat 64
    (estateCode s.estate + 2 ^ 3 * s.faulted.toNat + 2 ^ 4 * s.closing.toNat + 2 ^ 5 * s.flagZ.toNat
      + 2 ^ 6 * s.flagB.toNat + 2 ^ 7 * s.untracked.toNat + 2 ^ 8 * (inReady s).toNat + 2 ^ 9 * (outValid s).toNat
      + 2 ^ 10 * (!s.faulted && quiescent s).toNat + 2 ^ 12 * dirCode s.dir)

/-- `FAULT` (R28). -/
def faultWord (f : FaultReg) : Word :=
  BitVec.ofNat 64 (f.cause.toNat + 2 ^ 8 * f.unit.toNat + 2 ^ 12 * f.src.toNat + 2 ^ 16 * f.worker.toNat)

/-- `BUILT_CFG` (R31). -/
def builtCfgWord (s : State) : Word :=
  BitVec.ofNat 64
    (s.nb.toNat + 2 ^ 4 * dirCode s.bdir
      + ((List.finRange 9).map fun p => 2 ^ (8 + 4 * p.val) * s.binding[p].toNat).sum)

/-- `WSTAT` (R31, 90_conflicts C14): bit `20+p` shows `LAST` only of a worker in `HOLD`. -/
def wstatWord (s : State) : Word :=
  BitVec.ofNat 64
    (((List.finRange 9).map fun p => 2 ^ (2 * p.val) * wstateCode (worker s p).st).sum
      + ((List.finRange 9).map fun p =>
          2 ^ (20 + p.val) * ((worker s p).st == .hold && (worker s p).last).toNat).sum
      + ((List.finRange 10).map fun k => 2 ^ (32 + k.val) * (slot s k).v.toNat).sum)

end Sys2Proof.Machine
end

