-- ==== Sys2Proof/Machine/Undefined.lean ====
section
/-! DEFINITION. The one behaviour the spec leaves undefined: mutating a live-bound unit while the pipeline is not quiescent
(46_pipeline R319, 60_exceptions R364, 93_implementation_defined item 1, 92_eei_decisions D33). Free values stand for
- the unit's registers and memories, until it is constructed or sought at a quiescent point (`loose`);
- the data of every block in flight;
- the data of every block the unit transforms until both that has happened and ENG.BUILD has run (`tainted`).
Lengths, engine state, valid bits, worker states and every other unit keep their specified values, and no fault is raised for
it (log 8, log 9). -/

namespace Sys2Proof.Machine

/-- `n` free bytes of draw `d`, numbered from `k`. -/
def freeBytes (d k n : Nat) : List Byte := (List.range n).map fun j => Config.freeBits 8 d (k + j)

/-- A rotor unit whose registers and memory are free; it stays valid, since D33 lets no fault follow (log 8). -/
def freeRotor (d : Nat) : Rotor :=
  { size := Config.freeBits 12 d 0, start := Config.freeBits 12 d 1, step := Config.freeBits 12 d 2,
    current := Config.freeBits 12 d 3, valid := true,
    buf := writeBytes [] 0 (freeBytes d 4 Config.rbufBytes) }

/-- A permutator unit whose registers and memories are free; it stays valid (log 8). -/
def freePerm (d : Nat) : Perm :=
  { len := Vector.ofFn fun j : Fin 4 => Config.freeBits 9 d j.val,
    start := Vector.ofFn fun j : Fin 4 => Config.freeBits 8 d j.val,
    cur := Vector.ofFn fun j : Fin 4 => Config.freeBits 8 d (4 + j.val),
    cstate := Config.freeBits 25 d 0, maxst := Config.freeBits 25 d 1, valid := true,
    randp := writeBytes [] 0 (freeBytes d 8 Config.permEntries),
    bperm := writeBytes [] 0 (freeBytes d 264 Config.permEntries) }

/-- Give a unit free contents. -/
def scramble (u : UnitId) (s : State) : State :=
  match u with
  | .rotor k => { setRotor k (freeRotor s.draws) s with draws := s.draws + 1 }
  | .perm k => { setPerm k (freePerm s.draws) s with draws := s.draws + 1 }
  | .counter => { s with idx := Config.freeBits 128 s.draws 0, draws := s.draws + 1 }

/-- Slot `k` with free data, its length and valid bit kept: the bytes of draw `d` from `32 * k` on. -/
def freeSlot (d : Nat) (k : Fin 10) (q : Slot) : Slot :=
  if q.v then { q with data := writeBytes q.data 0 (freeBytes d (Config.blockBytes * k.val) q.len.toNat) } else q

/-- Worker `p` with free data in its hands, the length kept: the bytes of draw `d` behind those of the ten slots. -/
def freeHand (d : Nat) (p : Fin 9) (w : Worker) : Worker :=
  if w.st = .hold then
    { w with hdata := writeBytes w.hdata 0 (freeBytes d (Config.blockBytes * (10 + p.val)) w.hlen.toNat) }
  else w

/-- Give every block in flight free data (93_implementation_defined item 1). -/
def freeInFlight (s : State) : State :=
  { s with
    slots := Vector.ofFn fun k : Fin 10 => freeSlot s.draws k (slot s k)
    workers := Vector.ofFn fun p : Fin 9 => freeHand s.draws p (worker s p)
    draws := s.draws + 1 }

/-- The precondition of R319 is broken for unit `u` in state `s`. -/
def breaksPrecondition (s : State) (u : UnitId) : Bool := liveBound s (unitCode u) && !quiescent s

/-- What breaking the precondition of R319 for unit `u` leaves. -/
def breach (u : UnitId) (s : State) : State :=
  { freeInFlight (scramble u s) with
    loose := s.loose.set (unitIndex u) true, tainted := s.tainted.set (unitIndex u) true }

/-- The state of unit `u` is undefined while this command acts on it: the command breaks R319, or an earlier breach has left
the unit undefined. No fault that depends on the unit's state is raised then (92_eei_decisions D33). -/
def unsettled (s : State) (u : UnitId) : Bool := breaksPrecondition s u || s.loose[unitIndex u]

/-- The blocks unit `u` hands on carry undefined data. -/
def marked (s : State) (u : UnitId) : Bool := s.loose[unitIndex u] || s.tainted[unitIndex u]

/-- A construction or a seek at a quiescent point ends the undefined state of a unit (93_implementation_defined item 1). -/
def settle (before : State) (u : UnitId) (s : State) : State :=
  if quiescent before then { s with loose := s.loose.set (unitIndex u) false } else s

/-- The state a command leaves that moves unit `u` from where it is (apply, advance, rebuild): `after` as its rule says; free
where the command breaks R319 or the unit was undefined. -/
def mutated (before : State) (u : UnitId) (after : State) : State :=
  if breaksPrecondition before u then breach u after
  else if before.loose[unitIndex u] then scramble u after
  else after

/-- The state a command leaves that gives unit `u` a new state (construct, update, seek, reset of the counter). Where an earlier
breach has left the unit undefined, no live worker is bound to it any more, and the pipeline is not quiescent, 46_pipeline R319 leaves
the command its rule, while 93_implementation_defined item 1 keeps the unit at any value until a quiescent point (60_exceptions R364):
the model takes the values the rule writes, and keeps the mark `loose` (DESIGN CHOICE, log 25). -/
def renewed (before : State) (u : UnitId) (after : State) : State :=
  if breaksPrecondition before u then breach u after else settle before u after

/-- The block unit `u` hands on: the one its transform computed, or, while the unit is marked, undefined data of the
same length (R319). -/
def blockOut (u : UnitId) (s : State) (r : List Byte) : State × List Byte :=
  if marked s u then ({ s with draws := s.draws + 1 }, freeBytes s.draws 0 r.length) else (s, r)

/-- One transform `f` of a block by unit `u`: from an undefined unit an undefined block and an undefined unit, without a
fault; otherwise as its rule says, with the data free while the unit's blocks are. -/
def transformBlock (u : UnitId) (f : State → List Byte → Except Trap (State × List Byte)) (s : State) (b : List Byte) :
    Except Trap (State × List Byte) :=
  if s.loose[unitIndex u] then .ok (blockOut u (scramble u s) b)
  else
    match f s b with
    | .error e => .error e
    | .ok x => .ok (blockOut u x.1 x.2)

end Sys2Proof.Machine
end

