-- ==== Sys2Proof/Machine/Operands.lean ====
section
/-! DEFINITION. The operand forms of the commands (30_encoding R102): the unit id of format U with the common checks of
41_rotor R151 and 42_permutator R181, the CipherBlock in `BLK` and `BLKLEN` (40_bitvector R130, 10_state R36), the
string in `WSTR` (R34), the staged construction arguments (R37, R38) and the stage list in `NST` and `ORDER` (R30). -/

namespace Sys2Proof.Machine

/-! ### The unit operand -/

/-- The rotor a unit id names, for the ROT group: 0..5 (30_encoding R104). -/
def rotorOperand (u : UnitCode) : Option (Fin 6) :=
  if h : u.toNat < 6 then some ⟨u.toNat, h⟩ else none

/-- The permutator a unit id names, for the PRM group: 6 or 7 (30_encoding R104). -/
def permOperand (u : UnitCode) : Option (Fin 2) :=
  if h : 6 ≤ u.toNat ∧ u.toNat - 6 < 2 then some ⟨u.toNat - 6, h.2⟩ else none

/-- The frame of a ROT command: a unit id outside the group raises `ILLEGAL_COMMAND` (30_encoding R103 step 4). -/
def onRotor (u : UnitCode) (body : Fin 6 → Except Trap State) : Except Trap State :=
  match rotorOperand u with
  | none => .error ⟨.illegalCommand, u⟩
  | some k => body k

/-- The same with the `VALID` check of 41_rotor R151. -/
def onValidRotor (u : UnitCode) (s : State) (body : Fin 6 → Except Trap State) : Except Trap State :=
  onRotor u fun k => if (rotor s k).valid then body k else .error ⟨.unitNotValid, u⟩

/-- The frame of a PRM command (30_encoding R103 step 4). -/
def onPerm (u : UnitCode) (body : Fin 2 → Except Trap State) : Except Trap State :=
  match permOperand u with
  | none => .error ⟨.illegalCommand, u⟩
  | some k => body k

/-- The same with the `VALID` check of 42_permutator R181. -/
def onValidPerm (u : UnitCode) (s : State) (body : Fin 2 → Except Trap State) : Except Trap State :=
  onPerm u fun k => if (perm s k).valid then body k else .error ⟨.unitNotValid, u⟩

/-! ### The CipherBlock operand -/

/-- The CipherBlock `(BLKLEN, BLK[0 .. BLKLEN))` (10_state R36). -/
def blkBlock (s : State) : List Byte := readBytes s.blk 0 s.blkLen.toNat

/-- `BLK[0 .. n) <- r`. -/
def setBlk (r : List Byte) (s : State) : State := { s with blk := writeBytes s.blk 0 r }

/-- The check every command that reads `BLKLEN` begins with (40_bitvector R130); `u` is what `FAULT.UNIT` records. -/
def withBlock (u : UnitCode) (s : State) (body : List Byte → Except Trap State) : Except Trap State :=
  if s.blkLen.toNat > Config.blockBytes then .error ⟨.badBlockLen, u⟩ else body (blkBlock s)

/-- A direct transform command: the block in `BLK` goes through the transform `f` of unit `u` and comes back to `BLK`
(41_rotor R154, 42_permutator R187, 43_counter R222). -/
def directTransform (u : UnitId) (s : State) (f : State → List Byte → Except Trap (State × List Byte)) :
    Except Trap State :=
  withBlock (unitCode u) s fun b =>
    if breaksPrecondition s u then
      let out := blockOut u (breach u s) b
      .ok (setBlk out.2 out.1)
    else
      match transformBlock u f s b with
      | .error e => .error e
      | .ok out => .ok (setBlk out.2 out.1)

/-! ### Strings and staged arguments -/

/-- The string `WSTR[0 .. n)` (10_state R34). -/
def wstrBytes (s : State) (n : Nat) : List Byte := readBytes s.wstr 0 n

/-- `STG[0 .. n)`, the `data` and `randp` arguments (10_state R38). -/
def staged (s : State) (n : Nat) : List Byte := readBytes s.stg 0 n

/-! ### The stage list (10_state R30) -/

/-- `ORDER[p]`. -/
def orderEntry (s : State) (p : Nat) : UnitCode := s.order.extractLsb' (4 * p) 4

/-- `ORDER[0], ..., ORDER[NST-1]`. -/
def stageList (s : State) : List UnitCode := (List.range s.nst.toNat).map (orderEntry s)

/-- The entries of a stage list in order: each must name a unit, none twice, each unit valid; the first that fails decides
(46_pipeline R303, `CheckOrder`). `seen` holds the entries before. -/
def checkEntries (s : State) (seen : List UnitCode) : List UnitCode → Except Trap (List UnitId)
  | [] => .ok []
  | u :: rest =>
    match unitOfCode u with
    | none => .error ⟨.badOrder, u⟩
    | some id =>
      if u ∈ seen then .error ⟨.badOrder, u⟩
      else if unitValid s id then
        match checkEntries s (seen ++ [u]) rest with
        | .error e => .error e
        | .ok ids => .ok (id :: ids)
      else .error ⟨.unitNotValid, u⟩

/-- `CheckOrder` (46_pipeline R303); answers the units of the stage list. -/
def checkOrder (s : State) : Except Trap (List UnitId) :=
  if s.nst.toNat > Config.stageMax then .error ⟨.badOrder, noUnit⟩ else checkEntries s [] (stageList s)

end Sys2Proof.Machine
end

