-- ==== Sys2Proof/Machine/BitPrim.lean ====
section
/-! DEFINITION. The three bit commands on the block register (40_bitvector_block). -/

namespace Sys2Proof.Machine

/-- The two checks of 40_bitvector R132 to R134, in their order. -/
def onBlockBit (n : Byte) (s : State) (body : Except Trap State) : Except Trap State :=
  withBlock noUnit s fun _ =>
    if n.toNat ≥ 8 * s.blkLen.toNat then .error ⟨.badBitIndex, noUnit⟩ else body

/-- BIT.GET (40_bitvector R132). -/
def execBitGet (n : Byte) (s : State) : Host.Outcome State Fault Refusal :=
  command (.bitGet n) s (onBlockBit n s (.ok (setFlagB (bufBit s.blk n.toNat) s)))

/-- BIT.SET (40_bitvector R133). -/
def execBitSet (n : Byte) (s : State) : Host.Outcome State Fault Refusal :=
  command (.bitSet n) s (onBlockBit n s (.ok { s with blk := setBit s.blk n.toNat }))

/-- BIT.CLR (40_bitvector R134). -/
def execBitClr (n : Byte) (s : State) : Host.Outcome State Fault Refusal :=
  command (.bitClr n) s (onBlockBit n s (.ok { s with blk := clrBit s.blk n.toNat }))

end Sys2Proof.Machine
end

