-- ==== Sys2Proof/Machine/Counter.lean ====
section
/-! DEFINITION. The counter stage (43_counter) and the six CTR commands. -/

namespace Sys2Proof.Machine

/-- The incremented counter; the largest value raises `WC_INC_OVERFLOW` (43_counter R222, 44_wide_counter R254). -/
def wideInc (v : Nat) : Except Cause Nat :=
  if v = Config.wideLimit - 1 then .error .wcIncOverflow else .ok (v + 1)

/-- `CounterF` (43_counter R222): one more block counted, the block passed through. -/
def counterTransformF (s : State) (b : List Byte) : Except Trap (State × List Byte) :=
  match wideInc s.idx.toNat with
  | .error c => .error ⟨c, unitCode .counter⟩
  | .ok v => .ok ({ s with idx := BitVec.ofNat 128 v }, b)

/-- `CounterG` (43_counter R223): nothing counted, the block passed through. -/
def counterTransformG (s : State) (b : List Byte) : Except Trap (State × List Byte) := .ok (s, b)

/-- `BLK` after a direct counter transform: unchanged (43_counter R222, R223), or undefined data while the unit is marked
(46_pipeline R319; log 8). -/
def passBlock (s : State) : State :=
  if marked s .counter then
    setBlk (freeBytes s.draws 0 s.blkLen.toNat) { s with draws := s.draws + 1 }
  else s

/-- The seek of the counter to `WACC` (43_counter R224). -/
def seekCounter (s : State) : State := { s with idx := BitVec.ofNat 128 (wacc s) }

/-- CTR.RESET (43_counter R221). -/
def execCtrReset (s : State) : Host.Outcome State Fault Refusal :=
  command .ctrReset s (.ok (renewed s .counter { s with idx := 0#128 }))

/-- CTR.APPLYF (43_counter R222). -/
def execCtrApplyf (s : State) : Host.Outcome State Fault Refusal :=
  command .ctrApplyf s (withBlock (unitCode .counter) s fun b =>
    if unsettled s .counter then .ok (passBlock (mutated s .counter s))
    else
      match counterTransformF s b with
      | .error e => .error e
      | .ok (t, _) => .ok (passBlock t))

/-- CTR.APPLYG (43_counter R223). -/
def execCtrApplyg (s : State) : Host.Outcome State Fault Refusal :=
  command .ctrApplyg s (withBlock (unitCode .counter) s fun b =>
    match counterTransformG s b with
    | .error e => .error e
    | .ok (t, _) => .ok (passBlock t))

/-- CTR.SETINDEX (43_counter R224). -/
def execCtrSetindex (s : State) : Host.Outcome State Fault Refusal :=
  command .ctrSetindex s (.ok (renewed s .counter (seekCounter s)))

/-- CTR.INDEX (43_counter R225). -/
def execCtrIndex (s : State) : Host.Outcome State Fault Refusal :=
  command .ctrIndex s (.ok (setUntracked false (setWacc s.idx.toNat s)))

/-- CTR.UPDATE (43_counter R226): no state changes. -/
def execCtrUpdate (s : State) : Host.Outcome State Fault Refusal :=
  command .ctrUpdate s (.ok s)

end Sys2Proof.Machine
end

