-- ==== Sys2Proof/Machine/Perm.lean ====
section
/-! DEFINITION. The permutation-cycle rotator (42_permutator) and the nine PRM commands. -/

namespace Sys2Proof.Machine

/-! ### The derived table -/

/-- A table entry, a value 0..255 (20_memory R72). -/
def entry (m : Mem) (i : Nat) : Nat := (readByte m i).toNat

/-- The `BPERM` index that step `k` of a cycle writes, under each reading of N3 (42_permutator R184 is reading `a`). -/
def rebuildIndex (rd : Config.RebuildReading) (randp : Mem) (s k : Nat) : Nat :=
  match rd with
  | .a => entry randp (s + k)
  | .b => s + k
  | .c => entry randp (s + k)

/-- The value that step `k` of a cycle writes: the entry `c` places further round the ring (42_permutator R184). -/
def rebuildValue (rd : Config.RebuildReading) (randp : Mem) (s n c k : Nat) : Byte :=
  match rd with
  | .a => readByte randp (s + (c + k) % n)
  | .b => readByte randp (s + (c + k) % n)
  | .c => readByte randp (entry randp (s + (c + k) % n))

/-- The writes of one cycle of 42_permutator R184, `k` = 0 .. n-1. -/
def rebuildCycle (rd : Config.RebuildReading) (randp : Mem) (s n c : Nat) (bperm : Mem) : Mem :=
  (List.range n).foldl (fun m k => writeByte m (rebuildIndex rd randp s k) (rebuildValue rd randp s n c k)) bperm

/-- `Rebuild(u)` (42_permutator R184), for the reading of the document's formula that Config fixes. -/
def rebuild (p : Perm) : Perm :=
  { p with
    bperm := (List.finRange 4).foldl
      (fun m j => rebuildCycle Config.rebuildReading p.randp p.start[j].toNat p.len[j].toNat p.cur[j].toNat m) p.bperm }

/-- `PermAdvance` (42_permutator R186): every cycle ticks, `CSTATE` ticks, the table is rebuilt. -/
def permAdvance (p : Perm) : Perm :=
  rebuild
    { p with
      cur := Vector.ofFn fun j : Fin 4 => BitVec.ofNat 8 ((p.cur[j].toNat + 1) % p.len[j].toNat)
      cstate := BitVec.ofNat 25 ((p.cstate.toNat + 1) % p.maxst.toNat) }

/-! ### The transforms -/

/-- The block with bit `BPERM[i]` set for every set bit `i` (42_permutator R187). -/
def permuteF (bperm : Mem) (b : List Byte) : List Byte :=
  (List.range Config.permEntries).foldl
    (fun r i => if blockBit b i then blockSetBit r (entry bperm i) else r) (List.replicate Config.blockBytes 0#8)

/-- The block with bit `i` set for every `i` whose `BPERM[i]` is a set bit (42_permutator R188). -/
def permuteG (bperm : Mem) (b : List Byte) : List Byte :=
  (List.range Config.permEntries).foldl
    (fun r i => if blockBit b (entry bperm i) then blockSetBit r i else r) (List.replicate Config.blockBytes 0#8)

/-- `PermF` (42_permutator R187): a short block passes unchanged, and the state advances for every length
(90_conflicts C1). -/
def permF (p : Perm) (b : List Byte) : Perm × List Byte :=
  (permAdvance p, if b.length = Config.blockBytes then permuteF p.bperm b else b)

/-- `PermG` (42_permutator R188). -/
def permG (p : Perm) (b : List Byte) : Perm × List Byte :=
  (permAdvance p, if b.length = Config.blockBytes then permuteG p.bperm b else b)

/-- `PermF` on unit `k` of the state. -/
def permTransformF (k : Fin 2) (s : State) (b : List Byte) : Except Trap (State × List Byte) :=
  .ok (setPerm k (permF (perm s k) b).1 s, (permF (perm s k) b).2)

/-- `PermG` on unit `k` of the state. -/
def permTransformG (k : Fin 2) (s : State) (b : List Byte) : Except Trap (State × List Byte) :=
  .ok (setPerm k (permG (perm s k) b).1 s, (permG (perm s k) b).2)

/-! ### Construction -/

/-- No value of the list stands in `seen` or twice in the list: the `seen` loop of 42_permutator R183. -/
def noRepeat (seen : BitVec 256) : List Byte → Bool
  | [] => true
  | b :: t => if seen.getLsbD b.toNat then false else noRepeat (seen ||| (1#256 <<< b.toNat)) t

/-- The checks of 42_permutator R183 on the lengths and the table. -/
def permParamsOk (len : Vector Word 4) (randp : List Byte) : Bool :=
  len.toList.all (fun l => l.toNat ≠ 0 && decide (l.toNat ≤ 256))
    && decide (len[0].toNat + len[1].toNat + len[2].toNat + len[3].toNat = Config.permEntries)
    && noRepeat 0#256 randp

/-- The sum of the lengths of the cycles before cycle `j`. -/
def cycleStart (len : Vector Word 4) (j : Fin 4) : Nat := ((len.toList.take j.val).map BitVec.toNat).sum

/-- The unit PRM.CONSTRUCT leaves (42_permutator R183). -/
def builtPerm (old : Perm) (len : Vector Word 4) (randp : List Byte) : Perm :=
  rebuild
    { len := Vector.ofFn fun j : Fin 4 => len[j].setWidth 9
      start := Vector.ofFn fun j : Fin 4 => BitVec.ofNat 8 (cycleStart len j)
      cur := Vector.replicate 4 0#8
      cstate := 0#25
      maxst := BitVec.ofNat 25 (len[0].toNat * len[1].toNat * len[2].toNat * len[3].toNat)
      valid := true
      randp := writeBytes old.randp 0 randp
      bperm := old.bperm }

/-- The steps of 42_permutator R183 on unit `k`, checks included; PRM.UPDATE runs exactly these (R194). -/
def constructPerm (k : Fin 2) (s : State) : Except Trap State :=
  let randp := staged s Config.permEntries
  if permParamsOk s.plen randp then
    .ok (renewed s (.perm k) (setPerm k (builtPerm (perm s k) s.plen randp) s))
  else .error ⟨.badPermParam, unitCode (.perm k)⟩

/-! ### Seek -/

/-- The unit a seek to `idx` leaves (42_permutator R190): `CSTATE` modulo `MAXST`, fanned into each cycle. -/
def permSeek (p : Perm) (idx : Nat) : Perm :=
  rebuild
    { p with
      cstate := BitVec.ofNat 25 (idx % p.maxst.toNat)
      cur := Vector.ofFn fun j : Fin 4 => BitVec.ofNat 8 (idx % p.maxst.toNat % p.len[j].toNat) }

/-- The seek of unit `k` to `WACC`. -/
def seekPerm (k : Fin 2) (s : State) : State := setPerm k (permSeek (perm s k) (wacc s)) s

/-! ### The commands -/

/-- PRM.CONSTRUCT (42_permutator R183). -/
def execPrmConstruct (u : UnitCode) (s : State) : Host.Outcome State Fault Refusal :=
  command (.prmConstruct u) s (onPerm u fun k => constructPerm k s)

/-- PRM.APPLYF (42_permutator R187). -/
def execPrmApplyf (u : UnitCode) (s : State) : Host.Outcome State Fault Refusal :=
  command (.prmApplyf u) s (onValidPerm u s fun k => directTransform (.perm k) s (permTransformF k))

/-- PRM.APPLYG (42_permutator R188). -/
def execPrmApplyg (u : UnitCode) (s : State) : Host.Outcome State Fault Refusal :=
  command (.prmApplyg u) s (onValidPerm u s fun k => directTransform (.perm k) s (permTransformG k))

/-- PRM.SETINDEX (42_permutator R190). -/
def execPrmSetindex (u : UnitCode) (s : State) : Host.Outcome State Fault Refusal :=
  command (.prmSetindex u) s (onValidPerm u s fun k => .ok (renewed s (.perm k) (seekPerm k s)))

/-- PRM.INDEX (42_permutator R192). -/
def execPrmIndex (u : UnitCode) (s : State) : Host.Outcome State Fault Refusal :=
  command (.prmIndex u) s (onValidPerm u s fun _ => .ok (setUntracked true s))

/-- PRM.UPDATE (42_permutator R194): the `VALID` check, then the steps of PRM.CONSTRUCT. -/
def execPrmUpdate (u : UnitCode) (s : State) : Host.Outcome State Fault Refusal :=
  command (.prmUpdate u) s (onValidPerm u s fun k => constructPerm k s)

/-- PRM.DUMP (42_permutator R196). -/
def execPrmDump (u : UnitCode) (s : State) : Host.Outcome State Fault Refusal :=
  command (.prmDump u) s (onValidPerm u s fun k =>
    let p := perm s k
    .ok { s with
      stg := writeBytes (writeBytes s.stg 0 (readBytes p.randp 0 Config.permEntries)) Config.permEntries
        (readBytes p.bperm 0 Config.permEntries)
      plen := Vector.ofFn fun j : Fin 4 => p.len[j].setWidth 64 })

/-- PRM.ADVANCE (42_permutator R186). -/
def execPrmAdvance (u : UnitCode) (s : State) : Host.Outcome State Fault Refusal :=
  command (.prmAdvance u) s (onValidPerm u s fun k =>
    .ok (mutated s (.perm k) (setPerm k (permAdvance (perm s k)) s)))

/-- PRM.REBUILD (42_permutator R185). -/
def execPrmRebuild (u : UnitCode) (s : State) : Host.Outcome State Fault Refusal :=
  command (.prmRebuild u) s (onValidPerm u s fun k =>
    .ok (mutated s (.perm k) (setPerm k (rebuild (perm s k)) s)))

end Sys2Proof.Machine
end

