-- ==== Sys2Proof/Machine/Rotor.lean ====
section
/-! DEFINITION. The rotor-advance engine (41_rotor) and the seven ROT commands. -/

namespace Sys2Proof.Machine

/-! ### The window and the transforms -/

/-- Eight buffer bits from bit `i` on, packed as 20_memory R76 says. -/
def windowByte (m : Mem) (i : Nat) : Byte :=
  BitVec.ofNat 8 ((List.range 8).map fun j => 2 ^ j * (bufBit m (i + j)).toNat).sum

/-- The window of `n` bytes at `CURRENT` (20_memory R76). -/
def window (r : Rotor) (n : Nat) : List Byte :=
  (List.range n).map fun k => windowByte r.buf (r.current.toNat + 8 * k)

/-- The addition of 41_rotor R154, byte by byte with carry; the carry out of the last byte is dropped. -/
def addCarry : List Byte → List Byte → Nat → List Byte
  | b :: bs, w :: ws, c =>
    BitVec.ofNat 8 (b.toNat + w.toNat + c) :: addCarry bs ws ((b.toNat + w.toNat + c) / 256)
  | [], _, _ => []
  | _ :: _, [], _ => []

/-- The subtraction of 41_rotor R156, byte by byte with borrow; the borrow out of the last byte is dropped. -/
def subBorrow : List Byte → List Byte → Nat → List Byte
  | b :: bs, w :: ws, c =>
    let d : Int := (b.toNat : Int) - (w.toNat : Int) - (c : Int)
    BitVec.ofInt 8 d :: subBorrow bs ws (if d < 0 then 1 else 0)
  | [], _, _ => []
  | _ :: _, [], _ => []

/-- `CURRENT <- (CURRENT + STEP) mod SIZE` (41_rotor R154). -/
def advanceRotor (r : Rotor) : Rotor :=
  { r with current := BitVec.ofNat 12 ((r.current.toNat + r.step.toNat) % r.size.toNat) }

/-- `RotorF` (41_rotor R154): the window is read before `CURRENT` moves. -/
def rotorF (r : Rotor) (b : List Byte) : Rotor × List Byte := (advanceRotor r, addCarry b (window r b.length) 0)

/-- `RotorG` (41_rotor R156). -/
def rotorG (r : Rotor) (b : List Byte) : Rotor × List Byte := (advanceRotor r, subBorrow b (window r b.length) 0)

/-- `RotorF` on unit `k` of the state. -/
def rotorTransformF (k : Fin 6) (s : State) (b : List Byte) : Except Trap (State × List Byte) :=
  .ok (setRotor k (rotorF (rotor s k) b).1 s, (rotorF (rotor s k) b).2)

/-- `RotorG` on unit `k` of the state. -/
def rotorTransformG (k : Fin 6) (s : State) (b : List Byte) : Except Trap (State × List Byte) :=
  .ok (setRotor k (rotorG (rotor s k) b).1 s, (rotorG (rotor s k) b).2)

/-! ### Construction -/

/-- The checks of 41_rotor R152 on `size`, `start`, `step`. -/
def rotorParamsOk (size start step : Nat) : Bool :=
  decide (Config.sizeMin ≤ size ∧ size ≤ Config.sizeMax ∧ start < size ∧ step ≠ 0 ∧ step < size)

/-- `ceil(size / 8)`, the bytes of rotor data (20_memory R71). -/
def dataBytes (size : Nat) : Nat := (size + 7) / 8

/-- The mirror: bit `size + i` becomes bit `i`, for `i` in `[0, 256)` (41_rotor R152). -/
def mirror (size : Nat) (m : Mem) : Mem :=
  (List.range Config.mirrorBits).foldl (fun m i => putBit m (size + i) (bufBit m i)) m

/-- The buffer 41_rotor R152 leaves: the data bytes, 32 zero bytes after them, then the mirror. -/
def rotorBuffer (old : Mem) (size : Nat) (data : List Byte) : Mem :=
  mirror size
    (writeBytes (writeBytes old 0 data) (dataBytes size) (List.replicate Config.padBytes 0#8))

/-- The unit ROT.CONSTRUCT leaves (41_rotor R152). -/
def builtRotor (old : Rotor) (size start step : Nat) (data : List Byte) : Rotor :=
  { size := BitVec.ofNat 12 size, start := BitVec.ofNat 12 start, step := BitVec.ofNat 12 step,
    current := BitVec.ofNat 12 start, valid := true, buf := rotorBuffer old.buf size data }

/-- The steps of 41_rotor R152 on unit `k`, checks included; ROT.UPDATE runs exactly these (R160). -/
def constructRotor (k : Fin 6) (s : State) : Except Trap State :=
  let size := s.psize.toNat
  let start := s.pstart.toNat
  let step := s.pstep.toNat
  if rotorParamsOk size start step then
    .ok (renewed s (.rotor k)
      (setRotor k (builtRotor (rotor s k) size start step (staged s (dataBytes size))) s))
  else .error ⟨.badRotorParam, unitCode (.rotor k)⟩

/-! ### Seek -/

/-- The `CURRENT` a seek to `idx` gives (41_rotor R158): multiply, add, then modulo, each in 128 bits. -/
def rotorSeek (r : Rotor) (idx : Nat) : Except Cause (BitVec 12) :=
  if idx = 0 then .ok r.start
  else if idx * r.step.toNat ≥ Config.wideLimit then .error .wcMulOverflow
  else if idx * r.step.toNat + r.start.toNat ≥ Config.wideLimit then .error .wcAddOverflow
  else .ok (BitVec.ofNat 12 ((idx * r.step.toNat + r.start.toNat) % r.size.toNat))

/-- The seek of unit `k` to `WACC`. An overflow that comes from undefined state of the unit is no fault and leaves that
state as it is (46_pipeline R319, 92_eei_decisions D33). -/
def seekRotor (k : Fin 6) (s : State) : Except Trap State :=
  match rotorSeek (rotor s k) (wacc s) with
  | .error c => if unsettled s (.rotor k) then .ok s else .error ⟨c, unitCode (.rotor k)⟩
  | .ok cur => .ok (setRotor k { rotor s k with current := cur } s)

/-! ### The commands -/

/-- ROT.CONSTRUCT (41_rotor R152). -/
def execRotConstruct (u : UnitCode) (s : State) : Host.Outcome State Fault Refusal :=
  command (.rotConstruct u) s (onRotor u fun k => constructRotor k s)

/-- ROT.APPLYF (41_rotor R154). -/
def execRotApplyf (u : UnitCode) (s : State) : Host.Outcome State Fault Refusal :=
  command (.rotApplyf u) s (onValidRotor u s fun k => directTransform (.rotor k) s (rotorTransformF k))

/-- ROT.APPLYG (41_rotor R156). -/
def execRotApplyg (u : UnitCode) (s : State) : Host.Outcome State Fault Refusal :=
  command (.rotApplyg u) s (onValidRotor u s fun k => directTransform (.rotor k) s (rotorTransformG k))

/-- ROT.SETINDEX (41_rotor R158). -/
def execRotSetindex (u : UnitCode) (s : State) : Host.Outcome State Fault Refusal :=
  command (.rotSetindex u) s (onValidRotor u s fun k =>
    match seekRotor k s with
    | .error e => .error e
    | .ok t => .ok (renewed s (.rotor k) t))

/-- ROT.INDEX (41_rotor R159): a rotor reports no position. -/
def execRotIndex (u : UnitCode) (s : State) : Host.Outcome State Fault Refusal :=
  command (.rotIndex u) s (onValidRotor u s fun _ => .ok (setUntracked true s))

/-- ROT.UPDATE (41_rotor R160): the `VALID` check, then the steps of ROT.CONSTRUCT. -/
def execRotUpdate (u : UnitCode) (s : State) : Host.Outcome State Fault Refusal :=
  command (.rotUpdate u) s (onValidRotor u s fun k => constructRotor k s)

/-- ROT.DUMP (41_rotor R162). -/
def execRotDump (u : UnitCode) (s : State) : Host.Outcome State Fault Refusal :=
  command (.rotDump u) s (onValidRotor u s fun k =>
    let r := rotor s k
    .ok { s with
      stg := writeBytes s.stg 0 (readBytes r.buf 0 (dataBytes r.size.toNat + Config.padBytes))
      psize := r.size.setWidth 64
      pstart := r.start.setWidth 64
      pstep := r.step.setWidth 64 })

end Sys2Proof.Machine
end

