-- ==== Sys2Proof/Machine/Engine.lean ====
section
/-! DEFINITION. The system and engine commands (46_pipeline R303, R315 to R318, R320). -/

namespace Sys2Proof.Machine

/-- The direction a code names (46_pipeline R316, 10_state R27). -/
def dirOfCode (d : Byte) : Option Dir :=
  if d = 1#8 then some .encrypt else if d = 2#8 then some .decrypt else none

/-- `BIND[p]` of the pipeline ENG.BUILD starts (46_pipeline R303): the stored order, or its reverse for decryption. -/
def boundUnit (s : State) (p : Nat) : UnitCode :=
  if p < s.nst.toNat then
    (match s.dir with
     | .decrypt => orderEntry s (s.nst.toNat - 1 - p)
     | .encrypt => orderEntry s p
     | .none => orderEntry s p)
  else 0#4

/-- The engine state a build leaves (46_pipeline R301, R303). -/
def builtState : Dir → EState
  | .decrypt => .decBuilt
  | .encrypt => .encBuilt
  | .none => .encBuilt

/-- What ENG.BUILD writes once its checks have passed (46_pipeline R303). A new build also ends the undefined data of R319; an
undefined unit stays so. -/
def buildPipeline (s : State) : State :=
  { s with
    nb := s.nst
    bdir := s.dir
    binding := Vector.ofFn fun p : Fin 9 => boundUnit s p.val
    workers := Vector.ofFn fun p : Fin 9 =>
      { worker s p with st := if p.val < s.nst.toNat then .wait else .off }
    slots := Vector.ofFn fun k : Fin 10 => { slot s k with v := false }
    closing := false
    estate := builtState s.dir
    tainted := Vector.replicate 9 false }

/-- The seek of one unit to `WACC` (46_pipeline R317). -/
def seekUnit (u : UnitId) (s : State) : Except Trap State :=
  match u with
  | .rotor k => seekRotor k s
  | .perm k => .ok (seekPerm k s)
  | .counter => .ok (seekCounter s)

/-- The seeks of a stage list in order, all or nothing: the first rotor that overflows decides the fault and no state is
answered (46_pipeline R317). `before` is the state the command began in, which decides R319 for each unit. -/
def seekAll (before : State) (s : State) : List UnitId → Except Trap State
  | [] => .ok s
  | u :: rest =>
    match seekUnit u s with
    | .error e => .error e
    | .ok t => seekAll before (renewed before u t) rest

/-- NOP (46_pipeline R320). -/
def execNop (s : State) : Host.Outcome State Fault Refusal := command .nop s (.ok s)

/-- ENG.INIT (46_pipeline R315). -/
def execEngInit (s : State) : Host.Outcome State Fault Refusal :=
  command .engInit s (.ok { s with estate := .initialized })

/-- ENG.SETDIR (46_pipeline R316). -/
def execEngSetdir (d : Byte) (s : State) : Host.Outcome State Fault Refusal :=
  command (.engSetdir d) s
    (match dirOfCode d with
     | none => .error ⟨.badDirection, noUnit⟩
     | some x => .ok { s with dir := x })

/-- ENG.BUILD (46_pipeline R303). -/
def execEngBuild (s : State) : Host.Outcome State Fault Refusal :=
  command .engBuild s
    (if s.nst = 0#4 then .error ⟨.emptyStageList, noUnit⟩
     else
       match checkOrder s with
       | .error e => .error e
       | .ok _ => if s.dir = .none then .error ⟨.badDirection, noUnit⟩ else .ok (buildPipeline s))

/-- ENG.SETINDEX (46_pipeline R317). -/
def execEngSetindex (s : State) : Host.Outcome State Fault Refusal :=
  command .engSetindex s
    (match checkOrder s with
     | .error e => .error e
     | .ok units => seekAll s s units)

/-- ENG.INDEX (46_pipeline R318). -/
def execEngIndex (s : State) : Host.Outcome State Fault Refusal :=
  command .engIndex s
    (match checkOrder s with
     | .error e => .error e
     | .ok units =>
       if UnitId.counter ∈ units then .ok (setUntracked false (setWacc s.idx.toNat s))
       else .ok (setUntracked true s))

end Sys2Proof.Machine
end

