-- ==== Sys2Proof/Machine/WideCounter.lean ====
section
/-! DEFINITION. The wide-counter arithmetic unit (44_wide_counter) and the ten WC commands. Every result is computed on
unbounded numbers and narrowed at the end (00_scope R10). -/

namespace Sys2Proof.Machine

/-- The u64 operand `WOP` (10_state R33). -/
def wopVal (s : State) : Nat := s.wop.toNat

/-- A WCU fault names no unit (60_exceptions R353). -/
def wcTrap (c : Cause) : Except Trap State := .error ⟨c, noUnit⟩

/-! ### Decimal strings -/

/-- A decimal digit (44_wide_counter R260). -/
def isDigit (ch : Byte) : Bool := decide (0x30 ≤ ch.toNat ∧ ch.toNat ≤ 0x39)

/-- The scan of WC.PARSE (44_wide_counter R262), most significant digit first, the checks in string order. -/
def parseDigits (acc : Nat) : List Byte → Except Cause Nat
  | [] => .ok acc
  | ch :: t =>
    if isDigit ch then
      if acc * 10 ≥ Config.wideLimit then .error .wcMulOverflow
      else if acc * 10 + (ch.toNat - 0x30) ≥ Config.wideLimit then .error .wcAddOverflow
      else parseDigits (acc * 10 + (ch.toNat - 0x30)) t
    else .error .wcParse

/-- The digits of `x`, least significant first, at most `fuel` of them (44_wide_counter R266). -/
def digitsLow : Nat → Nat → List Nat
  | 0, _ => []
  | fuel + 1, x => if x = 0 then [] else x % 10 :: digitsLow fuel (x / 10)

/-- The characters of WC.TOSTR, most significant first (44_wide_counter R266); 39 digits hold every 128-bit value. -/
def decimalString (x : Nat) : List Byte :=
  if x = 0 then [0x30#8] else (digitsLow 39 x).reverse.map fun d => BitVec.ofNat 8 (0x30 + d)

/-! ### The commands -/

/-- WC.ADD (44_wide_counter R240). -/
def execWcAdd (s : State) : Host.Outcome State Fault Refusal :=
  command .wcAdd s
    (if wacc s + wopVal s ≥ Config.wideLimit then wcTrap .wcAddOverflow else .ok (setWacc (wacc s + wopVal s) s))

/-- WC.SUB (44_wide_counter R242). -/
def execWcSub (s : State) : Host.Outcome State Fault Refusal :=
  command .wcSub s
    (if wacc s < wopVal s then wcTrap .wcSubUnderflow else .ok (setWacc (wacc s - wopVal s) s))

/-- WC.MUL (44_wide_counter R244). -/
def execWcMul (s : State) : Host.Outcome State Fault Refusal :=
  command .wcMul s
    (if wacc s * wopVal s ≥ Config.wideLimit then wcTrap .wcMulOverflow else .ok (setWacc (wacc s * wopVal s) s))

/-- WC.DIV (44_wide_counter R246, R248). -/
def execWcDiv (s : State) : Host.Outcome State Fault Refusal :=
  command .wcDiv s
    (if wopVal s = 0 then wcTrap .wcDivZero else .ok (setWacc (wacc s / wopVal s) s))

/-- WC.DIVMOD (44_wide_counter R246, R250). -/
def execWcDivmod (s : State) : Host.Outcome State Fault Refusal :=
  command .wcDivmod s
    (if wopVal s = 0 then wcTrap .wcDivZero
     else .ok { setWacc (wacc s / wopVal s) s with wrem := BitVec.ofNat 64 (wacc s % wopVal s) })

/-- WC.MOD (44_wide_counter R246, R252). -/
def execWcMod (s : State) : Host.Outcome State Fault Refusal :=
  command .wcMod s
    (if wopVal s = 0 then wcTrap .wcDivZero
     else .ok { s with wrem := BitVec.ofNat 64 (wacc s % wopVal s) })

/-- WC.INC (44_wide_counter R254). -/
def execWcInc (s : State) : Host.Outcome State Fault Refusal :=
  command .wcInc s
    (match wideInc (wacc s) with
     | .error c => wcTrap c
     | .ok v => .ok (setWacc v s))

/-- WC.ISZERO (44_wide_counter R256). -/
def execWcIszero (s : State) : Host.Outcome State Fault Refusal :=
  command .wcIszero s (.ok (setFlagZ (decide (wacc s = 0)) s))

/-- WC.PARSE (44_wide_counter R262). -/
def execWcParse (s : State) : Host.Outcome State Fault Refusal :=
  command .wcParse s
    (if s.wstrLen.toNat = 0 ∨ s.wstrLen.toNat > Config.strCap then wcTrap .wcParse
     else
       match parseDigits 0 (wstrBytes s s.wstrLen.toNat) with
       | .error c => wcTrap c
       | .ok v => .ok (setWacc v s))

/-- WC.TOSTR (44_wide_counter R266): the string, then zero bytes up to byte 63. -/
def execWcTostr (s : State) : Host.Outcome State Fault Refusal :=
  command .wcTostr s
    (let str := decimalString (wacc s)
     .ok { s with
       wstr := writeBytes s.wstr 0 (str ++ List.replicate (Config.strCap - str.length) 0#8)
       wstrLen := BitVec.ofNat 7 str.length })

end Sys2Proof.Machine
end

