-- ==== Sys2Proof/Machine/Dispatch.lean ====
section
/-! DEFINITION. Which meaning each command has. -/

namespace Sys2Proof.Machine

def exec (i : Instr) (s : State) : Host.Outcome State Fault Refusal :=
  match i with
  | .nop => Sys2Proof.Machine.execNop s
  | .engInit => Sys2Proof.Machine.execEngInit s
  | .engSetdir d => Sys2Proof.Machine.execEngSetdir d s
  | .engBuild => Sys2Proof.Machine.execEngBuild s
  | .engSetindex => Sys2Proof.Machine.execEngSetindex s
  | .engIndex => Sys2Proof.Machine.execEngIndex s
  | .wcAdd => Sys2Proof.Machine.execWcAdd s
  | .wcSub => Sys2Proof.Machine.execWcSub s
  | .wcMul => Sys2Proof.Machine.execWcMul s
  | .wcDiv => Sys2Proof.Machine.execWcDiv s
  | .wcDivmod => Sys2Proof.Machine.execWcDivmod s
  | .wcMod => Sys2Proof.Machine.execWcMod s
  | .wcInc => Sys2Proof.Machine.execWcInc s
  | .wcIszero => Sys2Proof.Machine.execWcIszero s
  | .wcParse => Sys2Proof.Machine.execWcParse s
  | .wcTostr => Sys2Proof.Machine.execWcTostr s
  | .rotConstruct u => Sys2Proof.Machine.execRotConstruct u s
  | .rotApplyf u => Sys2Proof.Machine.execRotApplyf u s
  | .rotApplyg u => Sys2Proof.Machine.execRotApplyg u s
  | .rotSetindex u => Sys2Proof.Machine.execRotSetindex u s
  | .rotIndex u => Sys2Proof.Machine.execRotIndex u s
  | .rotUpdate u => Sys2Proof.Machine.execRotUpdate u s
  | .rotDump u => Sys2Proof.Machine.execRotDump u s
  | .prmConstruct u => Sys2Proof.Machine.execPrmConstruct u s
  | .prmApplyf u => Sys2Proof.Machine.execPrmApplyf u s
  | .prmApplyg u => Sys2Proof.Machine.execPrmApplyg u s
  | .prmSetindex u => Sys2Proof.Machine.execPrmSetindex u s
  | .prmIndex u => Sys2Proof.Machine.execPrmIndex u s
  | .prmUpdate u => Sys2Proof.Machine.execPrmUpdate u s
  | .prmDump u => Sys2Proof.Machine.execPrmDump u s
  | .prmAdvance u => Sys2Proof.Machine.execPrmAdvance u s
  | .prmRebuild u => Sys2Proof.Machine.execPrmRebuild u s
  | .ctrReset => Sys2Proof.Machine.execCtrReset s
  | .ctrApplyf => Sys2Proof.Machine.execCtrApplyf s
  | .ctrApplyg => Sys2Proof.Machine.execCtrApplyg s
  | .ctrSetindex => Sys2Proof.Machine.execCtrSetindex s
  | .ctrIndex => Sys2Proof.Machine.execCtrIndex s
  | .ctrUpdate => Sys2Proof.Machine.execCtrUpdate s
  | .bitGet n => Sys2Proof.Machine.execBitGet n s
  | .bitSet n => Sys2Proof.Machine.execBitSet n s
  | .bitClr n => Sys2Proof.Machine.execBitClr n s

end Sys2Proof.Machine
end

