-- ==== Sys2Proof/Machine/Pipeline.lean ====
section
/-! DEFINITION. The pipeline-stage arbiter: the transforms a unit id stands for (46_pipeline R304), the two worker steps
(R307, R308) and the two stream actions (R310 to R314). -/

namespace Sys2Proof.Machine

/-- The F transform of a unit (46_pipeline R304). -/
def unitTransformF : UnitId → State → List Byte → Except Trap (State × List Byte)
  | .rotor k => rotorTransformF k
  | .perm k => permTransformF k
  | .counter => counterTransformF

/-- The G transform of a unit (46_pipeline R304). -/
def unitTransformG : UnitId → State → List Byte → Except Trap (State × List Byte)
  | .rotor k => rotorTransformG k
  | .perm k => permTransformG k
  | .counter => counterTransformG

/-! ### The worker steps -/

/-- Slot `Q[p]`, the left one of worker `W[p]` (10_state R49). -/
def leftSlot (p : Fin 9) : Fin 10 := ⟨p.val, by omega⟩

/-- Slot `Q[p+1]`, the right one of worker `W[p]`. -/
def rightSlot (p : Fin 9) : Fin 10 := ⟨p.val + 1, by omega⟩

/-- The block a slot holds (10_state R49). -/
def slotBlock (q : Slot) : List Byte := readBytes q.data 0 q.len.toNat

/-- Step 1 is enabled (46_pipeline R307). -/
def receiveEnabled (s : State) (p : Fin 9) : Bool :=
  !s.faulted && (worker s p).st == .wait && (slot s (leftSlot p)).v

/-- Step 2 is enabled (46_pipeline R308). -/
def sendEnabled (s : State) (p : Fin 9) : Bool :=
  !s.faulted && (worker s p).st == .hold && slotRoom (slot s (rightSlot p))

/-- The writes that end step 1: the slot is emptied and the worker holds the block (46_pipeline R307). -/
def takeBlock (p : Fin 9) (r : List Byte) (last : Bool) (s : State) : State :=
  let w := worker s p
  setWorker p { st := .hold, hlen := BitVec.ofNat 6 r.length, hdata := writeBytes w.hdata 0 r, last := last }
    (setSlot (leftSlot p) { slot s (leftSlot p) with v := false } s)

/-- The fault of a worker (46_pipeline R307, 60_exceptions R353). -/
def workerFault (p : Fin 9) (e : Trap) (s : State) : State :=
  raiseFault .worker e (BitVec.ofNat 4 p.val) 0#64 s

/-- The transform of worker `W[p]`: that of unit `BIND[p]` in the built direction, with undefined results where an earlier
breach of R319 leaves them open (46_pipeline R304, R319). None where `BIND[p]` names no unit or no direction was built, which no run reaches
(log 13). -/
def workerTransform (p : Fin 9) (s : State) (b : List Byte) : Option (Except Trap (State × List Byte)) :=
  match unitOfCode s.binding[p], s.bdir with
  | some u, .encrypt => some (transformBlock u (unitTransformF u) s b)
  | some u, .decrypt => some (transformBlock u (unitTransformG u) s b)
  | some _, .none => none
  | none, _ => none

/-- Worker step 1, receive and transform (46_pipeline R307). The sentinel is passed on without a transform. -/
def workerReceive (p : Fin 9) (s : State) : Host.Outcome State Fault Refusal :=
  let q := slot s (leftSlot p)
  if q.len = 0#6 then .next (takeBlock p [] true s)
  else
    match workerTransform p s (slotBlock q) with
    | none => .fault .unboundWorker
    | some (.error e) => .next (workerFault p e s)
    | some (.ok (t, r)) => .next (takeBlock p r false t)

/-- Worker step 2, send (46_pipeline R308). -/
def workerSend (p : Fin 9) (s : State) : State :=
  let w := worker s p
  let q := slot s (rightSlot p)
  setWorker p { w with st := if w.last then .off else .wait }
    (setSlot (rightSlot p)
      { v := true, len := w.hlen, data := writeBytes q.data 0 (readBytes w.hdata 0 w.hlen.toNat) } s)

/-- One turn of worker `W[p]`: its enabled step, or nothing where none is enabled (46_pipeline R307 to R309; log 4). -/
def workerTurn (p : Fin 9) (s : State) : Host.Outcome State Fault Refusal :=
  if receiveEnabled s p then workerReceive p s
  else if sendEnabled s p then .next (workerSend p s)
  else .next s

/-! ### The stream actions -/

/-- The effect of a `PUSH` that happens (46_pipeline R312). -/
def pushBlock (bytes : List Byte) (s : State) : State :=
  setSlot 0 { v := true, len := BitVec.ofNat 6 bytes.length, data := writeBytes (slot s 0).data 0 bytes }
    { s with closing := s.closing || bytes.isEmpty }

/-- A pushed length above 32 (46_pipeline R311). -/
def pushFault (bytes : List Byte) (s : State) : State :=
  raiseFault .streamPort ⟨.badBlockLen, noUnit⟩ 0#4 ((BitVec.ofNat 8 bytes.length).setWidth 64) s

/-- The effect of a `POP` at slot `k` = `Q[NB]` (46_pipeline R314): the block goes to the host, and the sentinel ends the
pipeline. -/
def popBlock (k : Fin 10) (s : State) : State :=
  let q := slot s k
  let t := setSlot k { q with v := false } { s with replies := s.replies ++ [.block (slotBlock q)] }
  if q.len = 0#6 then { t with estate := .closed, closing := false } else t

end Sys2Proof.Machine
end

