-- ==== Sys2Proof/Machine/RegPort.lean ====
section
/-! DEFINITION. The register port: the register map (10_state R24 to R48, R56) and the `WR` and `RD` actions
(60_exceptions R355, R367). -/

namespace Sys2Proof.Machine

/-- The read-back registers of a rotor unit (10_state R41). -/
inductive RotorField where
  | size
  | start
  | step
  | current
  | valid
deriving DecidableEq, Repr

/-- The read-back registers of a permutator unit (10_state R46). -/
inductive PermField where
  | len (j : Fin 4)
  | cur (j : Fin 4)
  | start (j : Fin 4)
  | cstate
  | maxst
  | valid
deriving DecidableEq, Repr

/-- The implemented registers (10_state R56). -/
inductive Reg where
  | id
  | status
  | fault
  | fcmd
  | nst
  | order
  | builtCfg
  | wstat
  | waccLo
  | waccHi
  | wop
  | wrem
  | wstrLen
  | wstr (k : Fin 8)
  | blk (k : Fin 4)
  | blkLen
  | psize
  | pstart
  | pstep
  | plen (j : Fin 4)
  | stg (k : Fin 128)
  | rotor (u : Fin 6) (f : RotorField)
  | perm (u : Fin 2) (f : PermField)
  | cidxLo
  | cidxHi
deriving DecidableEq, Repr

/-- Field `k` of a rotor's register group (10_state R41). -/
def rotorFieldOf (k : Nat) : Option RotorField :=
  match k with
  | 0 => some .size
  | 1 => some .start
  | 2 => some .step
  | 3 => some .current
  | 4 => some .valid
  | _ => none

/-- Field `k` of a permutator's register group (10_state R46). -/
def permFieldOf (k : Nat) : Option PermField :=
  match k with
  | 0 => some (.len 0)
  | 1 => some (.len 1)
  | 2 => some (.len 2)
  | 3 => some (.len 3)
  | 4 => some (.cur 0)
  | 5 => some (.cur 1)
  | 6 => some (.cur 2)
  | 7 => some (.cur 3)
  | 8 => some (.start 0)
  | 9 => some (.start 1)
  | 10 => some (.start 2)
  | 11 => some (.start 3)
  | 12 => some .cstate
  | 13 => some .maxst
  | 14 => some .valid
  | _ => none

/-- The registers with a number of their own below `0x040` (10_state R56). -/
def singleRegOf (a : Nat) : Option Reg :=
  match a with
  | 0x000 => some .id
  | 0x001 => some .status
  | 0x002 => some .fault
  | 0x003 => some .fcmd
  | 0x004 => some .nst
  | 0x005 => some .order
  | 0x006 => some .builtCfg
  | 0x007 => some .wstat
  | 0x010 => some .waccLo
  | 0x011 => some .waccHi
  | 0x012 => some .wop
  | 0x013 => some .wrem
  | 0x014 => some .wstrLen
  | 0x024 => some .blkLen
  | 0x030 => some .psize
  | 0x031 => some .pstart
  | 0x032 => some .pstep
  | _ => none

/-- The register with number `a`; none where no register is implemented (10_state R56). -/
def regOf (a : Nat) : Option Reg :=
  if h : 0x018 ≤ a ∧ a - 0x018 < 8 then some (.wstr ⟨a - 0x018, h.2⟩)
  else if h : 0x020 ≤ a ∧ a - 0x020 < 4 then some (.blk ⟨a - 0x020, h.2⟩)
  else if h : 0x034 ≤ a ∧ a - 0x034 < 4 then some (.plen ⟨a - 0x034, h.2⟩)
  else if h : 0x100 ≤ a ∧ a - 0x100 < 128 then some (.stg ⟨a - 0x100, h.2⟩)
  else if h : 0x200 ≤ a ∧ (a - 0x200) / 16 < 6 then
    (rotorFieldOf (a % 16)).map (.rotor ⟨(a - 0x200) / 16, h.2⟩)
  else if h : 0x260 ≤ a ∧ (a - 0x260) / 16 < 2 then
    (permFieldOf (a % 16)).map (.perm ⟨(a - 0x260) / 16, h.2⟩)
  else if a = 0x280 then some .cidxLo
  else if a = 0x281 then some .cidxHi
  else singleRegOf a

/-- The value of a rotor's register: the first four read 0 while the unit is not valid (10_state R41). -/
def rotorReg (r : Rotor) : RotorField → Word
  | .size => if r.valid then r.size.setWidth 64 else 0
  | .start => if r.valid then r.start.setWidth 64 else 0
  | .step => if r.valid then r.step.setWidth 64 else 0
  | .current => if r.valid then r.current.setWidth 64 else 0
  | .valid => BitVec.ofNat 64 r.valid.toNat

/-- The value of a permutator's register: the first fourteen read 0 while the unit is not valid (10_state R46). -/
def permReg (p : Perm) : PermField → Word
  | .len j => if p.valid then p.len[j].setWidth 64 else 0
  | .cur j => if p.valid then p.cur[j].setWidth 64 else 0
  | .start j => if p.valid then p.start[j].setWidth 64 else 0
  | .cstate => if p.valid then p.cstate.setWidth 64 else 0
  | .maxst => if p.valid then p.maxst.setWidth 64 else 0
  | .valid => BitVec.ofNat 64 p.valid.toNat

/-- The value of a register (10_state R24 to R48); a narrow one reads with zero bits above its width (R22). -/
def readReg (s : State) (r : Reg) : Word :=
  match r with
  | .id => Config.idValue
  | .status => statusWord s
  | .fault => faultWord s.fault
  | .fcmd => s.fcmd
  | .nst => s.nst.setWidth 64
  | .order => s.order.setWidth 64
  | .builtCfg => builtCfgWord s
  | .wstat => wstatWord s
  | .waccLo => s.waccLo
  | .waccHi => s.waccHi
  | .wop => s.wop
  | .wrem => s.wrem
  | .wstrLen => s.wstrLen.setWidth 64
  | .wstr k => wordAt s.wstr k.val
  | .blk k => wordAt s.blk k.val
  | .blkLen => s.blkLen.setWidth 64
  | .psize => s.psize
  | .pstart => s.pstart
  | .pstep => s.pstep
  | .plen j => s.plen[j]
  | .stg k => wordAt s.stg k.val
  | .rotor u f => rotorReg (rotor s u) f
  | .perm u f => permReg (perm s u) f
  | .cidxLo => s.idx.extractLsb' 0 64
  | .cidxHi => s.idx.extractLsb' 64 64

/-- The state after a write of `v` to a register; none where it is read-only (10_state R56). A narrow register keeps the low
bits (R22). -/
def writeReg (s : State) (r : Reg) (v : Word) : Option State :=
  match r with
  | .nst => some { s with nst := v.setWidth 4 }
  | .order => some { s with order := v.setWidth 36 }
  | .waccLo => some { s with waccLo := v }
  | .waccHi => some { s with waccHi := v }
  | .wop => some { s with wop := v }
  | .wstrLen => some { s with wstrLen := v.setWidth 7 }
  | .wstr k => some { s with wstr := setWordAt s.wstr k.val v }
  | .blk k => some { s with blk := setWordAt s.blk k.val v }
  | .blkLen => some { s with blkLen := v.setWidth 6 }
  | .psize => some { s with psize := v }
  | .pstart => some { s with pstart := v }
  | .pstep => some { s with pstep := v }
  | .plen j => some { s with plen := s.plen.set j v }
  | .stg k => some { s with stg := setWordAt s.stg k.val v }
  | .id | .status | .fault | .fcmd | .builtCfg | .wstat | .wrem | .cidxLo | .cidxHi => none
  | .rotor _ _ | .perm _ _ => none

/-- A bad register access (60_exceptions R367). -/
def registerFault (a : RegNum) (s : State) : State :=
  raiseFault .registerPort ⟨.illegalRegister, noUnit⟩ 0#4 (a.setWidth 64) s

/-- `WR(a, v)` (60_exceptions R367); ignored while faulted (R355). -/
def hostWrite (a : RegNum) (v : Word) (s : State) : State :=
  if s.faulted then s
  else
    match regOf a.toNat with
    | none => registerFault a s
    | some r =>
      match writeReg s r v with
      | some t => t
      | none => registerFault a s

/-- `RD(a)` (60_exceptions R367): a register that is not implemented returns 0 and, unless the block is faulted (R355), raises
the fault. -/
def hostRead (a : RegNum) (s : State) : State :=
  match regOf a.toNat with
  | some r => { s with replies := s.replies ++ [.value (readReg s r)] }
  | none => registerFault a { s with replies := s.replies ++ [.value 0#64] }

end Sys2Proof.Machine
end

