-- ==== Sys2Proof/Machine/HostPort.lean ====
section
/-! DEFINITION. One turn of the host: its oldest pending action (30_encoding R100), with decoding of a command word (R103),
blocking at the stream ports (46_pipeline R310, R313) and giving up a blocked port for a reset (70_reset R390). -/

namespace Sys2Proof.Machine

/-- `CMD(w)` (30_encoding R103): a word that is no command raises `ILLEGAL_COMMAND`, unless the block is faulted; any other runs. -/
def runCommand (w : Cmd) (s : State) : Host.Outcome State Fault Refusal :=
  match decode w with
  | .error e => .next (raiseFault .executor ⟨.illegalCommand, e.unit⟩ 0#4 (w.setWidth 64) s)
  | .ok i => exec i s

/-- The host is blocked at a stream port by this action (46_pipeline R310, R313): the action does not happen. A `PUSH` of
more than 32 bytes never blocks (R311). -/
def actionBlocked (s : State) : HostAction → Bool
  | .push bytes => decide (bytes.length ≤ Config.blockBytes) && !inReady s
  | .pop => !outValid s
  | .wr _ _ => false
  | .rd _ => false
  | .cmd _ => false
  | .reset => false

/-- The effect of a host action that happens. A `POP` whose slot does not exist is blocked, not performed. -/
def performAction (x : HostAction) (s : State) : Host.Outcome State Fault Refusal :=
  match x with
  | .wr a v => .next (hostWrite a v s)
  | .rd a => .next (hostRead a s)
  | .cmd w => runCommand w s
  | .push bytes =>
    if bytes.length ≤ Config.blockBytes then .next (pushBlock bytes s) else .next (pushFault bytes s)
  | .pop =>
    match outSlot s with
    | some k => .next (popBlock k s)
    | none => .next s
  | .reset => .next (resetBlock s)

/-- One turn of the host: the oldest pending action happens and is used up; with none pending, or blocked at a port, nothing
happens (log 2, log 4). -/
def hostTurn (s : State) : Host.Outcome State Fault Refusal :=
  match s.hostq with
  | [] => .next s
  | x :: rest => if actionBlocked s x then .next s else performAction x { s with hostq := rest }

/-- The host gives up: blocked at a port, with a `RESET` as its next action, it performs that reset and the blocked action never
happens (70_reset R390; log 5). -/
def hostResetTurn (s : State) : Host.Outcome State Fault Refusal :=
  match s.hostq with
  | x :: .reset :: rest => if actionBlocked s x then .next (resetBlock { s with hostq := rest }) else .next s
  | _ => .next s

/-- The turn a free pick stands for (70_reset R410; log 1). -/
def turnOfPick (n : Nat) : Turn :=
  if h : n % 11 < 9 then .worker ⟨n % 11, h⟩ else if n % 11 = 9 then .host else .hostReset

/-- A round of turns: any finite list, then one turn for each worker the list leaves out. The list is free, so nothing bounds how
long an enabled worker waits; but every worker's turn comes in every round, which is the weak fairness of 70_reset R410 (log 1). -/
def fairRound (picks : List Nat) : List Turn :=
  picks.map turnOfPick ++ ((List.finRange 9).map Turn.worker).filter fun t => t ∉ picks.map turnOfPick

/-- The state with a coming turn listed: where none is, a free round is drawn (70_reset R410; log 1). -/
def drawRound (s : State) : State :=
  match s.sched with
  | _ :: _ => s
  | [] => { s with sched := fairRound (Config.freePicks s.draws), draws := s.draws + 1 }

/-- Whose turn it is: the first of the coming turns (70_reset R410; log 1). No round is empty, so the second case never
happens. -/
def nextTurn (s : State) : Turn × State :=
  match (drawRound s).sched with
  | t :: rest => (t, { drawRound s with sched := rest })
  | [] => (.host, drawRound s)

/-- The step of the agent whose turn it is. -/
def takeTurn (t : Turn) (s : State) : Host.Outcome State Fault Refusal :=
  match t with
  | .host => hostTurn s
  | .worker p => workerTurn p s
  | .hostReset => hostResetTurn s

end Sys2Proof.Machine
end

