-- ==== Sys2Proof/Machine/Step.lean ====
section
/-! DEFINITION. One step of the machine: one atomic step of one agent (00_scope R18, 20_memory R81, 70_reset R410). -/

namespace Sys2Proof.Machine

/-- One step: the agent whose turn it is moves. -/
def step (s : State) : Host.Outcome State Fault Refusal :=
  takeTurn (nextTurn s).1 (nextTurn s).2

/-- The state in which the host issues the command word `w` of `nbits` bits next: the word is the oldest pending action and
the next turn is the host's (log 2). -/
def State.withFetchWord (s : State) (nbits w : Nat) : State :=
  { s with
    sched := .host :: s.sched
    hostq := .cmd (BitVec.ofNat 32 (w % 2 ^ nbits)) :: s.hostq }

end Sys2Proof.Machine
end

