-- ==== Sys2Proof/Machine/HostProcs.lean ====
section
/-! DEFINITION. The host's side (45_keystream_host, 30_encoding R111): the pseudo-instructions as lists of host actions, the
KeystreamSource over a built pipeline, and what the host issues to update, bootstrap, save, load and resume. None of it is the
block's (R280). -/

namespace Sys2Proof.Machine

/-! ### Pseudo-instructions (30_encoding R111) -/

/-- `CMD` of the one word of a command. -/
def issue (i : Instr) : HostAction := .cmd (encode i)

/-- The 8-byte groups of a byte list as register values, the last zero-padded: `le64` of each. -/
def wordsOf (bytes : List Byte) : List Word :=
  (List.range ((bytes.length + 7) / 8)).map fun k => le64 ((bytes.drop (8 * k)).take 8)

/-- `wr` of consecutive registers from number `a` on. -/
def writeFrom (a : Nat) (words : List Word) : List HostAction :=
  words.zipIdx.map fun x => .wr (BitVec.ofNat 12 (a + x.2)) x.1

/-- `wc.load V`. -/
def wcLoad (v : BitVec 128) : List HostAction :=
  [.wr 0x010 (v.extractLsb' 0 64), .wr 0x011 (v.extractLsb' 64 64)]

/-- `wc.addi V` and its five companions: the operand, then the command. -/
def wcImmediate (i : Instr) (v : Word) : List HostAction := [.wr 0x012 v, issue i]

/-- `str.load`. -/
def strLoad (text : List Byte) : List HostAction :=
  writeFrom 0x018 (wordsOf text) ++ [.wr 0x014 (BitVec.ofNat 64 text.length)]

/-- `blk.load LEN, bytes`: all four registers are written, missing bytes zero. -/
def blkLoad (len : Nat) (bytes : List Byte) : List HostAction :=
  writeFrom 0x020 (wordsOf (bytes ++ List.replicate (32 - bytes.length) 0#8)) ++ [.wr 0x024 (BitVec.ofNat 64 len)]

/-- `stg.load OFF, bytes`, `OFF` a multiple of 8. -/
def stgLoad (off : Nat) (bytes : List Byte) : List HostAction := writeFrom (0x100 + off / 8) (wordsOf bytes)

/-- The staged arguments of a rotor. -/
def rotStage (size start step : Nat) (data : List Byte) : List HostAction :=
  [.wr 0x030 (BitVec.ofNat 64 size), .wr 0x031 (BitVec.ofNat 64 start), .wr 0x032 (BitVec.ofNat 64 step)] ++ stgLoad 0 data

/-- `rot.load rU, SIZE, START, STEP, data`. -/
def rotLoad (k : Fin 6) (size start step : Nat) (data : List Byte) : List HostAction :=
  rotStage size start step data ++ [issue (.rotConstruct (unitCode (.rotor k)))]

/-- The staged arguments of a permutator. -/
def prmStage (len : Vector Nat 4) (randp : List Byte) : List HostAction :=
  writeFrom 0x034 (len.toList.map (BitVec.ofNat 64)) ++ stgLoad 0 randp

/-- `prm.load pU, L0, L1, L2, L3, randp`. -/
def prmLoad (k : Fin 2) (len : Vector Nat 4) (randp : List Byte) : List HostAction :=
  prmStage len randp ++ [issue (.prmConstruct (unitCode (.perm k)))]

/-- `ORDER` of a stage list: the sum of `u_p << 4p`. -/
def orderValue (units : List UnitId) : Nat := (units.zipIdx.map fun x => (unitCode x.1).toNat * 16 ^ x.2).sum

/-- `eng.order n, u0, u1, ...`. -/
def engOrder (units : List UnitId) : List HostAction :=
  [.wr 0x005 (BitVec.ofNat 64 (orderValue units)), .wr 0x004 (BitVec.ofNat 64 units.length)]

/-- `eng.seek V`. -/
def engSeek (v : BitVec 128) : List HostAction := wcLoad v ++ [issue .engSetindex]

/-- `eng.close` of a pipeline with `n` blocks in flight: the sentinel goes in, and the pops end with the one that returns it. -/
def engClose (n : Nat) : List HostAction := .push [] :: List.replicate (n + 1) .pop

/-! ### KeystreamSource (45_keystream_host R281 to R284) -/

/-- The state the host holds: the block whose pipeline is built, the bytes popped last and how many of them are delivered; and
how many probes were pushed (log 22). -/
structure KeystreamSource where
  block : State
  left : List Byte
  off : Nat
  probes : Nat

/-- A source over a block, as it starts: nothing popped yet (R281). -/
def KeystreamSource.start (s : State) : KeystreamSource := { block := s, left := [], off := 0, probes := 0 }

/-- What R281 and R282 say of a source between two reads: its block has a pipeline built and quiescent, and it holds at most one
block's bytes with the offset among them. -/
structure SourceOk (src : KeystreamSource) : Prop where
  built : built src.block = true
  quiescent : quiescent src.block = true
  left : src.left.length ≤ Config.blockBytes
  off : src.off ≤ src.left.length

/-- The schedule that takes one block from end to end of a pipeline of `n` workers: the push, each worker's two steps, the pop
(46_pipeline R330: any other schedule gives the same block). -/
def throughSchedule (n : Nat) : List Turn :=
  .host :: ((List.finRange 9).filter (fun p => p.val < n)).flatMap (fun p => [.worker p, .worker p]) ++ [.host]

/-- `n` steps of the machine. -/
def runSteps : Nat → State → Option State
  | 0, s => some s
  | n + 1, s =>
    match step s with
    | .next t => runSteps n t
    | .fault _ => none
    | .refused _ => none

/-- A `PUSH` and the `POP` that follows it, on a quiescent pipeline (R282): the block popped and the state of the block after. -/
def pushPop (bytes : List Byte) (s : State) : Option (List Byte × State) :=
  let turns := throughSchedule s.nb.toNat
  match runSteps turns.length { s with sched := turns, hostq := [.push bytes, .pop], replies := [] } with
  | none => none
  | some t =>
    match t.replies with
    | [.block r] => some (r, { t with replies := s.replies, sched := s.sched, hostq := s.hostq })
    | _ => none

/-- The 32 bytes of a probe block (R282, `PROBE`). -/
def probeBytes (n : Nat) (last : List Byte) : List Byte :=
  let p := Config.probe n (BitVec.ofNat 256 (leNat last))
  (List.range 32).map fun k => p.extractLsb' (8 * k) 8

/-- The next byte of `Read` (R282): every byte popped is delivered once, in order; a new probe is pushed when none is left. -/
def readOne (src : KeystreamSource) : Option (Byte × KeystreamSource) :=
  match src.left[src.off]? with
  | some b => some (b, { src with off := src.off + 1 })
  | none =>
    match pushPop (probeBytes src.probes src.left) src.block with
    | some (b :: rest, t) => some (b, { block := t, left := b :: rest, off := 1, probes := src.probes + 1 })
    | some ([], _) => none
    | none => none

/-- `Read` of `m` bytes (R282). -/
def readKeystream : Nat → KeystreamSource → Option (List Byte × KeystreamSource)
  | 0, src => some ([], src)
  | m + 1, src =>
    match readOne src with
    | none => none
    | some (b, src') =>
      match readKeystream m src' with
      | none => none
      | some (bs, src'') => some (b :: bs, src'')

/-- The least number of bits that hold `max - 1`, for `max ≥ 2` (R283). -/
def intnBits (max : Nat) : Nat := Nat.log2 (max - 1) + 1

/-- The candidate made of the bytes read, the top byte masked to its width (R283, `INTN_ORDER`). -/
def intnCandidate (order : Config.IntnOrder) (max : Nat) (bytes : List Byte) : Nat :=
  match order with
  | .firstMost => leNat bytes.reverse % 2 ^ intnBits max
  | .firstLeast => leNat bytes % 2 ^ intnBits max

/-- `Intn(max)` (R283) with at most `fuel` redraws; `max` = 1 takes no draw and `max` = 0 is the host's error (92_eei_decisions
D44). -/
def intn : Nat → Nat → KeystreamSource → Option (Nat × KeystreamSource)
  | _, 0, _ => none
  | _, 1, src => some (0, src)
  | 0, _, _ => none
  | fuel + 1, max, src =>
    match readKeystream ((intnBits max + 7) / 8) src with
    | none => none
    | some (bytes, src') =>
      if intnCandidate Config.intnOrder max bytes < max then some (intnCandidate Config.intnOrder max bytes, src')
      else intn fuel max src'

/-- Swap two places of a list. -/
def swapPlaces (a : List Nat) (i j : Nat) : List Nat := (a.set i (a.getD j 0)).set j (a.getD i 0)

/-- The loop of `Perm(n)` (R284) from `i` down to 1. -/
def shuffle (fuel : Nat) : Nat → List Nat → KeystreamSource → Option (List Nat × KeystreamSource)
  | 0, a, src => some (a, src)
  | i + 1, a, src =>
    match intn fuel (i + 2) src with
    | none => none
    | some (j, src') => shuffle fuel i (swapPlaces a (i + 1) j) src'

/-- `Perm(n)` (R284). -/
def permDraw (fuel n : Nat) (src : KeystreamSource) : Option (List Nat × KeystreamSource) :=
  shuffle fuel (n - 1) (List.range n) src

/-! ### What the host issues around an update, the bootstrap and a resume -/

/-- Rotor Update (R288): the drawn values are staged, then ROT.UPDATE. -/
def rotorUpdate (k : Fin 6) (size start step : Nat) (fresh : List Byte) : List HostAction :=
  rotStage size start step fresh ++ [issue (.rotUpdate (unitCode (.rotor k)))]

/-- Permutator Update (R289). -/
def permUpdate (k : Fin 2) (len : Vector Nat 4) (randp : List Byte) : List HostAction :=
  prmStage len randp ++ [issue (.prmUpdate (unitCode (.perm k)))]

/-- The direction code ENG.SETDIR takes (10_state R27). -/
def dirImm : Dir → Byte
  | .none => 0#8
  | .encrypt => 1#8
  | .decrypt => 2#8

/-- Start a pipeline over a stage list: `eng.order`, `eng.setdir`, `eng.build` (R290 steps 4 and 9). -/
def startPipeline (units : List UnitId) (d : Dir) : List HostAction :=
  engOrder units ++ [issue (.engSetdir (dirImm d)), issue .engBuild]

/-- Step 1 of the bootstrap (R290): the proforma constants, then `eng.init`. -/
def bootLoad (rotors : Vector (Nat × Nat × Nat × List Byte) 6) (perms : Vector (Vector Nat 4 × List Byte) 2) :
    List HostAction :=
  ((List.finRange 6).flatMap fun k =>
      rotLoad k rotors[k].1 rotors[k].2.1 rotors[k].2.2.1 rotors[k].2.2.2)
    ++ ((List.finRange 2).flatMap fun k => prmLoad k perms[k].1 perms[k].2) ++ [issue .engInit]

/-- Step 8 of the bootstrap (R290), after the proforma pipeline is closed: reset the counter, and the keyed order with the counter
as its ninth stage. -/
def bootOrder (keyed : List UnitId) : List HostAction := issue .ctrReset :: engOrder (keyed ++ [.counter])

/-- Step 9 of the bootstrap (R290): `eng.seek 0`, the direction, the live pipeline. -/
def bootStart (d : Dir) : List HostAction :=
  engSeek 0 ++ [issue (.engSetdir (dirImm d)), issue .engBuild]

/-- Save a rotor (R292): ROT.DUMP, then read the parameters and the staging memory. -/
def saveRotor (k : Fin 6) : List HostAction :=
  [issue (.rotDump (unitCode (.rotor k))), .rd 0x030, .rd 0x031, .rd 0x032]
    ++ (List.range 128).map fun j => .rd (BitVec.ofNat 12 (0x100 + j))

/-- Save a permutator (R292): PRM.DUMP, then read the lengths and the first table. -/
def savePerm (k : Fin 2) : List HostAction :=
  issue (.prmDump (unitCode (.perm k))) :: ((List.range 4).map fun j => .rd (BitVec.ofNat 12 (0x034 + j)))
    ++ (List.range 32).map fun j => .rd (BitVec.ofNat 12 (0x100 + j))

/-- After an encryption (R294): the next unused block index as a decimal string. -/
def saveIndex : List HostAction :=
  [issue .ctrIndex, issue .wcTostr, .rd 0x014] ++ (List.range 8).map fun j => .rd (BitVec.ofNat 12 (0x018 + j))

/-- On resume (R294): the stored string is parsed and every stage is placed at that index; ENG.BUILD follows. -/
def resumeIndex (text : List Byte) : List HostAction := strLoad text ++ [issue .wcParse, issue .engSetindex]

end Sys2Proof.Machine
end

