-- ==== Sys2Proof/Machine/Bootstrap.lean ====
section
/-! DEFINITION. The host's keyed procedures (45_keystream_host R288 to R291): drawing and updating a rotor or a permutator from a
KeystreamSource, the sequential update of all stages, and the nine bootstrap steps in order on one block. What the spec leaves
to the host there, the open parameters `DRAW_ORDER` and `BOOT_DETAIL` (92_eei_decisions D51), the constants and the pools
(91_not_in_source N10, N11), are arguments (log 22). -/

namespace Sys2Proof.Machine

/-! ### Running host actions on a block -/

/-- The host issues actions to a block and waits for each: what it got back, and the block after. None where the block faults or
a port is not ready. -/
def runActions (actions : List HostAction) (s : State) : Option (List Reply × State) :=
  match runSteps actions.length
      { s with sched := List.replicate actions.length .host, hostq := actions, replies := [] } with
  | none => none
  | some t =>
    if t.hostq.isEmpty && !t.faulted then
      some (t.replies, { t with replies := s.replies, sched := s.sched, hostq := s.hostq })
    else none

/-- The same on the block a source stands on (R288: all draws are done before the command is issued). -/
def KeystreamSource.issueAll (actions : List HostAction) (src : KeystreamSource) : Option KeystreamSource :=
  match runActions actions src.block with
  | none => none
  | some (_, t) => some { src with block := t }

/-- `eng.close` of a pipeline with nothing in flight: the sentinel is pushed and popped (30_encoding R111, 46_pipeline R321). -/
def closePipeline (s : State) : Option State :=
  match pushPop [] s with
  | none => none
  | some (_, t) => some t

/-! ### The open parameters of the host (92_eei_decisions D51) -/

/-- The draws of one rotor Update. -/
inductive RotorDraw where
  | start
  | step
  | fresh
deriving DecidableEq, Repr

/-- How `step` is kept off zero (91_not_in_source N13): one more than a draw below `size - 1`, or a draw below `size` repeated
until it is not 0. -/
inductive StepDraw where
  | shifted
  | redrawn
deriving DecidableEq, Repr

/-- The draws of one permutator Update. -/
inductive PermDraw where
  | table
  | ordering
deriving DecidableEq, Repr

/-- How a drawn permutation `a` reorders a list: place `i` takes element `a[i]`, or element `i` goes to place `a[i]`. The spec leaves
it open for the stage order (91_not_in_source N29) and is silent on it for the pools and the four lengths, so each is an argument
(DESIGN CHOICE, log 22). -/
inductive Reordering where
  | takes
  | goesTo
deriving DecidableEq, Repr

/-- `DRAW_ORDER` (R288, R289): the order of the draws of each Update, how the step is drawn, which rotors keep their size, and how
a drawn permutation reorders the four lengths. That the start is one `Intn(size)`, the lengths' permutation one `Perm(4)`, and a
rotor keeps its size or not by its number are the model's choices (91_not_in_source N13; DESIGN CHOICE, log 22). -/
structure DrawOrder where
  rotor : List RotorDraw
  step : StepDraw
  keepsSize : Vector Bool 6
  perm : List PermDraw
  reordering : Reordering
deriving DecidableEq, Repr

/-- A `DRAW_ORDER` in which every draw happens once. -/
abbrev DrawOrder.ok (o : DrawOrder) : Prop := o.rotor.Perm [.start, .step, .fresh] ∧ o.perm.Perm [.table, .ordering]

/-- A list reordered by a permutation of its places. -/
def reorder {α : Type} (how : Reordering) (a : List Nat) (xs : List α) : List α :=
  match how with
  | .takes => a.filterMap fun i => xs[i]?
  | .goesTo => (List.range a.length).filterMap fun place => xs[a.idxOf place]?

/-! ### Updates from a source (R288, R289) -/

/-- The values a rotor Update draws. -/
structure RotorValues where
  start : Nat
  step : Nat
  fresh : List Byte
deriving DecidableEq, Repr

/-- `step` in `[1, size)` (R288), with at most `fuel` tries. -/
def drawStep (how : StepDraw) (fuel size : Nat) (src : KeystreamSource) : Option (Nat × KeystreamSource) :=
  match how with
  | .shifted =>
    match intn fuel (size - 1) src with
    | none => none
    | some (v, src') => some (v + 1, src')
  | .redrawn => go fuel src
where
  /-- Draw until the value is not 0. -/
  go : Nat → KeystreamSource → Option (Nat × KeystreamSource)
    | 0, _ => none
    | n + 1, src =>
      match intn fuel size src with
      | none => none
      | some (0, src') => go n src'
      | some (v + 1, src') => some (v + 1, src')

/-- One draw of a rotor Update for a rotor of `size` bits. -/
def drawRotorValue (o : DrawOrder) (fuel size : Nat) (d : RotorDraw) (v : RotorValues) (src : KeystreamSource) :
    Option (RotorValues × KeystreamSource) :=
  match d with
  | .start => (intn fuel size src).map fun x => ({ v with start := x.1 }, x.2)
  | .step => (drawStep o.step fuel size src).map fun x => ({ v with step := x.1 }, x.2)
  | .fresh => (readKeystream ((size + 7) / 8) src).map fun x => ({ v with fresh := x.1 }, x.2)

/-- The draws of a rotor Update in their order (R288). -/
def drawRotorValues (o : DrawOrder) (fuel size : Nat) :
    List RotorDraw → RotorValues → KeystreamSource → Option (RotorValues × KeystreamSource)
  | [], v, src => some (v, src)
  | d :: rest, v, src =>
    match drawRotorValue o fuel size d v src with
    | none => none
    | some (v', src') => drawRotorValues o fuel size rest v' src'

/-- `start`, `step` and `ceil(size / 8)` fresh bytes for a rotor of `size` bits (R288). -/
def drawRotor (o : DrawOrder) (fuel size : Nat) (src : KeystreamSource) : Option (RotorValues × KeystreamSource) :=
  drawRotorValues o fuel size o.rotor { start := 0, step := 0, fresh := [] } src

/-- Rotor Update from a source (R288): the draws first, then the block is given the values and `rot.update`. -/
def updateRotor (o : DrawOrder) (fuel : Nat) (k : Fin 6) (size : Nat) (src : KeystreamSource) : Option KeystreamSource :=
  match drawRotor o fuel size src with
  | none => none
  | some (v, src') => src'.issueAll (rotorUpdate k size v.start v.step v.fresh)

/-- The values a permutator Update draws: the table and the permutation of the four lengths. -/
structure PermValues where
  table : List Nat
  ordering : List Nat
deriving DecidableEq, Repr

/-- One draw of a permutator Update (R289): the table is `Perm(256)`. How the reordering of the four lengths is drawn is not in the
source (91_not_in_source N13); the model draws it as `Perm(4)` (DESIGN CHOICE, log 22). -/
def drawPermValue (fuel : Nat) (d : PermDraw) (v : PermValues) (src : KeystreamSource) : Option (PermValues × KeystreamSource) :=
  match d with
  | .table => (permDraw fuel Config.permEntries src).map fun x => ({ v with table := x.1 }, x.2)
  | .ordering => (permDraw fuel 4 src).map fun x => ({ v with ordering := x.1 }, x.2)

/-- The draws of a permutator Update in their order (R289). -/
def drawPermValues (fuel : Nat) :
    List PermDraw → PermValues → KeystreamSource → Option (PermValues × KeystreamSource)
  | [], v, src => some (v, src)
  | d :: rest, v, src =>
    match drawPermValue fuel d v src with
    | none => none
    | some (v', src') => drawPermValues fuel rest v' src'

/-- The four lengths of a pool entry in the drawn order (R289). -/
def orderedLengths (o : DrawOrder) (lengths : Vector Nat 4) (ordering : List Nat) : Vector Nat 4 :=
  Vector.ofFn fun j : Fin 4 => (reorder o.reordering ordering lengths.toList).getD j.val 0

/-- `randp` = `Perm(256)` and the reordered lengths (R289). -/
def drawPerm (o : DrawOrder) (fuel : Nat) (lengths : Vector Nat 4) (src : KeystreamSource) :
    Option ((Vector Nat 4 × List Byte) × KeystreamSource) :=
  match drawPermValues fuel o.perm { table := [], ordering := [] } src with
  | none => none
  | some (v, src') => some ((orderedLengths o lengths v.ordering, v.table.map (BitVec.ofNat 8)), src')

/-- Permutator Update from a source (R289). -/
def updatePerm (o : DrawOrder) (fuel : Nat) (k : Fin 2) (lengths : Vector Nat 4) (src : KeystreamSource) :
    Option KeystreamSource :=
  match drawPerm o fuel lengths src with
  | none => none
  | some ((l, table), src') => src'.issueAll (permUpdate k l table)

/-! ### The sequential updates (R291) -/

/-- The two shuffled candidate pools with the entries not yet used (R290 step 5). -/
structure Pools where
  sizes : List Nat
  partitions : List (Vector Nat 4)
deriving DecidableEq, Repr

/-- Update of one stage (R288, R289): a rotor takes the next size of its pool, or keeps its own; a permutator takes the next
partition; the counter has CTR.UPDATE (43_counter R226). None where a pool has run out. -/
def updateStage (o : DrawOrder) (fuel : Nat) (u : UnitId) (pools : Pools) (src : KeystreamSource) :
    Option (Pools × KeystreamSource) :=
  match u with
  | .rotor k =>
    if o.keepsSize[k] then
      (updateRotor o fuel k (rotor src.block k).size.toNat src).map fun x => (pools, x)
    else
      match pools.sizes with
      | [] => none
      | size :: rest => (updateRotor o fuel k size src).map fun x => ({ pools with sizes := rest }, x)
  | .perm k =>
    match pools.partitions with
    | [] => none
    | lengths :: rest => (updatePerm o fuel k lengths src).map fun x => ({ pools with partitions := rest }, x)
  | .counter => (src.issueAll [issue .ctrUpdate]).map fun x => (pools, x)

/-- The Updates of the stages, strictly one after the other from one evolving source: each draws from the source, and so from the
block, that the Updates before it left (R291 (a), (b)). -/
def updateAll (o : DrawOrder) (fuel : Nat) : List UnitId → Pools → KeystreamSource → Option (Pools × KeystreamSource)
  | [], pools, src => some (pools, src)
  | u :: rest, pools, src =>
    match updateStage o fuel u pools src with
    | none => none
    | some (pools', src') => updateAll o fuel rest pools' src'

/-! ### The bootstrap (R290) -/

/-- The host's constants and pools (91_not_in_source N10, N11), its open parameter `BOOT_DETAIL` (N28, N29), and how an index
permutation orders a pool, on which the spec is silent (DESIGN CHOICE, log 22). -/
structure BootDetail where
  /-- The proforma rotors: size, start, step, data. -/
  rotors : Vector (Nat × Nat × Nat × List Byte) 6
  /-- The proforma permutators: lengths, table. -/
  perms : Vector (Vector Nat 4 × List Byte) 2
  /-- How the secret's stream comes into the block before step 4; empty where it comes in through the probes (`PROBE`). -/
  secretEntry : List HostAction
  /-- The stages of the proforma pipeline, in their order. -/
  proforma : List UnitId
  /-- Its direction. -/
  proformaDir : Dir
  /-- The two candidate pools. -/
  pools : Pools
  /-- How the index permutation of step 5 orders the rotor sizes. -/
  sizeOrdering : Reordering
  /-- How the index permutation of step 5 orders the cycle partitions. -/
  partitionOrdering : Reordering
  /-- The stages that are updated, in their order. -/
  updates : List UnitId
  /-- The eight keyed stages that `Perm(8)` orders. -/
  keyed : List UnitId
  /-- How `Perm(8)` becomes a stage order. -/
  ordering : Reordering
deriving DecidableEq, Repr

/-- The eight keyed stages: six rotors and two permutators (R290 steps 1 and 8, 43_counter R226). -/
def keyedUnits : List UnitId := (List.finRange 6).map UnitId.rotor ++ (List.finRange 2).map UnitId.perm

/-- What R290 fixes of the host's detail, whatever the host leaves open: the proforma pipeline holds the proforma stages, each once,
and at most a counter besides (step 4; its order, its direction and the counter are open, 91_not_in_source N29); the stages updated are
the eight keyed ones, each once (step 6, 43_counter R226); what `Perm(8)` orders are those eight, so that the counter is ninth (step 8);
and every pool entry is one the block accepts (R288, 91_not_in_source N11). -/
abbrev BootDetail.ok (b : BootDetail) : Prop :=
  (b.proforma.Perm keyedUnits ∨ b.proforma.Perm (keyedUnits ++ [.counter])) ∧
  b.proformaDir ≠ .none ∧
  b.updates.Perm keyedUnits ∧
  b.keyed.Perm keyedUnits ∧
  (∀ size ∈ b.pools.sizes, Config.sizeMin ≤ size ∧ size ≤ Config.sizeMax) ∧
  ∀ lengths ∈ b.pools.partitions, 0 ∉ lengths.toList ∧ lengths.toList.sum = Config.permEntries

/-- Step 5 (R290): `Perm` of each pool's size, the rotor sizes first, as the rule names them; each index permutation orders its pool the
way `BootDetail` says, since the spec does not (DESIGN CHOICE, log 22). -/
def shufflePools (b : BootDetail) (fuel : Nat) (src : KeystreamSource) : Option (Pools × KeystreamSource) :=
  match permDraw fuel b.pools.sizes.length src with
  | none => none
  | some (sizePerm, src') =>
    match permDraw fuel b.pools.partitions.length src' with
    | none => none
    | some (partitionPerm, src'') =>
      some ({
        sizes := reorder b.sizeOrdering sizePerm b.pools.sizes
        partitions := reorder b.partitionOrdering partitionPerm b.pools.partitions }, src'')

/-- Steps 1 and 4 (R290; steps 2 and 3 are the host's computation outside the block): the proforma pipeline and the source on it. -/
def bootSource (b : BootDetail) (s : State) : Option KeystreamSource :=
  match runActions (bootLoad b.rotors b.perms ++ b.secretEntry ++ startPipeline b.proforma b.proformaDir) s with
  | none => none
  | some (_, t) => some (.start t)

/-- Steps 4 to 6 (R290, R291): the source, the shuffled pools, and the Updates. -/
def bootKeys (o : DrawOrder) (b : BootDetail) (fuel : Nat) (s : State) : Option KeystreamSource :=
  match bootSource b s with
  | none => none
  | some src =>
    match shufflePools b fuel src with
    | none => none
    | some (pools, src') => (updateAll o fuel b.updates pools src').map Prod.snd

/-- Steps 8 and 9 (R290, R291 (c)): the drawn order, the proforma pipeline closed, the counter as ninth stage, and the live pipeline
in direction `d`. -/
def bootFinish (b : BootDetail) (d : Dir) (fuel : Nat) (src : KeystreamSource) : Option State :=
  match permDraw fuel 8 src with
  | none => none
  | some (a, src') =>
    match closePipeline src'.block with
    | none => none
    | some t => (runActions (bootOrder (reorder b.ordering a b.keyed) ++ bootStart d) t).map Prod.snd

/-- The bootstrap (R290): its steps in order on one block, from the proforma constants to the live pipeline in direction `d`; none for
a detail that is not the bootstrap's. -/
def bootstrap (o : DrawOrder) (b : BootDetail) (d : Dir) (fuel : Nat) (s : State) : Option State :=
  if o.ok ∧ b.ok then
    match bootKeys o b fuel s with
    | none => none
    | some src => bootFinish b d fuel src
  else none

/-- Step 7 (R290, R291 (d)): the product of the stages' periods, host arithmetic; a permutator's is its `MAXST`, and what the rotors
contribute is the host's (91_not_in_source N14). -/
def maximalStates (rotorPeriods : List Nat) (s : State) : Nat :=
  rotorPeriods.prod * ((perm s 0).maxst.toNat * (perm s 1).maxst.toNat)

end Sys2Proof.Machine
end

