-- ==== Sys2Proof/Machine/Runs.lean ====
section
/-! DEFINITION. Runs of the machine inside its world, and the one guarantee the spec gives about them: weak fairness of the workers
(20_memory R89, 70_reset R410, 92_eei_decisions D39). -/

namespace Sys2Proof.Machine

/-- A step of worker `W[p]` is enabled (46_pipeline R307, R308). -/
def workerEnabled (s : State) (p : Fin 9) : Bool := receiveEnabled s p || sendEnabled s p

/-- A run: each state is the one the step before left, with the actions the host has added to its pending ones meanwhile
(30_encoding R100). -/
def Run (r : Nat → State) : Prop :=
  ∀ n, ∃ t more, step (r n) = .next t ∧ r (n + 1) = { t with hostq := t.hostq ++ more }

/-- Worker `W[p]` takes step `n` of the run. -/
def TurnOf (r : Nat → State) (p : Fin 9) (n : Nat) : Prop := (nextTurn (r n)).1 = .worker p

/-- Weak fairness (70_reset R410): a worker step that stays enabled is eventually taken. -/
def WeaklyFair (r : Nat → State) : Prop :=
  ∀ (p : Fin 9) (n : Nat), (∀ m, n ≤ m → workerEnabled (r m) p = true) → ∃ m, n ≤ m ∧ TurnOf r p m

/-- A block is in flight: in a slot or in a worker's hands (46_pipeline R306). -/
def BlockInFlight (s : State) : Prop := (∃ k, (slot s k).v = true) ∨ ∃ p, (worker s p).st = .hold

end Sys2Proof.Machine
end

