-- ==== Sys2Proof/Safety.lean ====
section
/-! DEFINITION. What counts as a good state and a respectful host, in the terms the statements use: the canonical
memories (20_memory R70), the unit invariants (10_state R40, R44, R45, 20_memory R71, R72), the arbiter invariants
(46_pipeline R322), the fault record (10_state R28, R29), and the host's precondition (46_pipeline R319). -/

namespace Sys2Proof.Machine

/-! ### Memories (20_memory R70) -/

/-- A buffer of `n` bytes: in canonical form, and no byte outside its space. -/
def memOk (n : Nat) (m : Mem) : Prop := Mem.wf m ∧ Mem.within n m

/-- Every memory and byte register is canonical and inside its space, and no held block is longer than 32 bytes
(20_memory R70, 40_bitvector R130, 10_state R49, R50). -/
structure MemoriesOk (s : State) : Prop where
  wstr : memOk Config.strCap s.wstr
  blk : memOk Config.blockBytes s.blk
  stg : memOk Config.stgBytes s.stg
  rbuf : ∀ k, memOk Config.rbufBytes (rotor s k).buf
  randp : ∀ k, memOk Config.permEntries (perm s k).randp
  bperm : ∀ k, memOk Config.permEntries (perm s k).bperm
  slotData : ∀ k, memOk Config.blockBytes (slot s k).data
  holdData : ∀ p, memOk Config.blockBytes (worker s p).hdata
  slotLen : ∀ k, (slot s k).v = true → (slot s k).len.toNat ≤ Config.blockBytes
  holdLen : ∀ p, (worker s p).st = .hold → (worker s p).hlen.toNat ≤ Config.blockBytes

/-! ### Units -/

/-- The mirror of a rotor buffer: bit `size + i` repeats bit `i` for `i` in `[0, 256)` (10_state R40). -/
def Mirrored (size : Nat) (m : Mem) : Prop :=
  ∀ i, i < Config.mirrorBits → bufBit m (size + i) = bufBit m i

/-- The padding bits above the mirror are zero (20_memory R71). -/
def Padded (size : Nat) (m : Mem) : Prop :=
  ∀ i, size + Config.mirrorBits ≤ i → i < 8 * (dataBytes size + Config.padBytes) → bufBit m i = false

/-- The rotor invariants (10_state R40) with the layout of 20_memory R71. -/
structure RotorGood (r : Rotor) : Prop where
  sizeMin : Config.sizeMin ≤ r.size.toNat
  startLt : r.start.toNat < r.size.toNat
  stepPos : 1 ≤ r.step.toNat
  stepLt : r.step.toNat < r.size.toNat
  currentLt : r.current.toNat < r.size.toNat
  mirrored : Mirrored r.size.toNat r.buf
  padded : Padded r.size.toNat r.buf

/-- The 256 table entries are pairwise different, so the table is a permutation of 0..255 (20_memory R72). -/
def TableBijective (m : Mem) : Prop :=
  ∀ i j, i < Config.permEntries → j < Config.permEntries → readByte m i = readByte m j → i = j

/-- Four cycles that cut a table of 256 different entries into contiguous segments (10_state R43, 20_memory R72). -/
structure CyclesOk (p : Perm) : Prop where
  lenPos : ∀ j : Fin 4, 1 ≤ p.len[j].toNat
  lenSum : p.len[0].toNat + p.len[1].toNat + p.len[2].toNat + p.len[3].toNat = Config.permEntries
  start0 : p.start[0].toNat = 0
  start1 : p.start[1].toNat = p.start[0].toNat + p.len[0].toNat
  start2 : p.start[2].toNat = p.start[1].toNat + p.len[1].toNat
  start3 : p.start[3].toNat = p.start[2].toNat + p.len[2].toNat
  randp : TableBijective p.randp

/-- The permutator invariants (10_state R43, R44, R45, 20_memory R72). -/
structure PermGood (p : Perm) : Prop extends CyclesOk p where
  maxst : p.maxst.toNat = p.len[0].toNat * p.len[1].toNat * p.len[2].toNat * p.len[3].toNat
  cstateLt : p.cstate.toNat < p.maxst.toNat
  cur : ∀ j : Fin 4, p.cur[j].toNat = p.cstate.toNat % p.len[j].toNat
  bperm : (rebuild p).bperm = p.bperm

/-- Every constructed unit keeps its invariants (10_state R40, R44, R45), and no unit is undefined (46_pipeline R319). -/
structure UnitsOk (s : State) : Prop where
  settled : ∀ u, s.loose[unitIndex u] = false
  rotors : ∀ k, (rotor s k).valid = true → RotorGood (rotor s k)
  perms : ∀ k, (perm s k).valid = true → PermGood (perm s k)

/-! ### The arbiter (46_pipeline R322) -/

/-- A slot holds the sentinel. -/
def slotSentinel (s : State) (k : Fin 10) : Prop := (slot s k).v = true ∧ (slot s k).len = 0#6

/-- A worker holds the sentinel. -/
def holdSentinel (s : State) (p : Fin 9) : Prop := (worker s p).st = .hold ∧ (worker s p).last = true

/-- Worker `p` exists in the built pipeline. -/
def inPipeline (s : State) (p : Fin 9) : Prop := p.val < s.nb.toNat

/-- Everything to the left of place `n` is over: workers before `n` are off, slots before `n` empty. -/
def leftDone (s : State) (n : Nat) : Prop :=
  (∀ q : Fin 9, q.val < n → (worker s q).st = .off) ∧ (∀ k : Fin 10, k.val < n → (slot s k).v = false)

/-- The invariants of 46_pipeline R322 (a) to (f), with what makes them inductive: where the sentinel is, everything to
its left is over. -/
structure ArbiterOk (s : State) : Prop where
  /-- (a) With no pipeline built every slot is empty, every worker off and `CLOSING` = 0. -/
  idle : built s = false →
    s.closing = false ∧ (∀ k, (slot s k).v = false) ∧ (∀ p, (worker s p).st = .off)
  /-- The built pipeline has 1 to 9 workers. -/
  count : built s = true → 1 ≤ s.nb.toNat ∧ s.nb.toNat ≤ Config.stageMax
  /-- The built direction is that of the engine state. -/
  direction : (s.estate = .encBuilt → s.bdir = .encrypt) ∧ (s.estate = .decBuilt → s.bdir = .decrypt)
  /-- (b) Workers and slots outside the pipeline are off and empty. -/
  outside : built s = true →
    (∀ p : Fin 9, s.nb.toNat ≤ p.val → (worker s p).st = .off) ∧
    (∀ k : Fin 10, s.nb.toNat < k.val → (slot s k).v = false)
  /-- (c), (d) A live worker that is off has passed the sentinel on: `CLOSING` = 1 and everything to its left is over. -/
  offPrefix : built s = true → ∀ p, inPipeline s p → (worker s p).st = .off →
    s.closing = true ∧ leftDone s p.val ∧ (slot s (leftSlot p)).v = false
  /-- (e) The sentinel in a slot: `CLOSING` = 1 and everything to its left is over. -/
  sentinelInSlot : ∀ k, slotSentinel s k → s.closing = true ∧ leftDone s k.val
  /-- (e) The sentinel in a worker's hands: the same, its left slot included. -/
  sentinelInHand : ∀ p, holdSentinel s p →
    s.closing = true ∧ leftDone s p.val ∧ (slot s (leftSlot p)).v = false ∧ (worker s p).hlen = 0#6
  /-- Only the sentinel has length 0. -/
  dataInHand : ∀ p, (worker s p).st = .hold → (worker s p).last = false → (worker s p).hlen ≠ 0#6
  /-- `CLOSING` = 1 means the sentinel is in the chain. -/
  closingHas : built s = true → s.closing = true →
    (∃ k : Fin 10, k.val ≤ s.nb.toNat ∧ slotSentinel s k) ∨ (∃ p, inPipeline s p ∧ holdSentinel s p)
  /-- (f) The bound units exist, are valid and pairwise different. -/
  bound : built s = true → ∀ p : Fin 9, inPipeline s p →
    ∃ u, unitOfCode s.binding[p] = some u ∧ unitValid s u = true
  distinct : built s = true → ∀ p q : Fin 9, inPipeline s p → inPipeline s q → s.binding[p] = s.binding[q] → p = q

/-! ### The host's precondition (46_pipeline R319) -/

/-- The command mutates unit `u` (46_pipeline R319). -/
def mutatesUnit (i : Instr) (u : UnitId) (s : State) : Prop :=
  match i with
  | .rotConstruct c | .rotUpdate c | .rotSetindex c | .rotApplyf c | .rotApplyg c =>
    ∃ k, u = .rotor k ∧ c = unitCode u
  | .prmConstruct c | .prmUpdate c | .prmSetindex c | .prmAdvance c | .prmRebuild c | .prmApplyf c | .prmApplyg c =>
    ∃ k, u = .perm k ∧ c = unitCode u
  | .ctrReset | .ctrSetindex | .ctrApplyf => u = .counter
  | .engSetindex => unitCode u ∈ stageList s
  | .nop | .engInit | .engSetdir _ | .engBuild | .engIndex => False
  | .wcAdd | .wcSub | .wcMul | .wcDiv | .wcDivmod | .wcMod | .wcInc | .wcIszero | .wcParse | .wcTostr => False
  | .rotIndex _ | .rotDump _ | .prmIndex _ | .prmDump _ => False
  | .ctrApplyg | .ctrIndex | .ctrUpdate => False
  | .bitGet _ | .bitSet _ | .bitClr _ => False

/-- Command `i` respects R319 of 46_pipeline in state `s`: it mutates no live-bound unit unless the pipeline is quiescent. -/
def respects (i : Instr) (s : State) : Prop := ∀ u, mutatesUnit i u s → breaksPrecondition s u = false

/-- The command the host issues next, if it is one, respects R319 of 46_pipeline. -/
def hostRespects (s : State) : Prop :=
  ∀ w rest i, s.hostq = .cmd w :: rest → decode w = .ok i → respects i s

/-- A command on unit `u` and the blocks it transforms are defined: R319 of 46_pipeline holds now, and no earlier breach has left the
unit or its blocks undefined. -/
def UnitDefined (s : State) (u : UnitId) : Prop := breaksPrecondition s u = false ∧ marked s u = false

/-! ### The terms the statements use -/

/-- The two states agree on everything but what lies outside the block: schedule, pending actions, replies, draws. -/
def sameBlock (s t : State) : Prop :=
  t = { s with draws := t.draws, sched := t.sched, hostq := t.hostq, replies := t.replies }

/-- The state a command that faults leaves: the writes of 60_exceptions R351 and nothing else. -/
def commandFaulted (i : Instr) (c : Cause) (u : UnitCode) (s : State) : State :=
  { s with
    fault := { cause := causeCode c, unit := u, src := 0, worker := 0 }
    fcmd := (encode i).setWidth 64
    faulted := true }

/-- The values of 10_state R54, for every piece of state to which it gives one. -/
structure IsReset (t : State) : Prop where
  estate : t.estate = .created
  flags : t.faulted = false ∧ t.closing = false ∧ t.flagZ = false ∧ t.flagB = false ∧ t.untracked = false
  dir : t.dir = .none
  fault : t.fault = { cause := 0, unit := 0, src := 0, worker := 0 } ∧ t.fcmd = 0
  stages : t.nst = 0 ∧ t.order = 0
  config : t.nb = 0 ∧ t.bdir = .none ∧ ∀ p : Fin 9, t.binding[p] = 0
  wcu : t.waccLo = 0 ∧ t.waccHi = 0 ∧ t.wop = 0 ∧ t.wrem = 0 ∧ t.wstrLen = 0 ∧ ∀ a, readByte t.wstr a = 0
  block : t.blkLen = 0 ∧ ∀ a, readByte t.blk a = 0
  staging : t.psize = 0 ∧ t.pstart = 0 ∧ t.pstep = 0 ∧ (∀ j : Fin 4, t.plen[j] = 0) ∧ ∀ a, readByte t.stg a = 0
  rotors : ∀ k, (rotor t k).valid = false ∧ (rotor t k).size = 0 ∧ (rotor t k).start = 0 ∧ (rotor t k).step = 0 ∧
    (rotor t k).current = 0
  perms : ∀ k, (perm t k).valid = false ∧ (perm t k).cstate = 0 ∧ (perm t k).maxst = 0 ∧
    ∀ j : Fin 4, (perm t k).len[j] = 0 ∧ (perm t k).start[j] = 0 ∧ (perm t k).cur[j] = 0
  counter : t.idx = 0
  slots : ∀ k, (slot t k).v = false
  workers : ∀ p, (worker t p).st = .off

/-- The width of a register the host may write; none where it is read-only or not implemented (10_state R56). -/
def rwWidth (a : Nat) : Option Nat :=
  if a = 0x004 then some 4
  else if a = 0x005 then some 36
  else if a = 0x010 ∨ a = 0x011 ∨ a = 0x012 then some 64
  else if a = 0x014 then some 7
  else if (0x018 ≤ a ∧ a ≤ 0x01F) ∨ (0x020 ≤ a ∧ a ≤ 0x023) then some 64
  else if a = 0x024 then some 6
  else if a = 0x030 ∨ a = 0x031 ∨ a = 0x032 ∨ (0x034 ≤ a ∧ a ≤ 0x037) ∨ (0x100 ≤ a ∧ a ≤ 0x17F) then some 64
  else none

/-- The read-only registers (10_state R56). -/
def roRegister (a : Nat) : Bool :=
  decide (a ≤ 0x003 ∨ a = 0x006 ∨ a = 0x007 ∨ a = 0x013
    ∨ (0x200 ≤ a ∧ a ≤ 0x25F ∧ a % 16 ≤ 4) ∨ (0x260 ≤ a ∧ a ≤ 0x27F ∧ a % 16 ≤ 14) ∨ a = 0x280 ∨ a = 0x281)

/-- What register number `a` reads, 0 where no register is implemented (60_exceptions R367). -/
def shown (s : State) (a : Nat) : Word := ((regOf a).map (readReg s)).getD 0

/-- Eight bytes of a buffer, the lowest address in the lowest bits: what a register word over a byte buffer shows (10_state R34,
R36, R38). -/
def ShowsBytes (v : Word) (m : Mem) (k : Nat) : Prop := ∀ j < 8, v.extractLsb' (8 * j) 8 = readByte m (8 * k + j)

/-- Which piece of state each register number of 10_state R56 shows; `STATUS` has a statement of its own. -/
structure RegistersShow (s : State) : Prop where
  id : shown s 0x000 = 0x544E544500070001#64
  fault : (shown s 0x002).extractLsb' 0 8 = s.fault.cause ∧ (shown s 0x002).extractLsb' 8 4 = s.fault.unit ∧
    (shown s 0x002).extractLsb' 12 4 = s.fault.src ∧ (shown s 0x002).extractLsb' 16 4 = s.fault.worker ∧
    (shown s 0x002).extractLsb' 20 44 = 0 ∧ shown s 0x003 = s.fcmd
  stages : shown s 0x004 = s.nst.setWidth 64 ∧ shown s 0x005 = s.order.setWidth 64
  config : (shown s 0x006).extractLsb' 0 4 = s.nb ∧ (shown s 0x006).extractLsb' 4 4 = BitVec.ofNat 4 (dirCode s.bdir) ∧
    (∀ p : Fin 9, (shown s 0x006).extractLsb' (8 + 4 * p.val) 4 = s.binding[p]) ∧ (shown s 0x006).extractLsb' 44 20 = 0
  workers : (∀ p : Fin 9, (shown s 0x007).extractLsb' (2 * p.val) 2 = BitVec.ofNat 2 (wstateCode (worker s p).st) ∧
      (shown s 0x007).getLsbD (20 + p.val) = ((worker s p).st == .hold && (worker s p).last)) ∧
    (shown s 0x007).extractLsb' 18 2 = 0 ∧ (shown s 0x007).extractLsb' 29 3 = 0
  slots : (∀ k : Fin 10, (shown s 0x007).getLsbD (32 + k.val) = (slot s k).v) ∧ (shown s 0x007).extractLsb' 42 22 = 0
  wcu : shown s 0x010 = s.waccLo ∧ shown s 0x011 = s.waccHi ∧ shown s 0x012 = s.wop ∧ shown s 0x013 = s.wrem ∧
    shown s 0x014 = s.wstrLen.setWidth 64 ∧ ∀ k < 8, ShowsBytes (shown s (0x018 + k)) s.wstr k
  block : (∀ k < 4, ShowsBytes (shown s (0x020 + k)) s.blk k) ∧ shown s 0x024 = s.blkLen.setWidth 64
  staging : shown s 0x030 = s.psize ∧ shown s 0x031 = s.pstart ∧ shown s 0x032 = s.pstep ∧
    (∀ j : Fin 4, shown s (0x034 + j.val) = s.plen[j]) ∧ ∀ k < 128, ShowsBytes (shown s (0x100 + k)) s.stg k
  rotors : ∀ k : Fin 6,
    let r := rotor s k
    let field (v : BitVec 12) : Word := if r.valid then v.setWidth 64 else 0
    shown s (0x200 + 16 * k.val) = field r.size ∧ shown s (0x201 + 16 * k.val) = field r.start ∧
      shown s (0x202 + 16 * k.val) = field r.step ∧ shown s (0x203 + 16 * k.val) = field r.current ∧
      shown s (0x204 + 16 * k.val) = if r.valid then 1 else 0
  perms : ∀ k : Fin 2,
    let p := perm s k
    (∀ j : Fin 4, shown s (0x260 + 16 * k.val + j.val) = (if p.valid then p.len[j].setWidth 64 else 0) ∧
      shown s (0x264 + 16 * k.val + j.val) = (if p.valid then p.cur[j].setWidth 64 else 0) ∧
      shown s (0x268 + 16 * k.val + j.val) = if p.valid then p.start[j].setWidth 64 else 0) ∧
      shown s (0x26C + 16 * k.val) = (if p.valid then p.cstate.setWidth 64 else 0) ∧
      shown s (0x26D + 16 * k.val) = (if p.valid then p.maxst.setWidth 64 else 0) ∧
      shown s (0x26E + 16 * k.val) = if p.valid then 1 else 0
  counter : shown s 0x280 = s.idx.extractLsb' 0 64 ∧ shown s 0x281 = s.idx.extractLsb' 64 64

/-- The number the window of a rotor stands for: `8n` bits of the circular bit string from `CURRENT` on (20_memory R76, R78). -/
def windowNumber (r : Rotor) (n : Nat) : Nat :=
  ∑ j ∈ Finset.range (8 * n), 2 ^ j * (bufBit r.buf ((r.current.toNat + j) % r.size.toNat)).toNat

/-- The number a string of decimal digits stands for (44_wide_counter R260, R262). -/
def decimalValue (digits : List Byte) : Nat := digits.foldl (fun v ch => v * 10 + (ch.toNat - 0x30)) 0

/-- Unit `u` can stand at place `p` of the stage list (46_pipeline R303). -/
def StageOk (s : State) (p : Nat) : Prop :=
  (∃ u, unitOfCode (orderEntry s p) = some u ∧ unitValid s u = true) ∧ ∀ q < p, orderEntry s q ≠ orderEntry s p

/-- The fault `CheckOrder` raises, with what `FAULT.UNIT` records (46_pipeline R303, 60_exceptions R353): more than nine entries, or the
first entry that is no unit, stands in the list before, or names a unit that is not valid. -/
def CheckOrderFault (s : State) (c : Cause) (u : UnitCode) : Prop :=
  (9 < s.nst.toNat ∧ c = .badOrder ∧ u = 0xF) ∨
  (s.nst.toNat ≤ 9 ∧ ∃ p < s.nst.toNat, (∀ q < p, StageOk s q) ∧ u = orderEntry s p ∧
    ((c = .badOrder ∧ (unitOfCode u = none ∨ ∃ q < p, orderEntry s q = u)) ∨
     (c = .unitNotValid ∧ (∀ q < p, orderEntry s q ≠ u) ∧ ∃ id, unitOfCode u = some id ∧ unitValid s id = false)))

/-- Stages applied one after the other to one block: the sequential fold (20_memory R86, 46_pipeline R330). -/
def foldStages (f : UnitId → State → List Byte → Except Trap (State × List Byte)) :
    List UnitId → State → List Byte → Except Trap (State × List Byte)
  | [], s, b => .ok (s, b)
  | u :: rest, s, b =>
    match f u s b with
    | .error e => .error e
    | .ok (t, r) => foldStages f rest t r

end Sys2Proof.Machine
end

