-- ==== Sys2Proof/Certificates/Slice0/Obligations.lean ====
section
/-! DEFINITION. The statements about the machine. The hypotheses `breaksPrecondition … = false` and `UnitDefined` say that the
host respects 46_pipeline R319; the value a broken precondition leaves is free (log 8), and no statement rests on it. `settle` is the
end of an undefined state that a construction or a seek at a quiescent point brings (log 8). -/

open Sys2Proof Sys2Proof.Machine

/-! ### Encoding (30_encoding) -/

/-- Decoding the word of a well-formed command gives the command back (R101 to R106). -/
def Obligations.DecodeOfEncode : Prop :=
  ∀ i : Instr, WellFormed i = true → decode (encode i) = .ok i

/-- A word that decodes is the one word of a well-formed command (R105, R106): no bit of a legal word is ignored. -/
def Obligations.EncodeOfDecode : Prop :=
  ∀ (w : Cmd) (i : Instr), decode w = .ok i → WellFormed i = true ∧ encode i = w

/-- A word that is no command raises `ILLEGAL_COMMAND` (R103 steps 2 to 4, R108); `FAULT.UNIT` is `0xF` for an unlisted opcode and for a
must-be-zero bit of format N or I, and the unit id for a word of format U whose only flaw is that id (60_exceptions R353). What it is
for a must-be-zero bit of format U the spec leaves open (log 10), and the first clause leaves it open too. -/
def Obligations.IllegalWordsFault : Prop :=
  ∀ s : State, s.faulted = false →
    let faulted (w : Cmd) (u : UnitCode) : State :=
      { s with fault := { cause := 0x01, unit := u, src := 0, worker := 0 }, fcmd := w.setWidth 64, faulted := true }
    (∀ w : Cmd, (∀ i, WellFormed i = true → encode i ≠ w) → ∃ u : UnitCode, runCommand w s = .next (faulted w u)) ∧
    (∀ (op : Byte) (low : BitVec 24), op.toNat ≤ 0x05 ∨ (0x10 ≤ op.toNat ∧ op.toNat ≤ 0x19) → op.toNat ≠ 0x02 → low ≠ 0 →
      runCommand (op ++ low) s = .next (faulted (op ++ low) 0xF)) ∧
    (∀ (op : Byte) (mid : BitVec 16) (imm : Byte), op.toNat = 0x02 ∨ (0x50 ≤ op.toNat ∧ op.toNat ≤ 0x52) → mid ≠ 0 →
      runCommand (op ++ mid ++ imm) s = .next (faulted (op ++ mid ++ imm) 0xF)) ∧
    (∀ (op : Byte) (u : UnitCode),
      ((0x20 ≤ op.toNat ∧ op.toNat ≤ 0x26 ∧ 5 < u.toNat) ∨
       (0x30 ≤ op.toNat ∧ op.toNat ≤ 0x38 ∧ u.toNat ≠ 6 ∧ u.toNat ≠ 7) ∨
       (0x40 ≤ op.toNat ∧ op.toNat ≤ 0x45 ∧ u.toNat ≠ 8)) →
      runCommand (op ++ u ++ 0#20) s = .next (faulted (op ++ u ++ 0#20) u)) ∧
    (∀ (op : Byte) (low : BitVec 24),
      ((0x06 ≤ op.toNat ∧ op.toNat ≤ 0x0F) ∨ (0x1A ≤ op.toNat ∧ op.toNat ≤ 0x1F) ∨
       (0x27 ≤ op.toNat ∧ op.toNat ≤ 0x2F) ∨ (0x39 ≤ op.toNat ∧ op.toNat ≤ 0x3F) ∨
       (0x46 ≤ op.toNat ∧ op.toNat ≤ 0x4F) ∨ 0x53 ≤ op.toNat) →
      runCommand (op ++ low) s = .next (faulted (op ++ low) 0xF))

/-- The worked encodings of R112, in both directions, and its four illegal words. -/
def Obligations.WorkedEncodings : Prop :=
  encode .wcAdd = 0x10000000#32 ∧ decode 0x10000000#32 = .ok .wcAdd ∧
  encode (.rotApplyf 3#4) = 0x21300000#32 ∧ decode 0x21300000#32 = .ok (.rotApplyf 3#4) ∧
  encode (.prmAdvance 7#4) = 0x37700000#32 ∧ decode 0x37700000#32 = .ok (.prmAdvance 7#4) ∧
  encode .ctrIndex = 0x44800000#32 ∧ decode 0x44800000#32 = .ok .ctrIndex ∧
  encode (.engSetdir 2#8) = 0x02000002#32 ∧ decode 0x02000002#32 = .ok (.engSetdir 2#8) ∧
  encode (.bitSet 200#8) = 0x510000C8#32 ∧ decode 0x510000C8#32 = .ok (.bitSet 200#8) ∧
  decode 0x21600000#32 = .error (.unitRange 6#4) ∧
  decode 0x10000001#32 = .error (.mustBeZero 0xF#4) ∧
  decode 0x06000000#32 = .error .unknownOpcode ∧
  decode 0x44700000#32 = .error (.unitRange 7#4)

/-- What a step runs: on the host's turn, with a command word as the oldest pending action, the command the word decodes to, after
taking the turn and the word off their lists; on a worker's turn, that worker (30_encoding R103, 00_scope R18). That the coming turns are
a list whose head is the next turn is the model's choice (log 1), and so is the list of pending host actions (log 2). -/
def Obligations.StepRunsTheDecodedInstruction : Prop :=
  (∀ (s : State) (w : Cmd) (rest : List HostAction) (i : Instr),
    (nextTurn s).1 = .host → s.hostq = .cmd w :: rest → decode w = .ok i →
      step s = exec i { (nextTurn s).2 with hostq := rest }) ∧
  (∀ (s : State) (p : Fin 9), (nextTurn s).1 = .worker p → step s = workerTurn p (nextTurn s).2) ∧
  (∀ (s : State) (turns : List Turn) (turn : Turn), s.sched = turn :: turns →
    nextTurn s = (turn, { s with sched := turns }))

/-! ### Faults and reset (60_exceptions, 70_reset, 10_state) -/

/-- Fault entry (R351): a step that raises a fault writes `FAULT`, `FCMD` and `FAULTED`, the line `FATAL` goes to 1, and nothing else
in the block changes; what is recorded is one of the four forms of 10_state R28 and R29. For a command the cause and the unit are those
of its own rule and are left open here; that an over-long push is a byte list, recorded as its length modulo 256, is the model's choice
(log 12). -/
def Obligations.FaultWritesNothingElse : Prop :=
  ∀ s t : State, s.faulted = false → step s = .next t → t.faulted = true →
    sameBlock { s with fault := t.fault, fcmd := t.fcmd, faulted := true } t ∧ fatalLine t = true ∧
    ((∃ (w : Cmd) (c : Cause) (u : UnitCode), s.hostq.head? = some (.cmd w) ∧
        t.fault = { cause := causeCode c, unit := u, src := 0, worker := 0 } ∧ t.fcmd = w.setWidth 64) ∨
     (∃ p : Fin 9, t.fault = { cause := 0x14, unit := 8, src := 1, worker := BitVec.ofNat 4 p.val } ∧ t.fcmd = 0) ∨
     (∃ a : RegNum, (s.hostq.head? = some (.rd a) ∨ ∃ v, s.hostq.head? = some (.wr a v)) ∧
        t.fault = { cause := 0x03, unit := 0xF, src := 2, worker := 0 } ∧ t.fcmd = a.setWidth 64) ∨
     (∃ bytes : List Byte, s.hostq.head? = some (.push bytes) ∧ 32 < bytes.length ∧
        t.fault = { cause := 0x40, unit := 0xF, src := 3, worker := 0 } ∧
        t.fcmd = (BitVec.ofNat 8 bytes.length).setWidth 64))

/-- The frozen block (R355): every command and every `WR` is dropped, no worker moves, the ports are never ready, an over-long `PUSH` is
dropped, `RD` works and records nothing; so no step but a `RESET` changes the block. That `PUSH` and `POP` stay blocked rather than drop is read
from R355 by inference (log 23); that an idle worker's turn changes nothing (log 4), and that only the next two pending actions can be
the `RESET` (log 5), are the model's choices. -/
def Obligations.FrozenWhileFaulted : Prop :=
  ∀ s : State, s.faulted = true →
    (∀ w, runCommand w s = .next s) ∧ (∀ a v, performAction (.wr a v) s = .next s) ∧
    (∀ p, workerTurn p s = .next s) ∧
    (∀ bytes : List Byte, bytes.length ≤ 32 → actionBlocked s (.push bytes) = true) ∧ actionBlocked s .pop = true ∧
    (∀ bytes : List Byte, 32 < bytes.length →
      actionBlocked s (.push bytes) = false ∧ performAction (.push bytes) s = .next s) ∧
    (statusWord s).getLsbD 8 = false ∧ (statusWord s).getLsbD 9 = false ∧ (statusWord s).getLsbD 10 = false ∧
    (∀ a : RegNum, performAction (.rd a) s =
      .next { s with replies := s.replies ++ [.value (((regOf a.toNat).map (readReg s)).getD 0)] }) ∧
    (HostAction.reset ∉ s.hostq.take 2 → ∃ t, step s = .next t ∧ sameBlock s t)

/-- `RESET` (70_reset R390, 10_state R54): at any time, faulted or not, every piece of state goes to its reset value and `FATAL` to 0;
a `PUSH` or `POP` the host was blocked at is abandoned with it. That the host gives up a blocked port only for a `RESET` that is its very
next action (log 5), and that its later actions stay pending (log 20), are the model's choices. -/
def Obligations.ResetLeaves : Prop :=
  ∀ (s : State) (rest : List HostAction),
    ((nextTurn s).1 = .host ∧ s.hostq = .reset :: rest) ∨
    ((nextTurn s).1 = .hostReset ∧ ∃ x, s.hostq = x :: .reset :: rest ∧ actionBlocked s x = true) →
    ∃ t, step s = .next t ∧ IsReset t ∧ fatalLine t = false ∧ t.hostq = rest

/-- The register port (R367, 10_state R22, R56): a `WR` to a writable register keeps the low bits, shows them in the register and in no
other, and changes nothing but host-writable state; any other `WR` faults; an `RD` returns the value of an implemented register
without side effect, and 0 with a fault for any other number; and every register number shows its own piece of state. -/
def Obligations.RegisterPort : Prop :=
  (∀ s : State, RegistersShow s) ∧
  ∀ (a : RegNum) (s : State), s.faulted = false → Mem.wf s.wstr → Mem.wf s.blk → Mem.wf s.stg →
    (∀ (v : Word) (n : Nat), rwWidth a.toNat = some n →
      ∃ r t, regOf a.toNat = some r ∧ performAction (.wr a v) s = .next t ∧
        readReg t r = BitVec.ofNat 64 (v.toNat % 2 ^ n) ∧
        (∀ r' : Reg, r' ≠ r → readReg t r' = readReg s r') ∧
        t = { s with
          nst := t.nst, order := t.order, waccLo := t.waccLo, waccHi := t.waccHi, wop := t.wop, wstrLen := t.wstrLen,
          wstr := t.wstr, blk := t.blk, blkLen := t.blkLen, psize := t.psize, pstart := t.pstart, pstep := t.pstep,
          plen := t.plen, stg := t.stg }) ∧
    (∀ v : Word, rwWidth a.toNat = none →
      performAction (.wr a v) s = .next { s with
        fault := { cause := 0x03, unit := 0xF, src := 2, worker := 0 }, fcmd := a.setWidth 64, faulted := true }) ∧
    (rwWidth a.toNat ≠ none ∨ roRegister a.toNat = true →
      ∃ r, regOf a.toNat = some r ∧
        performAction (.rd a) s = .next { s with replies := s.replies ++ [.value (readReg s r)] }) ∧
    (rwWidth a.toNat = none → roRegister a.toNat = false →
      performAction (.rd a) s = .next { s with
        replies := s.replies ++ [.value 0]
        fault := { cause := 0x03, unit := 0xF, src := 2, worker := 0 }, fcmd := a.setWidth 64, faulted := true })

/-- The fields of `STATUS` (10_state R25). -/
def Obligations.StatusFields : Prop :=
  ∀ s : State,
    regOf 0x001 = some .status ∧ readReg s .status = statusWord s ∧
    (statusWord s).extractLsb' 0 3 = BitVec.ofNat 3 (estateCode s.estate) ∧
    (statusWord s).getLsbD 3 = s.faulted ∧ (statusWord s).getLsbD 4 = s.closing ∧
    (statusWord s).getLsbD 5 = s.flagZ ∧ (statusWord s).getLsbD 6 = s.flagB ∧ (statusWord s).getLsbD 7 = s.untracked ∧
    (statusWord s).getLsbD 8 = inReady s ∧ (statusWord s).getLsbD 9 = outValid s ∧
    (statusWord s).getLsbD 10 = (!s.faulted && quiescent s) ∧ (statusWord s).getLsbD 11 = false ∧
    (statusWord s).extractLsb' 12 2 = BitVec.ofNat 2 (dirCode s.dir) ∧ (statusWord s).extractLsb' 14 50 = 0

/-- The condition flags (10_state R25): each is written only by the commands named there and keeps its value across every other
command. -/
def Obligations.FlagsWrittenOnlyBy : Prop :=
  ∀ (i : Instr) (s t : State), exec i s = .next t →
    (i ≠ .wcIszero → t.flagZ = s.flagZ) ∧
    ((∀ n, i ≠ .bitGet n) → t.flagB = s.flagB) ∧
    ((∀ u, i ≠ .rotIndex u ∧ i ≠ .prmIndex u) → i ≠ .ctrIndex → i ≠ .engIndex → t.untracked = s.untracked) ∧
    ((∀ d, i ≠ .engSetdir d) → t.dir = s.dir)

/-- The transitions of `ESTATE` (46_pipeline R301): the events of the table and no other. -/
def Obligations.EngineStateTransitions : Prop :=
  ∀ s t : State, step s = .next t →
    t.estate = s.estate ∨
    (t.estate = .created ∧ HostAction.reset ∈ s.hostq.take 2) ∨
    (s.hostq.head? = some (.cmd 0x01000000#32) ∧ s.estate = .created ∧ t.estate = .initialized) ∨
    (s.hostq.head? = some (.cmd 0x03000000#32) ∧ (s.estate = .initialized ∨ s.estate = .closed) ∧
      ((s.dir = .encrypt ∧ t.estate = .encBuilt) ∨ (s.dir = .decrypt ∧ t.estate = .decBuilt))) ∨
    (s.hostq.head? = some .pop ∧ built s = true ∧ t.estate = .closed ∧
      ∃ k, outSlot s = some k ∧ slotSentinel s k)

/-! ### Wide-counter unit (44_wide_counter) -/

/-- WC.ADD, WC.SUB and WC.MUL (R240, R242, R244): the exact result in `WACC`, or the fault and no change; and the word-level forms that
R242 and R244 give. -/
def Obligations.WcAddSubMul : Prop :=
  ∀ s : State, s.faulted = false →
    encode .wcAdd = 0x10000000#32 ∧ encode .wcSub = 0x11000000#32 ∧ encode .wcMul = 0x12000000#32 ∧
    (wacc s + s.wop.toNat < 2 ^ 128 →
      exec .wcAdd s = .next { s with
        waccLo := BitVec.ofNat 64 (wacc s + s.wop.toNat), waccHi := BitVec.ofNat 64 ((wacc s + s.wop.toNat) / 2 ^ 64) }) ∧
    (2 ^ 128 ≤ wacc s + s.wop.toNat → exec .wcAdd s = .next (commandFaulted .wcAdd .wcAddOverflow 0xF s)) ∧
    (s.wop.toNat ≤ wacc s →
      exec .wcSub s = .next { s with
        waccLo := BitVec.ofNat 64 (wacc s - s.wop.toNat), waccHi := BitVec.ofNat 64 ((wacc s - s.wop.toNat) / 2 ^ 64) }) ∧
    (wacc s < s.wop.toNat → exec .wcSub s = .next (commandFaulted .wcSub .wcSubUnderflow 0xF s)) ∧
    (let b : Nat := if s.waccLo.toNat < s.wop.toNat then 1 else 0
     (wacc s < s.wop.toNat ↔ b = 1 ∧ s.waccHi.toNat = 0) ∧
     (s.wop.toNat ≤ wacc s →
       BitVec.ofNat 64 (wacc s - s.wop.toNat) = s.waccLo - s.wop ∧
       (wacc s - s.wop.toNat) / 2 ^ 64 = s.waccHi.toNat - b)) ∧
    (wacc s * s.wop.toNat < 2 ^ 128 →
      exec .wcMul s = .next { s with
        waccLo := BitVec.ofNat 64 (wacc s * s.wop.toNat), waccHi := BitVec.ofNat 64 ((wacc s * s.wop.toNat) / 2 ^ 64) }) ∧
    (2 ^ 128 ≤ wacc s * s.wop.toNat → exec .wcMul s = .next (commandFaulted .wcMul .wcMulOverflow 0xF s)) ∧
    (let p0 := s.waccLo.toNat * s.wop.toNat
     let p1 := s.waccHi.toNat * s.wop.toNat
     let m := p0 / 2 ^ 64 + p1 % 2 ^ 64
     (2 ^ 128 ≤ wacc s * s.wop.toNat ↔ p1 / 2 ^ 64 ≠ 0 ∨ 2 ^ 64 ≤ m) ∧
     (wacc s * s.wop.toNat < 2 ^ 128 →
       (wacc s * s.wop.toNat) % 2 ^ 64 = p0 % 2 ^ 64 ∧ (wacc s * s.wop.toNat) / 2 ^ 64 = m))

/-- WC.DIV, WC.DIVMOD and WC.MOD (R246 to R252): the quotient and remainder that the word-by-word long division of R247 gives. -/
def Obligations.WcDivisions : Prop :=
  ∀ s : State, s.faulted = false →
    encode .wcDiv = 0x13000000#32 ∧ encode .wcDivmod = 0x14000000#32 ∧ encode .wcMod = 0x15000000#32 ∧
    (s.wop ≠ 0 →
      let d := s.wop.toNat
      let qHi := s.waccHi.toNat / d
      let qLo := (2 ^ 64 * (s.waccHi.toNat % d) + s.waccLo.toNat) / d
      let r := (2 ^ 64 * (s.waccHi.toNat % d) + s.waccLo.toNat) % d
      qLo < 2 ^ 64 ∧ 2 ^ 64 * qHi + qLo = wacc s / d ∧ r = wacc s % d ∧
      exec .wcDiv s = .next { s with waccLo := BitVec.ofNat 64 qLo, waccHi := BitVec.ofNat 64 qHi } ∧
      exec .wcDivmod s = .next { s with
        waccLo := BitVec.ofNat 64 qLo, waccHi := BitVec.ofNat 64 qHi, wrem := BitVec.ofNat 64 r } ∧
      exec .wcMod s = .next { s with wrem := BitVec.ofNat 64 r }) ∧
    (s.wop = 0 → ∀ i, i = .wcDiv ∨ i = .wcDivmod ∨ i = .wcMod →
      exec i s = .next (commandFaulted i .wcDivZero 0xF s))

/-- WC.INC and WC.ISZERO (R254, R256). -/
def Obligations.WcIncIszero : Prop :=
  ∀ s : State, s.faulted = false →
    encode .wcInc = 0x16000000#32 ∧ encode .wcIszero = 0x17000000#32 ∧
    (wacc s ≠ 2 ^ 128 - 1 →
      exec .wcInc s = .next { s with
        waccLo := BitVec.ofNat 64 (wacc s + 1), waccHi := BitVec.ofNat 64 ((wacc s + 1) / 2 ^ 64) }) ∧
    (wacc s = 2 ^ 128 - 1 → exec .wcInc s = .next (commandFaulted .wcInc .wcIncOverflow 0xF s)) ∧
    exec .wcIszero s = .next { s with flagZ := decide (s.waccLo = 0 ∧ s.waccHi = 0) }

/-- WC.PARSE (R262): a string of 1 to 64 digits whose number fits 128 bits is loaded; otherwise the first check that fails, in string
order, decides the fault. -/
def Obligations.WcParse : Prop :=
  ∀ s : State, s.faulted = false →
    let n := s.wstrLen.toNat
    let str := readBytes s.wstr 0 n
    let digit : Byte → Prop := fun ch => 0x30 ≤ ch.toNat ∧ ch.toNat ≤ 0x39
    encode .wcParse = 0x18000000#32 ∧
    (1 ≤ n → n ≤ 64 → (∀ ch ∈ str, digit ch) → decimalValue str < 2 ^ 128 →
      exec .wcParse s = .next { s with
        waccLo := BitVec.ofNat 64 (decimalValue str), waccHi := BitVec.ofNat 64 (decimalValue str / 2 ^ 64) }) ∧
    (n = 0 ∨ 64 < n → exec .wcParse s = .next (commandFaulted .wcParse .wcParse 0xF s)) ∧
    (1 ≤ n → n ≤ 64 → ∀ (pre : List Byte) (ch : Byte) (post : List Byte), str = pre ++ ch :: post →
      (∀ c ∈ pre, digit c) → decimalValue pre < 2 ^ 128 →
      (¬ digit ch → exec .wcParse s = .next (commandFaulted .wcParse .wcParse 0xF s)) ∧
      (digit ch → 2 ^ 128 ≤ decimalValue pre * 10 →
        exec .wcParse s = .next (commandFaulted .wcParse .wcMulOverflow 0xF s)) ∧
      (digit ch → decimalValue pre * 10 < 2 ^ 128 → 2 ^ 128 ≤ decimalValue pre * 10 + (ch.toNat - 0x30) →
        exec .wcParse s = .next (commandFaulted .wcParse .wcAddOverflow 0xF s)))

/-- WC.TOSTR (R266): the decimal digits of `WACC`, most significant first, without a leading zero, then zero bytes up to byte 63. -/
def Obligations.WcTostr : Prop :=
  ∀ s : State, s.faulted = false → Mem.wf s.wstr →
    let x := wacc s
    let n := if x = 0 then 1 else Nat.log 10 x + 1
    encode .wcTostr = 0x19000000#32 ∧ n ≤ 39 ∧
    ∃ m, exec .wcTostr s = .next { s with wstr := m, wstrLen := BitVec.ofNat 7 n } ∧ Mem.wf m ∧
      ∀ a, readByte m a =
        if a < n then BitVec.ofNat 8 (0x30 + x / 10 ^ (n - 1 - a) % 10)
        else if a < 64 then 0 else readByte s.wstr a

/-- The Add-Sub law (R243). -/
def Obligations.AddThenSub : Prop :=
  ∀ s t : State, s.faulted = false →
    (exec .wcAdd s = .next t → t.faulted = false → exec .wcSub t = .next s) ∧
    (exec .wcSub s = .next t → t.faulted = false → exec .wcAdd t = .next s)

/-- The division laws (R253). -/
def Obligations.DivisionLaws : Prop :=
  ∀ s : State, s.faulted = false → s.wop ≠ 0 →
    ∃ a b c, exec .wcDivmod s = .next a ∧ exec .wcMod s = .next b ∧ exec .wcDiv s = .next c ∧
      b.wrem = a.wrem ∧ wacc c = wacc a ∧
      wacc a * s.wop.toNat + a.wrem.toNat = wacc s ∧ a.wrem.toNat < s.wop.toNat

/-- The string laws (R268): parsing the string of a value gives the value; the string of a parsed string is that string without its
leading zeros, and "0" if it was all zeros. -/
def Obligations.ParseAndTostr : Prop :=
  ∀ s : State, s.faulted = false → Mem.wf s.wstr →
    (∃ t, exec .wcTostr s = .next t ∧ t.faulted = false ∧ wacc t = wacc s ∧ exec .wcParse t = .next t) ∧
    (∀ t, exec .wcParse s = .next t → t.faulted = false →
      ∃ u, exec .wcTostr t = .next u ∧
        readBytes u.wstr 0 u.wstrLen.toNat =
          (let str := (readBytes s.wstr 0 s.wstrLen.toNat).dropWhile (· = 0x30)
           if str = [] then [0x30] else str))

/-! ### Bit primitives (40_bitvector) -/

/-- BIT.GET, BIT.SET and BIT.CLR (R132 to R134): one bit of the block in `BLK` is read into `B`, set or cleared, every other byte is
kept; the two checks fault in their order. -/
def Obligations.BitCommands : Prop :=
  ∀ (n : Byte) (s : State), s.faulted = false → Mem.wf s.blk →
    let old := readByte s.blk (n.toNat / 8)
    encode (.bitGet n) = 0x50#8 ++ 0#16 ++ n ∧ encode (.bitSet n) = 0x51#8 ++ 0#16 ++ n ∧
    encode (.bitClr n) = 0x52#8 ++ 0#16 ++ n ∧
    (s.blkLen.toNat ≤ 32 → n.toNat < 8 * s.blkLen.toNat →
      exec (.bitGet n) s = .next { s with flagB := old.getLsbD (n.toNat % 8) } ∧
      (∃ m, exec (.bitSet n) s = .next { s with blk := m } ∧ Mem.wf m ∧
        ∀ a, readByte m a = if a = n.toNat / 8 then old ||| 1#8 <<< (n.toNat % 8) else readByte s.blk a) ∧
      (∃ m, exec (.bitClr n) s = .next { s with blk := m } ∧ Mem.wf m ∧
        ∀ a, readByte m a = if a = n.toNat / 8 then old &&& ~~~ (1#8 <<< (n.toNat % 8)) else readByte s.blk a)) ∧
    (∀ i, i = .bitGet n ∨ i = .bitSet n ∨ i = .bitClr n →
      (32 < s.blkLen.toNat → exec i s = .next (commandFaulted i .badBlockLen 0xF s)) ∧
      (s.blkLen.toNat ≤ 32 → 8 * s.blkLen.toNat ≤ n.toNat → exec i s = .next (commandFaulted i .badBitIndex 0xF s)))

/-! ### Rotor (41_rotor) -/

/-- The common checks of R151 and 42_permutator R181: a unit that is not valid, then a block longer than 32 bytes. -/
def Obligations.UnitChecks : Prop :=
  ∀ s : State, s.faulted = false →
    (∀ k, (rotor s k).valid = false →
      ∀ f ∈ [Instr.rotApplyf, .rotApplyg, .rotSetindex, .rotIndex, .rotUpdate, .rotDump],
        exec (f (unitCode (.rotor k))) s =
          .next (commandFaulted (f (unitCode (.rotor k))) .unitNotValid (unitCode (.rotor k)) s)) ∧
    (∀ k, (rotor s k).valid = true → 32 < s.blkLen.toNat → ∀ f ∈ [Instr.rotApplyf, .rotApplyg],
      exec (f (unitCode (.rotor k))) s =
        .next (commandFaulted (f (unitCode (.rotor k))) .badBlockLen (unitCode (.rotor k)) s)) ∧
    (∀ k, (perm s k).valid = false →
      ∀ f ∈ [Instr.prmApplyf, .prmApplyg, .prmSetindex, .prmIndex, .prmUpdate, .prmDump, .prmAdvance, .prmRebuild],
        exec (f (unitCode (.perm k))) s =
          .next (commandFaulted (f (unitCode (.perm k))) .unitNotValid (unitCode (.perm k)) s)) ∧
    (∀ k, (perm s k).valid = true → 32 < s.blkLen.toNat → ∀ f ∈ [Instr.prmApplyf, .prmApplyg],
      exec (f (unitCode (.perm k))) s =
        .next (commandFaulted (f (unitCode (.perm k))) .badBlockLen (unitCode (.perm k)) s))

/-- ROT.CONSTRUCT and, on a valid unit, ROT.UPDATE (R152, R160): the parameters, the data bits, their mirror, zero padding, `CURRENT` at
`START`; bytes above the buffer in use are kept; bad parameters fault and change nothing. At a point that is not quiescent, on a unit
left undefined and no longer live-bound, these values are the model's choice (DESIGN CHOICE, log 25). -/
def Obligations.RotConstructUpdate : Prop :=
  ∀ (k : Fin 6) (s : State) (i : Instr), s.faulted = false →
    (i = .rotConstruct (unitCode (.rotor k)) ∨ (i = .rotUpdate (unitCode (.rotor k)) ∧ (rotor s k).valid = true)) →
    let S := s.psize.toNat
    let A := s.pstart.toNat
    let T := s.pstep.toNat
    let nb := (S + 7) / 8
    (256 ≤ S ∧ S ≤ 4095 ∧ A < S ∧ T ≠ 0 ∧ T < S → breaksPrecondition s (.rotor k) = false → Mem.wf (rotor s k).buf →
      ∃ m, exec i s =
          .next (settle s (.rotor k) (setRotor k { size := BitVec.ofNat 12 S, start := BitVec.ofNat 12 A,
                                                   step := BitVec.ofNat 12 T, current := BitVec.ofNat 12 A,
                                                   valid := true, buf := m } s)) ∧ Mem.wf m ∧
        (∀ j, j < S → bufBit m j = bufBit s.stg j) ∧
        (∀ j, j < 256 → bufBit m (S + j) = bufBit m j) ∧
        (∀ j, S + 256 ≤ j → j < 8 * (nb + 32) → bufBit m j = false) ∧
        (∀ a, nb + 32 ≤ a → readByte m a = readByte (rotor s k).buf a)) ∧
    (¬ (256 ≤ S ∧ S ≤ 4095 ∧ A < S ∧ T ≠ 0 ∧ T < S) →
      exec i s = .next (commandFaulted i .badRotorParam (unitCode (.rotor k)) s))

/-- ROT.APPLYF (R154, R155): the block in `BLK`, as a little-endian number, plus the circular window at `CURRENT`, modulo `2^(8n)`;
`CURRENT` moves one step; the bytes of `BLK` at `BLKLEN` and above are kept. -/
def Obligations.RotApplyF : Prop :=
  ∀ (k : Fin 6) (s : State), s.faulted = false → (rotor s k).valid = true → RotorGood (rotor s k) →
    s.blkLen.toNat ≤ 32 → Mem.wf s.blk → UnitDefined s (.rotor k) →
    let r := rotor s k
    let n := s.blkLen.toNat
    ∃ m, exec (.rotApplyf (unitCode (.rotor k))) s =
        .next { setRotor k
            { r with current := BitVec.ofNat 12 ((r.current.toNat + r.step.toNat) % r.size.toNat) } s with blk := m } ∧
      Mem.wf m ∧ (∀ a, n ≤ a → readByte m a = readByte s.blk a) ∧
      leNat (readBytes m 0 n) = (leNat (readBytes s.blk 0 n) + windowNumber r n) % 2 ^ (8 * n)

/-- ROT.APPLYG (R156): the same with the window subtracted; `CURRENT` moves forward too. -/
def Obligations.RotApplyG : Prop :=
  ∀ (k : Fin 6) (s : State), s.faulted = false → (rotor s k).valid = true → RotorGood (rotor s k) →
    s.blkLen.toNat ≤ 32 → Mem.wf s.blk → UnitDefined s (.rotor k) →
    let r := rotor s k
    let n := s.blkLen.toNat
    ∃ m, exec (.rotApplyg (unitCode (.rotor k))) s =
        .next { setRotor k
            { r with current := BitVec.ofNat 12 ((r.current.toNat + r.step.toNat) % r.size.toNat) } s with blk := m } ∧
      Mem.wf m ∧ (∀ a, n ≤ a → readByte m a = readByte s.blk a) ∧
      (leNat (readBytes m 0 n) : Int) = ((leNat (readBytes s.blk 0 n) : Int) - windowNumber r n) % 2 ^ (8 * n)

/-- ROT.SETINDEX (R158): multiply, add, then modulo, each in 128 bits; index 0 gives `START`; an overflow faults and moves nothing. On a
unit whose state 46_pipeline R319 leaves undefined it completes without a fault (92_eei_decisions D33; log 8). At a point that is not
quiescent, on a unit left undefined and no longer live-bound, the `CURRENT` shown is the model's choice (DESIGN CHOICE, log 25). -/
def Obligations.RotSetindex : Prop :=
  ∀ (k : Fin 6) (s : State), s.faulted = false → (rotor s k).valid = true →
    let r := rotor s k
    let u := unitCode (.rotor k)
    let i := wacc s
    let placed (c : BitVec 12) : State := settle s (.rotor k) (setRotor k { r with current := c } s)
    encode (.rotSetindex u) = 0x23#8 ++ u ++ 0#20 ∧
    (breaksPrecondition s (.rotor k) = false →
      (i = 0 → exec (.rotSetindex u) s = .next (placed r.start)) ∧
      (i ≠ 0 → i * r.step.toNat + r.start.toNat < 2 ^ 128 →
        exec (.rotSetindex u) s =
          .next (placed (BitVec.ofNat 12 ((i * r.step.toNat + r.start.toNat) % r.size.toNat))))) ∧
    (unsettled s (.rotor k) = false →
      (2 ^ 128 ≤ i * r.step.toNat →
        exec (.rotSetindex u) s = .next (commandFaulted (.rotSetindex u) .wcMulOverflow u s)) ∧
      (i ≠ 0 → i * r.step.toNat < 2 ^ 128 → 2 ^ 128 ≤ i * r.step.toNat + r.start.toNat →
        exec (.rotSetindex u) s = .next (commandFaulted (.rotSetindex u) .wcAddOverflow u s))) ∧
    (unsettled s (.rotor k) = true → ∃ t, exec (.rotSetindex u) s = .next t ∧ t.faulted = false)

/-- ROT.INDEX and PRM.INDEX (R159, 42_permutator R192): `UNTRACKED` is set and nothing else changes; a unit that is not valid faults. -/
def Obligations.IndexUntracked : Prop :=
  ∀ s : State, s.faulted = false →
    (∀ k,
      let i := Instr.rotIndex (unitCode (.rotor k))
      encode i = 0x24#8 ++ unitCode (.rotor k) ++ 0#20 ∧
      ((rotor s k).valid = true → exec i s = .next { s with untracked := true }) ∧
      ((rotor s k).valid = false → exec i s = .next (commandFaulted i .unitNotValid (unitCode (.rotor k)) s))) ∧
    (∀ k,
      let i := Instr.prmIndex (unitCode (.perm k))
      encode i = 0x34#8 ++ unitCode (.perm k) ++ 0#20 ∧
      ((perm s k).valid = true → exec i s = .next { s with untracked := true }) ∧
      ((perm s k).valid = false → exec i s = .next (commandFaulted i .unitNotValid (unitCode (.perm k)) s)))

/-- ROT.DUMP (R162): the buffer in use and the parameters are copied out; the rest of `STG` and the unit are kept. -/
def Obligations.RotDump : Prop :=
  ∀ (k : Fin 6) (s : State), s.faulted = false → (rotor s k).valid = true → Mem.wf s.stg →
    let r := rotor s k
    ∃ m, exec (.rotDump (unitCode (.rotor k))) s =
        .next { s with stg := m, psize := r.size.setWidth 64, pstart := r.start.setWidth 64, pstep := r.step.setWidth 64 } ∧
      Mem.wf m ∧
      ∀ a, readByte m a = if a < (r.size.toNat + 7) / 8 + 32 then readByte r.buf a else readByte s.stg a

/-! ### Permutator (42_permutator) -/

/-- PRM.CONSTRUCT and, on a valid unit, PRM.UPDATE (R183, R194): four lengths from 1 to 256 with sum 256 and a staged permutation give
the unit at offset 0; anything else faults and changes nothing. That its `BPERM` is then the identity holds for reading a of the open
parameter `REBUILD_READING`, which the model takes (log 11). At a point that is not quiescent, on a unit left undefined and no longer
live-bound, these values are the model's choice (DESIGN CHOICE, log 25). -/
def Obligations.PrmConstructUpdate : Prop :=
  ∀ (k : Fin 2) (s : State) (i : Instr), s.faulted = false →
    (i = .prmConstruct (unitCode (.perm k)) ∨ (i = .prmUpdate (unitCode (.perm k)) ∧ (perm s k).valid = true)) →
    let l : Fin 4 → Nat := fun j => s.plen[j].toNat
    let good : Prop := (∀ j, l j ≠ 0 ∧ l j ≤ 256) ∧ l 0 + l 1 + l 2 + l 3 = 256 ∧ TableBijective s.stg
    (good → breaksPrecondition s (.perm k) = false → Mem.wf (perm s k).randp → Mem.wf (perm s k).bperm →
      ∃ mr mb, exec i s =
          .next (settle s (.perm k) (setPerm k
            { len := s.plen.map (·.setWidth 9)
              start := #v[0, BitVec.ofNat 8 (l 0), BitVec.ofNat 8 (l 0 + l 1), BitVec.ofNat 8 (l 0 + l 1 + l 2)]
              cur := #v[0, 0, 0, 0]
              cstate := 0
              maxst := BitVec.ofNat 25 (l 0 * l 1 * l 2 * l 3)
              valid := true
              randp := mr
              bperm := mb } s)) ∧ Mem.wf mr ∧ Mem.wf mb ∧
        (∀ a, readByte mr a = if a < 256 then readByte s.stg a else readByte (perm s k).randp a) ∧
        (∀ a, readByte mb a = if a < 256 then BitVec.ofNat 8 a else readByte (perm s k).bperm a)) ∧
    (¬ good → exec i s = .next (commandFaulted i .badPermParam (unitCode (.perm k)) s))

/-- The rebuild function in reading a of the document's garbled formula, the one R184 states and the model's value of the open parameter
`REBUILD_READING` (log 11): in every segment the value at place `x` is sent to the value `CUR` places further round the ring; the
result is a bijection, and nothing but the table is written. -/
def Obligations.RebuildRotatesTheCycles : Prop :=
  ∀ p : Perm, CyclesOk p → Mem.wf p.bperm →
    (∀ (j : Fin 4) (x : Nat), x < p.len[j].toNat →
      readByte (rebuild p).bperm (readByte p.randp (p.start[j].toNat + x)).toNat =
        readByte p.randp (p.start[j].toNat + (p.cur[j].toNat + x) % p.len[j].toNat)) ∧
    TableBijective (rebuild p).bperm ∧
    (∀ a, 256 ≤ a → readByte (rebuild p).bperm a = readByte p.bperm a) ∧
    rebuild p = { p with bperm := (rebuild p).bperm }

/-- PRM.REBUILD (R185): on a unit that holds its invariants it has no effect. -/
def Obligations.PrmRebuildNoEffect : Prop :=
  ∀ (k : Fin 2) (s : State), s.faulted = false → (perm s k).valid = true → PermGood (perm s k) →
    unsettled s (.perm k) = false →
    encode (.prmRebuild (unitCode (.perm k))) = 0x38#8 ++ unitCode (.perm k) ++ 0#20 ∧
    exec (.prmRebuild (unitCode (.perm k))) s = .next s

/-- PRM.ADVANCE (R186): every offset and the state counter tick, each modulo its own length, and the table is rebuilt for the new
offsets. -/
def Obligations.PrmAdvance : Prop :=
  ∀ (k : Fin 2) (s : State), s.faulted = false → (perm s k).valid = true → PermGood (perm s k) →
    Mem.wf (perm s k).bperm → unsettled s (.perm k) = false →
    let p := perm s k
    ∃ q : Perm, exec (.prmAdvance (unitCode (.perm k))) s = .next (setPerm k q s) ∧
      q = { p with cur := q.cur, cstate := q.cstate, bperm := q.bperm } ∧
      (∀ j : Fin 4, q.cur[j].toNat = (p.cur[j].toNat + 1) % p.len[j].toNat) ∧
      q.cstate.toNat = (p.cstate.toNat + 1) % p.maxst.toNat ∧ Mem.wf q.bperm ∧ (rebuild q).bperm = q.bperm ∧
      (∀ a, 256 ≤ a → readByte q.bperm a = readByte p.bperm a)

/-- PRM.APPLYF (R187): bit `i` of a full block moves to bit `BPERM[i]`, a shorter block passes unchanged, and the unit advances for
every length; the bytes of `BLK` at `BLKLEN` and above are kept. -/
def Obligations.PrmApplyF : Prop :=
  ∀ (k : Fin 2) (s : State), s.faulted = false → (perm s k).valid = true → PermGood (perm s k) →
    s.blkLen.toNat ≤ 32 → Mem.wf s.blk → Mem.wf (perm s k).bperm → UnitDefined s (.perm k) →
    let p := perm s k
    ∃ m, exec (.prmApplyf (unitCode (.perm k))) s = .next { setPerm k (permAdvance p) s with blk := m } ∧ Mem.wf m ∧
      (∀ a, s.blkLen.toNat ≤ a → readByte m a = readByte s.blk a) ∧
      (s.blkLen.toNat = 32 → ∀ i, i < 256 → bufBit m (readByte p.bperm i).toNat = bufBit s.blk i) ∧
      (s.blkLen.toNat < 32 → m = s.blk)

/-- PRM.APPLYG (R188): the inverse mapping, with the same advance. -/
def Obligations.PrmApplyG : Prop :=
  ∀ (k : Fin 2) (s : State), s.faulted = false → (perm s k).valid = true →
    s.blkLen.toNat ≤ 32 → Mem.wf s.blk → UnitDefined s (.perm k) →
    let p := perm s k
    ∃ m, exec (.prmApplyg (unitCode (.perm k))) s = .next { setPerm k (permAdvance p) s with blk := m } ∧ Mem.wf m ∧
      (∀ a, s.blkLen.toNat ≤ a → readByte m a = readByte s.blk a) ∧
      (s.blkLen.toNat = 32 → ∀ i, i < 256 → bufBit m i = bufBit s.blk (readByte p.bperm i).toNat) ∧
      (s.blkLen.toNat < 32 → m = s.blk)

/-- PRM.SETINDEX (R190): `CSTATE` is `WACC` modulo `MAXST`, every offset is `CSTATE` modulo its length, and the table is rebuilt.
At a point that is not quiescent, on a unit left undefined and no longer live-bound, these values are the model's choice (DESIGN
CHOICE, log 25). -/
def Obligations.PrmSetindex : Prop :=
  ∀ (k : Fin 2) (s : State), s.faulted = false → (perm s k).valid = true → PermGood (perm s k) →
    Mem.wf (perm s k).bperm → breaksPrecondition s (.perm k) = false →
    let p := perm s k
    ∃ q : Perm, exec (.prmSetindex (unitCode (.perm k))) s = .next (settle s (.perm k) (setPerm k q s)) ∧
      q = { p with cur := q.cur, cstate := q.cstate, bperm := q.bperm } ∧
      q.cstate.toNat = wacc s % p.maxst.toNat ∧
      (∀ j : Fin 4, q.cur[j].toNat = wacc s % p.maxst.toNat % p.len[j].toNat) ∧
      Mem.wf q.bperm ∧ (rebuild q).bperm = q.bperm ∧ (∀ a, 256 ≤ a → readByte q.bperm a = readByte p.bperm a)

/-- PRM.DUMP (R196): both tables and the lengths are copied out; the rest of `STG` and the unit are kept. -/
def Obligations.PrmDump : Prop :=
  ∀ (k : Fin 2) (s : State), s.faulted = false → (perm s k).valid = true → Mem.wf s.stg →
    let p := perm s k
    ∃ m, exec (.prmDump (unitCode (.perm k))) s = .next { s with stg := m, plen := p.len.map (·.setWidth 64) } ∧ Mem.wf m ∧
      ∀ a, readByte m a =
        if a < 256 then readByte p.randp a
        else if a < 512 then readByte p.bperm (a - 256) else readByte s.stg a

/-- The inverse laws (41_rotor R157, R189): G undoes F and F undoes G from the same state of the unit, for every block, and both leave
the unit in the same state. -/
def Obligations.InverseLaws : Prop :=
  (∀ (r : Rotor) (b : List Byte),
    (rotorG r (rotorF r b).2).2 = b ∧ (rotorF r (rotorG r b).2).2 = b ∧ (rotorG r b).1 = (rotorF r b).1) ∧
  (∀ (p : Perm) (b : List Byte), PermGood p → Mem.wf p.bperm →
    (permG p (permF p b).2).2 = b ∧ (permF p (permG p b).2).2 = b ∧ (permG p b).1 = (permF p b).1)

/-- The position laws (41_rotor R161, R191): transforms of either direction and of blocks of any length, `k` of them after a seek to
`i`, leave the unit where a seek to `i + k` puts it; the constructed unit is the one a seek to 0 gives. -/
def Obligations.PositionLaws : Prop :=
  (∀ (r : Rotor) (i : Nat) (c : BitVec 12) (blocks : List (Bool × List Byte)), RotorGood r →
    rotorSeek r i = .ok c → (i + blocks.length) * r.step.toNat + r.start.toNat < 2 ^ 128 →
    ∃ c', rotorSeek r (i + blocks.length) = .ok c' ∧
      blocks.foldl (fun x b => if b.1 then (rotorF x b.2).1 else (rotorG x b.2).1) { r with current := c } =
        { r with current := c' }) ∧
  (∀ (p : Perm) (i : Nat) (blocks : List (Bool × List Byte)), PermGood p → Mem.wf p.bperm →
    blocks.foldl (fun x b => if b.1 then (permF x b.2).1 else (permG x b.2).1) (permSeek p i) =
      permSeek p (i + blocks.length)) ∧
  (∀ r : Rotor, rotorSeek r 0 = .ok r.start) ∧
  (∀ p : Perm, PermGood p → p.cstate = 0 → permSeek p 0 = p)

/-! ### Counter (43_counter) -/

/-- CTR.RESET, CTR.SETINDEX, CTR.INDEX and CTR.UPDATE (R221, R224, R225, R226), the first two under the quiescence precondition of
46_pipeline R319. That both, at a quiescent point, end the mark `loose` of the counter (`settle`) is the model's reading of R319
(DEDUCED, log 8). At a point that is not quiescent, on a counter left undefined and no longer live-bound, the `IDX` shown is the model's
choice (DESIGN CHOICE, log 25). -/
def Obligations.CounterCommands : Prop :=
  ∀ s : State, s.faulted = false →
    encode .ctrReset = 0x40800000#32 ∧ encode .ctrSetindex = 0x43800000#32 ∧ encode .ctrIndex = 0x44800000#32 ∧
    encode .ctrUpdate = 0x45800000#32 ∧
    (breaksPrecondition s .counter = false →
      exec .ctrReset s = .next (settle s .counter { s with idx := 0 }) ∧
      exec .ctrSetindex s = .next (settle s .counter { s with idx := s.waccHi ++ s.waccLo })) ∧
    exec .ctrIndex s = .next { s with
      waccLo := s.idx.extractLsb' 0 64, waccHi := s.idx.extractLsb' 64 64, untracked := false } ∧
    exec .ctrUpdate s = .next s

/-- CTR.APPLYF and CTR.APPLYG (R222, R223): F counts one block of any length and faults rather than wrap, G counts nothing, and the
block in `BLK` is unchanged. CTR.APPLYG has no precondition (46_pipeline R319), so it runs on a live-bound counter of a busy pipeline
too; CTR.APPLYF on a counter whose state R319 leaves undefined completes without a fault (92_eei_decisions D33; log 8). -/
def Obligations.CounterTransforms : Prop :=
  ∀ s : State, s.faulted = false →
    encode .ctrApplyf = 0x41800000#32 ∧ encode .ctrApplyg = 0x42800000#32 ∧
    (s.blkLen.toNat ≤ 32 →
      (UnitDefined s .counter → s.idx.toNat ≠ 2 ^ 128 - 1 → exec .ctrApplyf s = .next { s with idx := s.idx + 1 }) ∧
      (unsettled s .counter = false → s.idx.toNat = 2 ^ 128 - 1 →
        exec .ctrApplyf s = .next (commandFaulted .ctrApplyf .wcIncOverflow 8 s)) ∧
      (unsettled s .counter = true → ∃ t, exec .ctrApplyf s = .next t ∧ t.faulted = false) ∧
      (marked s .counter = false → exec .ctrApplyg s = .next s) ∧
      ∃ t, exec .ctrApplyg s = .next t ∧ t = { s with blk := t.blk, draws := t.draws }) ∧
    (32 < s.blkLen.toNat →
      exec .ctrApplyf s = .next (commandFaulted .ctrApplyf .badBlockLen 8 s) ∧
      exec .ctrApplyg s = .next (commandFaulted .ctrApplyg .badBlockLen 8 s))

/-! ### Engine (46_pipeline) -/

/-- NOP, ENG.INIT and ENG.SETDIR (R320, R315, R316). -/
def Obligations.NopInitSetdir : Prop :=
  ∀ s : State, s.faulted = false →
    encode .nop = 0x00000000#32 ∧ encode .engInit = 0x01000000#32 ∧ (∀ d : Byte, encode (.engSetdir d) = 0x020000#24 ++ d) ∧
    exec .nop s = .next s ∧
    (s.estate = .created → exec .engInit s = .next { s with estate := .initialized }) ∧
    (s.estate ≠ .created → exec .engInit s = .next (commandFaulted .engInit .illegalState 0xF s)) ∧
    exec (.engSetdir 1) s = .next { s with dir := .encrypt } ∧
    exec (.engSetdir 2) s = .next { s with dir := .decrypt } ∧
    (∀ d : Byte, d ≠ 1 → d ≠ 2 → exec (.engSetdir d) s = .next (commandFaulted (.engSetdir d) .badDirection 0xF s))

/-- Which command is legal in which engine state (R302): four commands fault with `ILLEGAL_STATE` outside their states, and every other
command is legal in every state. -/
def Obligations.IllegalStateFaults : Prop :=
  ∀ s : State, s.faulted = false →
    (s.estate ≠ .created → exec .engInit s = .next (commandFaulted .engInit .illegalState 0xF s)) ∧
    (s.estate ≠ .initialized → s.estate ≠ .closed →
      exec .engBuild s = .next (commandFaulted .engBuild .illegalState 0xF s)) ∧
    (s.estate = .created →
      exec .engSetindex s = .next (commandFaulted .engSetindex .illegalState 0xF s) ∧
      exec .engIndex s = .next (commandFaulted .engIndex .illegalState 0xF s)) ∧
    (∀ (i : Instr) (t : State), exec i s = .next t → t.fault.cause = causeCode .illegalState → t.faulted = true →
      i = .engInit ∨ i = .engBuild ∨ i = .engSetindex ∨ i = .engIndex)

/-- ENG.BUILD (R303): the built configuration, the workers and the empty slots it leaves, in both directions; its faults in their order;
and the built pipeline, on which later writes to `NST`, `ORDER` or `DIR` have no effect. A build also ends the undefined data of R319: the
mark `tainted`, which it clears for every unit, is the model's (DEDUCED, log 8). -/
def Obligations.EngBuild : Prop :=
  (∀ s : State, s.faulted = false → s.estate = .initialized ∨ s.estate = .closed →
    let n := s.nst.toNat
    encode .engBuild = 0x03000000#32 ∧
    (1 ≤ n → n ≤ 9 → (∀ p < n, StageOk s p) → s.dir ≠ .none →
      ∃ t, exec .engBuild s = .next t ∧
        t = { s with
          nb := s.nst, bdir := s.dir, binding := t.binding, workers := t.workers, slots := t.slots, closing := false
          estate := t.estate, tainted := t.tainted } ∧
        (s.dir = .encrypt → t.estate = .encBuilt ∧ ∀ p : Fin 9, p.val < n → t.binding[p] = orderEntry s p.val) ∧
        (s.dir = .decrypt → t.estate = .decBuilt ∧ ∀ p : Fin 9, p.val < n → t.binding[p] = orderEntry s (n - 1 - p.val)) ∧
        (∀ p : Fin 9, n ≤ p.val → t.binding[p] = 0) ∧
        (∀ p : Fin 9, worker t p = { worker s p with st := if p.val < n then .wait else .off }) ∧
        (∀ k : Fin 10, slot t k = { slot s k with v := false }) ∧ ∀ u : UnitId, t.tainted[unitIndex u] = false) ∧
    (n = 0 → exec .engBuild s = .next (commandFaulted .engBuild .emptyStageList 0xF s)) ∧
    (∀ c u, CheckOrderFault s c u → exec .engBuild s = .next (commandFaulted .engBuild c u s)) ∧
    (1 ≤ n → n ≤ 9 → (∀ p < n, StageOk s p) → s.dir = .none →
      exec .engBuild s = .next (commandFaulted .engBuild .badDirection 0xF s))) ∧
  (∀ (s t : State) (v : Word) (d : Byte),
    hostWrite 0x004 v s = t ∨ hostWrite 0x005 v s = t ∨ exec (.engSetdir d) s = .next t →
    t.nb = s.nb ∧ t.bdir = s.bdir ∧ t.binding = s.binding ∧ t.workers = s.workers ∧ t.slots = s.slots ∧
      t.closing = s.closing ∧ t.estate = s.estate)

/-- ENG.SETINDEX (R317): every unit of the stage list is placed at `WACC` and no other; all or nothing: the faults of `CheckOrder`, then
the first rotor of the list whose seek overflows, decide the fault and nothing moves. A seek that overflows from the undefined state of
46_pipeline R319 is no fault (92_eei_decisions D33; log 8). At a point that is not quiescent, the position of a unit left undefined and
no longer live-bound is the model's choice (DESIGN CHOICE, log 25). -/
def Obligations.EngSetindex : Prop :=
  ∀ s : State, s.faulted = false → s.estate ≠ .created →
    (∀ c u, CheckOrderFault s c u → exec .engSetindex s = .next (commandFaulted .engSetindex c u s)) ∧
    (s.nst.toNat ≤ 9 → (∀ p < s.nst.toNat, StageOk s p) →
      ((∀ u, unitCode u ∈ stageList s → breaksPrecondition s u = false) →
       (∀ k, unitCode (.rotor k) ∈ stageList s → ∃ c, rotorSeek (rotor s k) (wacc s) = .ok c) →
        ∃ t, exec .engSetindex s = .next t ∧
          t = { s with rotors := t.rotors, perms := t.perms, idx := t.idx, loose := t.loose } ∧
          (∀ k c, unitCode (.rotor k) ∈ stageList s → rotorSeek (rotor s k) (wacc s) = .ok c →
            rotor t k = { rotor s k with current := c }) ∧
          (∀ k, unitCode (.rotor k) ∉ stageList s → rotor t k = rotor s k) ∧
          (∀ k, unitCode (.perm k) ∈ stageList s → perm t k = permSeek (perm s k) (wacc s)) ∧
          (∀ k, unitCode (.perm k) ∉ stageList s → perm t k = perm s k) ∧
          (unitCode .counter ∈ stageList s → t.idx = s.waccHi ++ s.waccLo) ∧
          (unitCode .counter ∉ stageList s → t.idx = s.idx) ∧
          (∀ u, t.loose[unitIndex u] =
            (s.loose[unitIndex u] && !(quiescent s && decide (unitCode u ∈ stageList s))))) ∧
      (∀ p < s.nst.toNat, ∀ (k : Fin 6) (c : Cause), orderEntry s p = unitCode (.rotor k) →
        unsettled s (.rotor k) = false → rotorSeek (rotor s k) (wacc s) = .error c →
        (∀ q < p, ∀ k', orderEntry s q = unitCode (.rotor k') →
          (∃ c', rotorSeek (rotor s k') (wacc s) = .ok c') ∨ unsettled s (.rotor k') = true) →
        exec .engSetindex s = .next (commandFaulted .engSetindex c (orderEntry s p) s)) ∧
      ((∀ k, unitCode (.rotor k) ∈ stageList s →
          (∃ c, rotorSeek (rotor s k) (wacc s) = .ok c) ∨ unsettled s (.rotor k) = true) →
        ∃ t, exec .engSetindex s = .next t ∧ t.faulted = false))

/-- ENG.INDEX (R318): the counter's index if the counter is in the stage list, "untracked" otherwise; the faults of `CheckOrder`. -/
def Obligations.EngIndex : Prop :=
  ∀ s : State, s.faulted = false → s.estate ≠ .created →
    (∀ c u, CheckOrderFault s c u → exec .engIndex s = .next (commandFaulted .engIndex c u s)) ∧
    (s.nst.toNat ≤ 9 → (∀ p < s.nst.toNat, StageOk s p) →
      (8#4 ∈ stageList s → exec .engIndex s = .next { s with
        waccLo := s.idx.extractLsb' 0 64, waccHi := s.idx.extractLsb' 64 64, untracked := false }) ∧
      (8#4 ∉ stageList s → exec .engIndex s = .next { s with untracked := true }))

/-! ### The arbiter (46_pipeline) -/

/-- Worker step 1 (R307) with the transforms of R304: the block is taken out of the left slot and goes through the F or G transform of
the bound unit, the sentinel without one; the one fault is recorded and moves nothing. From a unit whose state R319 leaves undefined the
block goes on with its length, and there is no fault (92_eei_decisions D33; log 8). -/
def Obligations.WorkerReceive : Prop :=
  ∀ (p : Fin 9) (s : State), receiveEnabled s p = true →
    let q := slot s (leftSlot p)
    let b := readBytes q.data 0 q.len.toNat
    (q.len = 0 → workerTurn p s = .next
      (setWorker p { worker s p with st := .hold, hlen := 0, last := true } (setSlot (leftSlot p) { q with v := false } s))) ∧
    (∀ u, q.len ≠ 0 → unitOfCode s.binding[p] = some u → marked s u = false → Mem.wf (worker s p).hdata →
      ∀ (t : State) (r : List Byte),
        (s.bdir = .encrypt ∧ unitTransformF u s b = .ok (t, r)) ∨ (s.bdir = .decrypt ∧ unitTransformG u s b = .ok (t, r)) →
        ∃ m, workerTurn p s = .next
            (setWorker p { st := .hold, hlen := q.len, hdata := m, last := false } (setSlot (leftSlot p) { q with v := false } t)) ∧
          Mem.wf m ∧ readBytes m 0 q.len.toNat = r ∧ r.length = q.len.toNat ∧
          ∀ a, q.len.toNat ≤ a → readByte m a = readByte (worker s p).hdata a) ∧
    (q.len ≠ 0 → unitOfCode s.binding[p] = some .counter → s.loose[unitIndex .counter] = false → s.bdir = .encrypt →
      s.idx.toNat = 2 ^ 128 - 1 →
      workerTurn p s = .next { s with
        fault := { cause := 0x14, unit := 8, src := 1, worker := BitVec.ofNat 4 p.val }, fcmd := 0, faulted := true }) ∧
    (∀ u, q.len ≠ 0 → unitOfCode s.binding[p] = some u → s.loose[unitIndex u] = true → s.bdir ≠ .none →
      ∃ t, workerTurn p s = .next t ∧ t.faulted = false ∧ (slot t (leftSlot p)) = { q with v := false } ∧
        (worker t p).st = .hold ∧ (worker t p).hlen = q.len ∧ (worker t p).last = false)

/-- Worker step 2 (R308, R309): the held block goes to the right slot; the worker that sends the sentinel is off. -/
def Obligations.WorkerSend : Prop :=
  ∀ (p : Fin 9) (s : State), sendEnabled s p = true → Mem.wf (slot s (rightSlot p)).data →
    let w := worker s p
    ∃ m, workerTurn p s = .next
        (setWorker p { w with st := if w.last then .off else .wait }
          (setSlot (rightSlot p) { v := true, len := w.hlen, data := m } s)) ∧
      Mem.wf m ∧
      ∀ a, readByte m a = if a < w.hlen.toNat then readByte w.hdata a else readByte (slot s (rightSlot p)).data a

/-- PUSH and POP (R310 to R314): ready exactly as the two predicates say; a push fills `Q[0]` and a push of length 0 sets `CLOSING`; a
pop returns the block of `Q[NB]`, and the pop of the sentinel closes the pipeline; an over-long push faults whether ready or not; a
host blocked at a port changes nothing. That a push carries a byte list whose number is its length, kept modulo 256 in `FCMD`, is the
model's choice (log 12). -/
def Obligations.PushPop : Prop :=
  (∀ (s : State) (x : HostAction) (rest : List HostAction), s.hostq = x :: rest → actionBlocked s x = true →
    hostTurn s = .next s ∧ ((nextTurn s).1 = .host → ∃ t, step s = .next t ∧ t = { s with draws := t.draws, sched := t.sched })) ∧
  ∀ s : State, s.faulted = false →
    (∀ bytes : List Byte, bytes.length ≤ 32 →
      (actionBlocked s (.push bytes) = false ↔ built s = true ∧ s.closing = false ∧ (slot s 0).v = false) ∧
      (Mem.wf (slot s 0).data →
        ∃ m, performAction (.push bytes) s =
            .next (setSlot 0 { v := true, len := BitVec.ofNat 6 bytes.length, data := m }
              { s with closing := s.closing || decide (bytes.length = 0) }) ∧
          Mem.wf m ∧ readBytes m 0 bytes.length = bytes ∧
          ∀ a, bytes.length ≤ a → readByte m a = readByte (slot s 0).data a)) ∧
    (∀ bytes : List Byte, 32 < bytes.length →
      actionBlocked s (.push bytes) = false ∧
      performAction (.push bytes) s = .next { s with
        fault := { cause := 0x40, unit := 0xF, src := 3, worker := 0 }
        fcmd := (BitVec.ofNat 8 bytes.length).setWidth 64, faulted := true }) ∧
    (∀ k : Fin 10, k.val = s.nb.toNat →
      (actionBlocked s .pop = false ↔ built s = true ∧ (slot s k).v = true) ∧
      (let q := slot s k
       let t := setSlot k { q with v := false } { s with replies := s.replies ++ [.block (readBytes q.data 0 q.len.toNat)] }
       (q.len ≠ 0 → performAction .pop s = .next t) ∧
       (q.len = 0 → performAction .pop s = .next { t with estate := .closed, closing := false })))

/-! ### Invariants and laws of the whole machine -/

/-- Every step keeps every memory and byte register inside its space, and no held block is longer than 32 bytes (20_memory R70, 40_bitvector
R130, 10_state R49, R50); and it keeps the canonical form of the byte lists, which is the model's own representation (log 6). -/
def Obligations.StepKeepsMemories : Prop :=
  ∀ s t : State, MemoriesOk s → step s = .next t → MemoriesOk t

/-- Every step keeps the invariants of the arbiter (46_pipeline R322). -/
def Obligations.StepKeepsArbiter : Prop :=
  ∀ s t : State, ArbiterOk s → step s = .next t → ArbiterOk t

/-- Every step of a host that respects 46_pipeline R319 keeps the unit invariants (10_state R40, R44, R45). -/
def Obligations.StepKeepsUnits : Prop :=
  ∀ s t : State, MemoriesOk s → UnitsOk s → hostRespects s → step s = .next t → UnitsOk t

/-- The three invariants hold after reset. -/
def Obligations.InvariantsAtReset : Prop :=
  MemoriesOk State.reset ∧ ArbiterOk State.reset ∧ UnitsOk State.reset ∧ IsReset State.reset

/-- No reachable step of the model stops: under the arbiter's invariants every step answers a next state. -/
def Obligations.NoStop : Prop :=
  ∀ s : State, ArbiterOk s → ∃ t, step s = .next t

/-- Progress and weak fairness (R324, 70_reset R410, 20_memory R89). While a block is in flight, the output end is ready or some worker's
step is enabled; an enabled worker step stays enabled until that worker takes it, short of a fault or a `RESET`; every run, whatever
the host adds, is weakly fair; and so a block in flight comes to the output end. That the turns are drawn in rounds that leave no worker
out is how the model has the guarantee (log 1). -/
def Obligations.Progress : Prop :=
  (∀ s : State, ArbiterOk s → s.faulted = false → built s = true → BlockInFlight s →
    outValid s = true ∨ ∃ p, workerEnabled s p = true) ∧
  (∀ (s t : State) (p : Fin 9), ArbiterOk s → step s = .next t → workerEnabled s p = true → (nextTurn s).1 ≠ .worker p →
    workerEnabled t p = true ∨ t.faulted = true ∨ t.estate = .created) ∧
  (∀ r, Run r → WeaklyFair r ∧ ∀ p n, ∃ m, n ≤ m ∧ TurnOf r p m) ∧
  (∀ r, Run r → ArbiterOk (r 0) → ∀ n, (r n).faulted = false → built (r n) = true → BlockInFlight (r n) →
    ∃ m, n ≤ m ∧ (outValid (r m) = true ∨ (r m).faulted = true ∨ (r m).estate = .created))

/-- Worker steps commute (20_memory R85, R330): two workers with enabled steps may go in either order, with the same result, unless one
of them faults. -/
def Obligations.WorkersCommute : Prop :=
  ∀ (s a b : State) (p q : Fin 9), ArbiterOk s → (∀ u, marked s u = false) → p ≠ q →
    (receiveEnabled s p = true ∨ sendEnabled s p = true) → (receiveEnabled s q = true ∨ sendEnabled s q = true) →
    workerTurn p s = .next a → workerTurn q s = .next b → a.faulted = false → b.faulted = false →
    ∃ c, workerTurn q a = .next c ∧ workerTurn p b = .next c

/-- Ownership (10_state R53, R319): whatever the state, a command changes no unit but those it mutates, and only ENG.BUILD touches the
built configuration. Only ENG.BUILD and a command against R319 touch slots and workers, and the latter only the data of blocks in
flight, not lengths, valid bits or worker states. -/
def Obligations.CommandsTouchTheirUnitsOnly : Prop :=
  ∀ (i : Instr) (s t : State), exec i s = .next t →
    (∀ k, ¬ mutatesUnit i (.rotor k) s → rotor t k = rotor s k) ∧
    (∀ k, ¬ mutatesUnit i (.perm k) s → perm t k = perm s k) ∧
    (¬ mutatesUnit i .counter s → t.idx = s.idx) ∧
    (i ≠ .engBuild →
      t.nb = s.nb ∧ t.bdir = s.bdir ∧ t.binding = s.binding ∧ t.closing = s.closing ∧
      (respects i s → t.slots = s.slots ∧ t.workers = s.workers) ∧
      (∀ k, slot t k = { slot s k with data := (slot t k).data } ∧
        ((slot s k).v = false → slot t k = slot s k)) ∧
      (∀ p, worker t p = { worker s p with hdata := (worker t p).hdata } ∧
        ((worker s p).st ≠ .hold → worker t p = worker s p))) ∧
    (i ≠ .engBuild → i ≠ .engInit → t.estate = s.estate)

/-- The round trip of one block (R331 by the fold of R330): applying the F transforms of a list of different, good units in order, and
then, from the same unit states, the G transforms in reverse order, gives the block back. -/
def Obligations.RoundTripOfTheFold : Prop :=
  ∀ (s t : State) (units : List UnitId) (x y : List Byte), MemoriesOk s → UnitsOk s → units.Nodup →
    (∀ u ∈ units, unitValid s u = true) →
    foldStages unitTransformF units s x = .ok (t, y) →
    ∃ t', foldStages unitTransformG units.reverse s y = .ok (t', x) ∧ t' = { t with idx := s.idx }

/-! ### The host's side (45_keystream_host) -/

/-- A unit loaded from a dump is the dumped unit positioned at block index 0, in every bit its behaviour depends on (R292). At a
point that is not quiescent, on a target left undefined and no longer live-bound, that is the model's choice (DESIGN CHOICE, log 25). -/
def Obligations.DumpAndLoad : Prop :=
  ∀ s t : State, s.faulted = false → MemoriesOk s →
    (∀ k k', (rotor s k).valid = true → RotorGood (rotor s k) → breaksPrecondition s (.rotor k') = false →
      exec (.rotDump (unitCode (.rotor k))) s = .next t →
      ∃ v m, exec (.rotConstruct (unitCode (.rotor k'))) t = .next v ∧
        rotor v k' = { rotor s k with current := (rotor s k).start, buf := m } ∧
        ∀ j, j < (rotor s k).size.toNat + 256 → bufBit m j = bufBit (rotor s k).buf j) ∧
    (∀ k k', (perm s k).valid = true → PermGood (perm s k) → breaksPrecondition s (.perm k') = false →
      exec (.prmDump (unitCode (.perm k))) s = .next t →
      ∃ v, exec (.prmConstruct (unitCode (.perm k'))) t = .next v ∧ perm v k' = permSeek (perm s k) 0)

/-- The host's draws (R281 to R284, R288, R289): a source starts empty and each read keeps it a source; whatever bytes the pipeline gives,
`Intn(max)` answers a value below `max`, `Perm(n)` a permutation of `0 .. n-1`; a rotor Update draws a start below `size`, a step that
is not 0 and `ceil(size/8)` bytes, and a permutator Update a table of all 256 values and the pool's four lengths in some order, whatever
the host's open parameter `DRAW_ORDER` is (log 22). -/
def Obligations.KeystreamDraws : Prop :=
  (∀ s : State, built s = true → quiescent s = true →
    SourceOk (.start s) ∧ (KeystreamSource.start s).left = [] ∧ (KeystreamSource.start s).off = 0) ∧
  (∀ (src : KeystreamSource) (b : Byte) (src' : KeystreamSource),
    SourceOk src → ArbiterOk src.block → MemoriesOk src.block → readOne src = some (b, src') → SourceOk src') ∧
  (∀ (fuel max : Nat) (src : KeystreamSource) (v : Nat) (src' : KeystreamSource),
    intn fuel max src = some (v, src') → v < max) ∧
  (∀ (fuel n : Nat) (src : KeystreamSource) (a : List Nat) (src' : KeystreamSource),
    permDraw fuel n src = some (a, src') → a.Perm (List.range n)) ∧
  (∀ (o : DrawOrder) (fuel size : Nat) (src : KeystreamSource) (v : RotorValues) (src' : KeystreamSource),
    o.ok → drawRotor o fuel size src = some (v, src') →
      v.start < size ∧ 1 ≤ v.step ∧ v.step < size ∧ v.fresh.length = (size + 7) / 8) ∧
  (∀ (o : DrawOrder) (fuel : Nat) (lengths : Vector Nat 4) (src : KeystreamSource) (l : Vector Nat 4) (table : List Byte)
    (src' : KeystreamSource), o.ok → drawPerm o fuel lengths src = some ((l, table), src') →
      l.toList.Perm lengths.toList ∧ table.Perm ((List.range 256).map (BitVec.ofNat 8)))

/-- One block through a quiescent pipeline (46_pipeline R330, 20_memory R86; the push and pop of R282), under every schedule of turns:
whatever turns bring the push and the pop about, what comes out is the sequential fold of the bound stages' transforms in the built
direction, every unit has moved as the fold moves it, nothing but slots and workers differs from the fold's state, and the pipeline is
quiescent again. The schedule the host's `pushPop` runs is one that does (log 22); a schedule is a list of coming turns (log 1). -/
def Obligations.OneBlockIsTheFold : Prop :=
  ∀ (s t : State) (units : List UnitId) (bytes r : List Byte),
    ArbiterOk s → MemoriesOk s → s.faulted = false → built s = true → quiescent s = true →
    (∀ u, marked s u = false) → bytes ≠ [] → bytes.length ≤ 32 → units.length = s.nb.toNat →
    (∀ (p : Fin 9) (h : p.val < units.length), s.binding[p] = unitCode units[p.val]) →
    foldStages (if s.bdir = .encrypt then unitTransformF else unitTransformG) units s bytes = .ok (t, r) →
    (∀ (turns : List Turn) (t' : State),
      runSteps turns.length { s with sched := turns, hostq := [.push bytes, .pop], replies := [] } = some t' →
      t'.hostq = [] →
        t' = { t with slots := t'.slots, workers := t'.workers, sched := [], hostq := [], replies := [.block r] } ∧
        quiescent t' = true) ∧
    ∃ t', pushPop bytes s = some (r, t') ∧ t' = { t with slots := t'.slots, workers := t'.workers } ∧ quiescent t' = true
end

