-- ==== Sys2Proof/Laws/Memory.lean ====
section
/-! SUPPORT. The laws of byte buffers: read after write, the canonical form and its preservation, equality from equal
reads, and the same for byte lists, 64-bit words and bits. -/

namespace Sys2Proof.Machine

@[simp] theorem readByte_nil (a : Nat) : readByte [] a = 0#8 := rfl

@[simp] theorem wf_nil : Mem.wf [] := by simp [Mem.wf]

theorem wf_cons {c : Host.Cell} {t : Mem} :
    Mem.wf (c :: t) ↔ (∀ d ∈ t, c.1 < d.1) ∧ c.2 ≠ 0#8 ∧ Mem.wf t := by
  simp only [Mem.wf, List.pairwise_cons, List.mem_cons, forall_eq_or_imp, unlistedByte]
  tauto

theorem wf_tail {c : Host.Cell} {t : Mem} (h : Mem.wf (c :: t)) : Mem.wf t := (wf_cons.1 h).2.2

/-- Below the first listed address every byte is unlisted. -/
theorem readByte_of_lt {m : Mem} {a : Nat} (h : ∀ c ∈ m, a < c.1) : readByte m a = 0#8 := by
  induction m with
  | nil => rfl
  | cons c t ih =>
    obtain ⟨x, y⟩ := c
    have h0 : a < x := h (x, y) (by simp)
    simp only [readByte, Nat.ne_of_lt h0, if_false]
    exact ih fun c hc => h c (by simp [hc])

/-- Every address a write leaves listed was listed before or is the written one. -/
theorem mem_writeByte {m : Mem} {a : Nat} {b : Byte} {c : Host.Cell} (h : c ∈ writeByte m a b) :
    c = (a, b) ∨ c ∈ m := by
  induction m with
  | nil =>
    simp only [writeByte] at h
    split at h <;> simp_all
  | cons d t ih =>
    obtain ⟨x, y⟩ := d
    simp only [writeByte] at h
    split at h
    · split at h
      · exact .inr h
      · simpa using h
    · split at h
      · split at h
        · exact .inr (by simp [h])
        · rcases List.mem_cons.1 h with h | h
          · exact .inl h
          · exact .inr (by simp [h])
      · rcases List.mem_cons.1 h with h | h
        · exact .inr (by simp [h])
        · rcases ih h with h | h
          · exact .inl h
          · exact .inr (by simp [h])

/-- A write keeps the canonical form. -/
theorem writeByte_wf {m : Mem} (h : Mem.wf m) (a : Nat) (b : Byte) : Mem.wf (writeByte m a b) := by
  induction m with
  | nil =>
    simp only [writeByte]
    split
    · exact h
    · rename_i hb
      exact wf_cons.2 ⟨by simp, hb, wf_nil⟩
  | cons d t ih =>
    obtain ⟨x, y⟩ := d
    have ⟨h1, h2, h3⟩ := wf_cons.1 h
    simp only [writeByte]
    split
    · rename_i hlt
      split
      · exact h
      · rename_i hb
        refine wf_cons.2 ⟨?_, hb, h⟩
        intro d hd
        rcases List.mem_cons.1 hd with rfl | hd
        · exact hlt
        · exact Nat.lt_trans hlt (h1 d hd)
    · split
      · rename_i heq
        split
        · exact h3
        · rename_i hb
          subst heq
          exact wf_cons.2 ⟨h1, hb, h3⟩
      · rename_i hge hne
        refine wf_cons.2 ⟨?_, h2, ih h3⟩
        intro d hd
        rcases mem_writeByte hd with rfl | hd
        · show x < a
          omega
        · exact h1 d hd

/-- Read after write, both cases. -/
theorem readByte_writeByte {m : Mem} (h : Mem.wf m) (a : Nat) (b : Byte) (x : Nat) :
    readByte (writeByte m a b) x = if x = a then b else readByte m x := by
  induction m with
  | nil =>
    by_cases hb : b = 0#8 <;> simp [writeByte, hb, readByte]
  | cons d t ih =>
    obtain ⟨y, z⟩ := d
    have ⟨h1, h2, h3⟩ := wf_cons.1 h
    have hlow : ∀ {v}, v ≤ y → readByte t v = 0#8 := fun hv =>
      readByte_of_lt fun c hc => Nat.lt_of_le_of_lt hv (h1 c hc)
    simp only [writeByte]
    split
    · rename_i hlt
      by_cases hb : b = 0#8
      · simp only [hb, unlistedByte, if_true]
        by_cases hx : x = a
        · subst hx
          simp [readByte, Nat.ne_of_lt hlt, hlow (Nat.le_of_lt hlt)]
        · simp [hx]
      · simp only [hb, unlistedByte, if_false, readByte]
    · rename_i hge
      split
      · rename_i heq
        subst heq
        by_cases hb : b = 0#8
        · simp only [hb, unlistedByte, if_true, readByte]
          by_cases hx : x = a
          · subst hx
            simp [hlow (Nat.le_refl x)]
          · simp [hx]
        · simp only [hb, unlistedByte, if_false, readByte]
          by_cases hx : x = a <;> simp [hx]
      · rename_i hne
        simp only [readByte, ih h3]
        by_cases hx : x = y
        · subst hx
          have : x ≠ a := fun e => hne e.symm
          simp [this]
        · simp [hx]

/-- Two canonical buffers that read alike are equal. -/
theorem mem_ext {m m' : Mem} (h : Mem.wf m) (h' : Mem.wf m') (e : ∀ a, readByte m a = readByte m' a) : m = m' := by
  induction m generalizing m' with
  | nil =>
    cases m' with
    | nil => rfl
    | cons d t =>
      have := (wf_cons.1 h').2.1
      have hd := e d.1
      obtain ⟨y, z⟩ := d
      simp [readByte] at hd
      exact absurd hd.symm this
  | cons c t ih =>
    obtain ⟨x, b⟩ := c
    obtain ⟨h1, h2, h3⟩ := wf_cons.1 h
    cases m' with
    | nil =>
      have hx := e x
      simp [readByte] at hx
      exact absurd hx h2
    | cons d t' =>
      obtain ⟨y, z⟩ := d
      obtain ⟨g1, g2, g3⟩ := wf_cons.1 h'
      have lowt : ∀ {v}, v ≤ x → readByte t v = 0#8 := fun hv =>
        readByte_of_lt fun c hc => Nat.lt_of_le_of_lt hv (h1 c hc)
      have lowt' : ∀ {v}, v ≤ y → readByte t' v = 0#8 := fun hv =>
        readByte_of_lt fun c hc => Nat.lt_of_le_of_lt hv (g1 c hc)
      have hxy : x = y := by
        rcases Nat.lt_trichotomy x y with hlt | heq | hgt
        · have hx := e x
          simp only [readByte, if_true, Nat.ne_of_lt hlt, if_false, lowt' (Nat.le_of_lt hlt)] at hx
          exact absurd hx h2
        · exact heq
        · have hy := e y
          simp only [readByte, if_true, Nat.ne_of_lt hgt, if_false, lowt (Nat.le_of_lt hgt)] at hy
          exact absurd hy.symm g2
      subst hxy
      have hb : b = z := by
        have := e x
        simpa [readByte] using this
      subst hb
      congr 1
      refine ih h3 g3 fun a => ?_
      by_cases ha : a = x
      · subst ha
        rw [lowt (Nat.le_refl a), lowt' (Nat.le_refl a)]
      · have := e a
        simpa [readByte, ha] using this

/-! ### Address bounds -/

theorem writeByte_within {n : Nat} {m : Mem} (h : Mem.within n m) {a : Nat} (ha : a < n) (b : Byte) :
    Mem.within n (writeByte m a b) := by
  intro c hc
  rcases mem_writeByte hc with rfl | hc
  · exact ha
  · exact h c hc

theorem writeBytes_wf {m : Mem} (h : Mem.wf m) (a : Nat) (bs : List Byte) : Mem.wf (writeBytes m a bs) := by
  induction bs generalizing m a with
  | nil => exact h
  | cons b t ih => exact ih (writeByte_wf h a b) (a + 1)

theorem writeBytes_within {n : Nat} {m : Mem} (h : Mem.within n m) {a : Nat} {bs : List Byte}
    (hb : a + bs.length ≤ n) : Mem.within n (writeBytes m a bs) := by
  induction bs generalizing m a with
  | nil => exact h
  | cons b t ih =>
    simp only [List.length_cons] at hb
    exact ih (writeByte_within h (by omega) b) (by omega)

/-! ### Byte lists -/

@[simp] theorem readBytes_length (m : Mem) (a n : Nat) : (readBytes m a n).length = n := by
  induction n generalizing a with
  | zero => rfl
  | succ n ih => simp [readBytes, ih]

theorem readBytes_getElem? (m : Mem) (a n k : Nat) (h : k < n) : (readBytes m a n)[k]? = some (readByte m (a + k)) := by
  induction n generalizing a k with
  | zero => omega
  | succ n ih =>
    cases k with
    | zero => simp [readBytes]
    | succ k =>
      simp only [readBytes, List.getElem?_cons_succ]
      rw [ih (a + 1) k (by omega)]
      congr 2
      omega

theorem readBytes_getD (m : Mem) (a n k : Nat) (h : k < n) (d : Byte) :
    (readBytes m a n).getD k d = readByte m (a + k) := by
  simp [List.getD_eq_getElem?_getD, readBytes_getElem? m a n k h]

/-- A byte after a list was written: the list's byte inside its range, the old byte outside. -/
theorem readByte_writeBytes {m : Mem} (h : Mem.wf m) (a : Nat) (bs : List Byte) (x : Nat) :
    readByte (writeBytes m a bs) x = if a ≤ x ∧ x < a + bs.length then bs.getD (x - a) 0#8 else readByte m x := by
  induction bs generalizing m a with
  | nil =>
    have : ¬ (a ≤ x ∧ x < a + ([] : List Byte).length) := by
      simp only [List.length_nil]
      omega
    rw [if_neg this]
    rfl
  | cons b t ih =>
    simp only [writeBytes, ih (writeByte_wf h a b), readByte_writeByte h, List.length_cons]
    by_cases hx : x = a
    · subst hx
      have h1 : ¬ (x + 1 ≤ x ∧ x < x + 1 + t.length) := by omega
      have h2 : x ≤ x ∧ x < x + (t.length + 1) := by omega
      rw [if_neg h1, if_pos h2]
      simp
    · by_cases hr : a + 1 ≤ x ∧ x < a + 1 + t.length
      · have h2 : a ≤ x ∧ x < a + (t.length + 1) := by omega
        obtain ⟨k, hk⟩ : ∃ k, x - a = k + 1 := ⟨x - a - 1, by omega⟩
        have hk' : x - (a + 1) = k := by omega
        rw [if_pos hr, if_pos h2, hk, hk', List.getD_cons_succ]
      · have h2 : ¬ (a ≤ x ∧ x < a + (t.length + 1)) := by omega
        rw [if_neg hr, if_neg h2, if_neg hx]

/-- Outside its range a list write changes no byte. -/
theorem readByte_writeBytes_outside {m : Mem} (h : Mem.wf m) {a : Nat} {bs : List Byte} {x : Nat}
    (hx : x < a ∨ a + bs.length ≤ x) : readByte (writeBytes m a bs) x = readByte m x := by
  rw [readByte_writeBytes h, if_neg (by omega)]

theorem readBytes_congr {m m' : Mem} {a a' n : Nat} (h : ∀ k < n, readByte m (a + k) = readByte m' (a' + k)) :
    readBytes m a n = readBytes m' a' n := by
  induction n generalizing a a' with
  | zero => rfl
  | succ n ih =>
    simp only [readBytes]
    rw [show readByte m a = readByte m' a' by simpa using h 0 (by omega)]
    congr 1
    refine ih fun k hk => ?_
    have := h (k + 1) (by omega)
    rwa [show a + 1 + k = a + (k + 1) by omega, show a' + 1 + k = a' + (k + 1) by omega]

/-- Reading back what was written. -/
theorem readBytes_writeBytes_same {m : Mem} (h : Mem.wf m) (a : Nat) (bs : List Byte) :
    readBytes (writeBytes m a bs) a bs.length = bs := by
  apply List.ext_getElem?
  intro k
  by_cases hk : k < bs.length
  · rw [readBytes_getElem? _ _ _ _ hk, readByte_writeBytes h, if_pos (by omega)]
    simp [List.getD_eq_getElem?_getD, hk]
  · simp [Nat.le_of_not_lt hk]

/-- Writing back the bytes that stand there changes nothing. -/
theorem writeBytes_readBytes {m : Mem} (h : Mem.wf m) (a n : Nat) : writeBytes m a (readBytes m a n) = m := by
  refine mem_ext (writeBytes_wf h _ _) h fun x => ?_
  rw [readByte_writeBytes h]
  split
  · rename_i hx
    simp only [readBytes_length] at hx
    rw [readBytes_getD _ _ _ _ (by omega)]
    congr 1
    omega
  · rfl

/-! ### Numbers and words -/

theorem leNat_lt (bs : List Byte) : leNat bs < 256 ^ bs.length := by
  induction bs with
  | nil => simp [leNat]
  | cons b t ih =>
    have := b.isLt
    simp only [leNat, List.length_cons, Nat.pow_succ]
    omega

theorem leNat_inj {a b : List Byte} (hl : a.length = b.length) (h : leNat a = leNat b) : a = b := by
  induction a generalizing b with
  | nil =>
    cases b with
    | nil => rfl
    | cons _ _ => simp at hl
  | cons x t ih =>
    cases b with
    | nil => simp at hl
    | cons y u =>
      simp only [leNat] at h
      have hx := x.isLt
      have hy := y.isLt
      have h1 : x.toNat = y.toNat := by omega
      have h2 : leNat t = leNat u := by omega
      rw [BitVec.eq_of_toNat_eq h1, ih (by simpa using hl) h2]

@[simp] theorem bytesOfWord_length (v : Word) : (bytesOfWord v).length = 8 := by simp [bytesOfWord]

/-- The eight bytes of a word read back as the word. -/
theorem le64_bytesOfWord (v : Word) : le64 (bytesOfWord v) = v := by
  apply BitVec.eq_of_toNat_eq
  have hv := v.isLt
  simp only [le64, bytesOfWord, List.range, List.range.loop, List.map, leNat, BitVec.extractLsb'_toNat,
    BitVec.toNat_ofNat, Nat.shiftRight_eq_div_pow]
  omega

/-- A register that shows eight bytes of a buffer reads back what was written to it. -/
theorem wordAt_setWordAt_same {m : Mem} (h : Mem.wf m) (k : Nat) (v : Word) : wordAt (setWordAt m k v) k = v := by
  have := readBytes_writeBytes_same h (8 * k) (bytesOfWord v)
  rw [bytesOfWord_length] at this
  rw [wordAt, setWordAt, this, le64_bytesOfWord]

/-- The other registers of the buffer are untouched. -/
theorem wordAt_setWordAt_other {m : Mem} (h : Mem.wf m) {j k : Nat} (hjk : j ≠ k) (v : Word) :
    wordAt (setWordAt m k v) j = wordAt m j := by
  rw [wordAt, wordAt, setWordAt]
  congr 1
  refine readBytes_congr fun i hi => ?_
  exact readByte_writeBytes_outside h (by rw [bytesOfWord_length]; omega)

/-! ### Bits -/

theorem bitMask_getLsbD (i j : Nat) (hj : j < 8) : (bitMask i).getLsbD j = decide (j = i % 8) := by
  have : i % 8 < 8 := Nat.mod_lt _ (by omega)
  simp only [bitMask, BitVec.getLsbD_shiftLeft, BitVec.getLsbD_one]
  generalize i % 8 = r at *
  interval_cases j <;> interval_cases r <;> rfl

theorem setBit_wf {m : Mem} (h : Mem.wf m) (i : Nat) : Mem.wf (setBit m i) := writeByte_wf h _ _

theorem clrBit_wf {m : Mem} (h : Mem.wf m) (i : Nat) : Mem.wf (clrBit m i) := writeByte_wf h _ _

theorem putBit_wf {m : Mem} (h : Mem.wf m) (i : Nat) (b : Bool) : Mem.wf (putBit m i b) := by
  cases b
  · exact clrBit_wf h i
  · exact setBit_wf h i

/-- A bit after `putbit`: the written bit, every other bit as before. -/
theorem bufBit_putBit {m : Mem} (h : Mem.wf m) (i : Nat) (b : Bool) (j : Nat) :
    bufBit (putBit m i b) j = if j = i then b else bufBit m j := by
  have hj : j % 8 < 8 := Nat.mod_lt _ (by omega)
  have key : j / 8 = i / 8 → (j % 8 = i % 8 ↔ j = i) := by omega
  cases b
  · simp only [putBit, clrBit, bufBit, readByte_writeByte h, Bool.false_eq_true, if_false]
    by_cases hq : j / 8 = i / 8
    · simp only [hq, if_true, BitVec.getLsbD_and, BitVec.getLsbD_not, bitMask_getLsbD _ _ hj, hj, decide_true,
        Bool.true_and, key hq]
      by_cases hji : j = i <;> simp [hji]
    · have : j ≠ i := fun e => hq (by rw [e])
      simp [hq, this]
  · simp only [putBit, setBit, bufBit, readByte_writeByte h, if_true]
    by_cases hq : j / 8 = i / 8
    · simp only [hq, if_true, BitVec.getLsbD_or, bitMask_getLsbD _ _ hj, key hq]
      by_cases hji : j = i <;> simp [hji]
    · have : j ≠ i := fun e => hq (by rw [e])
      simp [hq, this]

theorem readByte_putBit_outside {m : Mem} (h : Mem.wf m) (i : Nat) (b : Bool) {x : Nat} (hx : x ≠ i / 8) :
    readByte (putBit m i b) x = readByte m x := by
  cases b <;> simp [putBit, setBit, clrBit, readByte_writeByte h, hx]

theorem putBit_within {n : Nat} {m : Mem} (h : Mem.within n m) {i : Nat} (hi : i / 8 < n) (b : Bool) :
    Mem.within n (putBit m i b) := by
  cases b
  · exact writeByte_within h hi _
  · exact writeByte_within h hi _

/-- Two bytes with the same eight bits are equal. -/
theorem byte_ext {x y : Byte} (h : ∀ j < 8, x.getLsbD j = y.getLsbD j) : x = y :=
  BitVec.eq_of_getLsbD_eq fun j hj => h j hj

/-- Two canonical buffers with the same bits are equal. -/
theorem mem_ext_bits {m m' : Mem} (h : Mem.wf m) (h' : Mem.wf m') (e : ∀ i, bufBit m i = bufBit m' i) : m = m' := by
  refine mem_ext h h' fun a => byte_ext fun j hj => ?_
  have := e (8 * a + j)
  rwa [bufBit, bufBit, show (8 * a + j) / 8 = a by omega, show (8 * a + j) % 8 = j by omega] at this

end Sys2Proof.Machine
end

