-- ==== Sys2Proof/Laws/State.lean ====
section
/-! SUPPORT. One lemma per field per named update of State: what the update leaves as it was, and what it writes. -/

namespace Sys2Proof.Machine

/-! ### `setRotor` -/

@[simp] theorem setRotor_estate (k : Fin 6) (r : Rotor) (s : State) : (setRotor k r s).estate = s.estate := rfl

@[simp] theorem setRotor_faulted (k : Fin 6) (r : Rotor) (s : State) : (setRotor k r s).faulted = s.faulted := rfl

@[simp] theorem setRotor_closing (k : Fin 6) (r : Rotor) (s : State) : (setRotor k r s).closing = s.closing := rfl

@[simp] theorem setRotor_flagZ (k : Fin 6) (r : Rotor) (s : State) : (setRotor k r s).flagZ = s.flagZ := rfl

@[simp] theorem setRotor_flagB (k : Fin 6) (r : Rotor) (s : State) : (setRotor k r s).flagB = s.flagB := rfl

@[simp] theorem setRotor_untracked (k : Fin 6) (r : Rotor) (s : State) : (setRotor k r s).untracked = s.untracked := rfl

@[simp] theorem setRotor_dir (k : Fin 6) (r : Rotor) (s : State) : (setRotor k r s).dir = s.dir := rfl

@[simp] theorem setRotor_fault (k : Fin 6) (r : Rotor) (s : State) : (setRotor k r s).fault = s.fault := rfl

@[simp] theorem setRotor_fcmd (k : Fin 6) (r : Rotor) (s : State) : (setRotor k r s).fcmd = s.fcmd := rfl

@[simp] theorem setRotor_nst (k : Fin 6) (r : Rotor) (s : State) : (setRotor k r s).nst = s.nst := rfl

@[simp] theorem setRotor_order (k : Fin 6) (r : Rotor) (s : State) : (setRotor k r s).order = s.order := rfl

@[simp] theorem setRotor_nb (k : Fin 6) (r : Rotor) (s : State) : (setRotor k r s).nb = s.nb := rfl

@[simp] theorem setRotor_bdir (k : Fin 6) (r : Rotor) (s : State) : (setRotor k r s).bdir = s.bdir := rfl

@[simp] theorem setRotor_binding (k : Fin 6) (r : Rotor) (s : State) : (setRotor k r s).binding = s.binding := rfl

@[simp] theorem setRotor_waccLo (k : Fin 6) (r : Rotor) (s : State) : (setRotor k r s).waccLo = s.waccLo := rfl

@[simp] theorem setRotor_waccHi (k : Fin 6) (r : Rotor) (s : State) : (setRotor k r s).waccHi = s.waccHi := rfl

@[simp] theorem setRotor_wop (k : Fin 6) (r : Rotor) (s : State) : (setRotor k r s).wop = s.wop := rfl

@[simp] theorem setRotor_wrem (k : Fin 6) (r : Rotor) (s : State) : (setRotor k r s).wrem = s.wrem := rfl

@[simp] theorem setRotor_wstrLen (k : Fin 6) (r : Rotor) (s : State) : (setRotor k r s).wstrLen = s.wstrLen := rfl

@[simp] theorem setRotor_wstr (k : Fin 6) (r : Rotor) (s : State) : (setRotor k r s).wstr = s.wstr := rfl

@[simp] theorem setRotor_blk (k : Fin 6) (r : Rotor) (s : State) : (setRotor k r s).blk = s.blk := rfl

@[simp] theorem setRotor_blkLen (k : Fin 6) (r : Rotor) (s : State) : (setRotor k r s).blkLen = s.blkLen := rfl

@[simp] theorem setRotor_psize (k : Fin 6) (r : Rotor) (s : State) : (setRotor k r s).psize = s.psize := rfl

@[simp] theorem setRotor_pstart (k : Fin 6) (r : Rotor) (s : State) : (setRotor k r s).pstart = s.pstart := rfl

@[simp] theorem setRotor_pstep (k : Fin 6) (r : Rotor) (s : State) : (setRotor k r s).pstep = s.pstep := rfl

@[simp] theorem setRotor_plen (k : Fin 6) (r : Rotor) (s : State) : (setRotor k r s).plen = s.plen := rfl

@[simp] theorem setRotor_stg (k : Fin 6) (r : Rotor) (s : State) : (setRotor k r s).stg = s.stg := rfl

@[simp] theorem setRotor_perms (k : Fin 6) (r : Rotor) (s : State) : (setRotor k r s).perms = s.perms := rfl

@[simp] theorem setRotor_idx (k : Fin 6) (r : Rotor) (s : State) : (setRotor k r s).idx = s.idx := rfl

@[simp] theorem setRotor_slots (k : Fin 6) (r : Rotor) (s : State) : (setRotor k r s).slots = s.slots := rfl

@[simp] theorem setRotor_workers (k : Fin 6) (r : Rotor) (s : State) : (setRotor k r s).workers = s.workers := rfl

@[simp] theorem setRotor_loose (k : Fin 6) (r : Rotor) (s : State) : (setRotor k r s).loose = s.loose := rfl

@[simp] theorem setRotor_tainted (k : Fin 6) (r : Rotor) (s : State) : (setRotor k r s).tainted = s.tainted := rfl

@[simp] theorem setRotor_draws (k : Fin 6) (r : Rotor) (s : State) : (setRotor k r s).draws = s.draws := rfl

@[simp] theorem setRotor_sched (k : Fin 6) (r : Rotor) (s : State) : (setRotor k r s).sched = s.sched := rfl

@[simp] theorem setRotor_hostq (k : Fin 6) (r : Rotor) (s : State) : (setRotor k r s).hostq = s.hostq := rfl

@[simp] theorem setRotor_replies (k : Fin 6) (r : Rotor) (s : State) : (setRotor k r s).replies = s.replies := rfl

/-! ### `setPerm` -/

@[simp] theorem setPerm_estate (k : Fin 2) (p : Perm) (s : State) : (setPerm k p s).estate = s.estate := rfl

@[simp] theorem setPerm_faulted (k : Fin 2) (p : Perm) (s : State) : (setPerm k p s).faulted = s.faulted := rfl

@[simp] theorem setPerm_closing (k : Fin 2) (p : Perm) (s : State) : (setPerm k p s).closing = s.closing := rfl

@[simp] theorem setPerm_flagZ (k : Fin 2) (p : Perm) (s : State) : (setPerm k p s).flagZ = s.flagZ := rfl

@[simp] theorem setPerm_flagB (k : Fin 2) (p : Perm) (s : State) : (setPerm k p s).flagB = s.flagB := rfl

@[simp] theorem setPerm_untracked (k : Fin 2) (p : Perm) (s : State) : (setPerm k p s).untracked = s.untracked := rfl

@[simp] theorem setPerm_dir (k : Fin 2) (p : Perm) (s : State) : (setPerm k p s).dir = s.dir := rfl

@[simp] theorem setPerm_fault (k : Fin 2) (p : Perm) (s : State) : (setPerm k p s).fault = s.fault := rfl

@[simp] theorem setPerm_fcmd (k : Fin 2) (p : Perm) (s : State) : (setPerm k p s).fcmd = s.fcmd := rfl

@[simp] theorem setPerm_nst (k : Fin 2) (p : Perm) (s : State) : (setPerm k p s).nst = s.nst := rfl

@[simp] theorem setPerm_order (k : Fin 2) (p : Perm) (s : State) : (setPerm k p s).order = s.order := rfl

@[simp] theorem setPerm_nb (k : Fin 2) (p : Perm) (s : State) : (setPerm k p s).nb = s.nb := rfl

@[simp] theorem setPerm_bdir (k : Fin 2) (p : Perm) (s : State) : (setPerm k p s).bdir = s.bdir := rfl

@[simp] theorem setPerm_binding (k : Fin 2) (p : Perm) (s : State) : (setPerm k p s).binding = s.binding := rfl

@[simp] theorem setPerm_waccLo (k : Fin 2) (p : Perm) (s : State) : (setPerm k p s).waccLo = s.waccLo := rfl

@[simp] theorem setPerm_waccHi (k : Fin 2) (p : Perm) (s : State) : (setPerm k p s).waccHi = s.waccHi := rfl

@[simp] theorem setPerm_wop (k : Fin 2) (p : Perm) (s : State) : (setPerm k p s).wop = s.wop := rfl

@[simp] theorem setPerm_wrem (k : Fin 2) (p : Perm) (s : State) : (setPerm k p s).wrem = s.wrem := rfl

@[simp] theorem setPerm_wstrLen (k : Fin 2) (p : Perm) (s : State) : (setPerm k p s).wstrLen = s.wstrLen := rfl

@[simp] theorem setPerm_wstr (k : Fin 2) (p : Perm) (s : State) : (setPerm k p s).wstr = s.wstr := rfl

@[simp] theorem setPerm_blk (k : Fin 2) (p : Perm) (s : State) : (setPerm k p s).blk = s.blk := rfl

@[simp] theorem setPerm_blkLen (k : Fin 2) (p : Perm) (s : State) : (setPerm k p s).blkLen = s.blkLen := rfl

@[simp] theorem setPerm_psize (k : Fin 2) (p : Perm) (s : State) : (setPerm k p s).psize = s.psize := rfl

@[simp] theorem setPerm_pstart (k : Fin 2) (p : Perm) (s : State) : (setPerm k p s).pstart = s.pstart := rfl

@[simp] theorem setPerm_pstep (k : Fin 2) (p : Perm) (s : State) : (setPerm k p s).pstep = s.pstep := rfl

@[simp] theorem setPerm_plen (k : Fin 2) (p : Perm) (s : State) : (setPerm k p s).plen = s.plen := rfl

@[simp] theorem setPerm_stg (k : Fin 2) (p : Perm) (s : State) : (setPerm k p s).stg = s.stg := rfl

@[simp] theorem setPerm_rotors (k : Fin 2) (p : Perm) (s : State) : (setPerm k p s).rotors = s.rotors := rfl

@[simp] theorem setPerm_idx (k : Fin 2) (p : Perm) (s : State) : (setPerm k p s).idx = s.idx := rfl

@[simp] theorem setPerm_slots (k : Fin 2) (p : Perm) (s : State) : (setPerm k p s).slots = s.slots := rfl

@[simp] theorem setPerm_workers (k : Fin 2) (p : Perm) (s : State) : (setPerm k p s).workers = s.workers := rfl

@[simp] theorem setPerm_loose (k : Fin 2) (p : Perm) (s : State) : (setPerm k p s).loose = s.loose := rfl

@[simp] theorem setPerm_tainted (k : Fin 2) (p : Perm) (s : State) : (setPerm k p s).tainted = s.tainted := rfl

@[simp] theorem setPerm_draws (k : Fin 2) (p : Perm) (s : State) : (setPerm k p s).draws = s.draws := rfl

@[simp] theorem setPerm_sched (k : Fin 2) (p : Perm) (s : State) : (setPerm k p s).sched = s.sched := rfl

@[simp] theorem setPerm_hostq (k : Fin 2) (p : Perm) (s : State) : (setPerm k p s).hostq = s.hostq := rfl

@[simp] theorem setPerm_replies (k : Fin 2) (p : Perm) (s : State) : (setPerm k p s).replies = s.replies := rfl

/-! ### `setSlot` -/

@[simp] theorem setSlot_estate (k : Fin 10) (q : Slot) (s : State) : (setSlot k q s).estate = s.estate := rfl

@[simp] theorem setSlot_faulted (k : Fin 10) (q : Slot) (s : State) : (setSlot k q s).faulted = s.faulted := rfl

@[simp] theorem setSlot_closing (k : Fin 10) (q : Slot) (s : State) : (setSlot k q s).closing = s.closing := rfl

@[simp] theorem setSlot_flagZ (k : Fin 10) (q : Slot) (s : State) : (setSlot k q s).flagZ = s.flagZ := rfl

@[simp] theorem setSlot_flagB (k : Fin 10) (q : Slot) (s : State) : (setSlot k q s).flagB = s.flagB := rfl

@[simp] theorem setSlot_untracked (k : Fin 10) (q : Slot) (s : State) : (setSlot k q s).untracked = s.untracked := rfl

@[simp] theorem setSlot_dir (k : Fin 10) (q : Slot) (s : State) : (setSlot k q s).dir = s.dir := rfl

@[simp] theorem setSlot_fault (k : Fin 10) (q : Slot) (s : State) : (setSlot k q s).fault = s.fault := rfl

@[simp] theorem setSlot_fcmd (k : Fin 10) (q : Slot) (s : State) : (setSlot k q s).fcmd = s.fcmd := rfl

@[simp] theorem setSlot_nst (k : Fin 10) (q : Slot) (s : State) : (setSlot k q s).nst = s.nst := rfl

@[simp] theorem setSlot_order (k : Fin 10) (q : Slot) (s : State) : (setSlot k q s).order = s.order := rfl

@[simp] theorem setSlot_nb (k : Fin 10) (q : Slot) (s : State) : (setSlot k q s).nb = s.nb := rfl

@[simp] theorem setSlot_bdir (k : Fin 10) (q : Slot) (s : State) : (setSlot k q s).bdir = s.bdir := rfl

@[simp] theorem setSlot_binding (k : Fin 10) (q : Slot) (s : State) : (setSlot k q s).binding = s.binding := rfl

@[simp] theorem setSlot_waccLo (k : Fin 10) (q : Slot) (s : State) : (setSlot k q s).waccLo = s.waccLo := rfl

@[simp] theorem setSlot_waccHi (k : Fin 10) (q : Slot) (s : State) : (setSlot k q s).waccHi = s.waccHi := rfl

@[simp] theorem setSlot_wop (k : Fin 10) (q : Slot) (s : State) : (setSlot k q s).wop = s.wop := rfl

@[simp] theorem setSlot_wrem (k : Fin 10) (q : Slot) (s : State) : (setSlot k q s).wrem = s.wrem := rfl

@[simp] theorem setSlot_wstrLen (k : Fin 10) (q : Slot) (s : State) : (setSlot k q s).wstrLen = s.wstrLen := rfl

@[simp] theorem setSlot_wstr (k : Fin 10) (q : Slot) (s : State) : (setSlot k q s).wstr = s.wstr := rfl

@[simp] theorem setSlot_blk (k : Fin 10) (q : Slot) (s : State) : (setSlot k q s).blk = s.blk := rfl

@[simp] theorem setSlot_blkLen (k : Fin 10) (q : Slot) (s : State) : (setSlot k q s).blkLen = s.blkLen := rfl

@[simp] theorem setSlot_psize (k : Fin 10) (q : Slot) (s : State) : (setSlot k q s).psize = s.psize := rfl

@[simp] theorem setSlot_pstart (k : Fin 10) (q : Slot) (s : State) : (setSlot k q s).pstart = s.pstart := rfl

@[simp] theorem setSlot_pstep (k : Fin 10) (q : Slot) (s : State) : (setSlot k q s).pstep = s.pstep := rfl

@[simp] theorem setSlot_plen (k : Fin 10) (q : Slot) (s : State) : (setSlot k q s).plen = s.plen := rfl

@[simp] theorem setSlot_stg (k : Fin 10) (q : Slot) (s : State) : (setSlot k q s).stg = s.stg := rfl

@[simp] theorem setSlot_rotors (k : Fin 10) (q : Slot) (s : State) : (setSlot k q s).rotors = s.rotors := rfl

@[simp] theorem setSlot_perms (k : Fin 10) (q : Slot) (s : State) : (setSlot k q s).perms = s.perms := rfl

@[simp] theorem setSlot_idx (k : Fin 10) (q : Slot) (s : State) : (setSlot k q s).idx = s.idx := rfl

@[simp] theorem setSlot_workers (k : Fin 10) (q : Slot) (s : State) : (setSlot k q s).workers = s.workers := rfl

@[simp] theorem setSlot_loose (k : Fin 10) (q : Slot) (s : State) : (setSlot k q s).loose = s.loose := rfl

@[simp] theorem setSlot_tainted (k : Fin 10) (q : Slot) (s : State) : (setSlot k q s).tainted = s.tainted := rfl

@[simp] theorem setSlot_draws (k : Fin 10) (q : Slot) (s : State) : (setSlot k q s).draws = s.draws := rfl

@[simp] theorem setSlot_sched (k : Fin 10) (q : Slot) (s : State) : (setSlot k q s).sched = s.sched := rfl

@[simp] theorem setSlot_hostq (k : Fin 10) (q : Slot) (s : State) : (setSlot k q s).hostq = s.hostq := rfl

@[simp] theorem setSlot_replies (k : Fin 10) (q : Slot) (s : State) : (setSlot k q s).replies = s.replies := rfl

/-! ### `setWorker` -/

@[simp] theorem setWorker_estate (p : Fin 9) (w : Worker) (s : State) : (setWorker p w s).estate = s.estate := rfl

@[simp] theorem setWorker_faulted (p : Fin 9) (w : Worker) (s : State) : (setWorker p w s).faulted = s.faulted := rfl

@[simp] theorem setWorker_closing (p : Fin 9) (w : Worker) (s : State) : (setWorker p w s).closing = s.closing := rfl

@[simp] theorem setWorker_flagZ (p : Fin 9) (w : Worker) (s : State) : (setWorker p w s).flagZ = s.flagZ := rfl

@[simp] theorem setWorker_flagB (p : Fin 9) (w : Worker) (s : State) : (setWorker p w s).flagB = s.flagB := rfl

@[simp] theorem setWorker_untracked (p : Fin 9) (w : Worker) (s : State) : (setWorker p w s).untracked = s.untracked := rfl

@[simp] theorem setWorker_dir (p : Fin 9) (w : Worker) (s : State) : (setWorker p w s).dir = s.dir := rfl

@[simp] theorem setWorker_fault (p : Fin 9) (w : Worker) (s : State) : (setWorker p w s).fault = s.fault := rfl

@[simp] theorem setWorker_fcmd (p : Fin 9) (w : Worker) (s : State) : (setWorker p w s).fcmd = s.fcmd := rfl

@[simp] theorem setWorker_nst (p : Fin 9) (w : Worker) (s : State) : (setWorker p w s).nst = s.nst := rfl

@[simp] theorem setWorker_order (p : Fin 9) (w : Worker) (s : State) : (setWorker p w s).order = s.order := rfl

@[simp] theorem setWorker_nb (p : Fin 9) (w : Worker) (s : State) : (setWorker p w s).nb = s.nb := rfl

@[simp] theorem setWorker_bdir (p : Fin 9) (w : Worker) (s : State) : (setWorker p w s).bdir = s.bdir := rfl

@[simp] theorem setWorker_binding (p : Fin 9) (w : Worker) (s : State) : (setWorker p w s).binding = s.binding := rfl

@[simp] theorem setWorker_waccLo (p : Fin 9) (w : Worker) (s : State) : (setWorker p w s).waccLo = s.waccLo := rfl

@[simp] theorem setWorker_waccHi (p : Fin 9) (w : Worker) (s : State) : (setWorker p w s).waccHi = s.waccHi := rfl

@[simp] theorem setWorker_wop (p : Fin 9) (w : Worker) (s : State) : (setWorker p w s).wop = s.wop := rfl

@[simp] theorem setWorker_wrem (p : Fin 9) (w : Worker) (s : State) : (setWorker p w s).wrem = s.wrem := rfl

@[simp] theorem setWorker_wstrLen (p : Fin 9) (w : Worker) (s : State) : (setWorker p w s).wstrLen = s.wstrLen := rfl

@[simp] theorem setWorker_wstr (p : Fin 9) (w : Worker) (s : State) : (setWorker p w s).wstr = s.wstr := rfl

@[simp] theorem setWorker_blk (p : Fin 9) (w : Worker) (s : State) : (setWorker p w s).blk = s.blk := rfl

@[simp] theorem setWorker_blkLen (p : Fin 9) (w : Worker) (s : State) : (setWorker p w s).blkLen = s.blkLen := rfl

@[simp] theorem setWorker_psize (p : Fin 9) (w : Worker) (s : State) : (setWorker p w s).psize = s.psize := rfl

@[simp] theorem setWorker_pstart (p : Fin 9) (w : Worker) (s : State) : (setWorker p w s).pstart = s.pstart := rfl

@[simp] theorem setWorker_pstep (p : Fin 9) (w : Worker) (s : State) : (setWorker p w s).pstep = s.pstep := rfl

@[simp] theorem setWorker_plen (p : Fin 9) (w : Worker) (s : State) : (setWorker p w s).plen = s.plen := rfl

@[simp] theorem setWorker_stg (p : Fin 9) (w : Worker) (s : State) : (setWorker p w s).stg = s.stg := rfl

@[simp] theorem setWorker_rotors (p : Fin 9) (w : Worker) (s : State) : (setWorker p w s).rotors = s.rotors := rfl

@[simp] theorem setWorker_perms (p : Fin 9) (w : Worker) (s : State) : (setWorker p w s).perms = s.perms := rfl

@[simp] theorem setWorker_idx (p : Fin 9) (w : Worker) (s : State) : (setWorker p w s).idx = s.idx := rfl

@[simp] theorem setWorker_slots (p : Fin 9) (w : Worker) (s : State) : (setWorker p w s).slots = s.slots := rfl

@[simp] theorem setWorker_loose (p : Fin 9) (w : Worker) (s : State) : (setWorker p w s).loose = s.loose := rfl

@[simp] theorem setWorker_tainted (p : Fin 9) (w : Worker) (s : State) : (setWorker p w s).tainted = s.tainted := rfl

@[simp] theorem setWorker_draws (p : Fin 9) (w : Worker) (s : State) : (setWorker p w s).draws = s.draws := rfl

@[simp] theorem setWorker_sched (p : Fin 9) (w : Worker) (s : State) : (setWorker p w s).sched = s.sched := rfl

@[simp] theorem setWorker_hostq (p : Fin 9) (w : Worker) (s : State) : (setWorker p w s).hostq = s.hostq := rfl

@[simp] theorem setWorker_replies (p : Fin 9) (w : Worker) (s : State) : (setWorker p w s).replies = s.replies := rfl

/-! ### `setWacc` -/

@[simp] theorem setWacc_estate (v : Nat) (s : State) : (setWacc v s).estate = s.estate := rfl

@[simp] theorem setWacc_faulted (v : Nat) (s : State) : (setWacc v s).faulted = s.faulted := rfl

@[simp] theorem setWacc_closing (v : Nat) (s : State) : (setWacc v s).closing = s.closing := rfl

@[simp] theorem setWacc_flagZ (v : Nat) (s : State) : (setWacc v s).flagZ = s.flagZ := rfl

@[simp] theorem setWacc_flagB (v : Nat) (s : State) : (setWacc v s).flagB = s.flagB := rfl

@[simp] theorem setWacc_untracked (v : Nat) (s : State) : (setWacc v s).untracked = s.untracked := rfl

@[simp] theorem setWacc_dir (v : Nat) (s : State) : (setWacc v s).dir = s.dir := rfl

@[simp] theorem setWacc_fault (v : Nat) (s : State) : (setWacc v s).fault = s.fault := rfl

@[simp] theorem setWacc_fcmd (v : Nat) (s : State) : (setWacc v s).fcmd = s.fcmd := rfl

@[simp] theorem setWacc_nst (v : Nat) (s : State) : (setWacc v s).nst = s.nst := rfl

@[simp] theorem setWacc_order (v : Nat) (s : State) : (setWacc v s).order = s.order := rfl

@[simp] theorem setWacc_nb (v : Nat) (s : State) : (setWacc v s).nb = s.nb := rfl

@[simp] theorem setWacc_bdir (v : Nat) (s : State) : (setWacc v s).bdir = s.bdir := rfl

@[simp] theorem setWacc_binding (v : Nat) (s : State) : (setWacc v s).binding = s.binding := rfl

@[simp] theorem setWacc_wop (v : Nat) (s : State) : (setWacc v s).wop = s.wop := rfl

@[simp] theorem setWacc_wrem (v : Nat) (s : State) : (setWacc v s).wrem = s.wrem := rfl

@[simp] theorem setWacc_wstrLen (v : Nat) (s : State) : (setWacc v s).wstrLen = s.wstrLen := rfl

@[simp] theorem setWacc_wstr (v : Nat) (s : State) : (setWacc v s).wstr = s.wstr := rfl

@[simp] theorem setWacc_blk (v : Nat) (s : State) : (setWacc v s).blk = s.blk := rfl

@[simp] theorem setWacc_blkLen (v : Nat) (s : State) : (setWacc v s).blkLen = s.blkLen := rfl

@[simp] theorem setWacc_psize (v : Nat) (s : State) : (setWacc v s).psize = s.psize := rfl

@[simp] theorem setWacc_pstart (v : Nat) (s : State) : (setWacc v s).pstart = s.pstart := rfl

@[simp] theorem setWacc_pstep (v : Nat) (s : State) : (setWacc v s).pstep = s.pstep := rfl

@[simp] theorem setWacc_plen (v : Nat) (s : State) : (setWacc v s).plen = s.plen := rfl

@[simp] theorem setWacc_stg (v : Nat) (s : State) : (setWacc v s).stg = s.stg := rfl

@[simp] theorem setWacc_rotors (v : Nat) (s : State) : (setWacc v s).rotors = s.rotors := rfl

@[simp] theorem setWacc_perms (v : Nat) (s : State) : (setWacc v s).perms = s.perms := rfl

@[simp] theorem setWacc_idx (v : Nat) (s : State) : (setWacc v s).idx = s.idx := rfl

@[simp] theorem setWacc_slots (v : Nat) (s : State) : (setWacc v s).slots = s.slots := rfl

@[simp] theorem setWacc_workers (v : Nat) (s : State) : (setWacc v s).workers = s.workers := rfl

@[simp] theorem setWacc_loose (v : Nat) (s : State) : (setWacc v s).loose = s.loose := rfl

@[simp] theorem setWacc_tainted (v : Nat) (s : State) : (setWacc v s).tainted = s.tainted := rfl

@[simp] theorem setWacc_draws (v : Nat) (s : State) : (setWacc v s).draws = s.draws := rfl

@[simp] theorem setWacc_sched (v : Nat) (s : State) : (setWacc v s).sched = s.sched := rfl

@[simp] theorem setWacc_hostq (v : Nat) (s : State) : (setWacc v s).hostq = s.hostq := rfl

@[simp] theorem setWacc_replies (v : Nat) (s : State) : (setWacc v s).replies = s.replies := rfl

/-! ### `setBlk` -/

@[simp] theorem setBlk_estate (r : List Byte) (s : State) : (setBlk r s).estate = s.estate := rfl

@[simp] theorem setBlk_faulted (r : List Byte) (s : State) : (setBlk r s).faulted = s.faulted := rfl

@[simp] theorem setBlk_closing (r : List Byte) (s : State) : (setBlk r s).closing = s.closing := rfl

@[simp] theorem setBlk_flagZ (r : List Byte) (s : State) : (setBlk r s).flagZ = s.flagZ := rfl

@[simp] theorem setBlk_flagB (r : List Byte) (s : State) : (setBlk r s).flagB = s.flagB := rfl

@[simp] theorem setBlk_untracked (r : List Byte) (s : State) : (setBlk r s).untracked = s.untracked := rfl

@[simp] theorem setBlk_dir (r : List Byte) (s : State) : (setBlk r s).dir = s.dir := rfl

@[simp] theorem setBlk_fault (r : List Byte) (s : State) : (setBlk r s).fault = s.fault := rfl

@[simp] theorem setBlk_fcmd (r : List Byte) (s : State) : (setBlk r s).fcmd = s.fcmd := rfl

@[simp] theorem setBlk_nst (r : List Byte) (s : State) : (setBlk r s).nst = s.nst := rfl

@[simp] theorem setBlk_order (r : List Byte) (s : State) : (setBlk r s).order = s.order := rfl

@[simp] theorem setBlk_nb (r : List Byte) (s : State) : (setBlk r s).nb = s.nb := rfl

@[simp] theorem setBlk_bdir (r : List Byte) (s : State) : (setBlk r s).bdir = s.bdir := rfl

@[simp] theorem setBlk_binding (r : List Byte) (s : State) : (setBlk r s).binding = s.binding := rfl

@[simp] theorem setBlk_waccLo (r : List Byte) (s : State) : (setBlk r s).waccLo = s.waccLo := rfl

@[simp] theorem setBlk_waccHi (r : List Byte) (s : State) : (setBlk r s).waccHi = s.waccHi := rfl

@[simp] theorem setBlk_wop (r : List Byte) (s : State) : (setBlk r s).wop = s.wop := rfl

@[simp] theorem setBlk_wrem (r : List Byte) (s : State) : (setBlk r s).wrem = s.wrem := rfl

@[simp] theorem setBlk_wstrLen (r : List Byte) (s : State) : (setBlk r s).wstrLen = s.wstrLen := rfl

@[simp] theorem setBlk_wstr (r : List Byte) (s : State) : (setBlk r s).wstr = s.wstr := rfl

@[simp] theorem setBlk_blkLen (r : List Byte) (s : State) : (setBlk r s).blkLen = s.blkLen := rfl

@[simp] theorem setBlk_psize (r : List Byte) (s : State) : (setBlk r s).psize = s.psize := rfl

@[simp] theorem setBlk_pstart (r : List Byte) (s : State) : (setBlk r s).pstart = s.pstart := rfl

@[simp] theorem setBlk_pstep (r : List Byte) (s : State) : (setBlk r s).pstep = s.pstep := rfl

@[simp] theorem setBlk_plen (r : List Byte) (s : State) : (setBlk r s).plen = s.plen := rfl

@[simp] theorem setBlk_stg (r : List Byte) (s : State) : (setBlk r s).stg = s.stg := rfl

@[simp] theorem setBlk_rotors (r : List Byte) (s : State) : (setBlk r s).rotors = s.rotors := rfl

@[simp] theorem setBlk_perms (r : List Byte) (s : State) : (setBlk r s).perms = s.perms := rfl

@[simp] theorem setBlk_idx (r : List Byte) (s : State) : (setBlk r s).idx = s.idx := rfl

@[simp] theorem setBlk_slots (r : List Byte) (s : State) : (setBlk r s).slots = s.slots := rfl

@[simp] theorem setBlk_workers (r : List Byte) (s : State) : (setBlk r s).workers = s.workers := rfl

@[simp] theorem setBlk_loose (r : List Byte) (s : State) : (setBlk r s).loose = s.loose := rfl

@[simp] theorem setBlk_tainted (r : List Byte) (s : State) : (setBlk r s).tainted = s.tainted := rfl

@[simp] theorem setBlk_draws (r : List Byte) (s : State) : (setBlk r s).draws = s.draws := rfl

@[simp] theorem setBlk_sched (r : List Byte) (s : State) : (setBlk r s).sched = s.sched := rfl

@[simp] theorem setBlk_hostq (r : List Byte) (s : State) : (setBlk r s).hostq = s.hostq := rfl

@[simp] theorem setBlk_replies (r : List Byte) (s : State) : (setBlk r s).replies = s.replies := rfl

/-! ### `setFlagZ` -/

@[simp] theorem setFlagZ_estate (z : Bool) (s : State) : (setFlagZ z s).estate = s.estate := rfl

@[simp] theorem setFlagZ_faulted (z : Bool) (s : State) : (setFlagZ z s).faulted = s.faulted := rfl

@[simp] theorem setFlagZ_closing (z : Bool) (s : State) : (setFlagZ z s).closing = s.closing := rfl

@[simp] theorem setFlagZ_flagB (z : Bool) (s : State) : (setFlagZ z s).flagB = s.flagB := rfl

@[simp] theorem setFlagZ_untracked (z : Bool) (s : State) : (setFlagZ z s).untracked = s.untracked := rfl

@[simp] theorem setFlagZ_dir (z : Bool) (s : State) : (setFlagZ z s).dir = s.dir := rfl

@[simp] theorem setFlagZ_fault (z : Bool) (s : State) : (setFlagZ z s).fault = s.fault := rfl

@[simp] theorem setFlagZ_fcmd (z : Bool) (s : State) : (setFlagZ z s).fcmd = s.fcmd := rfl

@[simp] theorem setFlagZ_nst (z : Bool) (s : State) : (setFlagZ z s).nst = s.nst := rfl

@[simp] theorem setFlagZ_order (z : Bool) (s : State) : (setFlagZ z s).order = s.order := rfl

@[simp] theorem setFlagZ_nb (z : Bool) (s : State) : (setFlagZ z s).nb = s.nb := rfl

@[simp] theorem setFlagZ_bdir (z : Bool) (s : State) : (setFlagZ z s).bdir = s.bdir := rfl

@[simp] theorem setFlagZ_binding (z : Bool) (s : State) : (setFlagZ z s).binding = s.binding := rfl

@[simp] theorem setFlagZ_waccLo (z : Bool) (s : State) : (setFlagZ z s).waccLo = s.waccLo := rfl

@[simp] theorem setFlagZ_waccHi (z : Bool) (s : State) : (setFlagZ z s).waccHi = s.waccHi := rfl

@[simp] theorem setFlagZ_wop (z : Bool) (s : State) : (setFlagZ z s).wop = s.wop := rfl

@[simp] theorem setFlagZ_wrem (z : Bool) (s : State) : (setFlagZ z s).wrem = s.wrem := rfl

@[simp] theorem setFlagZ_wstrLen (z : Bool) (s : State) : (setFlagZ z s).wstrLen = s.wstrLen := rfl

@[simp] theorem setFlagZ_wstr (z : Bool) (s : State) : (setFlagZ z s).wstr = s.wstr := rfl

@[simp] theorem setFlagZ_blk (z : Bool) (s : State) : (setFlagZ z s).blk = s.blk := rfl

@[simp] theorem setFlagZ_blkLen (z : Bool) (s : State) : (setFlagZ z s).blkLen = s.blkLen := rfl

@[simp] theorem setFlagZ_psize (z : Bool) (s : State) : (setFlagZ z s).psize = s.psize := rfl

@[simp] theorem setFlagZ_pstart (z : Bool) (s : State) : (setFlagZ z s).pstart = s.pstart := rfl

@[simp] theorem setFlagZ_pstep (z : Bool) (s : State) : (setFlagZ z s).pstep = s.pstep := rfl

@[simp] theorem setFlagZ_plen (z : Bool) (s : State) : (setFlagZ z s).plen = s.plen := rfl

@[simp] theorem setFlagZ_stg (z : Bool) (s : State) : (setFlagZ z s).stg = s.stg := rfl

@[simp] theorem setFlagZ_rotors (z : Bool) (s : State) : (setFlagZ z s).rotors = s.rotors := rfl

@[simp] theorem setFlagZ_perms (z : Bool) (s : State) : (setFlagZ z s).perms = s.perms := rfl

@[simp] theorem setFlagZ_idx (z : Bool) (s : State) : (setFlagZ z s).idx = s.idx := rfl

@[simp] theorem setFlagZ_slots (z : Bool) (s : State) : (setFlagZ z s).slots = s.slots := rfl

@[simp] theorem setFlagZ_workers (z : Bool) (s : State) : (setFlagZ z s).workers = s.workers := rfl

@[simp] theorem setFlagZ_loose (z : Bool) (s : State) : (setFlagZ z s).loose = s.loose := rfl

@[simp] theorem setFlagZ_tainted (z : Bool) (s : State) : (setFlagZ z s).tainted = s.tainted := rfl

@[simp] theorem setFlagZ_draws (z : Bool) (s : State) : (setFlagZ z s).draws = s.draws := rfl

@[simp] theorem setFlagZ_sched (z : Bool) (s : State) : (setFlagZ z s).sched = s.sched := rfl

@[simp] theorem setFlagZ_hostq (z : Bool) (s : State) : (setFlagZ z s).hostq = s.hostq := rfl

@[simp] theorem setFlagZ_replies (z : Bool) (s : State) : (setFlagZ z s).replies = s.replies := rfl

/-! ### `setFlagB` -/

@[simp] theorem setFlagB_estate (b : Bool) (s : State) : (setFlagB b s).estate = s.estate := rfl

@[simp] theorem setFlagB_faulted (b : Bool) (s : State) : (setFlagB b s).faulted = s.faulted := rfl

@[simp] theorem setFlagB_closing (b : Bool) (s : State) : (setFlagB b s).closing = s.closing := rfl

@[simp] theorem setFlagB_flagZ (b : Bool) (s : State) : (setFlagB b s).flagZ = s.flagZ := rfl

@[simp] theorem setFlagB_untracked (b : Bool) (s : State) : (setFlagB b s).untracked = s.untracked := rfl

@[simp] theorem setFlagB_dir (b : Bool) (s : State) : (setFlagB b s).dir = s.dir := rfl

@[simp] theorem setFlagB_fault (b : Bool) (s : State) : (setFlagB b s).fault = s.fault := rfl

@[simp] theorem setFlagB_fcmd (b : Bool) (s : State) : (setFlagB b s).fcmd = s.fcmd := rfl

@[simp] theorem setFlagB_nst (b : Bool) (s : State) : (setFlagB b s).nst = s.nst := rfl

@[simp] theorem setFlagB_order (b : Bool) (s : State) : (setFlagB b s).order = s.order := rfl

@[simp] theorem setFlagB_nb (b : Bool) (s : State) : (setFlagB b s).nb = s.nb := rfl

@[simp] theorem setFlagB_bdir (b : Bool) (s : State) : (setFlagB b s).bdir = s.bdir := rfl

@[simp] theorem setFlagB_binding (b : Bool) (s : State) : (setFlagB b s).binding = s.binding := rfl

@[simp] theorem setFlagB_waccLo (b : Bool) (s : State) : (setFlagB b s).waccLo = s.waccLo := rfl

@[simp] theorem setFlagB_waccHi (b : Bool) (s : State) : (setFlagB b s).waccHi = s.waccHi := rfl

@[simp] theorem setFlagB_wop (b : Bool) (s : State) : (setFlagB b s).wop = s.wop := rfl

@[simp] theorem setFlagB_wrem (b : Bool) (s : State) : (setFlagB b s).wrem = s.wrem := rfl

@[simp] theorem setFlagB_wstrLen (b : Bool) (s : State) : (setFlagB b s).wstrLen = s.wstrLen := rfl

@[simp] theorem setFlagB_wstr (b : Bool) (s : State) : (setFlagB b s).wstr = s.wstr := rfl

@[simp] theorem setFlagB_blk (b : Bool) (s : State) : (setFlagB b s).blk = s.blk := rfl

@[simp] theorem setFlagB_blkLen (b : Bool) (s : State) : (setFlagB b s).blkLen = s.blkLen := rfl

@[simp] theorem setFlagB_psize (b : Bool) (s : State) : (setFlagB b s).psize = s.psize := rfl

@[simp] theorem setFlagB_pstart (b : Bool) (s : State) : (setFlagB b s).pstart = s.pstart := rfl

@[simp] theorem setFlagB_pstep (b : Bool) (s : State) : (setFlagB b s).pstep = s.pstep := rfl

@[simp] theorem setFlagB_plen (b : Bool) (s : State) : (setFlagB b s).plen = s.plen := rfl

@[simp] theorem setFlagB_stg (b : Bool) (s : State) : (setFlagB b s).stg = s.stg := rfl

@[simp] theorem setFlagB_rotors (b : Bool) (s : State) : (setFlagB b s).rotors = s.rotors := rfl

@[simp] theorem setFlagB_perms (b : Bool) (s : State) : (setFlagB b s).perms = s.perms := rfl

@[simp] theorem setFlagB_idx (b : Bool) (s : State) : (setFlagB b s).idx = s.idx := rfl

@[simp] theorem setFlagB_slots (b : Bool) (s : State) : (setFlagB b s).slots = s.slots := rfl

@[simp] theorem setFlagB_workers (b : Bool) (s : State) : (setFlagB b s).workers = s.workers := rfl

@[simp] theorem setFlagB_loose (b : Bool) (s : State) : (setFlagB b s).loose = s.loose := rfl

@[simp] theorem setFlagB_tainted (b : Bool) (s : State) : (setFlagB b s).tainted = s.tainted := rfl

@[simp] theorem setFlagB_draws (b : Bool) (s : State) : (setFlagB b s).draws = s.draws := rfl

@[simp] theorem setFlagB_sched (b : Bool) (s : State) : (setFlagB b s).sched = s.sched := rfl

@[simp] theorem setFlagB_hostq (b : Bool) (s : State) : (setFlagB b s).hostq = s.hostq := rfl

@[simp] theorem setFlagB_replies (b : Bool) (s : State) : (setFlagB b s).replies = s.replies := rfl

/-! ### `setUntracked` -/

@[simp] theorem setUntracked_estate (u : Bool) (s : State) : (setUntracked u s).estate = s.estate := rfl

@[simp] theorem setUntracked_faulted (u : Bool) (s : State) : (setUntracked u s).faulted = s.faulted := rfl

@[simp] theorem setUntracked_closing (u : Bool) (s : State) : (setUntracked u s).closing = s.closing := rfl

@[simp] theorem setUntracked_flagZ (u : Bool) (s : State) : (setUntracked u s).flagZ = s.flagZ := rfl

@[simp] theorem setUntracked_flagB (u : Bool) (s : State) : (setUntracked u s).flagB = s.flagB := rfl

@[simp] theorem setUntracked_dir (u : Bool) (s : State) : (setUntracked u s).dir = s.dir := rfl

@[simp] theorem setUntracked_fault (u : Bool) (s : State) : (setUntracked u s).fault = s.fault := rfl

@[simp] theorem setUntracked_fcmd (u : Bool) (s : State) : (setUntracked u s).fcmd = s.fcmd := rfl

@[simp] theorem setUntracked_nst (u : Bool) (s : State) : (setUntracked u s).nst = s.nst := rfl

@[simp] theorem setUntracked_order (u : Bool) (s : State) : (setUntracked u s).order = s.order := rfl

@[simp] theorem setUntracked_nb (u : Bool) (s : State) : (setUntracked u s).nb = s.nb := rfl

@[simp] theorem setUntracked_bdir (u : Bool) (s : State) : (setUntracked u s).bdir = s.bdir := rfl

@[simp] theorem setUntracked_binding (u : Bool) (s : State) : (setUntracked u s).binding = s.binding := rfl

@[simp] theorem setUntracked_waccLo (u : Bool) (s : State) : (setUntracked u s).waccLo = s.waccLo := rfl

@[simp] theorem setUntracked_waccHi (u : Bool) (s : State) : (setUntracked u s).waccHi = s.waccHi := rfl

@[simp] theorem setUntracked_wop (u : Bool) (s : State) : (setUntracked u s).wop = s.wop := rfl

@[simp] theorem setUntracked_wrem (u : Bool) (s : State) : (setUntracked u s).wrem = s.wrem := rfl

@[simp] theorem setUntracked_wstrLen (u : Bool) (s : State) : (setUntracked u s).wstrLen = s.wstrLen := rfl

@[simp] theorem setUntracked_wstr (u : Bool) (s : State) : (setUntracked u s).wstr = s.wstr := rfl

@[simp] theorem setUntracked_blk (u : Bool) (s : State) : (setUntracked u s).blk = s.blk := rfl

@[simp] theorem setUntracked_blkLen (u : Bool) (s : State) : (setUntracked u s).blkLen = s.blkLen := rfl

@[simp] theorem setUntracked_psize (u : Bool) (s : State) : (setUntracked u s).psize = s.psize := rfl

@[simp] theorem setUntracked_pstart (u : Bool) (s : State) : (setUntracked u s).pstart = s.pstart := rfl

@[simp] theorem setUntracked_pstep (u : Bool) (s : State) : (setUntracked u s).pstep = s.pstep := rfl

@[simp] theorem setUntracked_plen (u : Bool) (s : State) : (setUntracked u s).plen = s.plen := rfl

@[simp] theorem setUntracked_stg (u : Bool) (s : State) : (setUntracked u s).stg = s.stg := rfl

@[simp] theorem setUntracked_rotors (u : Bool) (s : State) : (setUntracked u s).rotors = s.rotors := rfl

@[simp] theorem setUntracked_perms (u : Bool) (s : State) : (setUntracked u s).perms = s.perms := rfl

@[simp] theorem setUntracked_idx (u : Bool) (s : State) : (setUntracked u s).idx = s.idx := rfl

@[simp] theorem setUntracked_slots (u : Bool) (s : State) : (setUntracked u s).slots = s.slots := rfl

@[simp] theorem setUntracked_workers (u : Bool) (s : State) : (setUntracked u s).workers = s.workers := rfl

@[simp] theorem setUntracked_loose (u : Bool) (s : State) : (setUntracked u s).loose = s.loose := rfl

@[simp] theorem setUntracked_tainted (u : Bool) (s : State) : (setUntracked u s).tainted = s.tainted := rfl

@[simp] theorem setUntracked_draws (u : Bool) (s : State) : (setUntracked u s).draws = s.draws := rfl

@[simp] theorem setUntracked_sched (u : Bool) (s : State) : (setUntracked u s).sched = s.sched := rfl

@[simp] theorem setUntracked_hostq (u : Bool) (s : State) : (setUntracked u s).hostq = s.hostq := rfl

@[simp] theorem setUntracked_replies (u : Bool) (s : State) : (setUntracked u s).replies = s.replies := rfl

/-! ### `raiseFault` -/

@[simp] theorem raiseFault_estate (src : Source) (e : Trap) (w : BitVec 4) (i : Word) (s : State) : (raiseFault src e w i s).estate = s.estate := by
  unfold raiseFault
  split <;> rfl

@[simp] theorem raiseFault_closing (src : Source) (e : Trap) (w : BitVec 4) (i : Word) (s : State) : (raiseFault src e w i s).closing = s.closing := by
  unfold raiseFault
  split <;> rfl

@[simp] theorem raiseFault_flagZ (src : Source) (e : Trap) (w : BitVec 4) (i : Word) (s : State) : (raiseFault src e w i s).flagZ = s.flagZ := by
  unfold raiseFault
  split <;> rfl

@[simp] theorem raiseFault_flagB (src : Source) (e : Trap) (w : BitVec 4) (i : Word) (s : State) : (raiseFault src e w i s).flagB = s.flagB := by
  unfold raiseFault
  split <;> rfl

@[simp] theorem raiseFault_untracked (src : Source) (e : Trap) (w : BitVec 4) (i : Word) (s : State) : (raiseFault src e w i s).untracked = s.untracked := by
  unfold raiseFault
  split <;> rfl

@[simp] theorem raiseFault_dir (src : Source) (e : Trap) (w : BitVec 4) (i : Word) (s : State) : (raiseFault src e w i s).dir = s.dir := by
  unfold raiseFault
  split <;> rfl

@[simp] theorem raiseFault_nst (src : Source) (e : Trap) (w : BitVec 4) (i : Word) (s : State) : (raiseFault src e w i s).nst = s.nst := by
  unfold raiseFault
  split <;> rfl

@[simp] theorem raiseFault_order (src : Source) (e : Trap) (w : BitVec 4) (i : Word) (s : State) : (raiseFault src e w i s).order = s.order := by
  unfold raiseFault
  split <;> rfl

@[simp] theorem raiseFault_nb (src : Source) (e : Trap) (w : BitVec 4) (i : Word) (s : State) : (raiseFault src e w i s).nb = s.nb := by
  unfold raiseFault
  split <;> rfl

@[simp] theorem raiseFault_bdir (src : Source) (e : Trap) (w : BitVec 4) (i : Word) (s : State) : (raiseFault src e w i s).bdir = s.bdir := by
  unfold raiseFault
  split <;> rfl

@[simp] theorem raiseFault_binding (src : Source) (e : Trap) (w : BitVec 4) (i : Word) (s : State) : (raiseFault src e w i s).binding = s.binding := by
  unfold raiseFault
  split <;> rfl

@[simp] theorem raiseFault_waccLo (src : Source) (e : Trap) (w : BitVec 4) (i : Word) (s : State) : (raiseFault src e w i s).waccLo = s.waccLo := by
  unfold raiseFault
  split <;> rfl

@[simp] theorem raiseFault_waccHi (src : Source) (e : Trap) (w : BitVec 4) (i : Word) (s : State) : (raiseFault src e w i s).waccHi = s.waccHi := by
  unfold raiseFault
  split <;> rfl

@[simp] theorem raiseFault_wop (src : Source) (e : Trap) (w : BitVec 4) (i : Word) (s : State) : (raiseFault src e w i s).wop = s.wop := by
  unfold raiseFault
  split <;> rfl

@[simp] theorem raiseFault_wrem (src : Source) (e : Trap) (w : BitVec 4) (i : Word) (s : State) : (raiseFault src e w i s).wrem = s.wrem := by
  unfold raiseFault
  split <;> rfl

@[simp] theorem raiseFault_wstrLen (src : Source) (e : Trap) (w : BitVec 4) (i : Word) (s : State) : (raiseFault src e w i s).wstrLen = s.wstrLen := by
  unfold raiseFault
  split <;> rfl

@[simp] theorem raiseFault_wstr (src : Source) (e : Trap) (w : BitVec 4) (i : Word) (s : State) : (raiseFault src e w i s).wstr = s.wstr := by
  unfold raiseFault
  split <;> rfl

@[simp] theorem raiseFault_blk (src : Source) (e : Trap) (w : BitVec 4) (i : Word) (s : State) : (raiseFault src e w i s).blk = s.blk := by
  unfold raiseFault
  split <;> rfl

@[simp] theorem raiseFault_blkLen (src : Source) (e : Trap) (w : BitVec 4) (i : Word) (s : State) : (raiseFault src e w i s).blkLen = s.blkLen := by
  unfold raiseFault
  split <;> rfl

@[simp] theorem raiseFault_psize (src : Source) (e : Trap) (w : BitVec 4) (i : Word) (s : State) : (raiseFault src e w i s).psize = s.psize := by
  unfold raiseFault
  split <;> rfl

@[simp] theorem raiseFault_pstart (src : Source) (e : Trap) (w : BitVec 4) (i : Word) (s : State) : (raiseFault src e w i s).pstart = s.pstart := by
  unfold raiseFault
  split <;> rfl

@[simp] theorem raiseFault_pstep (src : Source) (e : Trap) (w : BitVec 4) (i : Word) (s : State) : (raiseFault src e w i s).pstep = s.pstep := by
  unfold raiseFault
  split <;> rfl

@[simp] theorem raiseFault_plen (src : Source) (e : Trap) (w : BitVec 4) (i : Word) (s : State) : (raiseFault src e w i s).plen = s.plen := by
  unfold raiseFault
  split <;> rfl

@[simp] theorem raiseFault_stg (src : Source) (e : Trap) (w : BitVec 4) (i : Word) (s : State) : (raiseFault src e w i s).stg = s.stg := by
  unfold raiseFault
  split <;> rfl

@[simp] theorem raiseFault_rotors (src : Source) (e : Trap) (w : BitVec 4) (i : Word) (s : State) : (raiseFault src e w i s).rotors = s.rotors := by
  unfold raiseFault
  split <;> rfl

@[simp] theorem raiseFault_perms (src : Source) (e : Trap) (w : BitVec 4) (i : Word) (s : State) : (raiseFault src e w i s).perms = s.perms := by
  unfold raiseFault
  split <;> rfl

@[simp] theorem raiseFault_idx (src : Source) (e : Trap) (w : BitVec 4) (i : Word) (s : State) : (raiseFault src e w i s).idx = s.idx := by
  unfold raiseFault
  split <;> rfl

@[simp] theorem raiseFault_slots (src : Source) (e : Trap) (w : BitVec 4) (i : Word) (s : State) : (raiseFault src e w i s).slots = s.slots := by
  unfold raiseFault
  split <;> rfl

@[simp] theorem raiseFault_workers (src : Source) (e : Trap) (w : BitVec 4) (i : Word) (s : State) : (raiseFault src e w i s).workers = s.workers := by
  unfold raiseFault
  split <;> rfl

@[simp] theorem raiseFault_loose (src : Source) (e : Trap) (w : BitVec 4) (i : Word) (s : State) : (raiseFault src e w i s).loose = s.loose := by
  unfold raiseFault
  split <;> rfl

@[simp] theorem raiseFault_tainted (src : Source) (e : Trap) (w : BitVec 4) (i : Word) (s : State) : (raiseFault src e w i s).tainted = s.tainted := by
  unfold raiseFault
  split <;> rfl

@[simp] theorem raiseFault_draws (src : Source) (e : Trap) (w : BitVec 4) (i : Word) (s : State) : (raiseFault src e w i s).draws = s.draws := by
  unfold raiseFault
  split <;> rfl

@[simp] theorem raiseFault_sched (src : Source) (e : Trap) (w : BitVec 4) (i : Word) (s : State) : (raiseFault src e w i s).sched = s.sched := by
  unfold raiseFault
  split <;> rfl

@[simp] theorem raiseFault_hostq (src : Source) (e : Trap) (w : BitVec 4) (i : Word) (s : State) : (raiseFault src e w i s).hostq = s.hostq := by
  unfold raiseFault
  split <;> rfl

@[simp] theorem raiseFault_replies (src : Source) (e : Trap) (w : BitVec 4) (i : Word) (s : State) : (raiseFault src e w i s).replies = s.replies := by
  unfold raiseFault
  split <;> rfl

/-! ### `scramble` -/

@[simp] theorem scramble_estate (u : UnitId) (s : State) : (scramble u s).estate = s.estate := by
  cases u <;> rfl

@[simp] theorem scramble_faulted (u : UnitId) (s : State) : (scramble u s).faulted = s.faulted := by
  cases u <;> rfl

@[simp] theorem scramble_closing (u : UnitId) (s : State) : (scramble u s).closing = s.closing := by
  cases u <;> rfl

@[simp] theorem scramble_flagZ (u : UnitId) (s : State) : (scramble u s).flagZ = s.flagZ := by
  cases u <;> rfl

@[simp] theorem scramble_flagB (u : UnitId) (s : State) : (scramble u s).flagB = s.flagB := by
  cases u <;> rfl

@[simp] theorem scramble_untracked (u : UnitId) (s : State) : (scramble u s).untracked = s.untracked := by
  cases u <;> rfl

@[simp] theorem scramble_dir (u : UnitId) (s : State) : (scramble u s).dir = s.dir := by
  cases u <;> rfl

@[simp] theorem scramble_fault (u : UnitId) (s : State) : (scramble u s).fault = s.fault := by
  cases u <;> rfl

@[simp] theorem scramble_fcmd (u : UnitId) (s : State) : (scramble u s).fcmd = s.fcmd := by
  cases u <;> rfl

@[simp] theorem scramble_nst (u : UnitId) (s : State) : (scramble u s).nst = s.nst := by
  cases u <;> rfl

@[simp] theorem scramble_order (u : UnitId) (s : State) : (scramble u s).order = s.order := by
  cases u <;> rfl

@[simp] theorem scramble_nb (u : UnitId) (s : State) : (scramble u s).nb = s.nb := by
  cases u <;> rfl

@[simp] theorem scramble_bdir (u : UnitId) (s : State) : (scramble u s).bdir = s.bdir := by
  cases u <;> rfl

@[simp] theorem scramble_binding (u : UnitId) (s : State) : (scramble u s).binding = s.binding := by
  cases u <;> rfl

@[simp] theorem scramble_waccLo (u : UnitId) (s : State) : (scramble u s).waccLo = s.waccLo := by
  cases u <;> rfl

@[simp] theorem scramble_waccHi (u : UnitId) (s : State) : (scramble u s).waccHi = s.waccHi := by
  cases u <;> rfl

@[simp] theorem scramble_wop (u : UnitId) (s : State) : (scramble u s).wop = s.wop := by
  cases u <;> rfl

@[simp] theorem scramble_wrem (u : UnitId) (s : State) : (scramble u s).wrem = s.wrem := by
  cases u <;> rfl

@[simp] theorem scramble_wstrLen (u : UnitId) (s : State) : (scramble u s).wstrLen = s.wstrLen := by
  cases u <;> rfl

@[simp] theorem scramble_wstr (u : UnitId) (s : State) : (scramble u s).wstr = s.wstr := by
  cases u <;> rfl

@[simp] theorem scramble_blk (u : UnitId) (s : State) : (scramble u s).blk = s.blk := by
  cases u <;> rfl

@[simp] theorem scramble_blkLen (u : UnitId) (s : State) : (scramble u s).blkLen = s.blkLen := by
  cases u <;> rfl

@[simp] theorem scramble_psize (u : UnitId) (s : State) : (scramble u s).psize = s.psize := by
  cases u <;> rfl

@[simp] theorem scramble_pstart (u : UnitId) (s : State) : (scramble u s).pstart = s.pstart := by
  cases u <;> rfl

@[simp] theorem scramble_pstep (u : UnitId) (s : State) : (scramble u s).pstep = s.pstep := by
  cases u <;> rfl

@[simp] theorem scramble_plen (u : UnitId) (s : State) : (scramble u s).plen = s.plen := by
  cases u <;> rfl

@[simp] theorem scramble_stg (u : UnitId) (s : State) : (scramble u s).stg = s.stg := by
  cases u <;> rfl

@[simp] theorem scramble_slots (u : UnitId) (s : State) : (scramble u s).slots = s.slots := by
  cases u <;> rfl

@[simp] theorem scramble_workers (u : UnitId) (s : State) : (scramble u s).workers = s.workers := by
  cases u <;> rfl

@[simp] theorem scramble_loose (u : UnitId) (s : State) : (scramble u s).loose = s.loose := by
  cases u <;> rfl

@[simp] theorem scramble_tainted (u : UnitId) (s : State) : (scramble u s).tainted = s.tainted := by
  cases u <;> rfl

@[simp] theorem scramble_sched (u : UnitId) (s : State) : (scramble u s).sched = s.sched := by
  cases u <;> rfl

@[simp] theorem scramble_hostq (u : UnitId) (s : State) : (scramble u s).hostq = s.hostq := by
  cases u <;> rfl

@[simp] theorem scramble_replies (u : UnitId) (s : State) : (scramble u s).replies = s.replies := by
  cases u <;> rfl

/-! ### `breach` -/

@[simp] theorem breach_estate (u : UnitId) (s : State) : (breach u s).estate = s.estate := by
  simp only [breach, freeInFlight, scramble_estate]

@[simp] theorem breach_faulted (u : UnitId) (s : State) : (breach u s).faulted = s.faulted := by
  simp only [breach, freeInFlight, scramble_faulted]

@[simp] theorem breach_closing (u : UnitId) (s : State) : (breach u s).closing = s.closing := by
  simp only [breach, freeInFlight, scramble_closing]

@[simp] theorem breach_flagZ (u : UnitId) (s : State) : (breach u s).flagZ = s.flagZ := by
  simp only [breach, freeInFlight, scramble_flagZ]

@[simp] theorem breach_flagB (u : UnitId) (s : State) : (breach u s).flagB = s.flagB := by
  simp only [breach, freeInFlight, scramble_flagB]

@[simp] theorem breach_untracked (u : UnitId) (s : State) : (breach u s).untracked = s.untracked := by
  simp only [breach, freeInFlight, scramble_untracked]

@[simp] theorem breach_dir (u : UnitId) (s : State) : (breach u s).dir = s.dir := by
  simp only [breach, freeInFlight, scramble_dir]

@[simp] theorem breach_fault (u : UnitId) (s : State) : (breach u s).fault = s.fault := by
  simp only [breach, freeInFlight, scramble_fault]

@[simp] theorem breach_fcmd (u : UnitId) (s : State) : (breach u s).fcmd = s.fcmd := by
  simp only [breach, freeInFlight, scramble_fcmd]

@[simp] theorem breach_nst (u : UnitId) (s : State) : (breach u s).nst = s.nst := by
  simp only [breach, freeInFlight, scramble_nst]

@[simp] theorem breach_order (u : UnitId) (s : State) : (breach u s).order = s.order := by
  simp only [breach, freeInFlight, scramble_order]

@[simp] theorem breach_nb (u : UnitId) (s : State) : (breach u s).nb = s.nb := by
  simp only [breach, freeInFlight, scramble_nb]

@[simp] theorem breach_bdir (u : UnitId) (s : State) : (breach u s).bdir = s.bdir := by
  simp only [breach, freeInFlight, scramble_bdir]

@[simp] theorem breach_binding (u : UnitId) (s : State) : (breach u s).binding = s.binding := by
  simp only [breach, freeInFlight, scramble_binding]

@[simp] theorem breach_waccLo (u : UnitId) (s : State) : (breach u s).waccLo = s.waccLo := by
  simp only [breach, freeInFlight, scramble_waccLo]

@[simp] theorem breach_waccHi (u : UnitId) (s : State) : (breach u s).waccHi = s.waccHi := by
  simp only [breach, freeInFlight, scramble_waccHi]

@[simp] theorem breach_wop (u : UnitId) (s : State) : (breach u s).wop = s.wop := by
  simp only [breach, freeInFlight, scramble_wop]

@[simp] theorem breach_wrem (u : UnitId) (s : State) : (breach u s).wrem = s.wrem := by
  simp only [breach, freeInFlight, scramble_wrem]

@[simp] theorem breach_wstrLen (u : UnitId) (s : State) : (breach u s).wstrLen = s.wstrLen := by
  simp only [breach, freeInFlight, scramble_wstrLen]

@[simp] theorem breach_wstr (u : UnitId) (s : State) : (breach u s).wstr = s.wstr := by
  simp only [breach, freeInFlight, scramble_wstr]

@[simp] theorem breach_blk (u : UnitId) (s : State) : (breach u s).blk = s.blk := by
  simp only [breach, freeInFlight, scramble_blk]

@[simp] theorem breach_blkLen (u : UnitId) (s : State) : (breach u s).blkLen = s.blkLen := by
  simp only [breach, freeInFlight, scramble_blkLen]

@[simp] theorem breach_psize (u : UnitId) (s : State) : (breach u s).psize = s.psize := by
  simp only [breach, freeInFlight, scramble_psize]

@[simp] theorem breach_pstart (u : UnitId) (s : State) : (breach u s).pstart = s.pstart := by
  simp only [breach, freeInFlight, scramble_pstart]

@[simp] theorem breach_pstep (u : UnitId) (s : State) : (breach u s).pstep = s.pstep := by
  simp only [breach, freeInFlight, scramble_pstep]

@[simp] theorem breach_plen (u : UnitId) (s : State) : (breach u s).plen = s.plen := by
  simp only [breach, freeInFlight, scramble_plen]

@[simp] theorem breach_stg (u : UnitId) (s : State) : (breach u s).stg = s.stg := by
  simp only [breach, freeInFlight, scramble_stg]

@[simp] theorem breach_sched (u : UnitId) (s : State) : (breach u s).sched = s.sched := by
  simp only [breach, freeInFlight, scramble_sched]

@[simp] theorem breach_hostq (u : UnitId) (s : State) : (breach u s).hostq = s.hostq := by
  simp only [breach, freeInFlight, scramble_hostq]

@[simp] theorem breach_replies (u : UnitId) (s : State) : (breach u s).replies = s.replies := by
  simp only [breach, freeInFlight, scramble_replies]

/-! ### `settle`, `mutated`, `renewed` and `blockOut` -/

@[simp] theorem settle_estate (s : State) (u : UnitId) (t : State) : (settle s u t).estate = t.estate := by
  unfold settle
  split <;> rfl

@[simp] theorem settle_faulted (s : State) (u : UnitId) (t : State) : (settle s u t).faulted = t.faulted := by
  unfold settle
  split <;> rfl

@[simp] theorem settle_closing (s : State) (u : UnitId) (t : State) : (settle s u t).closing = t.closing := by
  unfold settle
  split <;> rfl

@[simp] theorem settle_flagZ (s : State) (u : UnitId) (t : State) : (settle s u t).flagZ = t.flagZ := by
  unfold settle
  split <;> rfl

@[simp] theorem settle_flagB (s : State) (u : UnitId) (t : State) : (settle s u t).flagB = t.flagB := by
  unfold settle
  split <;> rfl

@[simp] theorem settle_untracked (s : State) (u : UnitId) (t : State) : (settle s u t).untracked = t.untracked := by
  unfold settle
  split <;> rfl

@[simp] theorem settle_dir (s : State) (u : UnitId) (t : State) : (settle s u t).dir = t.dir := by
  unfold settle
  split <;> rfl

@[simp] theorem settle_fault (s : State) (u : UnitId) (t : State) : (settle s u t).fault = t.fault := by
  unfold settle
  split <;> rfl

@[simp] theorem settle_fcmd (s : State) (u : UnitId) (t : State) : (settle s u t).fcmd = t.fcmd := by
  unfold settle
  split <;> rfl

@[simp] theorem settle_nst (s : State) (u : UnitId) (t : State) : (settle s u t).nst = t.nst := by
  unfold settle
  split <;> rfl

@[simp] theorem settle_order (s : State) (u : UnitId) (t : State) : (settle s u t).order = t.order := by
  unfold settle
  split <;> rfl

@[simp] theorem settle_nb (s : State) (u : UnitId) (t : State) : (settle s u t).nb = t.nb := by
  unfold settle
  split <;> rfl

@[simp] theorem settle_bdir (s : State) (u : UnitId) (t : State) : (settle s u t).bdir = t.bdir := by
  unfold settle
  split <;> rfl

@[simp] theorem settle_binding (s : State) (u : UnitId) (t : State) : (settle s u t).binding = t.binding := by
  unfold settle
  split <;> rfl

@[simp] theorem settle_waccLo (s : State) (u : UnitId) (t : State) : (settle s u t).waccLo = t.waccLo := by
  unfold settle
  split <;> rfl

@[simp] theorem settle_waccHi (s : State) (u : UnitId) (t : State) : (settle s u t).waccHi = t.waccHi := by
  unfold settle
  split <;> rfl

@[simp] theorem settle_wop (s : State) (u : UnitId) (t : State) : (settle s u t).wop = t.wop := by
  unfold settle
  split <;> rfl

@[simp] theorem settle_wrem (s : State) (u : UnitId) (t : State) : (settle s u t).wrem = t.wrem := by
  unfold settle
  split <;> rfl

@[simp] theorem settle_wstrLen (s : State) (u : UnitId) (t : State) : (settle s u t).wstrLen = t.wstrLen := by
  unfold settle
  split <;> rfl

@[simp] theorem settle_wstr (s : State) (u : UnitId) (t : State) : (settle s u t).wstr = t.wstr := by
  unfold settle
  split <;> rfl

@[simp] theorem settle_blk (s : State) (u : UnitId) (t : State) : (settle s u t).blk = t.blk := by
  unfold settle
  split <;> rfl

@[simp] theorem settle_blkLen (s : State) (u : UnitId) (t : State) : (settle s u t).blkLen = t.blkLen := by
  unfold settle
  split <;> rfl

@[simp] theorem settle_psize (s : State) (u : UnitId) (t : State) : (settle s u t).psize = t.psize := by
  unfold settle
  split <;> rfl

@[simp] theorem settle_pstart (s : State) (u : UnitId) (t : State) : (settle s u t).pstart = t.pstart := by
  unfold settle
  split <;> rfl

@[simp] theorem settle_pstep (s : State) (u : UnitId) (t : State) : (settle s u t).pstep = t.pstep := by
  unfold settle
  split <;> rfl

@[simp] theorem settle_plen (s : State) (u : UnitId) (t : State) : (settle s u t).plen = t.plen := by
  unfold settle
  split <;> rfl

@[simp] theorem settle_stg (s : State) (u : UnitId) (t : State) : (settle s u t).stg = t.stg := by
  unfold settle
  split <;> rfl

@[simp] theorem settle_rotors (s : State) (u : UnitId) (t : State) : (settle s u t).rotors = t.rotors := by
  unfold settle
  split <;> rfl

@[simp] theorem settle_perms (s : State) (u : UnitId) (t : State) : (settle s u t).perms = t.perms := by
  unfold settle
  split <;> rfl

@[simp] theorem settle_idx (s : State) (u : UnitId) (t : State) : (settle s u t).idx = t.idx := by
  unfold settle
  split <;> rfl

@[simp] theorem settle_slots (s : State) (u : UnitId) (t : State) : (settle s u t).slots = t.slots := by
  unfold settle
  split <;> rfl

@[simp] theorem settle_workers (s : State) (u : UnitId) (t : State) : (settle s u t).workers = t.workers := by
  unfold settle
  split <;> rfl

@[simp] theorem settle_tainted (s : State) (u : UnitId) (t : State) : (settle s u t).tainted = t.tainted := by
  unfold settle
  split <;> rfl

@[simp] theorem settle_draws (s : State) (u : UnitId) (t : State) : (settle s u t).draws = t.draws := by
  unfold settle
  split <;> rfl

@[simp] theorem settle_sched (s : State) (u : UnitId) (t : State) : (settle s u t).sched = t.sched := by
  unfold settle
  split <;> rfl

@[simp] theorem settle_hostq (s : State) (u : UnitId) (t : State) : (settle s u t).hostq = t.hostq := by
  unfold settle
  split <;> rfl

@[simp] theorem settle_replies (s : State) (u : UnitId) (t : State) : (settle s u t).replies = t.replies := by
  unfold settle
  split <;> rfl

@[simp] theorem mutated_estate (s : State) (u : UnitId) (t : State) : (mutated s u t).estate = t.estate := by
  unfold mutated
  split
  · simp
  · split <;> simp

@[simp] theorem mutated_faulted (s : State) (u : UnitId) (t : State) : (mutated s u t).faulted = t.faulted := by
  unfold mutated
  split
  · simp
  · split <;> simp

@[simp] theorem mutated_closing (s : State) (u : UnitId) (t : State) : (mutated s u t).closing = t.closing := by
  unfold mutated
  split
  · simp
  · split <;> simp

@[simp] theorem mutated_flagZ (s : State) (u : UnitId) (t : State) : (mutated s u t).flagZ = t.flagZ := by
  unfold mutated
  split
  · simp
  · split <;> simp

@[simp] theorem mutated_flagB (s : State) (u : UnitId) (t : State) : (mutated s u t).flagB = t.flagB := by
  unfold mutated
  split
  · simp
  · split <;> simp

@[simp] theorem mutated_untracked (s : State) (u : UnitId) (t : State) : (mutated s u t).untracked = t.untracked := by
  unfold mutated
  split
  · simp
  · split <;> simp

@[simp] theorem mutated_dir (s : State) (u : UnitId) (t : State) : (mutated s u t).dir = t.dir := by
  unfold mutated
  split
  · simp
  · split <;> simp

@[simp] theorem mutated_fault (s : State) (u : UnitId) (t : State) : (mutated s u t).fault = t.fault := by
  unfold mutated
  split
  · simp
  · split <;> simp

@[simp] theorem mutated_fcmd (s : State) (u : UnitId) (t : State) : (mutated s u t).fcmd = t.fcmd := by
  unfold mutated
  split
  · simp
  · split <;> simp

@[simp] theorem mutated_nst (s : State) (u : UnitId) (t : State) : (mutated s u t).nst = t.nst := by
  unfold mutated
  split
  · simp
  · split <;> simp

@[simp] theorem mutated_order (s : State) (u : UnitId) (t : State) : (mutated s u t).order = t.order := by
  unfold mutated
  split
  · simp
  · split <;> simp

@[simp] theorem mutated_nb (s : State) (u : UnitId) (t : State) : (mutated s u t).nb = t.nb := by
  unfold mutated
  split
  · simp
  · split <;> simp

@[simp] theorem mutated_bdir (s : State) (u : UnitId) (t : State) : (mutated s u t).bdir = t.bdir := by
  unfold mutated
  split
  · simp
  · split <;> simp

@[simp] theorem mutated_binding (s : State) (u : UnitId) (t : State) : (mutated s u t).binding = t.binding := by
  unfold mutated
  split
  · simp
  · split <;> simp

@[simp] theorem mutated_waccLo (s : State) (u : UnitId) (t : State) : (mutated s u t).waccLo = t.waccLo := by
  unfold mutated
  split
  · simp
  · split <;> simp

@[simp] theorem mutated_waccHi (s : State) (u : UnitId) (t : State) : (mutated s u t).waccHi = t.waccHi := by
  unfold mutated
  split
  · simp
  · split <;> simp

@[simp] theorem mutated_wop (s : State) (u : UnitId) (t : State) : (mutated s u t).wop = t.wop := by
  unfold mutated
  split
  · simp
  · split <;> simp

@[simp] theorem mutated_wrem (s : State) (u : UnitId) (t : State) : (mutated s u t).wrem = t.wrem := by
  unfold mutated
  split
  · simp
  · split <;> simp

@[simp] theorem mutated_wstrLen (s : State) (u : UnitId) (t : State) : (mutated s u t).wstrLen = t.wstrLen := by
  unfold mutated
  split
  · simp
  · split <;> simp

@[simp] theorem mutated_wstr (s : State) (u : UnitId) (t : State) : (mutated s u t).wstr = t.wstr := by
  unfold mutated
  split
  · simp
  · split <;> simp

@[simp] theorem mutated_blk (s : State) (u : UnitId) (t : State) : (mutated s u t).blk = t.blk := by
  unfold mutated
  split
  · simp
  · split <;> simp

@[simp] theorem mutated_blkLen (s : State) (u : UnitId) (t : State) : (mutated s u t).blkLen = t.blkLen := by
  unfold mutated
  split
  · simp
  · split <;> simp

@[simp] theorem mutated_psize (s : State) (u : UnitId) (t : State) : (mutated s u t).psize = t.psize := by
  unfold mutated
  split
  · simp
  · split <;> simp

@[simp] theorem mutated_pstart (s : State) (u : UnitId) (t : State) : (mutated s u t).pstart = t.pstart := by
  unfold mutated
  split
  · simp
  · split <;> simp

@[simp] theorem mutated_pstep (s : State) (u : UnitId) (t : State) : (mutated s u t).pstep = t.pstep := by
  unfold mutated
  split
  · simp
  · split <;> simp

@[simp] theorem mutated_plen (s : State) (u : UnitId) (t : State) : (mutated s u t).plen = t.plen := by
  unfold mutated
  split
  · simp
  · split <;> simp

@[simp] theorem mutated_stg (s : State) (u : UnitId) (t : State) : (mutated s u t).stg = t.stg := by
  unfold mutated
  split
  · simp
  · split <;> simp

@[simp] theorem mutated_sched (s : State) (u : UnitId) (t : State) : (mutated s u t).sched = t.sched := by
  unfold mutated
  split
  · simp
  · split <;> simp

@[simp] theorem mutated_hostq (s : State) (u : UnitId) (t : State) : (mutated s u t).hostq = t.hostq := by
  unfold mutated
  split
  · simp
  · split <;> simp

@[simp] theorem mutated_replies (s : State) (u : UnitId) (t : State) : (mutated s u t).replies = t.replies := by
  unfold mutated
  split
  · simp
  · split <;> simp

@[simp] theorem renewed_estate (s : State) (u : UnitId) (t : State) : (renewed s u t).estate = t.estate := by
  unfold renewed
  split
  · simp
  · simp

@[simp] theorem renewed_faulted (s : State) (u : UnitId) (t : State) : (renewed s u t).faulted = t.faulted := by
  unfold renewed
  split
  · simp
  · simp

@[simp] theorem renewed_closing (s : State) (u : UnitId) (t : State) : (renewed s u t).closing = t.closing := by
  unfold renewed
  split
  · simp
  · simp

@[simp] theorem renewed_flagZ (s : State) (u : UnitId) (t : State) : (renewed s u t).flagZ = t.flagZ := by
  unfold renewed
  split
  · simp
  · simp

@[simp] theorem renewed_flagB (s : State) (u : UnitId) (t : State) : (renewed s u t).flagB = t.flagB := by
  unfold renewed
  split
  · simp
  · simp

@[simp] theorem renewed_untracked (s : State) (u : UnitId) (t : State) : (renewed s u t).untracked = t.untracked := by
  unfold renewed
  split
  · simp
  · simp

@[simp] theorem renewed_dir (s : State) (u : UnitId) (t : State) : (renewed s u t).dir = t.dir := by
  unfold renewed
  split
  · simp
  · simp

@[simp] theorem renewed_fault (s : State) (u : UnitId) (t : State) : (renewed s u t).fault = t.fault := by
  unfold renewed
  split
  · simp
  · simp

@[simp] theorem renewed_fcmd (s : State) (u : UnitId) (t : State) : (renewed s u t).fcmd = t.fcmd := by
  unfold renewed
  split
  · simp
  · simp

@[simp] theorem renewed_nst (s : State) (u : UnitId) (t : State) : (renewed s u t).nst = t.nst := by
  unfold renewed
  split
  · simp
  · simp

@[simp] theorem renewed_order (s : State) (u : UnitId) (t : State) : (renewed s u t).order = t.order := by
  unfold renewed
  split
  · simp
  · simp

@[simp] theorem renewed_nb (s : State) (u : UnitId) (t : State) : (renewed s u t).nb = t.nb := by
  unfold renewed
  split
  · simp
  · simp

@[simp] theorem renewed_bdir (s : State) (u : UnitId) (t : State) : (renewed s u t).bdir = t.bdir := by
  unfold renewed
  split
  · simp
  · simp

@[simp] theorem renewed_binding (s : State) (u : UnitId) (t : State) : (renewed s u t).binding = t.binding := by
  unfold renewed
  split
  · simp
  · simp

@[simp] theorem renewed_waccLo (s : State) (u : UnitId) (t : State) : (renewed s u t).waccLo = t.waccLo := by
  unfold renewed
  split
  · simp
  · simp

@[simp] theorem renewed_waccHi (s : State) (u : UnitId) (t : State) : (renewed s u t).waccHi = t.waccHi := by
  unfold renewed
  split
  · simp
  · simp

@[simp] theorem renewed_wop (s : State) (u : UnitId) (t : State) : (renewed s u t).wop = t.wop := by
  unfold renewed
  split
  · simp
  · simp

@[simp] theorem renewed_wrem (s : State) (u : UnitId) (t : State) : (renewed s u t).wrem = t.wrem := by
  unfold renewed
  split
  · simp
  · simp

@[simp] theorem renewed_wstrLen (s : State) (u : UnitId) (t : State) : (renewed s u t).wstrLen = t.wstrLen := by
  unfold renewed
  split
  · simp
  · simp

@[simp] theorem renewed_wstr (s : State) (u : UnitId) (t : State) : (renewed s u t).wstr = t.wstr := by
  unfold renewed
  split
  · simp
  · simp

@[simp] theorem renewed_blk (s : State) (u : UnitId) (t : State) : (renewed s u t).blk = t.blk := by
  unfold renewed
  split
  · simp
  · simp

@[simp] theorem renewed_blkLen (s : State) (u : UnitId) (t : State) : (renewed s u t).blkLen = t.blkLen := by
  unfold renewed
  split
  · simp
  · simp

@[simp] theorem renewed_psize (s : State) (u : UnitId) (t : State) : (renewed s u t).psize = t.psize := by
  unfold renewed
  split
  · simp
  · simp

@[simp] theorem renewed_pstart (s : State) (u : UnitId) (t : State) : (renewed s u t).pstart = t.pstart := by
  unfold renewed
  split
  · simp
  · simp

@[simp] theorem renewed_pstep (s : State) (u : UnitId) (t : State) : (renewed s u t).pstep = t.pstep := by
  unfold renewed
  split
  · simp
  · simp

@[simp] theorem renewed_plen (s : State) (u : UnitId) (t : State) : (renewed s u t).plen = t.plen := by
  unfold renewed
  split
  · simp
  · simp

@[simp] theorem renewed_stg (s : State) (u : UnitId) (t : State) : (renewed s u t).stg = t.stg := by
  unfold renewed
  split
  · simp
  · simp

@[simp] theorem renewed_sched (s : State) (u : UnitId) (t : State) : (renewed s u t).sched = t.sched := by
  unfold renewed
  split
  · simp
  · simp

@[simp] theorem renewed_hostq (s : State) (u : UnitId) (t : State) : (renewed s u t).hostq = t.hostq := by
  unfold renewed
  split
  · simp
  · simp

@[simp] theorem renewed_replies (s : State) (u : UnitId) (t : State) : (renewed s u t).replies = t.replies := by
  unfold renewed
  split
  · simp
  · simp

@[simp] theorem blockOut_estate (u : UnitId) (s : State) (r : List Byte) : (blockOut u s r).1.estate = s.estate := by
  unfold blockOut
  split <;> rfl

@[simp] theorem blockOut_faulted (u : UnitId) (s : State) (r : List Byte) : (blockOut u s r).1.faulted = s.faulted := by
  unfold blockOut
  split <;> rfl

@[simp] theorem blockOut_closing (u : UnitId) (s : State) (r : List Byte) : (blockOut u s r).1.closing = s.closing := by
  unfold blockOut
  split <;> rfl

@[simp] theorem blockOut_flagZ (u : UnitId) (s : State) (r : List Byte) : (blockOut u s r).1.flagZ = s.flagZ := by
  unfold blockOut
  split <;> rfl

@[simp] theorem blockOut_flagB (u : UnitId) (s : State) (r : List Byte) : (blockOut u s r).1.flagB = s.flagB := by
  unfold blockOut
  split <;> rfl

@[simp] theorem blockOut_untracked (u : UnitId) (s : State) (r : List Byte) : (blockOut u s r).1.untracked = s.untracked := by
  unfold blockOut
  split <;> rfl

@[simp] theorem blockOut_dir (u : UnitId) (s : State) (r : List Byte) : (blockOut u s r).1.dir = s.dir := by
  unfold blockOut
  split <;> rfl

@[simp] theorem blockOut_fault (u : UnitId) (s : State) (r : List Byte) : (blockOut u s r).1.fault = s.fault := by
  unfold blockOut
  split <;> rfl

@[simp] theorem blockOut_fcmd (u : UnitId) (s : State) (r : List Byte) : (blockOut u s r).1.fcmd = s.fcmd := by
  unfold blockOut
  split <;> rfl

@[simp] theorem blockOut_nst (u : UnitId) (s : State) (r : List Byte) : (blockOut u s r).1.nst = s.nst := by
  unfold blockOut
  split <;> rfl

@[simp] theorem blockOut_order (u : UnitId) (s : State) (r : List Byte) : (blockOut u s r).1.order = s.order := by
  unfold blockOut
  split <;> rfl

@[simp] theorem blockOut_nb (u : UnitId) (s : State) (r : List Byte) : (blockOut u s r).1.nb = s.nb := by
  unfold blockOut
  split <;> rfl

@[simp] theorem blockOut_bdir (u : UnitId) (s : State) (r : List Byte) : (blockOut u s r).1.bdir = s.bdir := by
  unfold blockOut
  split <;> rfl

@[simp] theorem blockOut_binding (u : UnitId) (s : State) (r : List Byte) : (blockOut u s r).1.binding = s.binding := by
  unfold blockOut
  split <;> rfl

@[simp] theorem blockOut_waccLo (u : UnitId) (s : State) (r : List Byte) : (blockOut u s r).1.waccLo = s.waccLo := by
  unfold blockOut
  split <;> rfl

@[simp] theorem blockOut_waccHi (u : UnitId) (s : State) (r : List Byte) : (blockOut u s r).1.waccHi = s.waccHi := by
  unfold blockOut
  split <;> rfl

@[simp] theorem blockOut_wop (u : UnitId) (s : State) (r : List Byte) : (blockOut u s r).1.wop = s.wop := by
  unfold blockOut
  split <;> rfl

@[simp] theorem blockOut_wrem (u : UnitId) (s : State) (r : List Byte) : (blockOut u s r).1.wrem = s.wrem := by
  unfold blockOut
  split <;> rfl

@[simp] theorem blockOut_wstrLen (u : UnitId) (s : State) (r : List Byte) : (blockOut u s r).1.wstrLen = s.wstrLen := by
  unfold blockOut
  split <;> rfl

@[simp] theorem blockOut_wstr (u : UnitId) (s : State) (r : List Byte) : (blockOut u s r).1.wstr = s.wstr := by
  unfold blockOut
  split <;> rfl

@[simp] theorem blockOut_blk (u : UnitId) (s : State) (r : List Byte) : (blockOut u s r).1.blk = s.blk := by
  unfold blockOut
  split <;> rfl

@[simp] theorem blockOut_blkLen (u : UnitId) (s : State) (r : List Byte) : (blockOut u s r).1.blkLen = s.blkLen := by
  unfold blockOut
  split <;> rfl

@[simp] theorem blockOut_psize (u : UnitId) (s : State) (r : List Byte) : (blockOut u s r).1.psize = s.psize := by
  unfold blockOut
  split <;> rfl

@[simp] theorem blockOut_pstart (u : UnitId) (s : State) (r : List Byte) : (blockOut u s r).1.pstart = s.pstart := by
  unfold blockOut
  split <;> rfl

@[simp] theorem blockOut_pstep (u : UnitId) (s : State) (r : List Byte) : (blockOut u s r).1.pstep = s.pstep := by
  unfold blockOut
  split <;> rfl

@[simp] theorem blockOut_plen (u : UnitId) (s : State) (r : List Byte) : (blockOut u s r).1.plen = s.plen := by
  unfold blockOut
  split <;> rfl

@[simp] theorem blockOut_stg (u : UnitId) (s : State) (r : List Byte) : (blockOut u s r).1.stg = s.stg := by
  unfold blockOut
  split <;> rfl

@[simp] theorem blockOut_rotors (u : UnitId) (s : State) (r : List Byte) : (blockOut u s r).1.rotors = s.rotors := by
  unfold blockOut
  split <;> rfl

@[simp] theorem blockOut_perms (u : UnitId) (s : State) (r : List Byte) : (blockOut u s r).1.perms = s.perms := by
  unfold blockOut
  split <;> rfl

@[simp] theorem blockOut_idx (u : UnitId) (s : State) (r : List Byte) : (blockOut u s r).1.idx = s.idx := by
  unfold blockOut
  split <;> rfl

@[simp] theorem blockOut_slots (u : UnitId) (s : State) (r : List Byte) : (blockOut u s r).1.slots = s.slots := by
  unfold blockOut
  split <;> rfl

@[simp] theorem blockOut_workers (u : UnitId) (s : State) (r : List Byte) : (blockOut u s r).1.workers = s.workers := by
  unfold blockOut
  split <;> rfl

@[simp] theorem blockOut_loose (u : UnitId) (s : State) (r : List Byte) : (blockOut u s r).1.loose = s.loose := by
  unfold blockOut
  split <;> rfl

@[simp] theorem blockOut_tainted (u : UnitId) (s : State) (r : List Byte) : (blockOut u s r).1.tainted = s.tainted := by
  unfold blockOut
  split <;> rfl

@[simp] theorem blockOut_sched (u : UnitId) (s : State) (r : List Byte) : (blockOut u s r).1.sched = s.sched := by
  unfold blockOut
  split <;> rfl

@[simp] theorem blockOut_hostq (u : UnitId) (s : State) (r : List Byte) : (blockOut u s r).1.hostq = s.hostq := by
  unfold blockOut
  split <;> rfl

@[simp] theorem blockOut_replies (u : UnitId) (s : State) (r : List Byte) : (blockOut u s r).1.replies = s.replies := by
  unfold blockOut
  split <;> rfl

/-! ### What the updates write -/

@[simp] theorem rotor_setRotor (j k : Fin 6) (r : Rotor) (s : State) :
    rotor (setRotor k r s) j = if j = k then r else rotor s j := by
  simp only [rotor, setRotor, Fin.getElem_fin, Vector.getElem_set, Fin.ext_iff, eq_comm]

@[simp] theorem perm_setPerm (j k : Fin 2) (p : Perm) (s : State) :
    perm (setPerm k p s) j = if j = k then p else perm s j := by
  simp only [perm, setPerm, Fin.getElem_fin, Vector.getElem_set, Fin.ext_iff, eq_comm]

@[simp] theorem slot_setSlot (j k : Fin 10) (q : Slot) (s : State) :
    slot (setSlot k q s) j = if j = k then q else slot s j := by
  simp only [slot, setSlot, Fin.getElem_fin, Vector.getElem_set, Fin.ext_iff, eq_comm]

@[simp] theorem worker_setWorker (j p : Fin 9) (w : Worker) (s : State) :
    worker (setWorker p w s) j = if j = p then w else worker s j := by
  simp only [worker, setWorker, Fin.getElem_fin, Vector.getElem_set, Fin.ext_iff, eq_comm]

/-- `WACC` after it was written with a value that fits 128 bits. -/
theorem wacc_setWacc {v : Nat} (h : v < 2 ^ 128) (s : State) : wacc (setWacc v s) = v := by
  simp only [wacc, setWacc, BitVec.toNat_ofNat]
  omega

theorem wacc_lt (s : State) : wacc s < 2 ^ 128 := by
  have h1 := s.waccHi.isLt
  have h2 := s.waccLo.isLt
  simp only [wacc]
  omega

@[simp] theorem setFlagZ_flagZ (z : Bool) (s : State) : (setFlagZ z s).flagZ = z := rfl

@[simp] theorem setFlagB_flagB (b : Bool) (s : State) : (setFlagB b s).flagB = b := rfl

@[simp] theorem setUntracked_untracked (u : Bool) (s : State) : (setUntracked u s).untracked = u := rfl

@[simp] theorem setBlk_blk (r : List Byte) (s : State) : (setBlk r s).blk = writeBytes s.blk 0 r := rfl

/-- Fault entry on a block that is not faulted (60_exceptions R351). -/
theorem raiseFault_of_not_faulted {s : State} (h : s.faulted = false) (src : Source) (e : Trap) (w : BitVec 4) (i : Word) :
    raiseFault src e w i s =
      { s with
        fault := { cause := causeCode e.cause, unit := e.unit, src := sourceCode src, worker := w }
        fcmd := i
        faulted := true } := by
  simp [raiseFault, h]

/-- A faulted block records nothing more (60_exceptions R356). -/
theorem raiseFault_of_faulted {s : State} (h : s.faulted = true) (src : Source) (e : Trap) (w : BitVec 4) (i : Word) :
    raiseFault src e w i s = s := by
  simp [raiseFault, h]

/-- A unit in a defined state that the command does not break R319 of 46_pipeline for. -/
theorem unsettled_eq_false {s : State} {u : UnitId} :
    unsettled s u = false ↔ breaksPrecondition s u = false ∧ s.loose[unitIndex u] = false := by
  simp [unsettled]

theorem marked_eq_false {s : State} {u : UnitId} :
    marked s u = false ↔ s.loose[unitIndex u] = false ∧ s.tainted[unitIndex u] = false := by
  simp [marked]

/-- Where R319 of 46_pipeline is respected and the unit is defined, a moving command leaves what its rule says. -/
theorem mutated_of_settled {s : State} {u : UnitId} (h : unsettled s u = false) (t : State) : mutated s u t = t := by
  obtain ⟨h1, h2⟩ := unsettled_eq_false.1 h
  simp only [mutated, h1, h2, Bool.false_eq_true, if_false]

/-- Where R319 of 46_pipeline is respected, a renewing command leaves what its rule says, and settles the unit. -/
theorem renewed_of_respected {s : State} {u : UnitId} (h : breaksPrecondition s u = false) (t : State) :
    renewed s u t = settle s u t := by
  simp [renewed, h]

/-- Settling touches the one mark alone. -/
theorem settle_eq (s : State) (u : UnitId) (t : State) : settle s u t = { t with loose := (settle s u t).loose } := by
  unfold settle
  split <;> rfl

@[simp] theorem rotor_settle (s : State) (u : UnitId) (t : State) (k : Fin 6) : rotor (settle s u t) k = rotor t k := by
  simp only [rotor, settle_rotors]

@[simp] theorem perm_settle (s : State) (u : UnitId) (t : State) (k : Fin 2) : perm (settle s u t) k = perm t k := by
  simp only [perm, settle_perms]

/-- Settling sets no mark. -/
theorem settle_loose_of {s t : State} {u v : UnitId} (h : t.loose[unitIndex v] = false) :
    (settle s u t).loose[unitIndex v] = false := by
  unfold settle
  split
  · simp only [Fin.getElem_fin, Vector.getElem_set]
    split
    · rfl
    · exact h
  · exact h

/-- At a quiescent point the unit is settled. -/
theorem settle_loose_self {s t : State} {u : UnitId} (h : quiescent s = true) :
    (settle s u t).loose[unitIndex u] = false := by
  simp [settle, h]

/-- An unmarked unit hands on what its transform computed. -/
theorem blockOut_of_not_marked {s : State} {u : UnitId} (h : marked s u = false) (r : List Byte) :
    blockOut u s r = (s, r) := by
  simp only [blockOut, h, Bool.false_eq_true, if_false]

/-- Everything one transform of a block can do: free results from an undefined unit, or what the rule says. -/
theorem transformBlock_ok {u : UnitId} {f : State → List Byte → Except Trap (State × List Byte)} {s : State} {b : List Byte}
    {x : State × List Byte} (h : transformBlock u f s b = .ok x) :
    (s.loose[unitIndex u] = true ∧ x = blockOut u (scramble u s) b) ∨
    (s.loose[unitIndex u] = false ∧ ∃ t r, f s b = .ok (t, r) ∧ x = blockOut u t r) := by
  unfold transformBlock at h
  split at h
  · rename_i hl
    cases h
    exact .inl ⟨hl, rfl⟩
  · rename_i hl
    split at h
    · cases h
    · rename_i y hy
      cases h
      exact .inr ⟨by simpa using hl, y.1, y.2, hy, rfl⟩

/-- A transform faults only from a defined unit, and with the fault of its rule. -/
theorem transformBlock_error {u : UnitId} {f : State → List Byte → Except Trap (State × List Byte)} {s : State}
    {b : List Byte} {e : Trap} (h : transformBlock u f s b = .error e) :
    s.loose[unitIndex u] = false ∧ f s b = .error e := by
  unfold transformBlock at h
  split at h
  · cases h
  · rename_i hl
    refine ⟨by simpa using hl, ?_⟩
    split at h
    · rename_i he
      cases h
      exact he
    · cases h

/-- A transform of an unmarked unit is the one its rule gives. -/
theorem transformBlock_of_not_marked {u : UnitId} {f : State → List Byte → Except Trap (State × List Byte)} {s t : State}
    {b r : List Byte} (h : marked s u = false) (ht : marked t u = marked s u) (hf : f s b = .ok (t, r)) :
    transformBlock u f s b = .ok (t, r) := by
  have h1 := (marked_eq_false.1 h).1
  simp only [transformBlock, h1, Bool.false_eq_true, if_false, hf, blockOut_of_not_marked (ht.trans h)]

/-- A slot has room exactly when it is empty (`QDEPTH` = 1). -/
@[simp] theorem slotRoom_eq (q : Slot) : slotRoom q = !q.v := by
  cases h : q.v <;> simp [slotRoom, slotCount, h]

/-! ### What a breach of R319 leaves of the pipeline (46_pipeline R319) -/

@[simp] theorem freeSlot_v (d : Nat) (k : Fin 10) (q : Slot) : (freeSlot d k q).v = q.v := by
  unfold freeSlot
  split <;> rfl

@[simp] theorem freeSlot_len (d : Nat) (k : Fin 10) (q : Slot) : (freeSlot d k q).len = q.len := by
  unfold freeSlot
  split <;> rfl

@[simp] theorem freeHand_st (d : Nat) (p : Fin 9) (w : Worker) : (freeHand d p w).st = w.st := by
  unfold freeHand
  split <;> rfl

@[simp] theorem freeHand_hlen (d : Nat) (p : Fin 9) (w : Worker) : (freeHand d p w).hlen = w.hlen := by
  unfold freeHand
  split <;> rfl

@[simp] theorem freeHand_last (d : Nat) (p : Fin 9) (w : Worker) : (freeHand d p w).last = w.last := by
  unfold freeHand
  split <;> rfl

@[simp] theorem slot_scramble (u : UnitId) (s : State) (k : Fin 10) : slot (scramble u s) k = slot s k := by
  simp only [slot, scramble_slots]

@[simp] theorem worker_scramble (u : UnitId) (s : State) (p : Fin 9) : worker (scramble u s) p = worker s p := by
  simp only [worker, scramble_workers]

/-- The slots after a breach: only data of blocks in flight is changed. -/
theorem slot_breach (u : UnitId) (s : State) (k : Fin 10) :
    slot (breach u s) k = freeSlot (scramble u s).draws k (slot s k) := by
  have h : slot (breach u s) k = freeSlot (scramble u s).draws k (slot (scramble u s) k) := by
    simp [slot, breach, freeInFlight]
  rw [h, slot_scramble]

/-- The workers after a breach: only data of blocks in flight is changed. -/
theorem worker_breach (u : UnitId) (s : State) (p : Fin 9) :
    worker (breach u s) p = freeHand (scramble u s).draws p (worker s p) := by
  have h : worker (breach u s) p = freeHand (scramble u s).draws p (worker (scramble u s) p) := by
    simp [worker, breach, freeInFlight]
  rw [h, worker_scramble]

/-- Marked or not, the length of a block is kept (46_pipeline R319, 40_bitvector R131). -/
@[simp] theorem blockOut_length (u : UnitId) (s : State) (r : List Byte) : (blockOut u s r).2.length = r.length := by
  unfold blockOut
  split <;> simp [freeBytes]

/-! ### Units and their ids (10_state R21) -/

@[simp] theorem unitOfCode_unitCode (u : UnitId) : unitOfCode (unitCode u) = some u := by
  rcases u with k | k | _
  · fin_cases k <;> rfl
  · fin_cases k <;> rfl
  · rfl

/-- A unit id names at most one unit, and that unit has it. -/
theorem unitCode_of_unitOfCode {c : UnitCode} {u : UnitId} (h : unitOfCode c = some u) : unitCode u = c := by
  revert c u
  decide +revert

theorem unitCode_injective {u v : UnitId} (h : unitCode u = unitCode v) : u = v := by
  have := congrArg unitOfCode h
  simpa using this

/-- The three updates of a unit change no field of the others. -/
@[simp] theorem rotor_setPerm (j : Fin 6) (k : Fin 2) (p : Perm) (s : State) : rotor (setPerm k p s) j = rotor s j := rfl

@[simp] theorem perm_setRotor (j : Fin 2) (k : Fin 6) (r : Rotor) (s : State) : perm (setRotor k r s) j = perm s j := rfl

end Sys2Proof.Machine
end

