-- ==== Sys2Proof/Laws/Command.lean ====
section
/-! SUPPORT. What the executor's frame, the operand forms and the stage-list check can do: one lemma per outcome of each shared
operation, so that no proof about a command unfolds them. -/

namespace Sys2Proof.Machine

/-! ### `command` (30_encoding R103) -/

/-- A faulted block drops the command (R103 step 1). -/
theorem command_of_faulted {s : State} (h : s.faulted = true) (i : Instr) (body : Except Trap State) :
    command i s body = .next s := by
  simp [command, h]

/-- A legal command whose rule raises nothing leaves the state its rule gives. -/
theorem command_of_ok {i : Instr} {s t : State} (h : s.faulted = false) (hl : legalIn i s.estate = true) :
    command i s (.ok t) = .next t := by
  simp [command, h, hl]

/-- Fault entry by a command, on a block that is not faulted (60_exceptions R351). -/
theorem commandFault_eq {s : State} (h : s.faulted = false) (i : Instr) (e : Trap) :
    commandFault i e s = commandFaulted i e.cause e.unit s := by
  rw [commandFault, raiseFault_of_not_faulted h]
  rfl

/-- A legal command whose rule raises a fault. -/
theorem command_of_error {i : Instr} {s : State} {e : Trap} (h : s.faulted = false) (hl : legalIn i s.estate = true) :
    command i s (.error e) = .next (commandFaulted i e.cause e.unit s) := by
  simp [command, h, hl, commandFault_eq h]

/-- A command its engine state does not allow (R103 step 5). -/
theorem command_of_illegal {i : Instr} {s : State} (h : s.faulted = false) (hl : legalIn i s.estate = false)
    (body : Except Trap State) :
    command i s body = .next (commandFaulted i .illegalState (unitOfInstr i) s) := by
  simp [command, h, hl, commandFault_eq h]

/-- Everything a command can do: it is dropped, it is illegal here, its rule raises a fault, or its rule gives the next state. -/
theorem command_cases {i : Instr} {s t : State} {body : Except Trap State} (h : command i s body = .next t) :
    (s.faulted = true ∧ t = s) ∨
    (s.faulted = false ∧ legalIn i s.estate = false ∧ t = commandFaulted i .illegalState (unitOfInstr i) s) ∨
    (s.faulted = false ∧ legalIn i s.estate = true ∧
      ∃ e, body = .error e ∧ t = commandFaulted i e.cause e.unit s) ∨
    (s.faulted = false ∧ legalIn i s.estate = true ∧ body = .ok t) := by
  cases hf : s.faulted with
  | true =>
    rw [command_of_faulted hf] at h
    cases h
    exact .inl ⟨rfl, rfl⟩
  | false =>
    cases hl : legalIn i s.estate with
    | false =>
      rw [command_of_illegal hf hl] at h
      cases h
      exact .inr (.inl ⟨rfl, rfl, rfl⟩)
    | true =>
      cases body with
      | error e =>
        rw [command_of_error hf hl] at h
        cases h
        exact .inr (.inr (.inl ⟨rfl, rfl, e, rfl, rfl⟩))
      | ok u =>
        rw [command_of_ok hf hl] at h
        cases h
        exact .inr (.inr (.inr ⟨rfl, rfl, rfl⟩))

/-- What a command leaves that does not run to its end: dropped by a faulted block, or the fault it raises. -/
def Stopped (i : Instr) (s t : State) : Prop :=
  (s.faulted = true ∧ t = s) ∨ (s.faulted = false ∧ ∃ c u, t = commandFaulted i c u s)

/-- Everything a command can do, in two cases. -/
theorem command_inv {i : Instr} {s t : State} {body : Except Trap State} (h : command i s body = .next t) :
    Stopped i s t ∨ (s.faulted = false ∧ legalIn i s.estate = true ∧ body = .ok t) := by
  rcases command_cases h with ⟨hf, rfl⟩ | ⟨hf, -, rfl⟩ | ⟨hf, -, e, -, rfl⟩ | h
  · exact .inl (.inl ⟨hf, rfl⟩)
  · exact .inl (.inr ⟨hf, _, _, rfl⟩)
  · exact .inl (.inr ⟨hf, _, _, rfl⟩)
  · exact .inr h

/-- A command always answers a next state. -/
theorem command_answers (i : Instr) (s : State) (body : Except Trap State) : ∃ t, command i s body = .next t := by
  unfold command
  split
  · exact ⟨_, rfl⟩
  · split
    · split <;> exact ⟨_, rfl⟩
    · exact ⟨_, rfl⟩

/-- Only four commands ask for an engine state (46_pipeline R302). -/
theorem legalIn_of_not_engine {i : Instr} (h1 : i ≠ .engInit) (h2 : i ≠ .engBuild) (h3 : i ≠ .engSetindex)
    (h4 : i ≠ .engIndex) (e : EState) : legalIn i e = true := by
  cases i <;> first | rfl | contradiction

/-! ### The unit operand (41_rotor R151, 42_permutator R181) -/

@[simp] theorem rotorOperand_unitCode (k : Fin 6) : rotorOperand (unitCode (.rotor k)) = some k := by
  fin_cases k <;> rfl

@[simp] theorem permOperand_unitCode (k : Fin 2) : permOperand (unitCode (.perm k)) = some k := by
  fin_cases k <;> rfl

/-- A unit id of the ROT group names the rotor with that number. -/
theorem unitCode_of_rotorOperand {u : UnitCode} {k : Fin 6} (h : rotorOperand u = some k) : unitCode (.rotor k) = u := by
  revert u k
  decide +revert

/-- A unit id of the PRM group names the permutator with that number. -/
theorem unitCode_of_permOperand {u : UnitCode} {k : Fin 2} (h : permOperand u = some k) : unitCode (.perm k) = u := by
  revert u k
  decide +revert

@[simp] theorem onRotor_unit (k : Fin 6) (body : Fin 6 → Except Trap State) :
    onRotor (unitCode (.rotor k)) body = body k := by
  simp [onRotor]

@[simp] theorem onPerm_unit (k : Fin 2) (body : Fin 2 → Except Trap State) :
    onPerm (unitCode (.perm k)) body = body k := by
  simp [onPerm]

theorem onValidRotor_of_valid {k : Fin 6} {s : State} (h : (rotor s k).valid = true) (body : Fin 6 → Except Trap State) :
    onValidRotor (unitCode (.rotor k)) s body = body k := by
  simp [onValidRotor, h]

theorem onValidRotor_of_not_valid {k : Fin 6} {s : State} (h : (rotor s k).valid = false)
    (body : Fin 6 → Except Trap State) :
    onValidRotor (unitCode (.rotor k)) s body = .error ⟨.unitNotValid, unitCode (.rotor k)⟩ := by
  simp [onValidRotor, h]

theorem onValidPerm_of_valid {k : Fin 2} {s : State} (h : (perm s k).valid = true) (body : Fin 2 → Except Trap State) :
    onValidPerm (unitCode (.perm k)) s body = body k := by
  simp [onValidPerm, h]

theorem onValidPerm_of_not_valid {k : Fin 2} {s : State} (h : (perm s k).valid = false)
    (body : Fin 2 → Except Trap State) :
    onValidPerm (unitCode (.perm k)) s body = .error ⟨.unitNotValid, unitCode (.perm k)⟩ := by
  simp [onValidPerm, h]

/-- What a ROT command can answer without a fault: it ran on the rotor its unit id names. -/
theorem onRotor_ok {u : UnitCode} {body : Fin 6 → Except Trap State} {t : State} (h : onRotor u body = .ok t) :
    ∃ k, u = unitCode (.rotor k) ∧ body k = .ok t := by
  unfold onRotor at h
  split at h
  · cases h
  · rename_i k hk
    exact ⟨k, (unitCode_of_rotorOperand hk).symm, h⟩

theorem onValidRotor_ok {u : UnitCode} {s : State} {body : Fin 6 → Except Trap State} {t : State}
    (h : onValidRotor u s body = .ok t) :
    ∃ k, u = unitCode (.rotor k) ∧ (rotor s k).valid = true ∧ body k = .ok t := by
  obtain ⟨k, hu, h⟩ := onRotor_ok h
  split at h
  · exact ⟨k, hu, by assumption, h⟩
  · cases h

/-- What a PRM command can answer without a fault: it ran on the permutator its unit id names. -/
theorem onPerm_ok {u : UnitCode} {body : Fin 2 → Except Trap State} {t : State} (h : onPerm u body = .ok t) :
    ∃ k, u = unitCode (.perm k) ∧ body k = .ok t := by
  unfold onPerm at h
  split at h
  · cases h
  · rename_i k hk
    exact ⟨k, (unitCode_of_permOperand hk).symm, h⟩

theorem onValidPerm_ok {u : UnitCode} {s : State} {body : Fin 2 → Except Trap State} {t : State}
    (h : onValidPerm u s body = .ok t) :
    ∃ k, u = unitCode (.perm k) ∧ (perm s k).valid = true ∧ body k = .ok t := by
  obtain ⟨k, hu, h⟩ := onPerm_ok h
  split at h
  · exact ⟨k, hu, by assumption, h⟩
  · cases h

/-! ### The CipherBlock operand (40_bitvector R130) -/

@[simp] theorem blkBlock_length (s : State) : (blkBlock s).length = s.blkLen.toNat := by simp [blkBlock]

theorem withBlock_of_short {s : State} (h : s.blkLen.toNat ≤ 32) (u : UnitCode) (body : List Byte → Except Trap State) :
    withBlock u s body = body (blkBlock s) := by
  have : ¬ s.blkLen.toNat > Config.blockBytes := by simp only [Config.blockBytes]; omega
  rw [withBlock, if_neg this]

theorem withBlock_of_long {s : State} (h : 32 < s.blkLen.toNat) (u : UnitCode) (body : List Byte → Except Trap State) :
    withBlock u s body = .error ⟨.badBlockLen, u⟩ := by
  rw [withBlock, if_pos h]

theorem withBlock_ok {u : UnitCode} {s : State} {body : List Byte → Except Trap State} {t : State}
    (h : withBlock u s body = .ok t) : s.blkLen.toNat ≤ 32 ∧ body (blkBlock s) = .ok t := by
  unfold withBlock at h
  split at h
  · cases h
  · rename_i hn
    exact ⟨Nat.le_of_not_lt hn, h⟩

/-- A direct transform of a defined unit: the block goes through the transform and comes back to `BLK`. -/
theorem directTransform_of_defined {u : UnitId} {s t : State} {f : State → List Byte → Except Trap (State × List Byte)}
    {r : List Byte} (hb : s.blkLen.toNat ≤ 32) (hd : UnitDefined s u) (hm : marked t u = marked s u)
    (hf : f s (blkBlock s) = .ok (t, r)) : directTransform u s f = .ok (setBlk r t) := by
  simp only [directTransform, withBlock_of_short hb, hd.1, Bool.false_eq_true, if_false,
    transformBlock_of_not_marked hd.2 hm hf]

/-- A direct transform of a defined unit whose rule faults. -/
theorem directTransform_of_error {u : UnitId} {s : State} {f : State → List Byte → Except Trap (State × List Byte)}
    {e : Trap} (hb : s.blkLen.toNat ≤ 32) (hd : unsettled s u = false) (hf : f s (blkBlock s) = .error e) :
    directTransform u s f = .error e := by
  obtain ⟨h1, h2⟩ := unsettled_eq_false.1 hd
  simp only [directTransform, withBlock_of_short hb, h1, transformBlock, h2, hf, Bool.false_eq_true, if_false]

/-- Where a transform leaves its unit before the block is handed on: `t` and `r` are what a breach of R319 of 46_pipeline leaves, what an
undefined unit leaves, or what the rule `f` gives. -/
inductive Transformed (u : UnitId) (s : State) (f : State → List Byte → Except Trap (State × List Byte)) (b : List Byte) :
    State → List Byte → Prop where
  | breached : breaksPrecondition s u = true → Transformed u s f b (breach u s) b
  | undefined : breaksPrecondition s u = false → s.loose[unitIndex u] = true → Transformed u s f b (scramble u s) b
  | ran {t : State} {r : List Byte} : unsettled s u = false → f s b = .ok (t, r) → Transformed u s f b t r

/-- Everything a direct transform can answer without a fault. -/
theorem directTransform_ok {u : UnitId} {s t : State} {f : State → List Byte → Except Trap (State × List Byte)}
    (h : directTransform u s f = .ok t) :
    s.blkLen.toNat ≤ 32 ∧ ∃ t' r, Transformed u s f (blkBlock s) t' r ∧
      t = setBlk (blockOut u t' r).2 (blockOut u t' r).1 := by
  obtain ⟨hb, h⟩ := withBlock_ok h
  refine ⟨hb, ?_⟩
  split at h
  · rename_i hu
    cases h
    exact ⟨_, _, .breached hu, rfl⟩
  · rename_i hu
    have hu : breaksPrecondition s u = false := by simpa using hu
    split at h
    · cases h
    · rename_i x hx
      cases h
      rcases transformBlock_ok hx with ⟨hl, rfl⟩ | ⟨hl, t', r, hf, rfl⟩
      · exact ⟨_, _, .undefined hu hl, rfl⟩
      · exact ⟨_, _, .ran (unsettled_eq_false.2 ⟨hu, hl⟩) hf, rfl⟩

/-! ### The stage list (46_pipeline R303) -/

@[simp] theorem stageList_length (s : State) : (stageList s).length = s.nst.toNat := by simp [stageList]

/-- A stage list that passes the check: it names the answered units, no two entries alike, each valid. -/
theorem checkEntries_ok {s : State} {seen us : List UnitCode} {ids : List UnitId} (h : checkEntries s seen us = .ok ids) :
    ids.map unitCode = us ∧ us.Nodup ∧ (∀ u ∈ us, u ∉ seen) ∧ ∀ id ∈ ids, unitValid s id = true := by
  induction us generalizing seen ids with
  | nil =>
    cases h
    simp
  | cons u rest ih =>
    unfold checkEntries at h
    split at h
    · cases h
    · rename_i id hid
      split at h
      · cases h
      · rename_i hseen
        split at h
        · rename_i hv
          split at h
          · cases h
          · rename_i ids' hrest
            cases h
            obtain ⟨h1, h2, h3, h4⟩ := ih hrest
            refine ⟨?_, ?_, ?_, ?_⟩
            · simp [h1, unitCode_of_unitOfCode hid]
            · refine List.nodup_cons.2 ⟨fun hm => h3 u hm (by simp), h2⟩
            · intro v hv'
              rcases List.mem_cons.1 hv' with rfl | hv'
              · exact hseen
              · exact fun hs => h3 v hv' (by simp [hs])
            · intro v hv'
              rcases List.mem_cons.1 hv' with rfl | hv'
              · exact hv
              · exact h4 v hv'
        · cases h

/-- The first entry that cannot stand decides the fault. -/
theorem checkEntries_error {s : State} {seen us : List UnitCode} {e : Trap} (h : checkEntries s seen us = .error e) :
    ∃ pre u post, us = pre ++ u :: post ∧ e.unit = u ∧
      ((e.cause = .badOrder ∧ (unitOfCode u = none ∨ u ∈ seen ++ pre)) ∨
       (e.cause = .unitNotValid ∧ ∃ id, unitOfCode u = some id ∧ unitValid s id = false)) := by
  induction us generalizing seen with
  | nil => cases h
  | cons u rest ih =>
    unfold checkEntries at h
    split at h
    · rename_i hid
      cases h
      exact ⟨[], u, rest, rfl, rfl, .inl ⟨rfl, .inl hid⟩⟩
    · rename_i id hid
      split at h
      · rename_i hseen
        cases h
        exact ⟨[], u, rest, rfl, rfl, .inl ⟨rfl, .inr (by simpa using hseen)⟩⟩
      · split at h
        · split at h
          · rename_i hrest
            cases h
            obtain ⟨pre, v, post, h1, h2, h3⟩ := ih hrest
            refine ⟨u :: pre, v, post, by simp [h1], h2, ?_⟩
            rcases h3 with ⟨hc, h3⟩ | h3
            · refine .inl ⟨hc, h3.imp_right fun hm => ?_⟩
              simpa using hm
            · exact .inr h3
          · cases h
        · rename_i hv
          cases h
          exact ⟨[], u, rest, rfl, rfl, .inr ⟨rfl, id, hid, by simpa using hv⟩⟩

/-- A stage list of distinct, valid units passes the check. -/
theorem checkEntries_of_good {s : State} {seen : List UnitCode} {ids : List UnitId} (hn : (ids.map unitCode).Nodup)
    (hs : ∀ id ∈ ids, unitCode id ∉ seen) (hv : ∀ id ∈ ids, unitValid s id = true) :
    checkEntries s seen (ids.map unitCode) = .ok ids := by
  induction ids generalizing seen with
  | nil => rfl
  | cons id rest ih =>
    simp only [List.map_cons, List.nodup_cons] at hn
    have := ih (seen := seen ++ [unitCode id]) hn.2
      (fun v hv' hm => by
        rcases List.mem_append.1 hm with hm | hm
        · exact hs v (by simp [hv']) hm
        · exact hn.1 (by rw [← List.mem_singleton.1 hm]; exact List.mem_map_of_mem hv'))
      fun v hv' => hv v (by simp [hv'])
    simp [checkEntries, hs id (by simp), hv id (by simp), this]

/-- `CheckOrder` answers the units of the stage list exactly when they are at most nine, pairwise different and valid. -/
theorem checkOrder_ok_iff {s : State} {ids : List UnitId} :
    checkOrder s = .ok ids ↔
      s.nst.toNat ≤ 9 ∧ ids.map unitCode = stageList s ∧ (stageList s).Nodup ∧ ∀ id ∈ ids, unitValid s id = true := by
  unfold checkOrder
  constructor
  · intro h
    split at h
    · cases h
    · rename_i hn
      obtain ⟨h1, h2, -, h4⟩ := checkEntries_ok h
      exact ⟨Nat.le_of_not_lt hn, h1, h2, h4⟩
  · rintro ⟨h0, h1, h2, h4⟩
    rw [if_neg (Nat.not_lt.2 h0), ← h1]
    exact checkEntries_of_good (h1 ▸ h2) (by simp) h4

end Sys2Proof.Machine
end

