-- ==== Sys2Proof/Laws/Commands.lean ====
section
/-! SUPPORT. One inversion lemma per command: what it can do when it runs to its end. Every proof about all commands cites these and
unfolds no meaning. -/

namespace Sys2Proof.Machine

/-! ### System and engine (46_pipeline) -/

theorem execNop_inv {s t : State} (h : execNop s = .next t) : Stopped .nop s t ∨ (s.faulted = false ∧ t = s) := by
  rcases command_inv h with h | ⟨hf, -, h⟩
  · exact .inl h
  · cases h
    exact .inr ⟨hf, rfl⟩

theorem execEngInit_inv {s t : State} (h : execEngInit s = .next t) :
    Stopped .engInit s t ∨ (s.faulted = false ∧ s.estate = .created ∧ t = { s with estate := .initialized }) := by
  rcases command_inv h with h | ⟨hf, hl, h⟩
  · exact .inl h
  · cases h
    exact .inr ⟨hf, by simpa [legalIn] using hl, rfl⟩

theorem execEngSetdir_inv {d : Byte} {s t : State} (h : execEngSetdir d s = .next t) :
    Stopped (.engSetdir d) s t ∨
      (s.faulted = false ∧ ∃ x, dirOfCode d = some x ∧ t = { s with dir := x }) := by
  rcases command_inv h with h | ⟨hf, -, h⟩
  · exact .inl h
  · split at h
    · cases h
    · rename_i x hx
      cases h
      exact .inr ⟨hf, x, hx, rfl⟩

theorem execEngBuild_inv {s t : State} (h : execEngBuild s = .next t) :
    Stopped .engBuild s t ∨
      (s.faulted = false ∧ (s.estate = .initialized ∨ s.estate = .closed) ∧ s.nst ≠ 0#4 ∧
        (∃ ids, checkOrder s = .ok ids) ∧ s.dir ≠ .none ∧ t = buildPipeline s) := by
  rcases command_inv h with h | ⟨hf, hl, h⟩
  · exact .inl h
  · split at h
    · cases h
    · rename_i hn
      split at h
      · cases h
      · rename_i ids hids
        split at h
        · cases h
        · rename_i hd
          cases h
          exact .inr ⟨hf, by simpa [legalIn] using hl, hn, ⟨ids, hids⟩, hd, rfl⟩

theorem execEngSetindex_inv {s t : State} (h : execEngSetindex s = .next t) :
    Stopped .engSetindex s t ∨
      (s.faulted = false ∧ s.estate ≠ .created ∧ ∃ ids, checkOrder s = .ok ids ∧ seekAll s s ids = .ok t) := by
  rcases command_inv h with h | ⟨hf, hl, h⟩
  · exact .inl h
  · split at h
    · cases h
    · rename_i ids hids
      exact .inr ⟨hf, by simpa [legalIn] using hl, ids, hids, h⟩

theorem execEngIndex_inv {s t : State} (h : execEngIndex s = .next t) :
    Stopped .engIndex s t ∨
      (s.faulted = false ∧ s.estate ≠ .created ∧ ∃ ids, checkOrder s = .ok ids ∧
        ((UnitId.counter ∈ ids ∧ t = setUntracked false (setWacc s.idx.toNat s)) ∨
          (UnitId.counter ∉ ids ∧ t = setUntracked true s))) := by
  rcases command_inv h with h | ⟨hf, hl, h⟩
  · exact .inl h
  · split at h
    · cases h
    · rename_i ids hids
      refine .inr ⟨hf, by simpa [legalIn] using hl, ids, hids, ?_⟩
      split at h
      · rename_i hc
        cases h
        exact .inl ⟨hc, rfl⟩
      · rename_i hc
        cases h
        exact .inr ⟨hc, rfl⟩

/-! ### Wide-counter unit (44_wide_counter) -/

theorem execWcAdd_inv {s t : State} (h : execWcAdd s = .next t) :
    Stopped .wcAdd s t ∨
      (s.faulted = false ∧ wacc s + wopVal s < 2 ^ 128 ∧ t = setWacc (wacc s + wopVal s) s) := by
  rcases command_inv h with h | ⟨hf, -, h⟩
  · exact .inl h
  · split at h
    · cases h
    · rename_i hn
      cases h
      exact .inr ⟨hf, Nat.lt_of_not_le hn, rfl⟩

theorem execWcSub_inv {s t : State} (h : execWcSub s = .next t) :
    Stopped .wcSub s t ∨ (s.faulted = false ∧ wopVal s ≤ wacc s ∧ t = setWacc (wacc s - wopVal s) s) := by
  rcases command_inv h with h | ⟨hf, -, h⟩
  · exact .inl h
  · split at h
    · cases h
    · rename_i hn
      cases h
      exact .inr ⟨hf, Nat.le_of_not_lt hn, rfl⟩

theorem execWcMul_inv {s t : State} (h : execWcMul s = .next t) :
    Stopped .wcMul s t ∨
      (s.faulted = false ∧ wacc s * wopVal s < 2 ^ 128 ∧ t = setWacc (wacc s * wopVal s) s) := by
  rcases command_inv h with h | ⟨hf, -, h⟩
  · exact .inl h
  · split at h
    · cases h
    · rename_i hn
      cases h
      exact .inr ⟨hf, Nat.lt_of_not_le hn, rfl⟩

theorem execWcDiv_inv {s t : State} (h : execWcDiv s = .next t) :
    Stopped .wcDiv s t ∨ (s.faulted = false ∧ wopVal s ≠ 0 ∧ t = setWacc (wacc s / wopVal s) s) := by
  rcases command_inv h with h | ⟨hf, -, h⟩
  · exact .inl h
  · split at h
    · cases h
    · rename_i hn
      cases h
      exact .inr ⟨hf, hn, rfl⟩

theorem execWcDivmod_inv {s t : State} (h : execWcDivmod s = .next t) :
    Stopped .wcDivmod s t ∨
      (s.faulted = false ∧ wopVal s ≠ 0 ∧
        t = { setWacc (wacc s / wopVal s) s with wrem := BitVec.ofNat 64 (wacc s % wopVal s) }) := by
  rcases command_inv h with h | ⟨hf, -, h⟩
  · exact .inl h
  · split at h
    · cases h
    · rename_i hn
      cases h
      exact .inr ⟨hf, hn, rfl⟩

theorem execWcMod_inv {s t : State} (h : execWcMod s = .next t) :
    Stopped .wcMod s t ∨
      (s.faulted = false ∧ wopVal s ≠ 0 ∧ t = { s with wrem := BitVec.ofNat 64 (wacc s % wopVal s) }) := by
  rcases command_inv h with h | ⟨hf, -, h⟩
  · exact .inl h
  · split at h
    · cases h
    · rename_i hn
      cases h
      exact .inr ⟨hf, hn, rfl⟩

/-- An increment that does not fault. -/
theorem wideInc_ok {v w : Nat} (h : wideInc v = .ok w) : v ≠ 2 ^ 128 - 1 ∧ w = v + 1 := by
  unfold wideInc at h
  split at h
  · cases h
  · rename_i hn
    cases h
    exact ⟨hn, rfl⟩

theorem execWcInc_inv {s t : State} (h : execWcInc s = .next t) :
    Stopped .wcInc s t ∨ (s.faulted = false ∧ wacc s ≠ 2 ^ 128 - 1 ∧ t = setWacc (wacc s + 1) s) := by
  rcases command_inv h with h | ⟨hf, -, h⟩
  · exact .inl h
  · split at h
    · cases h
    · rename_i v hv
      obtain ⟨hn, rfl⟩ := wideInc_ok hv
      cases h
      exact .inr ⟨hf, hn, rfl⟩

theorem execWcIszero_inv {s t : State} (h : execWcIszero s = .next t) :
    Stopped .wcIszero s t ∨ (s.faulted = false ∧ t = setFlagZ (decide (wacc s = 0)) s) := by
  rcases command_inv h with h | ⟨hf, -, h⟩
  · exact .inl h
  · cases h
    exact .inr ⟨hf, rfl⟩

theorem execWcParse_inv {s t : State} (h : execWcParse s = .next t) :
    Stopped .wcParse s t ∨
      (s.faulted = false ∧ s.wstrLen.toNat ≠ 0 ∧ s.wstrLen.toNat ≤ 64 ∧
        ∃ v, parseDigits 0 (wstrBytes s s.wstrLen.toNat) = .ok v ∧ t = setWacc v s) := by
  rcases command_inv h with h | ⟨hf, -, h⟩
  · exact .inl h
  · split at h
    · cases h
    · rename_i hn
      simp only [Config.strCap] at hn
      split at h
      · cases h
      · rename_i v hv
        cases h
        exact .inr ⟨hf, fun e => hn (.inl e), Nat.le_of_not_lt fun e => hn (.inr e), v, hv, rfl⟩

theorem execWcTostr_inv {s t : State} (h : execWcTostr s = .next t) :
    Stopped .wcTostr s t ∨
      (s.faulted = false ∧
        t = { s with
          wstr := writeBytes s.wstr 0
            (decimalString (wacc s) ++ List.replicate (64 - (decimalString (wacc s)).length) 0#8)
          wstrLen := BitVec.ofNat 7 (decimalString (wacc s)).length }) := by
  rcases command_inv h with h | ⟨hf, -, h⟩
  · exact .inl h
  · cases h
    exact .inr ⟨hf, rfl⟩

/-! ### Rotor (41_rotor) -/

/-- A construction that raises nothing. -/
theorem constructRotor_ok {k : Fin 6} {s t : State} (h : constructRotor k s = .ok t) :
    rotorParamsOk s.psize.toNat s.pstart.toNat s.pstep.toNat = true ∧
      t = renewed s (.rotor k)
        (setRotor k
          (builtRotor (rotor s k) s.psize.toNat s.pstart.toNat s.pstep.toNat (staged s (dataBytes s.psize.toNat))) s) := by
  unfold constructRotor at h
  dsimp only at h
  split at h
  · rename_i hp
    cases h
    exact ⟨hp, rfl⟩
  · cases h

theorem execRotConstruct_inv {u : UnitCode} {s t : State} (h : execRotConstruct u s = .next t) :
    Stopped (.rotConstruct u) s t ∨
      (s.faulted = false ∧ ∃ k, u = unitCode (.rotor k) ∧ constructRotor k s = .ok t) := by
  rcases command_inv h with h | ⟨hf, -, h⟩
  · exact .inl h
  · obtain ⟨k, hu, h⟩ := onRotor_ok h
    exact .inr ⟨hf, k, hu, h⟩

/-- A direct F transform of a rotor that raises nothing. -/
theorem execRotApplyf_inv {u : UnitCode} {s t : State} (h : execRotApplyf u s = .next t) :
    Stopped (.rotApplyf u) s t ∨
      (s.faulted = false ∧ ∃ k, u = unitCode (.rotor k) ∧ (rotor s k).valid = true ∧
        directTransform (.rotor k) s (rotorTransformF k) = .ok t) := by
  rcases command_inv h with h | ⟨hf, -, h⟩
  · exact .inl h
  · obtain ⟨k, hu, hv, h⟩ := onValidRotor_ok h
    exact .inr ⟨hf, k, hu, hv, h⟩

theorem execRotApplyg_inv {u : UnitCode} {s t : State} (h : execRotApplyg u s = .next t) :
    Stopped (.rotApplyg u) s t ∨
      (s.faulted = false ∧ ∃ k, u = unitCode (.rotor k) ∧ (rotor s k).valid = true ∧
        directTransform (.rotor k) s (rotorTransformG k) = .ok t) := by
  rcases command_inv h with h | ⟨hf, -, h⟩
  · exact .inl h
  · obtain ⟨k, hu, hv, h⟩ := onValidRotor_ok h
    exact .inr ⟨hf, k, hu, hv, h⟩

/-- A seek of a rotor that raises nothing: it moves `CURRENT`, or an undefined unit stays where it is. -/
theorem seekRotor_ok {k : Fin 6} {s t : State} (h : seekRotor k s = .ok t) :
    (∃ c, rotorSeek (rotor s k) (wacc s) = .ok c ∧ t = setRotor k { rotor s k with current := c } s) ∨
    ((∃ c, rotorSeek (rotor s k) (wacc s) = .error c) ∧ unsettled s (.rotor k) = true ∧ t = s) := by
  unfold seekRotor at h
  split at h
  · rename_i c hc
    split at h
    · rename_i hu
      cases h
      exact .inr ⟨⟨c, hc⟩, hu, rfl⟩
    · cases h
  · rename_i c hc
    cases h
    exact .inl ⟨c, hc, rfl⟩

/-- A seek of a defined rotor that overflows raises its fault. -/
theorem seekRotor_of_error {k : Fin 6} {s : State} {c : Cause} (h : rotorSeek (rotor s k) (wacc s) = .error c)
    (hu : unsettled s (.rotor k) = false) : seekRotor k s = .error ⟨c, unitCode (.rotor k)⟩ := by
  simp only [seekRotor, h, hu, Bool.false_eq_true, if_false]

/-- A seek of a rotor that overflows nothing. -/
theorem seekRotor_of_ok {k : Fin 6} {s : State} {c : BitVec 12} (h : rotorSeek (rotor s k) (wacc s) = .ok c) :
    seekRotor k s = .ok (setRotor k { rotor s k with current := c } s) := by
  simp only [seekRotor, h]

theorem execRotSetindex_inv {u : UnitCode} {s t : State} (h : execRotSetindex u s = .next t) :
    Stopped (.rotSetindex u) s t ∨
      (s.faulted = false ∧ ∃ k t', u = unitCode (.rotor k) ∧ (rotor s k).valid = true ∧ seekRotor k s = .ok t' ∧
        t = renewed s (.rotor k) t') := by
  rcases command_inv h with h | ⟨hf, -, h⟩
  · exact .inl h
  · obtain ⟨k, hu, hv, h⟩ := onValidRotor_ok h
    split at h
    · cases h
    · rename_i t' ht
      cases h
      exact .inr ⟨hf, k, t', hu, hv, ht, rfl⟩

theorem execRotIndex_inv {u : UnitCode} {s t : State} (h : execRotIndex u s = .next t) :
    Stopped (.rotIndex u) s t ∨
      (s.faulted = false ∧ ∃ k, u = unitCode (.rotor k) ∧ (rotor s k).valid = true ∧ t = setUntracked true s) := by
  rcases command_inv h with h | ⟨hf, -, h⟩
  · exact .inl h
  · obtain ⟨k, hu, hv, h⟩ := onValidRotor_ok h
    cases h
    exact .inr ⟨hf, k, hu, hv, rfl⟩

theorem execRotUpdate_inv {u : UnitCode} {s t : State} (h : execRotUpdate u s = .next t) :
    Stopped (.rotUpdate u) s t ∨
      (s.faulted = false ∧ ∃ k, u = unitCode (.rotor k) ∧ (rotor s k).valid = true ∧ constructRotor k s = .ok t) := by
  rcases command_inv h with h | ⟨hf, -, h⟩
  · exact .inl h
  · obtain ⟨k, hu, hv, h⟩ := onValidRotor_ok h
    exact .inr ⟨hf, k, hu, hv, h⟩

theorem execRotDump_inv {u : UnitCode} {s t : State} (h : execRotDump u s = .next t) :
    Stopped (.rotDump u) s t ∨
      (s.faulted = false ∧ ∃ k, u = unitCode (.rotor k) ∧ (rotor s k).valid = true ∧
        t = { s with
          stg := writeBytes s.stg 0 (readBytes (rotor s k).buf 0 (dataBytes (rotor s k).size.toNat + 32))
          psize := (rotor s k).size.setWidth 64
          pstart := (rotor s k).start.setWidth 64
          pstep := (rotor s k).step.setWidth 64 }) := by
  rcases command_inv h with h | ⟨hf, -, h⟩
  · exact .inl h
  · obtain ⟨k, hu, hv, h⟩ := onValidRotor_ok h
    cases h
    exact .inr ⟨hf, k, hu, hv, rfl⟩

/-! ### Permutator (42_permutator) -/

/-- A construction that raises nothing. -/
theorem constructPerm_ok {k : Fin 2} {s t : State} (h : constructPerm k s = .ok t) :
    permParamsOk s.plen (staged s 256) = true ∧
      t = renewed s (.perm k) (setPerm k (builtPerm (perm s k) s.plen (staged s 256)) s) := by
  unfold constructPerm at h
  dsimp only at h
  split at h
  · rename_i hp
    cases h
    exact ⟨hp, rfl⟩
  · cases h

theorem execPrmConstruct_inv {u : UnitCode} {s t : State} (h : execPrmConstruct u s = .next t) :
    Stopped (.prmConstruct u) s t ∨
      (s.faulted = false ∧ ∃ k, u = unitCode (.perm k) ∧ constructPerm k s = .ok t) := by
  rcases command_inv h with h | ⟨hf, -, h⟩
  · exact .inl h
  · obtain ⟨k, hu, h⟩ := onPerm_ok h
    exact .inr ⟨hf, k, hu, h⟩

theorem execPrmApplyf_inv {u : UnitCode} {s t : State} (h : execPrmApplyf u s = .next t) :
    Stopped (.prmApplyf u) s t ∨
      (s.faulted = false ∧ ∃ k, u = unitCode (.perm k) ∧ (perm s k).valid = true ∧
        directTransform (.perm k) s (permTransformF k) = .ok t) := by
  rcases command_inv h with h | ⟨hf, -, h⟩
  · exact .inl h
  · obtain ⟨k, hu, hv, h⟩ := onValidPerm_ok h
    exact .inr ⟨hf, k, hu, hv, h⟩

theorem execPrmApplyg_inv {u : UnitCode} {s t : State} (h : execPrmApplyg u s = .next t) :
    Stopped (.prmApplyg u) s t ∨
      (s.faulted = false ∧ ∃ k, u = unitCode (.perm k) ∧ (perm s k).valid = true ∧
        directTransform (.perm k) s (permTransformG k) = .ok t) := by
  rcases command_inv h with h | ⟨hf, -, h⟩
  · exact .inl h
  · obtain ⟨k, hu, hv, h⟩ := onValidPerm_ok h
    exact .inr ⟨hf, k, hu, hv, h⟩

theorem execPrmSetindex_inv {u : UnitCode} {s t : State} (h : execPrmSetindex u s = .next t) :
    Stopped (.prmSetindex u) s t ∨
      (s.faulted = false ∧ ∃ k, u = unitCode (.perm k) ∧ (perm s k).valid = true ∧
        t = renewed s (.perm k) (setPerm k (permSeek (perm s k) (wacc s)) s)) := by
  rcases command_inv h with h | ⟨hf, -, h⟩
  · exact .inl h
  · obtain ⟨k, hu, hv, h⟩ := onValidPerm_ok h
    cases h
    exact .inr ⟨hf, k, hu, hv, rfl⟩

theorem execPrmIndex_inv {u : UnitCode} {s t : State} (h : execPrmIndex u s = .next t) :
    Stopped (.prmIndex u) s t ∨
      (s.faulted = false ∧ ∃ k, u = unitCode (.perm k) ∧ (perm s k).valid = true ∧ t = setUntracked true s) := by
  rcases command_inv h with h | ⟨hf, -, h⟩
  · exact .inl h
  · obtain ⟨k, hu, hv, h⟩ := onValidPerm_ok h
    cases h
    exact .inr ⟨hf, k, hu, hv, rfl⟩

theorem execPrmUpdate_inv {u : UnitCode} {s t : State} (h : execPrmUpdate u s = .next t) :
    Stopped (.prmUpdate u) s t ∨
      (s.faulted = false ∧ ∃ k, u = unitCode (.perm k) ∧ (perm s k).valid = true ∧ constructPerm k s = .ok t) := by
  rcases command_inv h with h | ⟨hf, -, h⟩
  · exact .inl h
  · obtain ⟨k, hu, hv, h⟩ := onValidPerm_ok h
    exact .inr ⟨hf, k, hu, hv, h⟩

theorem execPrmDump_inv {u : UnitCode} {s t : State} (h : execPrmDump u s = .next t) :
    Stopped (.prmDump u) s t ∨
      (s.faulted = false ∧ ∃ k, u = unitCode (.perm k) ∧ (perm s k).valid = true ∧
        t = { s with
          stg := writeBytes (writeBytes s.stg 0 (readBytes (perm s k).randp 0 256)) 256
            (readBytes (perm s k).bperm 0 256)
          plen := Vector.ofFn fun j : Fin 4 => (perm s k).len[j].setWidth 64 }) := by
  rcases command_inv h with h | ⟨hf, -, h⟩
  · exact .inl h
  · obtain ⟨k, hu, hv, h⟩ := onValidPerm_ok h
    cases h
    exact .inr ⟨hf, k, hu, hv, rfl⟩

theorem execPrmAdvance_inv {u : UnitCode} {s t : State} (h : execPrmAdvance u s = .next t) :
    Stopped (.prmAdvance u) s t ∨
      (s.faulted = false ∧ ∃ k, u = unitCode (.perm k) ∧ (perm s k).valid = true ∧
        t = mutated s (.perm k) (setPerm k (permAdvance (perm s k)) s)) := by
  rcases command_inv h with h | ⟨hf, -, h⟩
  · exact .inl h
  · obtain ⟨k, hu, hv, h⟩ := onValidPerm_ok h
    cases h
    exact .inr ⟨hf, k, hu, hv, rfl⟩

theorem execPrmRebuild_inv {u : UnitCode} {s t : State} (h : execPrmRebuild u s = .next t) :
    Stopped (.prmRebuild u) s t ∨
      (s.faulted = false ∧ ∃ k, u = unitCode (.perm k) ∧ (perm s k).valid = true ∧
        t = mutated s (.perm k) (setPerm k (rebuild (perm s k)) s)) := by
  rcases command_inv h with h | ⟨hf, -, h⟩
  · exact .inl h
  · obtain ⟨k, hu, hv, h⟩ := onValidPerm_ok h
    cases h
    exact .inr ⟨hf, k, hu, hv, rfl⟩

/-! ### Counter (43_counter) -/

theorem execCtrReset_inv {s t : State} (h : execCtrReset s = .next t) :
    Stopped .ctrReset s t ∨ (s.faulted = false ∧ t = renewed s .counter { s with idx := 0#128 }) := by
  rcases command_inv h with h | ⟨hf, -, h⟩
  · exact .inl h
  · cases h
    exact .inr ⟨hf, rfl⟩

/-- The F transform of the counter, where it does not fault (43_counter R222). -/
theorem counterTransformF_ok {s t : State} {b r : List Byte} (h : counterTransformF s b = .ok (t, r)) :
    s.idx.toNat ≠ 2 ^ 128 - 1 ∧ t = { s with idx := BitVec.ofNat 128 (s.idx.toNat + 1) } ∧ r = b := by
  unfold counterTransformF at h
  split at h
  · cases h
  · rename_i v hv
    obtain ⟨hn, rfl⟩ := wideInc_ok hv
    cases h
    exact ⟨hn, rfl, rfl⟩

theorem execCtrApplyf_inv {s t : State} (h : execCtrApplyf s = .next t) :
    Stopped .ctrApplyf s t ∨
      (s.faulted = false ∧ s.blkLen.toNat ≤ 32 ∧
        ((unsettled s .counter = true ∧ t = passBlock (mutated s .counter s)) ∨
         (unsettled s .counter = false ∧ s.idx.toNat ≠ 2 ^ 128 - 1 ∧
           t = passBlock { s with idx := BitVec.ofNat 128 (s.idx.toNat + 1) }))) := by
  rcases command_inv h with h | ⟨hf, -, h⟩
  · exact .inl h
  · obtain ⟨hb, h⟩ := withBlock_ok h
    split at h
    · rename_i hu
      cases h
      exact .inr ⟨hf, hb, .inl ⟨hu, rfl⟩⟩
    · rename_i hu
      split at h
      · cases h
      · rename_i t' r ht
        obtain ⟨hn, rfl, -⟩ := counterTransformF_ok ht
        cases h
        exact .inr ⟨hf, hb, .inr ⟨by simpa using hu, hn, rfl⟩⟩

theorem execCtrApplyg_inv {s t : State} (h : execCtrApplyg s = .next t) :
    Stopped .ctrApplyg s t ∨ (s.faulted = false ∧ s.blkLen.toNat ≤ 32 ∧ t = passBlock s) := by
  rcases command_inv h with h | ⟨hf, -, h⟩
  · exact .inl h
  · obtain ⟨hb, h⟩ := withBlock_ok h
    cases h
    exact .inr ⟨hf, hb, rfl⟩

theorem execCtrSetindex_inv {s t : State} (h : execCtrSetindex s = .next t) :
    Stopped .ctrSetindex s t ∨
      (s.faulted = false ∧ t = renewed s .counter { s with idx := BitVec.ofNat 128 (wacc s) }) := by
  rcases command_inv h with h | ⟨hf, -, h⟩
  · exact .inl h
  · cases h
    exact .inr ⟨hf, rfl⟩

theorem execCtrIndex_inv {s t : State} (h : execCtrIndex s = .next t) :
    Stopped .ctrIndex s t ∨ (s.faulted = false ∧ t = setUntracked false (setWacc s.idx.toNat s)) := by
  rcases command_inv h with h | ⟨hf, -, h⟩
  · exact .inl h
  · cases h
    exact .inr ⟨hf, rfl⟩

theorem execCtrUpdate_inv {s t : State} (h : execCtrUpdate s = .next t) :
    Stopped .ctrUpdate s t ∨ (s.faulted = false ∧ t = s) := by
  rcases command_inv h with h | ⟨hf, -, h⟩
  · exact .inl h
  · cases h
    exact .inr ⟨hf, rfl⟩

/-! ### Bit primitives (40_bitvector) -/

/-- The two checks of a BIT command that pass. -/
theorem onBlockBit_ok {n : Byte} {s t : State} {body : Except Trap State} (h : onBlockBit n s body = .ok t) :
    s.blkLen.toNat ≤ 32 ∧ n.toNat < 8 * s.blkLen.toNat ∧ body = .ok t := by
  obtain ⟨hb, h⟩ := withBlock_ok h
  split at h
  · cases h
  · rename_i hn
    exact ⟨hb, Nat.lt_of_not_le hn, h⟩

theorem execBitGet_inv {n : Byte} {s t : State} (h : execBitGet n s = .next t) :
    Stopped (.bitGet n) s t ∨
      (s.faulted = false ∧ s.blkLen.toNat ≤ 32 ∧ n.toNat < 8 * s.blkLen.toNat ∧
        t = setFlagB (bufBit s.blk n.toNat) s) := by
  rcases command_inv h with h | ⟨hf, -, h⟩
  · exact .inl h
  · obtain ⟨hb, hn, h⟩ := onBlockBit_ok h
    cases h
    exact .inr ⟨hf, hb, hn, rfl⟩

theorem execBitSet_inv {n : Byte} {s t : State} (h : execBitSet n s = .next t) :
    Stopped (.bitSet n) s t ∨
      (s.faulted = false ∧ s.blkLen.toNat ≤ 32 ∧ n.toNat < 8 * s.blkLen.toNat ∧
        t = { s with blk := setBit s.blk n.toNat }) := by
  rcases command_inv h with h | ⟨hf, -, h⟩
  · exact .inl h
  · obtain ⟨hb, hn, h⟩ := onBlockBit_ok h
    cases h
    exact .inr ⟨hf, hb, hn, rfl⟩

theorem execBitClr_inv {n : Byte} {s t : State} (h : execBitClr n s = .next t) :
    Stopped (.bitClr n) s t ∨
      (s.faulted = false ∧ s.blkLen.toNat ≤ 32 ∧ n.toNat < 8 * s.blkLen.toNat ∧
        t = { s with blk := clrBit s.blk n.toNat }) := by
  rcases command_inv h with h | ⟨hf, -, h⟩
  · exact .inl h
  · obtain ⟨hb, hn, h⟩ := onBlockBit_ok h
    cases h
    exact .inr ⟨hf, hb, hn, rfl⟩

/-! ### All commands -/

/-- Every command is one frame around its rule, so it answers a next state in every state (60_exceptions R350). -/
theorem exec_is_command (i : Instr) (s : State) : ∃ body, exec i s = command i s body := by
  cases i <;> first | exact ⟨_, rfl⟩ | exact ⟨.ok _, rfl⟩

theorem exec_answers (i : Instr) (s : State) : ∃ t, exec i s = .next t := by
  obtain ⟨body, h⟩ := exec_is_command i s
  rw [h]
  exact command_answers i s body

/-- A faulted block drops every command (30_encoding R103 step 1). -/
theorem exec_of_faulted {s : State} (h : s.faulted = true) (i : Instr) : exec i s = .next s := by
  obtain ⟨body, e⟩ := exec_is_command i s
  rw [e, command_of_faulted h]

end Sys2Proof.Machine
end

