-- ==== Sys2Proof/Laws/Perm.lean ====
section
/-! SUPPORT. The laws of the permutator: what the rebuild writes and that it is a bijection (42_permutator R184), the bit
permutation and its inverse (R187 to R189), and the state that construction, advance and seek leave (R183, R186, R190). -/

namespace Sys2Proof.Machine

/-! ### Tables -/

theorem entry_lt (m : Mem) (i : Nat) : entry m i < 256 := (readByte m i).isLt

/-- A byte as the number of its entry. -/
theorem readByte_eq_of_entry {m m' : Mem} {i j : Nat} (h : entry m i = entry m' j) : readByte m i = readByte m' j :=
  BitVec.eq_of_toNat_eq h

theorem TableBijective.entry_inj {m : Mem} (h : TableBijective m) {i j : Nat} (hi : i < 256) (hj : j < 256)
    (e : entry m i = entry m j) : i = j :=
  h i j hi hj (readByte_eq_of_entry e)

/-- A table of 256 different entries takes every value (20_memory R72). -/
theorem TableBijective.surjective {m : Mem} (h : TableBijective m) {v : Nat} (hv : v < 256) : ∃ i < 256, entry m i = v := by
  have hinj : Function.Injective fun i : Fin 256 => (⟨entry m i.val, entry_lt m i.val⟩ : Fin 256) := fun i j e =>
    Fin.ext (h.entry_inj i.isLt j.isLt (Fin.mk.inj e))
  obtain ⟨i, hi⟩ := Finite.surjective_of_injective hinj ⟨v, hv⟩
  exact ⟨i.val, i.isLt, Fin.mk.inj hi⟩

/-- A loop of byte writes keeps the canonical form. -/
theorem foldl_writeByte_wf {m : Mem} (h : Mem.wf m) (f : Nat → Nat) (g : Nat → Byte) (l : List Nat) :
    Mem.wf (l.foldl (fun m k => writeByte m (f k) (g k)) m) := by
  induction l generalizing m with
  | nil => exact h
  | cons k t ih => exact ih (writeByte_wf h _ _)

/-- An address that a loop of byte writes never names keeps its byte. -/
theorem readByte_foldl_miss {m : Mem} (h : Mem.wf m) {f : Nat → Nat} {g : Nat → Byte} {n x : Nat}
    (hx : ∀ k < n, f k ≠ x) :
    readByte ((List.range n).foldl (fun m k => writeByte m (f k) (g k)) m) x = readByte m x := by
  induction n with
  | zero => rfl
  | succ n ih =>
    rw [List.range_succ, List.foldl_append, List.foldl_cons, List.foldl_nil,
      readByte_writeByte (foldl_writeByte_wf h _ _ _), if_neg (fun e => hx n (by omega) e.symm)]
    exact ih fun k hk => hx k (by omega)

/-- An address that a loop of byte writes names once holds the byte of that round. -/
theorem readByte_foldl_hit {m : Mem} (h : Mem.wf m) {f : Nat → Nat} {g : Nat → Byte} {n k : Nat} (hk : k < n)
    (hf : ∀ i < n, ∀ j < n, f i = f j → i = j) :
    readByte ((List.range n).foldl (fun m k => writeByte m (f k) (g k)) m) (f k) = g k := by
  induction n with
  | zero => omega
  | succ n ih =>
    rw [List.range_succ, List.foldl_append, List.foldl_cons, List.foldl_nil,
      readByte_writeByte (foldl_writeByte_wf h _ _ _)]
    by_cases e : f k = f n
    · rw [if_pos e, hf k hk n (by omega) e]
    · rw [if_neg e]
      exact ih (by
        rcases Nat.lt_succ_iff_lt_or_eq.1 hk with h1 | h1
        · exact h1
        · exact absurd (by rw [h1]) e) fun i hi j hj => hf i (by omega) j (by omega)

theorem foldl_writeByte_within {n : Nat} {m : Mem} (h : Mem.within n m) {f : Nat → Nat} {g : Nat → Byte} {l : List Nat}
    (hf : ∀ k ∈ l, f k < n) : Mem.within n (l.foldl (fun m k => writeByte m (f k) (g k)) m) := by
  induction l generalizing m with
  | nil => exact h
  | cons k t ih => exact ih (writeByte_within h (hf k (by simp)) _) fun j hj => hf j (by simp [hj])

/-! ### Segments (20_memory R72) -/

theorem cycle_cases (j : Fin 4) : j = 0 ∨ j = 1 ∨ j = 2 ∨ j = 3 := by
  revert j
  decide

theorem CyclesOk.segment_bound {p : Perm} (h : CyclesOk p) (j : Fin 4) : p.start[j].toNat + p.len[j].toNat ≤ 256 := by
  have h1 := h.lenSum
  have h2 := h.start0
  have h3 := h.start1
  have h4 := h.start2
  have h5 := h.start3
  simp only [Config.permEntries] at h1
  fin_cases j <;> simp only [Fin.getElem_fin] at * <;> simp at * <;> omega

/-- The segments do not overlap. -/
theorem CyclesOk.segment_unique {p : Perm} (h : CyclesOk p) {i j : Fin 4} {a b : Nat} (ha : a < p.len[i].toNat)
    (hb : b < p.len[j].toNat) (e : p.start[i].toNat + a = p.start[j].toNat + b) : i = j ∧ a = b := by
  have h1 := h.lenSum
  have h2 := h.start0
  have h3 := h.start1
  have h4 := h.start2
  have h5 := h.start3
  simp only [Config.permEntries] at h1
  have : i = j := by
    fin_cases i <;> fin_cases j <;> simp at * <;> omega
  subst this
  exact ⟨rfl, by omega⟩

/-- The segments cover the table. -/
theorem CyclesOk.segment_of {p : Perm} (h : CyclesOk p) {i : Nat} :
    i < 256 → ∃ (j : Fin 4) (k : Nat), k < p.len[j].toNat ∧ i = p.start[j].toNat + k := by
  intro hi
  have h1 := h.lenSum
  have h2 := h.start0
  have h3 := h.start1
  have h4 := h.start2
  have h5 := h.start3
  simp only [Config.permEntries] at h1
  by_cases c3 : p.start[3].toNat ≤ i
  · exact ⟨3, i - p.start[3].toNat, by simp; omega, by simp; omega⟩
  · by_cases c2 : p.start[2].toNat ≤ i
    · exact ⟨2, i - p.start[2].toNat, by simp; omega, by simp; omega⟩
    · by_cases c1 : p.start[1].toNat ≤ i
      · exact ⟨1, i - p.start[1].toNat, by simp; omega, by simp; omega⟩
      · exact ⟨0, i - p.start[0].toNat, by simp; omega, by simp; omega⟩

/-! ### The rebuild (42_permutator R184) -/

@[simp] theorem rebuild_len (p : Perm) : (rebuild p).len = p.len := rfl

@[simp] theorem rebuild_start (p : Perm) : (rebuild p).start = p.start := rfl

@[simp] theorem rebuild_cur (p : Perm) : (rebuild p).cur = p.cur := rfl

@[simp] theorem rebuild_cstate (p : Perm) : (rebuild p).cstate = p.cstate := rfl

@[simp] theorem rebuild_maxst (p : Perm) : (rebuild p).maxst = p.maxst := rfl

@[simp] theorem rebuild_valid (p : Perm) : (rebuild p).valid = p.valid := rfl

@[simp] theorem rebuild_randp (p : Perm) : (rebuild p).randp = p.randp := rfl

/-- The writes of cycle `j` of the rebuild. -/
def cycleOf (p : Perm) (j : Fin 4) (m : Mem) : Mem :=
  (List.range p.len[j].toNat).foldl
    (fun m k => writeByte m (entry p.randp (p.start[j].toNat + k))
      (readByte p.randp (p.start[j].toNat + (p.cur[j].toNat + k) % p.len[j].toNat))) m

/-- The rebuild is its four cycles, one after the other. -/
theorem rebuild_bperm_eq (p : Perm) :
    (rebuild p).bperm = cycleOf p 3 (cycleOf p 2 (cycleOf p 1 (cycleOf p 0 p.bperm))) := rfl

theorem cycleOf_wf {m : Mem} (h : Mem.wf m) (p : Perm) (j : Fin 4) : Mem.wf (cycleOf p j m) :=
  foldl_writeByte_wf h _ _ _

theorem rebuild_wf {p : Perm} (h : Mem.wf p.bperm) : Mem.wf (rebuild p).bperm := by
  rw [rebuild_bperm_eq]
  exact cycleOf_wf (cycleOf_wf (cycleOf_wf (cycleOf_wf h _ _) _ _) _ _) _ _

theorem cycleOf_within {m : Mem} (h : Mem.within 256 m) (p : Perm) (j : Fin 4) : Mem.within 256 (cycleOf p j m) :=
  foldl_writeByte_within h fun _ _ => entry_lt _ _

theorem rebuild_within {p : Perm} (h : Mem.within 256 p.bperm) : Mem.within 256 (rebuild p).bperm := by
  rw [rebuild_bperm_eq]
  exact cycleOf_within (cycleOf_within (cycleOf_within (cycleOf_within h _ _) _ _) _ _) _ _

/-- A cycle writes its own values. -/
theorem readByte_cycleOf_same {p : Perm} (h : CyclesOk p) {m : Mem} (hm : Mem.wf m) (j : Fin 4) {k : Nat}
    (hk : k < p.len[j].toNat) :
    readByte (cycleOf p j m) (entry p.randp (p.start[j].toNat + k)) =
      readByte p.randp (p.start[j].toNat + (p.cur[j].toNat + k) % p.len[j].toNat) := by
  have hb := h.segment_bound j
  refine readByte_foldl_hit (f := fun k => entry p.randp (p.start[j].toNat + k))
    (g := fun k => readByte p.randp (p.start[j].toNat + (p.cur[j].toNat + k) % p.len[j].toNat)) hm hk ?_
  intro a ha b hb' e
  have := h.randp.entry_inj (by omega) (by omega) e
  omega

/-- A cycle leaves the values of the others alone. -/
theorem readByte_cycleOf_other {p : Perm} (h : CyclesOk p) {m : Mem} (hm : Mem.wf m) {i j : Fin 4} (hij : i ≠ j) {k : Nat}
    (hk : k < p.len[j].toNat) :
    readByte (cycleOf p i m) (entry p.randp (p.start[j].toNat + k)) =
      readByte m (entry p.randp (p.start[j].toNat + k)) := by
  have h1 := h.segment_bound i
  have h2 := h.segment_bound j
  refine readByte_foldl_miss hm fun a ha e => hij ?_
  exact (h.segment_unique ha hk (h.randp.entry_inj (by omega) (by omega) e)).1

/-- What the rebuild writes (42_permutator R184): the value at place `k` of a segment is sent to the value `CUR` places further
round its ring. -/
theorem readByte_rebuild {p : Perm} (h : CyclesOk p) (hm : Mem.wf p.bperm) (j : Fin 4) {k : Nat} (hk : k < p.len[j].toNat) :
    readByte (rebuild p).bperm (entry p.randp (p.start[j].toNat + k)) =
      readByte p.randp (p.start[j].toNat + (p.cur[j].toNat + k) % p.len[j].toNat) := by
  rw [rebuild_bperm_eq]
  have w0 := cycleOf_wf hm p 0
  have w1 := cycleOf_wf w0 p 1
  have w2 := cycleOf_wf w1 p 2
  rcases cycle_cases j with rfl | rfl | rfl | rfl
  · rw [readByte_cycleOf_other h w2 (by decide) hk, readByte_cycleOf_other h w1 (by decide) hk,
      readByte_cycleOf_other h w0 (by decide) hk, readByte_cycleOf_same h hm 0 hk]
  · rw [readByte_cycleOf_other h w2 (by decide) hk, readByte_cycleOf_other h w1 (by decide) hk,
      readByte_cycleOf_same h w0 1 hk]
  · rw [readByte_cycleOf_other h w2 (by decide) hk, readByte_cycleOf_same h w1 2 hk]
  · exact readByte_cycleOf_same h w2 3 hk

/-- Above the table the rebuild writes nothing. -/
theorem readByte_rebuild_above {p : Perm} (hm : Mem.wf p.bperm) {a : Nat} (ha : 256 ≤ a) :
    readByte (rebuild p).bperm a = readByte p.bperm a := by
  rw [rebuild_bperm_eq]
  have miss : ∀ (j : Fin 4) {m : Mem}, Mem.wf m → readByte (cycleOf p j m) a = readByte m a := fun j m hw =>
    readByte_foldl_miss hw fun k _ => by
      have := entry_lt p.randp (p.start[j].toNat + k)
      omega
  have w0 := cycleOf_wf hm p 0
  have w1 := cycleOf_wf w0 p 1
  have w2 := cycleOf_wf w1 p 2
  rw [miss 3 w2, miss 2 w1, miss 1 w0, miss 0 hm]

/-- Every value below 256 stands at one place of one segment. -/
theorem CyclesOk.place_of {p : Perm} (h : CyclesOk p) {v : Nat} :
    v < 256 → ∃ (j : Fin 4) (k : Nat), k < p.len[j].toNat ∧ entry p.randp (p.start[j].toNat + k) = v := by
  intro hv
  obtain ⟨i, hi, e⟩ := h.randp.surjective hv
  obtain ⟨j, k, hk, e2⟩ := h.segment_of hi
  exact ⟨j, k, hk, e2 ▸ e⟩

/-- The rebuilt table is a bijection (42_permutator R184 (d)). -/
theorem rebuild_bijective {p : Perm} (h : CyclesOk p) (hm : Mem.wf p.bperm) : TableBijective (rebuild p).bperm := by
  intro a b ha hb e
  obtain ⟨i, x, hx, rfl⟩ := h.place_of ha
  obtain ⟨j, y, hy, rfl⟩ := h.place_of hb
  rw [readByte_rebuild h hm i hx, readByte_rebuild h hm j hy] at e
  have h1 := h.segment_bound i
  have h2 := h.segment_bound j
  have li := h.lenPos i
  have lj := h.lenPos j
  have m1 := Nat.mod_lt (p.cur[i].toNat + x) (show 0 < p.len[i].toNat from li)
  have m2 := Nat.mod_lt (p.cur[j].toNat + y) (show 0 < p.len[j].toNat from lj)
  have hidx := h.randp _ _ (by simp only [Config.permEntries]; omega) (by simp only [Config.permEntries]; omega) e
  obtain ⟨rfl, hmod⟩ := h.segment_unique m1 m2 hidx
  have hxy : x ≡ y [MOD p.len[i].toNat] := Nat.ModEq.add_left_cancel' p.cur[i].toNat hmod
  rw [Nat.ModEq, Nat.mod_eq_of_lt hx, Nat.mod_eq_of_lt hy] at hxy
  rw [hxy]

/-- The table a rebuild leaves depends on the cycles alone: whatever canonical table stood there before, below 256 it reads the
same. -/
theorem readByte_rebuild_congr {p q : Perm} (h : CyclesOk p) (hm : Mem.wf p.bperm) (hq : Mem.wf q.bperm)
    (e1 : q.len = p.len) (e2 : q.start = p.start) (e3 : q.cur = p.cur) (e4 : q.randp = p.randp) {a : Nat} (ha : a < 256) :
    readByte (rebuild p).bperm a = readByte (rebuild q).bperm a := by
  have h' : CyclesOk q := by
    constructor
    · rw [e1]; exact h.lenPos
    · rw [e1]; exact h.lenSum
    · rw [e2]; exact h.start0
    · rw [e1, e2]; exact h.start1
    · rw [e1, e2]; exact h.start2
    · rw [e1, e2]; exact h.start3
    · rw [e4]; exact h.randp
  obtain ⟨j, k, hk, rfl⟩ := h.place_of ha
  have := readByte_rebuild h' hq j (k := k) (by rw [e1]; exact hk)
  rw [e1, e2, e3, e4] at this
  rw [readByte_rebuild h hm j hk, this]

/-- A second rebuild writes what is there already (42_permutator R185). -/
theorem rebuild_rebuild {p : Perm} (h : CyclesOk p) (hm : Mem.wf p.bperm) : (rebuild (rebuild p)).bperm = (rebuild p).bperm := by
  have hw := rebuild_wf hm
  have hw2 : Mem.wf (rebuild (rebuild p)).bperm := rebuild_wf hw
  refine mem_ext hw2 hw fun a => ?_
  by_cases ha : a < 256
  · exact (readByte_rebuild_congr (p := p) (q := rebuild p) h hm hw rfl rfl rfl rfl ha).symm
  · exact readByte_rebuild_above hw (by omega)

/-! ### Construction, advance, seek -/

/-- A rebuilt unit whose counters agree is good. -/
theorem permGood_of_rebuild {p : Perm} (h : CyclesOk p) (hm : Mem.wf p.bperm)
    (h1 : p.maxst.toNat = p.len[0].toNat * p.len[1].toNat * p.len[2].toNat * p.len[3].toNat)
    (h2 : p.cstate.toNat < p.maxst.toNat) (h3 : ∀ j : Fin 4, p.cur[j].toNat = p.cstate.toNat % p.len[j].toNat) :
    PermGood (rebuild p) :=
  { lenPos := h.lenPos, lenSum := h.lenSum, start0 := h.start0, start1 := h.start1, start2 := h.start2,
    start3 := h.start3, randp := h.randp, maxst := h1, cstateLt := h2, cur := h3, bperm := rebuild_rebuild h hm }

/-- Every length divides the number of states (42_permutator R186 (c)). -/
theorem PermGood.len_dvd {p : Perm} (h : PermGood p) (j : Fin 4) : p.len[j].toNat ∣ p.maxst.toNat := by
  rw [h.maxst]
  rcases cycle_cases j with rfl | rfl | rfl | rfl
  · exact Dvd.dvd.mul_right (Dvd.dvd.mul_right (Dvd.dvd.mul_right (dvd_refl _) _) _) _
  · exact Dvd.dvd.mul_right (Dvd.dvd.mul_right (Dvd.dvd.mul_left (dvd_refl _) _) _) _
  · exact Dvd.dvd.mul_right (Dvd.dvd.mul_left (dvd_refl _) _) _
  · exact Dvd.dvd.mul_left (dvd_refl _) _

theorem PermGood.maxstPos {p : Perm} (h : PermGood p) : 0 < p.maxst.toNat :=
  Nat.lt_of_le_of_lt (Nat.zero_le _) h.cstateLt

/-- Lengths, cycle starts, table and number of states are not moved by an advance or a seek. -/
theorem toNat_ofNat_mod_maxst (p : Perm) (x : Nat) (h : 0 < p.maxst.toNat) :
    (BitVec.ofNat 25 (x % p.maxst.toNat)).toNat = x % p.maxst.toNat := by
  have h1 := p.maxst.isLt
  have h2 := Nat.mod_lt x h
  rw [BitVec.toNat_ofNat, Nat.mod_eq_of_lt (by omega)]

theorem CyclesOk.len_le {p : Perm} (h : CyclesOk p) (j : Fin 4) : p.len[j].toNat ≤ 253 := by
  have h1 := h.lenSum
  have l0 := h.lenPos 0
  have l1 := h.lenPos 1
  have l2 := h.lenPos 2
  have l3 := h.lenPos 3
  simp only [Config.permEntries] at h1
  fin_cases j <;> simp at * <;> omega

theorem toNat_ofNat_mod_len {p : Perm} (h : CyclesOk p) (j : Fin 4) (x : Nat) :
    (BitVec.ofNat 8 (x % p.len[j].toNat)).toNat = x % p.len[j].toNat := by
  have h1 := h.len_le j
  have h2 := Nat.mod_lt x (show 0 < p.len[j].toNat from h.lenPos j)
  rw [BitVec.toNat_ofNat, Nat.mod_eq_of_lt (by omega)]

/-- A seek as a function of the position alone: what stands in `CSTATE` and `CUR` before does not matter. -/
theorem permSeek_good {p : Perm} (h : PermGood p) (hm : Mem.wf p.bperm) (idx : Nat) : PermGood (permSeek p idx) := by
  refine permGood_of_rebuild (h := { h.toCyclesOk with }) hm h.maxst ?_ ?_
  · show (BitVec.ofNat 25 (idx % p.maxst.toNat)).toNat < p.maxst.toNat
    rw [toNat_ofNat_mod_maxst p _ h.maxstPos]
    exact Nat.mod_lt _ h.maxstPos
  · intro j
    simp only [Fin.getElem_fin, Vector.getElem_ofFn]
    rw [toNat_ofNat_mod_maxst p _ h.maxstPos]
    exact toNat_ofNat_mod_len h.toCyclesOk j _

/-- An advance of a good unit is a seek one further (42_permutator R186, R191). -/
theorem permAdvance_eq_seek {p : Perm} (h : PermGood p) : permAdvance p = permSeek p (p.cstate.toNat + 1) := by
  have hc : (Vector.ofFn fun j : Fin 4 => BitVec.ofNat 8 ((p.cur[j].toNat + 1) % p.len[j].toNat)) =
      Vector.ofFn fun j : Fin 4 => BitVec.ofNat 8 ((p.cstate.toNat + 1) % p.maxst.toNat % p.len[j].toNat) := by
    congr 1
    funext j
    rw [h.cur j, Nat.mod_mod_of_dvd _ (h.len_dvd j), Nat.mod_add_mod]
  simp only [permAdvance, permSeek, hc]

theorem permAdvance_good {p : Perm} (h : PermGood p) (hm : Mem.wf p.bperm) : PermGood (permAdvance p) := by
  rw [permAdvance_eq_seek h]
  exact permSeek_good h hm _

/-- A good unit is what a seek to its own position leaves. -/
theorem permSeek_self {p : Perm} (h : PermGood p) : permSeek p p.cstate.toNat = p := by
  have hc : (Vector.ofFn fun j : Fin 4 => BitVec.ofNat 8 (p.cstate.toNat % p.maxst.toNat % p.len[j].toNat)) = p.cur := by
    ext j hj
    have := h.cur ⟨j, hj⟩
    simp only [Fin.getElem_fin] at this
    simp [Vector.getElem_ofFn, Nat.mod_eq_of_lt h.cstateLt, ← this]
  have e : permSeek p p.cstate.toNat = rebuild p := by
    rw [permSeek, hc, Nat.mod_eq_of_lt h.cstateLt, BitVec.ofNat_toNat, BitVec.setWidth_eq]
  rw [e]
  show { p with bperm := (rebuild p).bperm } = p
  rw [h.bperm]

/-! ### The bit permutation (42_permutator R187, R188) -/

theorem blockSetBit_length (b : List Byte) (i : Nat) : (blockSetBit b i).length = b.length := by simp [blockSetBit]

/-- A bit of a block after `setbit`. -/
theorem blockBit_blockSetBit {b : List Byte} {i : Nat} (hi : i / 8 < b.length) (x : Nat) :
    blockBit (blockSetBit b i) x = (decide (x = i) || blockBit b x) := by
  have hx : x % 8 < 8 := Nat.mod_lt _ (by omega)
  simp only [blockBit, blockSetBit, List.getD_eq_getElem?_getD, List.getElem?_modify]
  by_cases hq : i / 8 = x / 8
  · have hl : x / 8 < b.length := hq ▸ hi
    have key : (x % 8 = i % 8 ↔ x = i) := by omega
    simp only [hq, if_true, hl, List.getElem?_eq_getElem, Option.map_eq_map, Option.map_some, Option.getD_some,
      BitVec.getLsbD_or, bitMask_getLsbD _ _ hx, key]
    rw [Bool.or_comm]
  · have : x ≠ i := fun e => hq (by rw [e])
    simp [hq, this]

theorem foldl_blockSetBit_length (c : Nat → Bool) (f : Nat → Nat) (l : List Nat) (r : List Byte) :
    (l.foldl (fun r i => if c i then blockSetBit r (f i) else r) r).length = r.length := by
  induction l generalizing r with
  | nil => rfl
  | cons i t ih =>
    rw [List.foldl_cons, ih]
    split
    · exact blockSetBit_length _ _
    · rfl

/-- A loop of `setbit`s sets the bits its rounds name and no other. -/
theorem blockBit_foldl {c : Nat → Bool} {f : Nat → Nat} {r : List Byte} (hf : ∀ i, f i / 8 < r.length) (l : List Nat) (x : Nat) :
    blockBit (l.foldl (fun r i => if c i then blockSetBit r (f i) else r) r) x =
      (blockBit r x || l.any fun i => c i && decide (x = f i)) := by
  induction l generalizing r with
  | nil => simp
  | cons i t ih =>
    have hl : (if c i then blockSetBit r (f i) else r).length = r.length := by
      split
      · exact blockSetBit_length _ _
      · rfl
    rw [List.foldl_cons, ih (fun j => by rw [hl]; exact hf j), List.any_cons]
    by_cases hc : c i = true
    · rw [if_pos hc, blockBit_blockSetBit (hf i), hc, Bool.true_and]
      cases decide (x = f i) <;> cases blockBit r x <;> rfl
    · rw [if_neg hc]
      simp [hc]

theorem blockBit_replicate (n x : Nat) : blockBit (List.replicate n 0#8) x = false := by
  simp only [blockBit, List.getD_eq_getElem?_getD, List.getElem?_replicate]
  split <;> simp

@[simp] theorem permuteF_length (m : Mem) (b : List Byte) : (permuteF m b).length = 32 := by
  rw [permuteF, foldl_blockSetBit_length (blockBit b) (entry m), List.length_replicate]

@[simp] theorem permuteG_length (m : Mem) (b : List Byte) : (permuteG m b).length = 32 := by
  rw [permuteG, foldl_blockSetBit_length (fun i => blockBit b (entry m i)) (fun i => i), List.length_replicate]

/-- Bit `x` of the F permutation: some set bit moves there. -/
theorem blockBit_permuteF (m : Mem) (b : List Byte) (x : Nat) :
    blockBit (permuteF m b) x = (List.range 256).any fun i => blockBit b i && decide (x = entry m i) := by
  rw [permuteF, blockBit_foldl (c := blockBit b) (f := entry m), blockBit_replicate, Bool.false_or]
  intro i
  have := entry_lt m i
  rw [List.length_replicate]
  simp only [Config.blockBytes]
  omega

/-- Bit `BPERM[i]` of the F permutation is bit `i` of the block (42_permutator R187). -/
theorem blockBit_permuteF_entry {m : Mem} (h : TableBijective m) (b : List Byte) {i : Nat} (hi : i < 256) :
    blockBit (permuteF m b) (entry m i) = blockBit b i := by
  rw [blockBit_permuteF]
  cases hb : blockBit b i with
  | true => exact List.any_eq_true.2 ⟨i, List.mem_range.2 hi, by simp [hb]⟩
  | false =>
    refine List.any_eq_false.2 fun j hj => ?_
    simp only [Bool.and_eq_true, decide_eq_true_eq, not_and]
    intro hbj e
    rw [h.entry_inj hi (List.mem_range.1 hj) e] at hb
    simp [hb] at hbj

theorem foldl_blockSetBit_congr {c : Nat → Bool} {f g : Nat → Nat} (l : List Nat) (h : ∀ i ∈ l, f i = g i) (r : List Byte) :
    l.foldl (fun r i => if c i then blockSetBit r (f i) else r) r =
      l.foldl (fun r i => if c i then blockSetBit r (g i) else r) r := by
  induction l generalizing r with
  | nil => rfl
  | cons i t ih =>
    rw [List.foldl_cons, List.foldl_cons, h i (by simp), ih fun j hj => h j (by simp [hj])]

/-- Bit `i` of the G permutation is bit `BPERM[i]` of the block (42_permutator R188). -/
theorem blockBit_permuteG (m : Mem) (b : List Byte) {i : Nat} (hi : i < 256) :
    blockBit (permuteG m b) i = blockBit b (entry m i) := by
  have e : permuteG m b = (List.range 256).foldl
      (fun r i => if blockBit b (entry m i) then blockSetBit r (i % 256) else r) (List.replicate 32 0#8) :=
    foldl_blockSetBit_congr (c := fun i => blockBit b (entry m i)) (f := fun i => i) (g := fun i => i % 256)
      (List.range 256) (fun j hj => (Nat.mod_eq_of_lt (List.mem_range.1 hj)).symm) (List.replicate 32 0#8)
  rw [e, blockBit_foldl (c := fun i => blockBit b (entry m i)) (f := fun i => i % 256), blockBit_replicate, Bool.false_or]
  · cases hb : blockBit b (entry m i) with
    | true => exact List.any_eq_true.2 ⟨i, List.mem_range.2 hi, by simp [hb, Nat.mod_eq_of_lt hi]⟩
    | false =>
      refine List.any_eq_false.2 fun j hj => ?_
      simp only [Bool.and_eq_true, decide_eq_true_eq, not_and]
      intro hbj e
      rw [Nat.mod_eq_of_lt (List.mem_range.1 hj)] at e
      rw [← e, hb] at hbj
      simp at hbj
  · intro j
    rw [List.length_replicate]
    omega

/-- Two full blocks with the same 256 bits are equal. -/
theorem block_ext {a b : List Byte} (ha : a.length = 32) (hb : b.length = 32) (h : ∀ i < 256, blockBit a i = blockBit b i) :
    a = b := by
  apply List.ext_getElem (ha.trans hb.symm)
  intro k h1 h2
  refine byte_ext fun j hj => ?_
  have := h (8 * k + j) (by omega)
  simp only [blockBit, List.getD_eq_getElem?_getD, show (8 * k + j) / 8 = k by omega, show (8 * k + j) % 8 = j by omega,
    List.getElem?_eq_getElem h1, List.getElem?_eq_getElem h2, Option.getD_some] at this
  exact this

/-- The two permutations undo each other (42_permutator R189). -/
theorem permuteG_permuteF {m : Mem} (h : TableBijective m) {b : List Byte} (hb : b.length = 32) :
    permuteG m (permuteF m b) = b :=
  block_ext (by simp) hb fun i hi => by rw [blockBit_permuteG m _ hi, blockBit_permuteF_entry h b hi]

theorem permuteF_permuteG {m : Mem} (h : TableBijective m) {b : List Byte} (hb : b.length = 32) :
    permuteF m (permuteG m b) = b :=
  block_ext (by simp) hb fun i hi => by
    obtain ⟨j, hj, rfl⟩ := h.surjective hi
    rw [blockBit_permuteF_entry h _ hj, blockBit_permuteG m b hj]

@[simp] theorem permF_length (p : Perm) (b : List Byte) : (permF p b).2.length = b.length := by
  unfold permF
  dsimp only
  split
  · rename_i h
    simp [h]
  · rfl

@[simp] theorem permG_length (p : Perm) (b : List Byte) : (permG p b).2.length = b.length := by
  unfold permG
  dsimp only
  split
  · rename_i h
    simp [h]
  · rfl

theorem PermGood.bpermBijective {p : Perm} (h : PermGood p) (hm : Mem.wf p.bperm) : TableBijective p.bperm :=
  h.bperm ▸ rebuild_bijective h.toCyclesOk hm

/-! ### The construction check (42_permutator R183) -/

theorem noRepeat_iff (seen : BitVec 256) (l : List Byte) :
    noRepeat seen l = true ↔ l.Nodup ∧ ∀ b ∈ l, seen.getLsbD b.toNat = false := by
  induction l generalizing seen with
  | nil => simp [noRepeat]
  | cons b t ih =>
    have hb : b.toNat < 256 := b.isLt
    have hbit : ∀ c : Byte, (seen ||| 1#256 <<< b.toNat).getLsbD c.toNat = (seen.getLsbD c.toNat || decide (c = b)) := by
      intro c
      have hc : c.toNat < 256 := c.isLt
      have hcb : (c.toNat = b.toNat) ↔ c = b := BitVec.toNat_inj
      simp only [BitVec.getLsbD_or, BitVec.getLsbD_shiftLeft, BitVec.getLsbD_one, hc, decide_true, Bool.true_and]
      congr 1
      by_cases e : c = b
      · simp [e]
      · have hne : c.toNat ≠ b.toNat := fun e' => e (hcb.1 e')
        simp only [e, decide_false]
        by_cases hlt : c.toNat < b.toNat
        · simp [hlt]
        · have : c.toNat - b.toNat ≠ 0 := by omega
          simp [this]
    simp only [noRepeat, List.nodup_cons, List.mem_cons, forall_eq_or_imp]
    cases hs : seen.getLsbD b.toNat with
    | true => simp
    | false =>
      simp only [Bool.false_eq_true, if_false, ih, hbit, Bool.or_eq_false_iff, decide_eq_false_iff_not]
      constructor
      · rintro ⟨h1, h2⟩
        exact ⟨⟨fun hm => (h2 b hm).2 rfl, h1⟩, trivial, fun c hc => (h2 c hc).1⟩
      · rintro ⟨⟨h1, h2⟩, -, h3⟩
        exact ⟨h2, fun c hc => ⟨h3 c hc, fun e => h1 (e ▸ hc)⟩⟩

/-- The `seen` loop accepts exactly the tables without a repeated entry. -/
theorem noRepeat_zero_iff (l : List Byte) : noRepeat 0#256 l = true ↔ l.Nodup := by
  rw [noRepeat_iff]
  simp

theorem readBytes_getElem (m : Mem) (a n k : Nat) (h : k < (readBytes m a n).length) :
    (readBytes m a n)[k] = readByte m (a + k) := by
  have hk : k < n := by simpa using h
  have := readBytes_getElem? m a n k hk
  rw [List.getElem?_eq_getElem h] at this
  exact Option.some.inj this

/-- The 256 staged bytes are different exactly when the staged table is bijective. -/
theorem staged_nodup_iff (s : State) : (staged s 256).Nodup ↔ TableBijective s.stg := by
  rw [staged, List.nodup_iff_injective_get]
  constructor
  · intro h i j hi hj e
    have hl : (readBytes s.stg 0 256).length = 256 := by simp
    have := @h ⟨i, by rw [hl]; exact hi⟩ ⟨j, by rw [hl]; exact hj⟩ (by
      simp only [List.get_eq_getElem, readBytes_getElem, Nat.zero_add, e])
    simpa using this
  · intro h i j e
    have hl : (readBytes s.stg 0 256).length = 256 := by simp
    simp only [List.get_eq_getElem, readBytes_getElem, Nat.zero_add] at e
    exact Fin.ext (h i.val j.val (by have := i.isLt; simpa [hl] using this) (by have := j.isLt; simpa [hl] using this) e)

end Sys2Proof.Machine
end

