-- ==== Sys2Proof/Laws/Rotor.lean ====
section
/-! SUPPORT. The laws of the rotor: the byte-wise addition and subtraction as numbers (41_rotor R155, R156), the window as the
number of its bits (20_memory R76, R78), the mirror and the buffer a construction leaves (41_rotor R152). -/

namespace Sys2Proof.Machine

/-! ### Addition and subtraction -/

theorem addCarry_length {b w : List Byte} (h : b.length = w.length) (c : Nat) : (addCarry b w c).length = b.length := by
  induction b generalizing w c with
  | nil => rfl
  | cons x t ih =>
    cases w with
    | nil => simp at h
    | cons y u => simp [addCarry, ih (by simpa using h)]

theorem subBorrow_length {b w : List Byte} (h : b.length = w.length) (c : Nat) : (subBorrow b w c).length = b.length := by
  induction b generalizing w c with
  | nil => rfl
  | cons x t ih =>
    cases w with
    | nil => simp at h
    | cons y u => simp [subBorrow, ih (by simpa using h)]

/-- The addition law (41_rotor R155), with a carry in and the carry out kept. -/
theorem leNat_addCarry {b w : List Byte} (h : b.length = w.length) (c : Nat) :
    ∃ k, leNat b + leNat w + c = leNat (addCarry b w c) + 256 ^ b.length * k := by
  induction b generalizing w c with
  | nil =>
    cases w with
    | nil => exact ⟨c, by simp [leNat, addCarry]⟩
    | cons y u => simp at h
  | cons x t ih =>
    cases w with
    | nil => simp at h
    | cons y u =>
      obtain ⟨k, hk⟩ := ih (w := u) (by simpa using h) ((x.toNat + y.toNat + c) / 256)
      refine ⟨k, ?_⟩
      simp only [addCarry, leNat, BitVec.toNat_ofNat, List.length_cons, Nat.pow_succ]
      have hd := Nat.div_add_mod (x.toNat + y.toNat + c) 256
      have : 256 ^ t.length * 256 * k = 256 * (256 ^ t.length * k) := by ring
      rw [this]
      omega

/-- The addition law (41_rotor R155): the sum modulo `2^(8n)`. -/
theorem leNat_addCarry_mod {b w : List Byte} (h : b.length = w.length) :
    leNat (addCarry b w 0) = (leNat b + leNat w) % 256 ^ b.length := by
  obtain ⟨k, hk⟩ := leNat_addCarry h 0
  have hlt := leNat_lt (addCarry b w 0)
  rw [addCarry_length h] at hlt
  rw [show leNat b + leNat w = leNat (addCarry b w 0) + 256 ^ b.length * k by omega, Nat.add_mul_mod_self_left,
    Nat.mod_eq_of_lt hlt]

/-- The subtraction law (41_rotor R156), with a borrow in and the borrow out kept. -/
theorem leNat_subBorrow {b w : List Byte} (h : b.length = w.length) (c : Nat) (hc : c ≤ 1) :
    ∃ k : Int, (leNat b : Int) - leNat w - c = leNat (subBorrow b w c) + 256 ^ b.length * k := by
  induction b generalizing w c with
  | nil =>
    cases w with
    | nil => exact ⟨-c, by simp [leNat, subBorrow]⟩
    | cons y u => simp at h
  | cons x t ih =>
    cases w with
    | nil => simp at h
    | cons y u =>
      have hx := x.isLt
      have hy := y.isLt
      by_cases hd : (x.toNat : Int) - (y.toNat : Int) - (c : Int) < 0
      · obtain ⟨k, hk⟩ := ih (w := u) (by simpa using h) 1 (Nat.le_refl 1)
        refine ⟨k, ?_⟩
        simp only [subBorrow, leNat, if_pos hd, BitVec.toNat_ofInt, List.length_cons, pow_succ]
        have hm : (256 : Int) ^ t.length * 256 * k = 256 * (256 ^ t.length * k) := by ring
        rw [hm]
        push_cast
        omega
      · obtain ⟨k, hk⟩ := ih (w := u) (by simpa using h) 0 (Nat.zero_le 1)
        refine ⟨k, ?_⟩
        simp only [subBorrow, leNat, if_neg hd, BitVec.toNat_ofInt, List.length_cons, pow_succ]
        have hm : (256 : Int) ^ t.length * 256 * k = 256 * (256 ^ t.length * k) := by ring
        rw [hm]
        push_cast
        omega

/-- The subtraction law (41_rotor R156): the difference modulo `2^(8n)`. -/
theorem leNat_subBorrow_mod {b w : List Byte} (h : b.length = w.length) :
    (leNat (subBorrow b w 0) : Int) = ((leNat b : Int) - leNat w) % 256 ^ b.length := by
  obtain ⟨k, hk⟩ := leNat_subBorrow h 0 (Nat.zero_le 1)
  have hlt := leNat_lt (subBorrow b w 0)
  rw [subBorrow_length h] at hlt
  have hlt' : (leNat (subBorrow b w 0) : Int) < 256 ^ b.length := by exact_mod_cast hlt
  rw [show (leNat b : Int) - leNat w = leNat (subBorrow b w 0) + 256 ^ b.length * k by simpa using hk,
    Int.add_mul_emod_self_left, Int.emod_eq_of_lt (by positivity) hlt']

/-- Subtracting what was added gives the block back (41_rotor R157). -/
theorem subBorrow_addCarry {b w : List Byte} (h : b.length = w.length) : subBorrow (addCarry b w 0) w 0 = b := by
  have hl := addCarry_length h 0
  have hl' : (addCarry b w 0).length = w.length := hl.trans h
  refine leNat_inj ((subBorrow_length hl' 0).trans hl) ?_
  have h1 := leNat_subBorrow_mod hl'
  have hlt := leNat_lt b
  have hlt' : (leNat b : Int) < 256 ^ b.length := by exact_mod_cast hlt
  rw [hl, leNat_addCarry_mod h] at h1
  push_cast at h1
  rw [Int.emod_sub_emod, add_sub_cancel_right, Int.emod_eq_of_lt (by positivity) hlt'] at h1
  exact_mod_cast h1

/-- Adding what was subtracted gives the block back (41_rotor R157). -/
theorem addCarry_subBorrow {b w : List Byte} (h : b.length = w.length) : addCarry (subBorrow b w 0) w 0 = b := by
  have hl := subBorrow_length h 0
  have hl' : (subBorrow b w 0).length = w.length := hl.trans h
  refine leNat_inj ((addCarry_length hl' 0).trans hl) ?_
  have h1 := leNat_addCarry_mod hl'
  have hlt := leNat_lt b
  have hlt' : (leNat b : Int) < 256 ^ b.length := by exact_mod_cast hlt
  have h2 : (leNat (addCarry (subBorrow b w 0) w 0) : Int) = leNat b := by
    rw [h1, hl]
    push_cast
    rw [leNat_subBorrow_mod h, Int.emod_add_emod, sub_add_cancel, Int.emod_eq_of_lt (by positivity) hlt']
  exact_mod_cast h2

/-! ### The window -/

@[simp] theorem window_length (r : Rotor) (n : Nat) : (window r n).length = n := by simp [window]

theorem windowByte_toNat (m : Mem) (i : Nat) :
    (windowByte m i).toNat = ∑ j ∈ Finset.range 8, 2 ^ j * (bufBit m (i + j)).toNat := by
  simp only [windowByte, List.range, List.range.loop, List.map, List.sum_cons, List.sum_nil, Finset.sum_range_succ,
    Finset.sum_range_zero, BitVec.toNat_ofNat]
  have hb : ∀ b : Bool, b.toNat ≤ 1 := Bool.toNat_le
  have h0 := hb (bufBit m (i + 0))
  have h1 := hb (bufBit m (i + 1))
  have h2 := hb (bufBit m (i + 2))
  have h3 := hb (bufBit m (i + 3))
  have h4 := hb (bufBit m (i + 4))
  have h5 := hb (bufBit m (i + 5))
  have h6 := hb (bufBit m (i + 6))
  have h7 := hb (bufBit m (i + 7))
  omega

theorem leNat_append (a b : List Byte) : leNat (a ++ b) = leNat a + 256 ^ a.length * leNat b := by
  induction a with
  | nil => simp [leNat]
  | cons x t ih =>
    simp only [List.cons_append, leNat, ih, List.length_cons, Nat.pow_succ]
    ring

/-- The window as a number: its bits from `CURRENT` on (20_memory R76). -/
theorem leNat_window (r : Rotor) (n : Nat) :
    leNat (window r n) = ∑ j ∈ Finset.range (8 * n), 2 ^ j * (bufBit r.buf (r.current.toNat + j)).toNat := by
  induction n with
  | zero => simp [window, leNat]
  | succ n ih =>
    have hw : window r (n + 1) = window r n ++ [windowByte r.buf (r.current.toNat + 8 * n)] := by
      simp [window, List.range_succ]
    rw [hw, leNat_append, ih, window_length, show 8 * (n + 1) = 8 * n + 8 by ring, Finset.sum_range_add]
    congr 1
    simp only [leNat, Nat.mul_zero, Nat.add_zero, windowByte_toNat, Finset.mul_sum]
    refine Finset.sum_congr rfl fun j _ => ?_
    rw [show (256 : Nat) = 2 ^ 8 by norm_num, ← Nat.pow_mul, Nat.pow_add, Nat.add_assoc]
    ring

/-- The window is circular (20_memory R78). -/
theorem bufBit_circular {r : Rotor} (h : RotorGood r) {j : Nat} (hj : j < 256) :
    bufBit r.buf (r.current.toNat + j) = bufBit r.buf ((r.current.toNat + j) % r.size.toNat) := by
  have h1 := h.sizeMin
  have h2 := h.currentLt
  simp only [Config.sizeMin] at h1
  by_cases hlt : r.current.toNat + j < r.size.toNat
  · rw [Nat.mod_eq_of_lt hlt]
  · have h3 := h.mirrored (r.current.toNat + j - r.size.toNat) (by simp only [Config.mirrorBits]; omega)
    rw [Nat.add_sub_cancel' (Nat.le_of_not_lt hlt)] at h3
    rw [h3, Nat.mod_eq_sub_mod (Nat.le_of_not_lt hlt), Nat.mod_eq_of_lt (by omega)]

/-- The window of a good rotor is the number of its circular bits (20_memory R76, R78). -/
theorem leNat_window_of_good {r : Rotor} (h : RotorGood r) {n : Nat} (hn : n ≤ 32) :
    leNat (window r n) = windowNumber r n := by
  rw [leNat_window, windowNumber]
  refine Finset.sum_congr rfl fun j hj => ?_
  rw [bufBit_circular h (by have := Finset.mem_range.1 hj; omega)]

/-! ### Transforms -/

@[simp] theorem rotorF_length (r : Rotor) (b : List Byte) : (rotorF r b).2.length = b.length :=
  addCarry_length (by simp) 0

@[simp] theorem rotorG_length (r : Rotor) (b : List Byte) : (rotorG r b).2.length = b.length :=
  subBorrow_length (by simp) 0

/-- A step moves `CURRENT` and nothing else. -/
theorem advanceRotor_eq (r : Rotor) :
    advanceRotor r = { r with current := BitVec.ofNat 12 ((r.current.toNat + r.step.toNat) % r.size.toNat) } := rfl

/-- A value below the size fits the 12 bits of `CURRENT`. -/
theorem toNat_ofNat_mod_size (r : Rotor) (x : Nat) (h : 0 < r.size.toNat) :
    (BitVec.ofNat 12 (x % r.size.toNat)).toNat = x % r.size.toNat := by
  have h1 := r.size.isLt
  have h2 := Nat.mod_lt x h
  rw [BitVec.toNat_ofNat, Nat.mod_eq_of_lt (by omega)]

/-- A step keeps the rotor good (10_state R40). -/
theorem RotorGood.setCurrent {r : Rotor} (h : RotorGood r) {c : BitVec 12} (hc : c.toNat < r.size.toNat) :
    RotorGood { r with current := c } :=
  { sizeMin := h.sizeMin, startLt := h.startLt, stepPos := h.stepPos, stepLt := h.stepLt, currentLt := hc,
    mirrored := h.mirrored, padded := h.padded }

theorem RotorGood.sizePos {r : Rotor} (h : RotorGood r) : 0 < r.size.toNat :=
  Nat.lt_of_le_of_lt (Nat.zero_le _) h.startLt

theorem RotorGood.advance {r : Rotor} (h : RotorGood r) : RotorGood (advanceRotor r) :=
  h.setCurrent (by
    rw [toNat_ofNat_mod_size r _ h.sizePos]
    exact Nat.mod_lt _ h.sizePos)

/-- A seek that raises nothing gives a position below the size (41_rotor R158). -/
theorem rotorSeek_lt {r : Rotor} (h : RotorGood r) {idx : Nat} {c : BitVec 12} (hs : rotorSeek r idx = .ok c) :
    c.toNat < r.size.toNat := by
  unfold rotorSeek at hs
  split at hs
  · cases hs
    exact h.startLt
  · split at hs
    · cases hs
    · split at hs
      · cases hs
      · cases hs
        rw [toNat_ofNat_mod_size r _ h.sizePos]
        exact Nat.mod_lt _ h.sizePos

/-- The one formula behind a seek: index 0 is no exception on a good rotor (41_rotor R158 corner case (a)). -/
theorem rotorSeek_of_fits {r : Rotor} (h : RotorGood r) {idx : Nat} (hf : idx * r.step.toNat + r.start.toNat < 2 ^ 128) :
    rotorSeek r idx = .ok (BitVec.ofNat 12 ((idx * r.step.toNat + r.start.toNat) % r.size.toNat)) := by
  unfold rotorSeek
  by_cases h0 : idx = 0
  · rw [if_pos h0, h0, Nat.zero_mul, Nat.zero_add, Nat.mod_eq_of_lt h.startLt, BitVec.ofNat_toNat, BitVec.setWidth_eq]
  · rw [if_neg h0, if_neg (by simp only [Config.wideLimit]; omega), if_neg (by simp only [Config.wideLimit]; omega)]

/-! ### Construction -/

theorem foldl_putBit_wf {m : Mem} (h : Mem.wf m) (f : Nat → Nat) (g : Mem → Nat → Bool) (l : List Nat) :
    Mem.wf (l.foldl (fun m i => putBit m (f i) (g m i)) m) := by
  induction l generalizing m with
  | nil => exact h
  | cons i t ih => exact ih (putBit_wf h _ _)

theorem mirror_wf {m : Mem} (h : Mem.wf m) (size : Nat) : Mem.wf (mirror size m) :=
  foldl_putBit_wf h _ _ _

/-- The mirror after `n` of its copies. -/
theorem bufBit_mirror_prefix {m : Mem} (h : Mem.wf m) {size : Nat} (hs : 256 ≤ size) (n : Nat) (hn : n ≤ 256) (x : Nat) :
    bufBit ((List.range n).foldl (fun m i => putBit m (size + i) (bufBit m i)) m) x =
      if size ≤ x ∧ x < size + n then bufBit m (x - size) else bufBit m x := by
  induction n generalizing x with
  | zero =>
    have : ¬ (size ≤ x ∧ x < size + 0) := by omega
    rw [if_neg this]
    rfl
  | succ n ih =>
    rw [List.range_succ, List.foldl_append, List.foldl_cons, List.foldl_nil, bufBit_putBit (foldl_putBit_wf h _ _ _),
      ih (by omega) x, ih (by omega) n, if_neg (by omega : ¬ (size ≤ n ∧ n < size + n))]
    by_cases hx : x = size + n
    · subst hx
      rw [if_pos rfl, if_pos (by omega), Nat.add_sub_cancel_left]
    · rw [if_neg hx]
      by_cases hin : size ≤ x ∧ x < size + n
      · rw [if_pos hin, if_pos (by omega)]
      · rw [if_neg hin, if_neg (by omega)]

/-- Every bit after the mirror was written (41_rotor R152). -/
theorem bufBit_mirror {m : Mem} (h : Mem.wf m) {size : Nat} (hs : 256 ≤ size) (x : Nat) :
    bufBit (mirror size m) x = if size ≤ x ∧ x < size + 256 then bufBit m (x - size) else bufBit m x :=
  bufBit_mirror_prefix h hs 256 (Nat.le_refl 256) x

theorem dataBytes_bound {size : Nat} : size ≤ 8 * dataBytes size ∧ 8 * dataBytes size ≤ size + 7 := by
  simp only [dataBytes]
  omega

@[simp] theorem staged_length (s : State) (n : Nat) : (staged s n).length = n := by simp [staged]

theorem rotorBuffer_wf {old : Mem} (h : Mem.wf old) (size : Nat) (data : List Byte) : Mem.wf (rotorBuffer old size data) :=
  mirror_wf (writeBytes_wf (writeBytes_wf h _ _) _ _) _

/-- One byte of the buffer before the mirror is written: data, then 32 zero bytes, then what stood there. -/
theorem readByte_before_mirror {old : Mem} (h : Mem.wf old) {size : Nat} {data : List Byte}
    (hl : data.length = dataBytes size) (a : Nat) :
    readByte (writeBytes (writeBytes old 0 data) (dataBytes size) (List.replicate Config.padBytes 0#8)) a =
      if a < dataBytes size then data.getD a 0#8
      else if a < dataBytes size + 32 then 0#8
      else readByte old a := by
  rw [readByte_writeBytes (writeBytes_wf h _ _), readByte_writeBytes h, List.length_replicate, hl]
  by_cases h1 : a < dataBytes size
  · rw [if_neg (by omega), if_pos (by omega), if_pos h1, Nat.sub_zero]
  · rw [if_neg h1]
    by_cases h2 : a < dataBytes size + 32
    · rw [if_pos ⟨Nat.le_of_not_lt h1, h2⟩, if_pos h2, List.getD_eq_getElem?_getD, List.getElem?_replicate]
      split <;> rfl
    · rw [if_neg (fun hh => h2 hh.2), if_neg (by omega), if_neg h2]

/-- Every bit of a constructed buffer (41_rotor R152): data below `SIZE`, the mirror, zero padding. -/
theorem bufBit_rotorBuffer {old : Mem} (h : Mem.wf old) {size : Nat} (hs : 256 ≤ size) {data : List Byte}
    (hl : data.length = dataBytes size) (x : Nat) (hx : x < 8 * (dataBytes size + 32)) :
    bufBit (rotorBuffer old size data) x =
      if x < size then blockBit data x
      else if x < size + 256 then blockBit data (x - size)
      else false := by
  have hb := @dataBytes_bound size
  rw [rotorBuffer, bufBit_mirror (writeBytes_wf (writeBytes_wf h _ _) _ _) hs]
  simp only [bufBit, readByte_before_mirror h hl]
  by_cases h1 : x < size
  · rw [if_neg (by omega), if_pos h1, if_pos (by omega)]
    rfl
  · rw [if_neg h1]
    by_cases h2 : x < size + 256
    · rw [if_pos ⟨Nat.le_of_not_lt h1, h2⟩, if_pos h2, if_pos (by omega)]
      rfl
    · rw [if_neg (fun hh => h2 hh.2), if_neg h2, if_neg (by omega), if_pos (by omega)]
      simp

/-- The bytes above the buffer in use keep what they held (20_memory R71). -/
theorem readByte_rotorBuffer_above {old : Mem} (h : Mem.wf old) {size : Nat} (hs : 256 ≤ size) {data : List Byte}
    (hl : data.length = dataBytes size) {a : Nat} (ha : dataBytes size + 32 ≤ a) :
    readByte (rotorBuffer old size data) a = readByte old a := by
  have hb := @dataBytes_bound size
  refine byte_ext fun j hj => ?_
  have h1 := bufBit_mirror (writeBytes_wf (writeBytes_wf h 0 data) (dataBytes size) (List.replicate Config.padBytes 0#8))
    hs (8 * a + j)
  rw [if_neg (by omega)] at h1
  have h2 : ∀ m : Mem, bufBit m (8 * a + j) = (readByte m a).getLsbD j := fun m => by
    rw [bufBit, show (8 * a + j) / 8 = a by omega, show (8 * a + j) % 8 = j by omega]
  rw [h2, h2, readByte_before_mirror h hl, if_neg (by omega), if_neg (by omega)] at h1
  exact h1

/-- The unit a construction leaves is good (10_state R40, 41_rotor R152). -/
theorem builtRotor_good {old : Rotor} (h : Mem.wf old.buf) {size start step : Nat}
    (hp : rotorParamsOk size start step = true) {data : List Byte} (hl : data.length = dataBytes size) :
    RotorGood (builtRotor old size start step data) := by
  simp only [rotorParamsOk, Config.sizeMin, Config.sizeMax, decide_eq_true_eq] at hp
  obtain ⟨h1, h2, h3, h4, h5⟩ := hp
  have hb := @dataBytes_bound size
  have e1 : (BitVec.ofNat 12 size).toNat = size := by rw [BitVec.toNat_ofNat, Nat.mod_eq_of_lt (by omega)]
  have e2 : (BitVec.ofNat 12 start).toNat = start := by rw [BitVec.toNat_ofNat, Nat.mod_eq_of_lt (by omega)]
  have e3 : (BitVec.ofNat 12 step).toNat = step := by rw [BitVec.toNat_ofNat, Nat.mod_eq_of_lt (by omega)]
  constructor
  · simpa [builtRotor, e1] using h1
  · simpa [builtRotor, e1, e2] using h3
  · simp only [builtRotor, e3]
    omega
  · simpa [builtRotor, e1, e3] using h5
  · simpa [builtRotor, e1, e2] using h3
  · intro i hi
    simp only [Config.mirrorBits] at hi
    simp only [builtRotor, e1]
    rw [bufBit_rotorBuffer h h1 hl _ (by omega), bufBit_rotorBuffer h h1 hl _ (by omega), if_neg (by omega),
      if_pos (by omega), if_pos (by omega), Nat.add_sub_cancel_left]
  · intro i hi1 hi2
    simp only [builtRotor, e1, Config.mirrorBits, Config.padBytes] at hi1 hi2 ⊢
    rw [bufBit_rotorBuffer h h1 hl _ hi2, if_neg (by omega), if_neg (by omega)]

theorem foldl_putBit_within {n : Nat} {m : Mem} (h : Mem.within n m) {f : Nat → Nat} {g : Mem → Nat → Bool} {l : List Nat}
    (hf : ∀ i ∈ l, f i / 8 < n) : Mem.within n (l.foldl (fun m i => putBit m (f i) (g m i)) m) := by
  induction l generalizing m with
  | nil => exact h
  | cons i t ih => exact ih (putBit_within h (hf i (by simp)) _) fun j hj => hf j (by simp [hj])

/-- A constructed buffer stays inside its 544 bytes (20_memory R70, R71). -/
theorem rotorBuffer_within {old : Mem} (h : Mem.within 544 old) {size : Nat} (hs : 256 ≤ size ∧ size ≤ 4095)
    {data : List Byte} (hl : data.length = dataBytes size) : Mem.within 544 (rotorBuffer old size data) := by
  have hb := @dataBytes_bound size
  refine foldl_putBit_within (writeBytes_within (writeBytes_within h ?_) ?_) ?_
  · rw [hl]
    omega
  · rw [List.length_replicate]
    simp only [Config.padBytes]
    omega
  · intro i hi
    have := List.mem_range.1 hi
    simp only [Config.mirrorBits] at this
    omega

end Sys2Proof.Machine
end

