-- ==== Sys2Proof/Laws/Turns.lean ====
section
/-! SUPPORT. What one step of the machine can do: one inversion lemma for the transforms, for a worker's turn, for each host action
and for the step itself (46_pipeline R304 to R314, 70_reset R390, R410). -/

namespace Sys2Proof.Machine

/-! ### Transforms (46_pipeline R304) -/

/-- What an F transform that raises nothing does: it moves its unit and answers a block. -/
theorem unitTransformF_ok {u : UnitId} {s t : State} {b r : List Byte} (h : unitTransformF u s b = .ok (t, r)) :
    (∃ k, u = .rotor k ∧ t = setRotor k (rotorF (rotor s k) b).1 s ∧ r = (rotorF (rotor s k) b).2) ∨
    (∃ k, u = .perm k ∧ t = setPerm k (permF (perm s k) b).1 s ∧ r = (permF (perm s k) b).2) ∨
    (u = .counter ∧ s.idx.toNat ≠ 2 ^ 128 - 1 ∧ t = { s with idx := BitVec.ofNat 128 (s.idx.toNat + 1) } ∧ r = b) := by
  cases u with
  | rotor k =>
    cases h
    exact .inl ⟨k, rfl, rfl, rfl⟩
  | perm k =>
    cases h
    exact .inr (.inl ⟨k, rfl, rfl, rfl⟩)
  | counter =>
    obtain ⟨h1, h2, h3⟩ := counterTransformF_ok h
    exact .inr (.inr ⟨rfl, h1, h2, h3⟩)

/-- What a G transform does; it raises nothing. -/
theorem unitTransformG_ok {u : UnitId} {s t : State} {b r : List Byte} (h : unitTransformG u s b = .ok (t, r)) :
    (∃ k, u = .rotor k ∧ t = setRotor k (rotorG (rotor s k) b).1 s ∧ r = (rotorG (rotor s k) b).2) ∨
    (∃ k, u = .perm k ∧ t = setPerm k (permG (perm s k) b).1 s ∧ r = (permG (perm s k) b).2) ∨
    (u = .counter ∧ t = s ∧ r = b) := by
  cases u with
  | rotor k =>
    cases h
    exact .inl ⟨k, rfl, rfl, rfl⟩
  | perm k =>
    cases h
    exact .inr (.inl ⟨k, rfl, rfl, rfl⟩)
  | counter =>
    cases h
    exact .inr (.inr ⟨rfl, rfl, rfl⟩)

/-- The one fault of a transform (46_pipeline R307). -/
theorem unitTransformF_error {u : UnitId} {s : State} {b : List Byte} {e : Trap} (h : unitTransformF u s b = .error e) :
    u = .counter ∧ s.idx.toNat = 2 ^ 128 - 1 ∧ e = ⟨.wcIncOverflow, 8#4⟩ := by
  cases u with
  | rotor k => cases h
  | perm k => cases h
  | counter =>
    have h' : counterTransformF s b = .error e := h
    unfold counterTransformF wideInc at h'
    by_cases hm : s.idx.toNat = Config.wideLimit - 1
    · rw [if_pos hm] at h'
      cases h'
      exact ⟨rfl, hm, rfl⟩
    · rw [if_neg hm] at h'
      cases h'

theorem unitTransformG_error {u : UnitId} {s : State} {b : List Byte} {e : Trap} (h : unitTransformG u s b = .error e) :
    False := by
  cases u <;> cases h

/-- A block keeps its length (40_bitvector R131). -/
theorem unitTransformF_length {u : UnitId} {s t : State} {b r : List Byte} (h : unitTransformF u s b = .ok (t, r)) :
    r.length = b.length := by
  rcases unitTransformF_ok h with ⟨k, -, -, rfl⟩ | ⟨k, -, -, rfl⟩ | ⟨-, -, -, rfl⟩
  · simp
  · simp
  · rfl

theorem unitTransformG_length {u : UnitId} {s t : State} {b r : List Byte} (h : unitTransformG u s b = .ok (t, r)) :
    r.length = b.length := by
  rcases unitTransformG_ok h with ⟨k, -, -, rfl⟩ | ⟨k, -, -, rfl⟩ | ⟨-, -, rfl⟩
  · simp
  · simp
  · rfl

/-- Unit `u` was moved from `s` to `t` by one transform of a block, and nothing else was touched. -/
inductive Moved (u : UnitId) (b : List Byte) (s : State) : State → Prop where
  | rotorF (k : Fin 6) : u = .rotor k → Moved u b s (setRotor k (rotorF (rotor s k) b).1 s)
  | rotorG (k : Fin 6) : u = .rotor k → Moved u b s (setRotor k (rotorG (rotor s k) b).1 s)
  | permF (k : Fin 2) : u = .perm k → Moved u b s (setPerm k (permF (perm s k) b).1 s)
  | permG (k : Fin 2) : u = .perm k → Moved u b s (setPerm k (permG (perm s k) b).1 s)
  | counterF : u = .counter → s.idx.toNat ≠ 2 ^ 128 - 1 →
      Moved u b s { s with idx := BitVec.ofNat 128 (s.idx.toNat + 1) }
  | counterG : u = .counter → Moved u b s s

theorem moved_of_F {u : UnitId} {s t : State} {b r : List Byte} (h : unitTransformF u s b = .ok (t, r)) :
    Moved u b s t := by
  rcases unitTransformF_ok h with ⟨k, hu, rfl, -⟩ | ⟨k, hu, rfl, -⟩ | ⟨hu, hi, rfl, -⟩
  · exact .rotorF k hu
  · exact .permF k hu
  · exact .counterF hu hi

theorem moved_of_G {u : UnitId} {s t : State} {b r : List Byte} (h : unitTransformG u s b = .ok (t, r)) :
    Moved u b s t := by
  rcases unitTransformG_ok h with ⟨k, hu, rfl, -⟩ | ⟨k, hu, rfl, -⟩ | ⟨hu, rfl, -⟩
  · exact .rotorG k hu
  · exact .permG k hu
  · exact .counterG hu

/-! ### A worker's turn (46_pipeline R307 to R309) -/

/-- A worker's transform that raises nothing: its unit was moved, or an undefined unit is free again, and the block handed on is
that of the transform or, while the unit is marked, undefined data of the same length. -/
theorem workerTransform_ok {p : Fin 9} {s t : State} {b r : List Byte} (h : workerTransform p s b = some (.ok (t, r))) :
    ∃ u t' r', unitOfCode s.binding[p] = some u ∧
      ((s.loose[unitIndex u] = true ∧ t' = scramble u s) ∨ (s.loose[unitIndex u] = false ∧ Moved u b s t')) ∧
      r'.length = b.length ∧ (t, r) = blockOut u t' r' := by
  unfold workerTransform at h
  split at h
  · rename_i u hu hd
    rcases transformBlock_ok (Option.some.inj h) with ⟨hl, hx⟩ | ⟨hl, t', r', hf, hx⟩
    · exact ⟨u, _, _, hu, .inl ⟨hl, rfl⟩, rfl, hx⟩
    · exact ⟨u, t', r', hu, .inr ⟨hl, moved_of_F hf⟩, unitTransformF_length hf, hx⟩
  · rename_i u hu hd
    rcases transformBlock_ok (Option.some.inj h) with ⟨hl, hx⟩ | ⟨hl, t', r', hf, hx⟩
    · exact ⟨u, _, _, hu, .inl ⟨hl, rfl⟩, rfl, hx⟩
    · exact ⟨u, t', r', hu, .inr ⟨hl, moved_of_G hf⟩, unitTransformG_length hf, hx⟩
  · cases h
  · cases h

/-- The one fault a worker can raise (46_pipeline R307): it comes from a defined counter. -/
theorem workerTransform_error {p : Fin 9} {s : State} {b : List Byte} {e : Trap}
    (h : workerTransform p s b = some (.error e)) :
    unitOfCode s.binding[p] = some .counter ∧ s.bdir = .encrypt ∧ s.idx.toNat = 2 ^ 128 - 1 ∧
      s.loose[unitIndex .counter] = false ∧ e = ⟨.wcIncOverflow, 8#4⟩ := by
  unfold workerTransform at h
  split at h
  · rename_i u hu hd
    obtain ⟨hl, hf⟩ := transformBlock_error (Option.some.inj h)
    obtain ⟨rfl, hi, rfl⟩ := unitTransformF_error hf
    exact ⟨hu, hd, hi, hl, rfl⟩
  · rename_i u hu hd
    exact (unitTransformG_error (transformBlock_error (Option.some.inj h)).2).elim
  · cases h
  · cases h

/-- Everything a worker's turn can do. -/
theorem workerTurn_cases {p : Fin 9} {s t : State} (h : workerTurn p s = .next t) :
    (receiveEnabled s p = false ∧ sendEnabled s p = false ∧ t = s) ∨
    (receiveEnabled s p = true ∧ (slot s (leftSlot p)).len = 0#6 ∧ t = takeBlock p [] true s) ∨
    (receiveEnabled s p = true ∧ (slot s (leftSlot p)).len ≠ 0#6 ∧
      ∃ e, workerTransform p s (slotBlock (slot s (leftSlot p))) = some (.error e) ∧ t = workerFault p e s) ∨
    (receiveEnabled s p = true ∧ (slot s (leftSlot p)).len ≠ 0#6 ∧
      ∃ t' r, workerTransform p s (slotBlock (slot s (leftSlot p))) = some (.ok (t', r)) ∧
        t = takeBlock p r false t') ∨
    (receiveEnabled s p = false ∧ sendEnabled s p = true ∧ t = workerSend p s) := by
  unfold workerTurn at h
  cases hr : receiveEnabled s p with
  | true =>
    rw [if_pos hr] at h
    unfold workerReceive at h
    dsimp only at h
    by_cases hl : (slot s (leftSlot p)).len = 0#6
    · rw [if_pos hl] at h
      cases h
      exact .inr (.inl ⟨rfl, hl, rfl⟩)
    · rw [if_neg hl] at h
      split at h
      · cases h
      · rename_i e he
        cases h
        exact .inr (.inr (.inl ⟨rfl, hl, e, he, rfl⟩))
      · rename_i t' r ht
        cases h
        exact .inr (.inr (.inr (.inl ⟨rfl, hl, t', r, ht, rfl⟩)))
  | false =>
    rw [if_neg (by simp [hr])] at h
    cases hs : sendEnabled s p with
    | true =>
      rw [if_pos hs] at h
      cases h
      exact .inr (.inr (.inr (.inr ⟨rfl, rfl, rfl⟩)))
    | false =>
      rw [if_neg (by simp [hs])] at h
      cases h
      exact .inl ⟨rfl, rfl, rfl⟩

/-- A worker whose binding names a unit, in a pipeline with a direction, answers a next state. -/
theorem workerTurn_answers {p : Fin 9} {s : State} (hb : (unitOfCode s.binding[p]).isSome = true) (hd : s.bdir ≠ .none) :
    ∃ t, workerTurn p s = .next t := by
  obtain ⟨u, hu⟩ := Option.isSome_iff_exists.1 hb
  obtain ⟨x, hx⟩ : ∃ x, workerTransform p s (slotBlock (slot s (leftSlot p))) = some x := by
    unfold workerTransform
    rw [hu]
    cases h : s.bdir with
    | none => exact (hd h).elim
    | encrypt => exact ⟨_, rfl⟩
    | decrypt => exact ⟨_, rfl⟩
  unfold workerTurn
  split
  · unfold workerReceive
    dsimp only
    rw [hx]
    split
    · exact ⟨_, rfl⟩
    · rcases x with e | ⟨t, r⟩ <;> exact ⟨_, rfl⟩
  · split <;> exact ⟨_, rfl⟩

/-- What a worker's transform leaves alone. -/
theorem moved_keeps {u : UnitId} {b : List Byte} {s t : State} (h : Moved u b s t) :
    t.hostq = s.hostq ∧ t.sched = s.sched ∧ t.binding = s.binding ∧ t.bdir = s.bdir := by
  cases h <;> exact ⟨rfl, rfl, rfl, rfl⟩

/-- What a worker's turn leaves alone: the host's side, the coming turns and the built configuration. -/
theorem workerTurn_keeps {p : Fin 9} {s t : State} (h : workerTurn p s = .next t) :
    t.hostq = s.hostq ∧ t.sched = s.sched ∧ t.binding = s.binding ∧ t.bdir = s.bdir := by
  rcases workerTurn_cases h with ⟨-, -, rfl⟩ | ⟨-, -, rfl⟩ | ⟨-, -, e, -, rfl⟩ | ⟨-, -, t', r, ht, rfl⟩ | ⟨-, -, rfl⟩
  · exact ⟨rfl, rfl, rfl, rfl⟩
  · exact ⟨rfl, rfl, rfl, rfl⟩
  · unfold workerFault raiseFault
    split <;> exact ⟨rfl, rfl, rfl, rfl⟩
  · obtain ⟨u, x, r', -, hx, -, he⟩ := workerTransform_ok ht
    obtain ⟨rfl, rfl⟩ := Prod.mk.inj he
    have hk : x.hostq = s.hostq ∧ x.sched = s.sched ∧ x.binding = s.binding ∧ x.bdir = s.bdir := by
      rcases hx with ⟨-, rfl⟩ | ⟨-, hx⟩
      · exact ⟨by simp, by simp, by simp, by simp⟩
      · exact moved_keeps hx
    refine ⟨(blockOut_hostq u x r').trans hk.1, (blockOut_sched u x r').trans hk.2.1, (blockOut_binding u x r').trans hk.2.2.1,
      (blockOut_bdir u x r').trans hk.2.2.2⟩
  · exact ⟨rfl, rfl, rfl, rfl⟩

/-- The steps of a faulted block's workers are not enabled (60_exceptions R355). -/
theorem workerTurn_of_faulted {s : State} (h : s.faulted = true) (p : Fin 9) : workerTurn p s = .next s := by
  simp [workerTurn, receiveEnabled, sendEnabled, h]

/-! ### The host's turn -/

/-- A command word either runs as the command it decodes to or is an illegal command (30_encoding R103). -/
theorem runCommand_cases {w : Cmd} {s t : State} (h : runCommand w s = .next t) :
    (∃ e, decode w = .error e ∧
      t = raiseFault .executor ⟨.illegalCommand, e.unit⟩ 0#4 (w.setWidth 64) s) ∨
    (∃ i, decode w = .ok i ∧ exec i s = .next t) := by
  unfold runCommand at h
  split at h
  · rename_i e he
    cases h
    exact .inl ⟨e, he, rfl⟩
  · rename_i i hi
    exact .inr ⟨i, hi, h⟩

/-- What a register write that is no fault changes: one register the host may write. -/
theorem writeReg_frame {s t : State} {r : Reg} {v : Word} (h : writeReg s r v = some t) :
    t = { s with
      nst := t.nst, order := t.order, waccLo := t.waccLo, waccHi := t.waccHi, wop := t.wop, wstrLen := t.wstrLen,
      wstr := t.wstr, blk := t.blk, blkLen := t.blkLen, psize := t.psize, pstart := t.pstart, pstep := t.pstep,
      plen := t.plen, stg := t.stg } := by
  cases r <;> cases h <;> rfl

/-- What a register write can do to the three byte buffers the host reaches. -/
theorem writeReg_buffers {s t : State} {r : Reg} {v : Word} (h : writeReg s r v = some t) :
    (t.wstr = s.wstr ∨ ∃ k : Fin 8, t.wstr = setWordAt s.wstr k.val v) ∧
    (t.blk = s.blk ∨ ∃ k : Fin 4, t.blk = setWordAt s.blk k.val v) ∧
    (t.stg = s.stg ∨ ∃ k : Fin 128, t.stg = setWordAt s.stg k.val v) := by
  cases r <;> cases h <;> refine ⟨?_, ?_, ?_⟩ <;> first | exact .inl rfl | exact .inr ⟨_, rfl⟩

/-- Everything a `WR` can do (60_exceptions R355, R367). -/
theorem hostWrite_cases (a : RegNum) (v : Word) (s : State) :
    (s.faulted = true ∧ hostWrite a v s = s) ∨
    (s.faulted = false ∧ ∃ r t, regOf a.toNat = some r ∧ writeReg s r v = some t ∧ hostWrite a v s = t) ∨
    (s.faulted = false ∧ hostWrite a v s = registerFault a s) := by
  unfold hostWrite
  cases hf : s.faulted with
  | true => exact .inl ⟨rfl, if_pos rfl⟩
  | false =>
    right
    cases hr : regOf a.toNat with
    | none => exact .inr ⟨rfl, rfl⟩
    | some r =>
      cases hw : writeReg s r v with
      | none => exact .inr ⟨rfl, by simp [hw]⟩
      | some t => exact .inl ⟨rfl, r, t, rfl, hw, by simp [hw]⟩

/-- Everything an `RD` can do (60_exceptions R355, R367). -/
theorem hostRead_cases (a : RegNum) (s : State) :
    (∃ r, regOf a.toNat = some r ∧ hostRead a s = { s with replies := s.replies ++ [.value (readReg s r)] }) ∨
    (regOf a.toNat = none ∧
      hostRead a s = registerFault a { s with replies := s.replies ++ [.value 0#64] }) := by
  unfold hostRead
  cases hr : regOf a.toNat with
  | none => exact .inr ⟨rfl, rfl⟩
  | some r => exact .inl ⟨r, rfl, rfl⟩

/-- Everything a host action that happens can do. -/
theorem performAction_cases {x : HostAction} {s t : State} (h : performAction x s = .next t) :
    (∃ a v, x = .wr a v ∧ t = hostWrite a v s) ∨
    (∃ a, x = .rd a ∧ t = hostRead a s) ∨
    (∃ w, x = .cmd w ∧ runCommand w s = .next t) ∨
    (∃ bytes, x = .push bytes ∧ bytes.length ≤ 32 ∧ t = pushBlock bytes s) ∨
    (∃ bytes, x = .push bytes ∧ 32 < bytes.length ∧ t = pushFault bytes s) ∨
    (∃ k, x = .pop ∧ outSlot s = some k ∧ t = popBlock k s) ∨
    (x = .pop ∧ outSlot s = none ∧ t = s) ∨
    (x = .reset ∧ t = resetBlock s) := by
  cases x with
  | wr a v =>
    cases h
    exact .inl ⟨a, v, rfl, rfl⟩
  | rd a =>
    cases h
    exact .inr (.inl ⟨a, rfl, rfl⟩)
  | cmd w => exact .inr (.inr (.inl ⟨w, rfl, h⟩))
  | push bytes =>
    simp only [performAction, Config.blockBytes] at h
    split at h
    · rename_i hb
      cases h
      exact .inr (.inr (.inr (.inl ⟨bytes, rfl, hb, rfl⟩)))
    · rename_i hb
      cases h
      exact .inr (.inr (.inr (.inr (.inl ⟨bytes, rfl, Nat.lt_of_not_le hb, rfl⟩))))
  | pop =>
    simp only [performAction] at h
    split at h
    · rename_i k hk
      cases h
      exact .inr (.inr (.inr (.inr (.inr (.inl ⟨k, rfl, hk, rfl⟩)))))
    · rename_i hk
      cases h
      exact .inr (.inr (.inr (.inr (.inr (.inr (.inl ⟨rfl, hk, rfl⟩))))))
  | reset =>
    cases h
    exact .inr (.inr (.inr (.inr (.inr (.inr (.inr ⟨rfl, rfl⟩))))))

/-- Every host action that happens answers a next state. -/
theorem performAction_answers (x : HostAction) (s : State) : ∃ t, performAction x s = .next t := by
  cases x with
  | wr a v => exact ⟨_, rfl⟩
  | rd a => exact ⟨_, rfl⟩
  | cmd w =>
    simp only [performAction, runCommand]
    split
    · exact ⟨_, rfl⟩
    · exact exec_answers _ _
  | push bytes =>
    simp only [performAction]
    split <;> exact ⟨_, rfl⟩
  | pop =>
    simp only [performAction]
    split <;> exact ⟨_, rfl⟩
  | reset => exact ⟨_, rfl⟩

/-- Everything a turn of the host can do. -/
theorem hostTurn_cases {s t : State} (h : hostTurn s = .next t) :
    t = s ∨ ∃ x rest, s.hostq = x :: rest ∧ actionBlocked s x = false ∧
      performAction x { s with hostq := rest } = .next t := by
  unfold hostTurn at h
  split at h
  · cases h
    exact .inl rfl
  · rename_i x rest hq
    split at h
    · cases h
      exact .inl rfl
    · rename_i hb
      exact .inr ⟨x, rest, hq, by simpa using hb, h⟩

/-- Everything a turn in which the host gives up a blocked port can do (70_reset R390). -/
theorem hostResetTurn_cases {s t : State} (h : hostResetTurn s = .next t) :
    t = s ∨ ∃ x rest, s.hostq = x :: .reset :: rest ∧ actionBlocked s x = true ∧
      t = resetBlock { s with hostq := rest } := by
  unfold hostResetTurn at h
  split at h
  · rename_i x rest hq
    split at h
    · rename_i hb
      cases h
      exact .inr ⟨x, rest, hq, hb, rfl⟩
    · cases h
      exact .inl rfl
  · cases h
    exact .inl rfl

/-! ### The step -/

/-- A round gives every worker a turn (70_reset R410). -/
theorem worker_mem_fairRound (picks : List Nat) (p : Fin 9) : .worker p ∈ fairRound picks := by
  by_cases h : .worker p ∈ picks.map turnOfPick
  · exact List.mem_append_left _ h
  · exact List.mem_append_right _ (by simpa using h)

/-- Everything drawing a round can do. -/
theorem drawRound_cases (s : State) :
    (s.sched ≠ [] ∧ drawRound s = s) ∨
    (s.sched = [] ∧ drawRound s = { s with sched := fairRound (Config.freePicks s.draws), draws := s.draws + 1 }) := by
  unfold drawRound
  split
  · rename_i h
    exact .inl ⟨by simp [h], rfl⟩
  · rename_i h
    exact .inr ⟨h, rfl⟩

/-- The first of the coming turns is the next one. -/
theorem nextTurn_of_sched {s : State} {turn : Turn} {turns : List Turn} (h : s.sched = turn :: turns) :
    nextTurn s = (turn, { s with sched := turns }) := by
  have : drawRound s = s := by simp only [drawRound, h]
  simp only [nextTurn, this, h]

/-- Where no turn is listed, the next one is the first of a free round. -/
theorem nextTurn_of_empty {s : State} (h : s.sched = []) :
    ∃ turn turns, fairRound (Config.freePicks s.draws) = turn :: turns ∧
      nextTurn s = (turn, { s with sched := turns, draws := s.draws + 1 }) := by
  have hd : drawRound s = { s with sched := fairRound (Config.freePicks s.draws), draws := s.draws + 1 } := by
    simp only [drawRound, h]
  match hr : fairRound (Config.freePicks s.draws) with
  | [] => exact absurd (worker_mem_fairRound (Config.freePicks s.draws) 0) (by simp [hr])
  | turn :: turns => exact ⟨turn, turns, rfl, by simp only [nextTurn, hd, hr]⟩

/-- Choosing the turn touches nothing but the schedule and the draws. -/
theorem nextTurn_frame (s : State) : ∃ d q, (nextTurn s).2 = { s with draws := d, sched := q } := by
  rcases hs : s.sched with _ | ⟨turn, turns⟩
  · obtain ⟨turn, turns, -, h⟩ := nextTurn_of_empty hs
    exact ⟨_, _, by rw [h]⟩
  · exact ⟨s.draws, _, by rw [nextTurn_of_sched hs]⟩

/-- Everything a step can do: a turn of a worker, of the host, or of the host giving up a blocked port. -/
theorem step_cases {s t : State} (h : step s = .next t) :
    ∃ d q, let s' : State := { s with draws := d, sched := q }
      (∃ p, workerTurn p s' = .next t) ∨ hostTurn s' = .next t ∨ hostResetTurn s' = .next t := by
  obtain ⟨d, q, e⟩ := nextTurn_frame s
  refine ⟨d, q, ?_⟩
  unfold step takeTurn at h
  rw [e] at h
  split at h
  · exact .inr (.inl h)
  · exact .inl ⟨_, h⟩
  · exact .inr (.inr h)

end Sys2Proof.Machine
end

