-- ==== Sys2Proof/Laws/Pipeline.lean ====
section
/-! SUPPORT. What each named operation does to the pipeline: the slots, the workers, the built configuration and the engine state
(10_state R49 to R53). -/

namespace Sys2Proof.Machine

/-- The two states have the same pipeline up to the data of the blocks in it, and no unit of the first is lost in the second. -/
structure SamePipeline (s t : State) : Prop where
  slotV : ∀ k, (slot t k).v = (slot s k).v
  slotLen : ∀ k, (slot t k).len = (slot s k).len
  st : ∀ p, (worker t p).st = (worker s p).st
  hlen : ∀ p, (worker t p).hlen = (worker s p).hlen
  last : ∀ p, (worker t p).last = (worker s p).last
  nb : t.nb = s.nb
  bdir : t.bdir = s.bdir
  binding : t.binding = s.binding
  closing : t.closing = s.closing
  estate : t.estate = s.estate
  valid : ∀ u, unitValid s u = true → unitValid t u = true

theorem SamePipeline.refl (s : State) : SamePipeline s s :=
  ⟨fun _ => rfl, fun _ => rfl, fun _ => rfl, fun _ => rfl, fun _ => rfl, rfl, rfl, rfl, rfl, rfl, fun _ h => h⟩

theorem SamePipeline.trans {s t v : State} (h : SamePipeline s t) (h' : SamePipeline t v) : SamePipeline s v :=
  ⟨fun k => (h'.slotV k).trans (h.slotV k), fun k => (h'.slotLen k).trans (h.slotLen k), fun p => (h'.st p).trans (h.st p),
    fun p => (h'.hlen p).trans (h.hlen p), fun p => (h'.last p).trans (h.last p), h'.nb.trans h.nb, h'.bdir.trans h.bdir,
    h'.binding.trans h.binding, h'.closing.trans h.closing, h'.estate.trans h.estate, fun u hu => h'.valid u (h.valid u hu)⟩

/-- An update that leaves the slots, the workers and the built configuration alone. -/
theorem SamePipeline.of_fields {s t : State} (h1 : t.slots = s.slots) (h2 : t.workers = s.workers) (h3 : t.nb = s.nb)
    (h4 : t.bdir = s.bdir) (h5 : t.binding = s.binding) (h6 : t.closing = s.closing) (h7 : t.estate = s.estate)
    (h8 : ∀ u, unitValid s u = true → unitValid t u = true) : SamePipeline s t := by
  have hs : ∀ k, slot t k = slot s k := fun k => by simp only [slot, h1]
  have hw : ∀ p, worker t p = worker s p := fun p => by simp only [worker, h2]
  exact ⟨fun k => by rw [hs], fun k => by rw [hs], fun p => by rw [hw], fun p => by rw [hw], fun p => by rw [hw], h3, h4, h5, h6,
    h7, h8⟩

/-- An update that leaves the pipeline's fields and the units alone. -/
theorem SamePipeline.of_eq {s t : State} (h1 : t.slots = s.slots) (h2 : t.workers = s.workers) (h3 : t.nb = s.nb)
    (h4 : t.bdir = s.bdir) (h5 : t.binding = s.binding) (h6 : t.closing = s.closing) (h7 : t.estate = s.estate)
    (h8 : t.rotors = s.rotors) (h9 : t.perms = s.perms) : SamePipeline s t := by
  refine .of_fields h1 h2 h3 h4 h5 h6 h7 fun u hu => ?_
  cases u <;> simp only [unitValid, rotor, perm, h8, h9] at hu ⊢ <;> exact hu

theorem unitValid_setRotor {k : Fin 6} {r : Rotor} {s : State} (h : (rotor s k).valid = true → r.valid = true) (u : UnitId)
    (hu : unitValid s u = true) : unitValid (setRotor k r s) u = true := by
  cases u with
  | rotor j =>
    simp only [unitValid, rotor_setRotor] at hu ⊢
    split
    · rename_i hj
      exact h (hj ▸ hu)
    · exact hu
  | perm j => exact hu
  | counter => rfl

theorem unitValid_setPerm {k : Fin 2} {p : Perm} {s : State} (h : (perm s k).valid = true → p.valid = true) (u : UnitId)
    (hu : unitValid s u = true) : unitValid (setPerm k p s) u = true := by
  cases u with
  | perm j =>
    simp only [unitValid, perm_setPerm] at hu ⊢
    split
    · rename_i hj
      exact h (hj ▸ hu)
    · exact hu
  | rotor j => exact hu
  | counter => rfl

theorem SamePipeline.setRotor {k : Fin 6} {r : Rotor} {s : State} (h : (rotor s k).valid = true → r.valid = true) :
    SamePipeline s (setRotor k r s) :=
  .of_fields rfl rfl rfl rfl rfl rfl rfl (unitValid_setRotor h)

theorem SamePipeline.setPerm {k : Fin 2} {p : Perm} {s : State} (h : (perm s k).valid = true → p.valid = true) :
    SamePipeline s (setPerm k p s) :=
  .of_fields rfl rfl rfl rfl rfl rfl rfl (unitValid_setPerm h)

theorem SamePipeline.scramble (u : UnitId) (s : State) : SamePipeline s (scramble u s) := by
  cases u with
  | rotor k => exact .of_fields rfl rfl rfl rfl rfl rfl rfl (unitValid_setRotor fun _ => rfl)
  | perm k => exact .of_fields rfl rfl rfl rfl rfl rfl rfl (unitValid_setPerm fun _ => rfl)
  | counter => exact .of_eq rfl rfl rfl rfl rfl rfl rfl rfl rfl

/-- A breach of R319 of 46_pipeline touches the data of the blocks in flight and the one unit, no more. -/
theorem SamePipeline.breach (u : UnitId) (s : State) : SamePipeline s (breach u s) where
  slotV k := by simp [slot_breach]
  slotLen k := by simp [slot_breach]
  st p := by simp [worker_breach]
  hlen p := by simp [worker_breach]
  last p := by simp [worker_breach]
  nb := by simp
  bdir := by simp
  binding := by simp
  closing := by simp
  estate := by simp
  valid v h := by
    have := (SamePipeline.scramble u s).valid v h
    cases v <;> exact this

theorem SamePipeline.mutated {s t : State} (h : SamePipeline s t) (b : State) (u : UnitId) :
    SamePipeline s (mutated b u t) := by
  unfold Machine.mutated
  split
  · exact h.trans (.breach u t)
  · split
    · exact h.trans (.scramble u t)
    · exact h

theorem SamePipeline.settle (b : State) (u : UnitId) (s : State) : SamePipeline s (settle b u s) :=
  .of_eq (by simp) (by simp) (by simp) (by simp) (by simp) (by simp) (by simp) (by simp) (by simp)

theorem SamePipeline.renewed {s t : State} (h : SamePipeline s t) (b : State) (u : UnitId) :
    SamePipeline s (renewed b u t) := by
  unfold Machine.renewed
  split
  · exact h.trans (.breach u t)
  · exact h.trans (.settle b u t)

theorem SamePipeline.blockOut {s t : State} (h : SamePipeline s t) (u : UnitId) (r : List Byte) :
    SamePipeline s (blockOut u t r).1 :=
  h.trans (.of_eq (by simp) (by simp) (by simp) (by simp) (by simp) (by simp) (by simp) (by simp) (by simp))

theorem SamePipeline.moved {u : UnitId} {b : List Byte} {s t : State} (h : Moved u b s t) : SamePipeline s t := by
  cases h with
  | rotorF k _ => exact .setRotor fun h => h
  | rotorG k _ => exact .setRotor fun h => h
  | permF k _ => exact .setPerm fun h => h
  | permG k _ => exact .setPerm fun h => h
  | counterF _ _ => exact .of_eq rfl rfl rfl rfl rfl rfl rfl rfl rfl
  | counterG _ => exact .refl s

theorem SamePipeline.commandFaulted (i : Instr) (c : Cause) (u : UnitCode) (s : State) :
    SamePipeline s (commandFaulted i c u s) := .of_eq rfl rfl rfl rfl rfl rfl rfl rfl rfl

theorem SamePipeline.raiseFault (src : Source) (e : Trap) (w : BitVec 4) (i : Word) (s : State) :
    SamePipeline s (raiseFault src e w i s) := by
  unfold Machine.raiseFault
  split
  · exact .refl s
  · exact .of_eq rfl rfl rfl rfl rfl rfl rfl rfl rfl

theorem SamePipeline.stopped {i : Instr} {s t : State} (h : Stopped i s t) : SamePipeline s t := by
  rcases h with ⟨-, rfl⟩ | ⟨-, c, u, rfl⟩
  · exact .refl _
  · exact .commandFaulted i c u s

theorem SamePipeline.constructRotor {k : Fin 6} {s t : State} (h : constructRotor k s = .ok t) : SamePipeline s t := by
  obtain ⟨-, rfl⟩ := constructRotor_ok h
  exact SamePipeline.renewed (.setRotor fun _ => rfl) s _

theorem SamePipeline.constructPerm {k : Fin 2} {s t : State} (h : constructPerm k s = .ok t) : SamePipeline s t := by
  obtain ⟨-, rfl⟩ := constructPerm_ok h
  exact SamePipeline.renewed (.setPerm fun _ => rfl) s _

theorem SamePipeline.directTransform {u : UnitId} {s t : State} {f : State → List Byte → Except Trap (State × List Byte)}
    (h : directTransform u s f = .ok t) (hf : ∀ b t r, f s b = .ok (t, r) → SamePipeline s t) : SamePipeline s t := by
  obtain ⟨-, t', r, h1, rfl⟩ := directTransform_ok h
  have h2 : SamePipeline s t' := by
    cases h1 with
    | breached _ => exact .breach u s
    | undefined _ _ => exact .scramble u s
    | ran _ h1 => exact hf _ _ _ h1
  exact (h2.blockOut u r).trans (.of_eq rfl rfl rfl rfl rfl rfl rfl rfl rfl)

theorem SamePipeline.seekRotor {k : Fin 6} {s t : State} (h : seekRotor k s = .ok t) : SamePipeline s t := by
  rcases seekRotor_ok h with ⟨c, -, rfl⟩ | ⟨-, -, rfl⟩
  · exact .setRotor fun h => h
  · exact .refl _

theorem SamePipeline.seekUnit {u : UnitId} {s t : State} (h : seekUnit u s = .ok t) : SamePipeline s t := by
  cases u with
  | rotor k => exact .seekRotor h
  | perm k =>
    cases h
    exact .setPerm fun h => h
  | counter =>
    cases h
    exact .of_eq rfl rfl rfl rfl rfl rfl rfl rfl rfl

theorem SamePipeline.seekAll {before s t : State} {ids : List UnitId} (h : seekAll before s ids = .ok t) :
    SamePipeline s t := by
  induction ids generalizing s with
  | nil =>
    cases h
    exact .refl _
  | cons u rest ih =>
    unfold Machine.seekAll at h
    split at h
    · cases h
    · rename_i t' ht
      exact ((SamePipeline.seekUnit ht).renewed before u).trans (ih h)

theorem SamePipeline.passBlock (s : State) : SamePipeline s (passBlock s) := by
  unfold Machine.passBlock
  split
  · exact .of_eq rfl rfl rfl rfl rfl rfl rfl rfl rfl
  · exact .refl s

theorem SamePipeline.setIdx (v : BitVec 128) (s : State) : SamePipeline s { s with idx := v } :=
  .of_eq rfl rfl rfl rfl rfl rfl rfl rfl rfl

theorem SamePipeline.setWacc (v : Nat) (s : State) : SamePipeline s (setWacc v s) :=
  .of_eq rfl rfl rfl rfl rfl rfl rfl rfl rfl

theorem SamePipeline.setUntracked (b : Bool) (s : State) : SamePipeline s (setUntracked b s) :=
  .of_eq rfl rfl rfl rfl rfl rfl rfl rfl rfl

/-- What a command can do to the pipeline: only ENG.INIT and ENG.BUILD touch it (10_state R53). -/
theorem exec_pipeline {i : Instr} {s t : State} (h : exec i s = .next t) :
    SamePipeline s t ∨
    (i = .engInit ∧ s.faulted = false ∧ s.estate = .created ∧ t = { s with estate := .initialized }) ∨
    (i = .engBuild ∧ s.faulted = false ∧ (s.estate = .initialized ∨ s.estate = .closed) ∧ s.nst ≠ 0#4 ∧
      (∃ ids, checkOrder s = .ok ids) ∧ s.dir ≠ .none ∧ t = buildPipeline s) := by
  have scalar : ∀ {t : State}, t.slots = s.slots → t.workers = s.workers → t.nb = s.nb → t.bdir = s.bdir →
      t.binding = s.binding → t.closing = s.closing → t.estate = s.estate → t.rotors = s.rotors → t.perms = s.perms →
      SamePipeline s t := fun h1 h2 h3 h4 h5 h6 h7 h8 h9 => .of_eq h1 h2 h3 h4 h5 h6 h7 h8 h9
  cases i with
  | nop => rcases execNop_inv h with h | ⟨-, rfl⟩ <;> first | exact .inl (.stopped h) | exact .inl (.refl _)
  | engInit => exact (execEngInit_inv h).elim (fun h => .inl (.stopped h)) fun h => .inr (.inl ⟨rfl, h.1, h.2.1, h.2.2⟩)
  | engSetdir d =>
    rcases execEngSetdir_inv h with h | ⟨-, x, -, rfl⟩
    · exact .inl (.stopped h)
    · exact .inl (scalar rfl rfl rfl rfl rfl rfl rfl rfl rfl)
  | engBuild =>
    rcases execEngBuild_inv h with h | ⟨h1, h2, h3, h4, h5, h6⟩
    · exact .inl (.stopped h)
    · exact .inr (.inr ⟨rfl, h1, h2, h3, h4, h5, h6⟩)
  | engSetindex =>
    rcases execEngSetindex_inv h with h | ⟨-, -, ids, -, h⟩
    · exact .inl (.stopped h)
    · exact .inl (.seekAll h)
  | engIndex =>
    rcases execEngIndex_inv h with h | ⟨-, -, ids, -, ⟨-, rfl⟩ | ⟨-, rfl⟩⟩
    · exact .inl (.stopped h)
    · exact .inl (scalar rfl rfl rfl rfl rfl rfl rfl rfl rfl)
    · exact .inl (scalar rfl rfl rfl rfl rfl rfl rfl rfl rfl)
  | wcAdd => exact .inl ((execWcAdd_inv h).elim .stopped fun h => h.2.2 ▸ .setWacc _ s)
  | wcSub => exact .inl ((execWcSub_inv h).elim .stopped fun h => h.2.2 ▸ .setWacc _ s)
  | wcMul => exact .inl ((execWcMul_inv h).elim .stopped fun h => h.2.2 ▸ .setWacc _ s)
  | wcDiv => exact .inl ((execWcDiv_inv h).elim .stopped fun h => h.2.2 ▸ .setWacc _ s)
  | wcDivmod =>
    exact .inl ((execWcDivmod_inv h).elim .stopped fun h => by rw [h.2.2]; exact scalar rfl rfl rfl rfl rfl rfl rfl rfl rfl)
  | wcMod => exact .inl ((execWcMod_inv h).elim .stopped fun h => by rw [h.2.2]; exact scalar rfl rfl rfl rfl rfl rfl rfl rfl rfl)
  | wcInc => exact .inl ((execWcInc_inv h).elim .stopped fun h => h.2.2 ▸ .setWacc _ s)
  | wcIszero =>
    exact .inl ((execWcIszero_inv h).elim .stopped fun h => by rw [h.2]; exact scalar rfl rfl rfl rfl rfl rfl rfl rfl rfl)
  | wcParse =>
    rcases execWcParse_inv h with h | ⟨-, -, -, v, -, rfl⟩
    · exact .inl (.stopped h)
    · exact .inl (scalar rfl rfl rfl rfl rfl rfl rfl rfl rfl)
  | wcTostr =>
    exact .inl ((execWcTostr_inv h).elim .stopped fun h => by rw [h.2]; exact scalar rfl rfl rfl rfl rfl rfl rfl rfl rfl)
  | rotConstruct u =>
    rcases execRotConstruct_inv h with h | ⟨-, k, -, h⟩
    · exact .inl (.stopped h)
    · exact .inl (.constructRotor h)
  | rotApplyf u =>
    rcases execRotApplyf_inv h with h | ⟨-, k, -, -, h⟩
    · exact .inl (.stopped h)
    · exact .inl (.directTransform h fun b t r h => by cases h; exact .setRotor fun h => h)
  | rotApplyg u =>
    rcases execRotApplyg_inv h with h | ⟨-, k, -, -, h⟩
    · exact .inl (.stopped h)
    · exact .inl (.directTransform h fun b t r h => by cases h; exact .setRotor fun h => h)
  | rotSetindex u =>
    rcases execRotSetindex_inv h with h | ⟨-, k, t', -, -, h', rfl⟩
    · exact .inl (.stopped h)
    · exact .inl ((SamePipeline.seekRotor h').renewed s _)
  | rotIndex u =>
    rcases execRotIndex_inv h with h | ⟨-, k, -, -, rfl⟩
    · exact .inl (.stopped h)
    · exact .inl (scalar rfl rfl rfl rfl rfl rfl rfl rfl rfl)
  | rotUpdate u =>
    rcases execRotUpdate_inv h with h | ⟨-, k, -, -, h⟩
    · exact .inl (.stopped h)
    · exact .inl (.constructRotor h)
  | rotDump u =>
    rcases execRotDump_inv h with h | ⟨-, k, -, -, rfl⟩
    · exact .inl (.stopped h)
    · exact .inl (scalar rfl rfl rfl rfl rfl rfl rfl rfl rfl)
  | prmConstruct u =>
    rcases execPrmConstruct_inv h with h | ⟨-, k, -, h⟩
    · exact .inl (.stopped h)
    · exact .inl (.constructPerm h)
  | prmApplyf u =>
    rcases execPrmApplyf_inv h with h | ⟨-, k, -, -, h⟩
    · exact .inl (.stopped h)
    · exact .inl (.directTransform h fun b t r h => by cases h; exact .setPerm fun h => h)
  | prmApplyg u =>
    rcases execPrmApplyg_inv h with h | ⟨-, k, -, -, h⟩
    · exact .inl (.stopped h)
    · exact .inl (.directTransform h fun b t r h => by cases h; exact .setPerm fun h => h)
  | prmSetindex u =>
    rcases execPrmSetindex_inv h with h | ⟨-, k, -, -, rfl⟩
    · exact .inl (.stopped h)
    · refine .inl (SamePipeline.renewed ?_ s _)
      exact .setPerm fun h => h
  | prmIndex u =>
    rcases execPrmIndex_inv h with h | ⟨-, k, -, -, rfl⟩
    · exact .inl (.stopped h)
    · exact .inl (scalar rfl rfl rfl rfl rfl rfl rfl rfl rfl)
  | prmUpdate u =>
    rcases execPrmUpdate_inv h with h | ⟨-, k, -, -, h⟩
    · exact .inl (.stopped h)
    · exact .inl (.constructPerm h)
  | prmDump u =>
    rcases execPrmDump_inv h with h | ⟨-, k, -, -, rfl⟩
    · exact .inl (.stopped h)
    · exact .inl (scalar rfl rfl rfl rfl rfl rfl rfl rfl rfl)
  | prmAdvance u =>
    rcases execPrmAdvance_inv h with h | ⟨-, k, -, -, rfl⟩
    · exact .inl (.stopped h)
    · refine .inl (SamePipeline.mutated ?_ s _)
      exact .setPerm fun h => h
  | prmRebuild u =>
    rcases execPrmRebuild_inv h with h | ⟨-, k, -, -, rfl⟩
    · exact .inl (.stopped h)
    · refine .inl (SamePipeline.mutated ?_ s _)
      exact .setPerm fun h => h
  | ctrReset => exact .inl ((execCtrReset_inv h).elim .stopped fun h => by rw [h.2]; exact (SamePipeline.setIdx _ s).renewed s _)
  | ctrApplyf =>
    rcases execCtrApplyf_inv h with h | ⟨-, -, ⟨-, rfl⟩ | ⟨-, -, rfl⟩⟩
    · exact .inl (.stopped h)
    · exact .inl (((SamePipeline.refl s).mutated s _).trans (.passBlock _))
    · exact .inl ((SamePipeline.setIdx _ s).trans (.passBlock _))
  | ctrApplyg => exact .inl ((execCtrApplyg_inv h).elim .stopped fun h => by rw [h.2.2]; exact .passBlock s)
  | ctrSetindex =>
    exact .inl ((execCtrSetindex_inv h).elim .stopped fun h => by rw [h.2]; exact (SamePipeline.setIdx _ s).renewed s _)
  | ctrIndex =>
    exact .inl ((execCtrIndex_inv h).elim .stopped fun h => by rw [h.2]; exact scalar rfl rfl rfl rfl rfl rfl rfl rfl rfl)
  | ctrUpdate => exact .inl ((execCtrUpdate_inv h).elim .stopped fun h => by rw [h.2]; exact .refl s)
  | bitGet n =>
    exact .inl ((execBitGet_inv h).elim .stopped fun h => by rw [h.2.2.2]; exact scalar rfl rfl rfl rfl rfl rfl rfl rfl rfl)
  | bitSet n =>
    exact .inl ((execBitSet_inv h).elim .stopped fun h => by rw [h.2.2.2]; exact scalar rfl rfl rfl rfl rfl rfl rfl rfl rfl)
  | bitClr n =>
    exact .inl ((execBitClr_inv h).elim .stopped fun h => by rw [h.2.2.2]; exact scalar rfl rfl rfl rfl rfl rfl rfl rfl rfl)

/-- What a register write does to the pipeline: nothing. -/
theorem SamePipeline.writeReg {s t : State} {r : Reg} {v : Word} (h : writeReg s r v = some t) : SamePipeline s t := by
  rw [writeReg_frame h]
  exact .of_eq rfl rfl rfl rfl rfl rfl rfl rfl rfl

theorem SamePipeline.hostWrite (a : RegNum) (v : Word) (s : State) : SamePipeline s (hostWrite a v s) := by
  rcases hostWrite_cases a v s with ⟨-, h⟩ | ⟨-, r, t, -, h1, h2⟩ | ⟨-, h⟩
  · rw [h]
    exact .refl s
  · rw [h2]
    exact .writeReg h1
  · rw [h]
    exact .raiseFault _ _ _ _ s

theorem SamePipeline.hostRead (a : RegNum) (s : State) : SamePipeline s (hostRead a s) := by
  have h0 : ∀ q, SamePipeline s { s with replies := q } := fun q => .of_eq rfl rfl rfl rfl rfl rfl rfl rfl rfl
  rcases hostRead_cases a s with ⟨r, -, h⟩ | ⟨-, h⟩
  · rw [h]
    exact h0 _
  · rw [h]
    exact (h0 _).trans (.raiseFault _ _ _ _ _)

end Sys2Proof.Machine
end

