-- ==== Sys2Proof/Laws/Arbiter.lean ====
section
/-! SUPPORT. Each named operation keeps the invariants of the arbiter (46_pipeline R322): one lemma per operation. -/

namespace Sys2Proof.Machine

/-- `BUILT` is read from the engine state alone (10_state R26). -/
theorem built_eq {s t : State} (h : t.estate = s.estate) : built t = built s := by simp [built, h]

/-- An operation that leaves the pipeline alone keeps its invariants. -/
theorem ArbiterOk.same {s t : State} (a : ArbiterOk s) (h : SamePipeline s t) : ArbiterOk t := by
  obtain ⟨v, len, st, hlen, last, h3, h4, h5, h6, h7, h8⟩ := h
  have hb : built t = built s := built_eq h7
  have hl : ∀ n, leftDone t n ↔ leftDone s n := fun n => by simp only [leftDone, v, st]
  constructor
  · rw [hb, h6]; simp only [v, st]; exact a.idle
  · rw [hb, h3]; exact a.count
  · rw [h7, h4]; exact a.direction
  · rw [hb, h3]; simp only [v, st]; exact a.outside
  · rw [hb]; simp only [inPipeline, h3, st, v, h6, hl]; exact a.offPrefix
  · simp only [slotSentinel, v, len, h6, hl]; exact a.sentinelInSlot
  · simp only [holdSentinel, st, last, v, h6, hl, hlen]; exact a.sentinelInHand
  · simp only [st, last, hlen]; exact a.dataInHand
  · rw [hb, h6]; simp only [slotSentinel, inPipeline, holdSentinel, h3, v, len, st, last]; exact a.closingHas
  · rw [hb]; simp only [inPipeline, h3, h5]
    intro hb p hp
    obtain ⟨u, h, h'⟩ := a.bound hb p hp
    exact ⟨u, h, h8 u h'⟩
  · rw [hb]; simp only [inPipeline, h3, h5]; exact a.distinct

/-- RESET (70_reset R390). -/
theorem ArbiterOk.reset (s : State) : ArbiterOk (resetBlock s) := by
  have hs : ∀ k, slot (resetBlock s) k = Slot.reset := by
    intro k; simp [slot, resetBlock, State.reset]
  have hw : ∀ k, worker (resetBlock s) k = Worker.reset := by
    intro k; simp [worker, resetBlock, State.reset]
  have hb : built (resetBlock s) = false := rfl
  constructor
  · intro _; exact ⟨rfl, fun k => by rw [hs]; rfl, fun k => by rw [hw]; rfl⟩
  · simp [hb]
  · exact ⟨fun h => (by cases h), fun h => (by cases h)⟩
  · simp [hb]
  · simp [hb]
  · intro k h; rw [slotSentinel, hs] at h; cases h.1
  · intro k h; rw [holdSentinel, hw] at h; cases h.1
  · intro k h; rw [hw] at h; cases h
  · simp [hb]
  · simp [hb]
  · simp [hb]

/-- ENG.INIT (46_pipeline R315). -/
theorem ArbiterOk.init {s : State} (a : ArbiterOk s) (h : s.estate = .created) :
    ArbiterOk { s with estate := .initialized } := by
  have hb : built s = false := by simp [built, h]
  obtain ⟨h1, h2, h3⟩ := a.idle hb
  have h2' : ∀ k, (slot { s with estate := .initialized } k).v = false := h2
  have h3' : ∀ k, (worker { s with estate := .initialized } k).st = .off := h3
  have hb' : built { s with estate := .initialized } = false := rfl
  constructor <;> try (simp [h2', h3', hb', slotSentinel, holdSentinel]; done)
  · intro _; exact ⟨h1, h2', h3'⟩

/-- What ENG.BUILD writes, part by part (46_pipeline R303). -/
theorem slot_build (s : State) (k : Fin 10) : slot (buildPipeline s) k = { slot s k with v := false } := by
  simp [slot, buildPipeline]
theorem worker_build (s : State) (p : Fin 9) :
    worker (buildPipeline s) p = { worker s p with st := if p.val < s.nst.toNat then .wait else .off } := by
  simp [worker, buildPipeline]
theorem binding_build (s : State) (p : Fin 9) : (buildPipeline s).binding[p] = boundUnit s p.val := by
  simp [buildPipeline]
theorem unitValid_build (s : State) (u : UnitId) : unitValid (buildPipeline s) u = unitValid s u := by
  cases u <;> rfl

/-- Place `p` of the stage list (10_state R30). -/
theorem stageList_get (s : State) {p : Nat} (hp : p < s.nst.toNat) : (stageList s)[p]'(by simpa) = orderEntry s p := by
  simp [stageList]

/-- ENG.BUILD (46_pipeline R303). -/
theorem ArbiterOk.build {s : State} (hn : s.nst ≠ 0#4) {ids} (hc : checkOrder s = .ok ids) (hd : s.dir ≠ .none) :
    ArbiterOk (buildPipeline s) := by
  obtain ⟨h9, h1, h2, h3⟩ := checkOrder_ok_iff.1 hc
  have hb : built (buildPipeline s) = true := by
    cases h : s.dir <;> simp [built, buildPipeline, builtState, h]
  have hnb : (buildPipeline s).nb = s.nst := rfl
  have hval : ∀ p, p < s.nst.toNat → ∃ u, unitOfCode (orderEntry s p) = some u ∧ unitValid s u = true := by
    intro p hp
    have hm : orderEntry s p ∈ stageList s := List.mem_map.2 ⟨p, by simpa, rfl⟩
    rw [← h1] at hm
    obtain ⟨u, hu, he⟩ := List.mem_map.1 hm
    exact ⟨u, by rw [← he]; simp, h3 u hu⟩
  have hinj : ∀ p q, p < s.nst.toNat → q < s.nst.toNat → orderEntry s p = orderEntry s q → p = q := by
    intro p q hp hq he
    rw [← stageList_get s hp, ← stageList_get s hq] at he
    exact (List.Nodup.getElem_inj_iff h2).1 he
  constructor
  · simp [hb]
  · intro _; rw [hnb]
    refine ⟨?_, h9⟩
    rcases Nat.eq_zero_or_pos s.nst.toNat with h | h
    · exact (hn (BitVec.eq_of_toNat_eq h)).elim
    · exact h
  · cases h : s.dir <;> simp [buildPipeline, builtState, h] at hd ⊢
  · intro _
    simp only [slot_build, worker_build, hnb]
    exact ⟨fun p hp => if_neg (by omega), fun _ _ => trivial⟩
  · simp only [inPipeline, worker_build, hnb]
    intro _ p hp h; rw [if_pos hp] at h; cases h
  · simp [slotSentinel, slot_build]
  · simp only [holdSentinel, worker_build]
    intro p ⟨h, _⟩
    split at h <;> cases h
  · simp only [worker_build]
    intro p h
    split at h <;> cases h
  · intro _ h; cases h
  · intro _ p hp
    simp only [inPipeline, hnb] at hp
    simp only [binding_build, boundUnit, if_pos hp, unitValid_build]
    split
    · exact hval _ (by omega)
    · exact hval _ hp
    · exact hval _ hp
  · intro _ p q hp hq
    simp only [inPipeline, hnb] at hp hq
    simp only [binding_build, boundUnit, if_pos hp, if_pos hq]
    intro h
    apply Fin.ext
    cases hdir : s.dir <;> simp only [hdir] at h
    · exact hinj _ _ hp hq h
    · exact hinj _ _ hp hq h
    · have := hinj _ _ (by omega) (by omega) h
      omega

theorem leftSlot_val (p : Fin 9) : (leftSlot p).val = p.val := rfl
theorem rightSlot_val (p : Fin 9) : (rightSlot p).val = p.val + 1 := rfl

/-- A `PUSH` that happens (46_pipeline R312). -/
theorem ArbiterOk.push {s : State} (a : ArbiterOk s) {bytes : List Byte} (hl : bytes.length ≤ 32) (hr : inReady s = true) :
    ArbiterOk (pushBlock bytes s) := by
  simp only [inReady, slotRoom_eq, Bool.and_eq_true, Bool.not_eq_true'] at hr
  obtain ⟨⟨⟨hf, hb⟩, hc⟩, hv⟩ := hr
  have hb' : built (pushBlock bytes s) = true := hb
  obtain ⟨hn1, hn9⟩ := a.count hb
  have hs : ∀ k, slot (pushBlock bytes s) k =
      if k = 0 then
        { v := true, len := BitVec.ofNat 6 bytes.length,
          data := writeBytes (slot s 0).data 0 bytes }
      else slot s k := by
    intro k; simp only [pushBlock, slot_setSlot]; rfl
  have hw : ∀ k, worker (pushBlock bytes s) k = worker s k := fun k => rfl
  have hcl : (pushBlock bytes s).closing = bytes.isEmpty := by simp [pushBlock, setSlot, hc]
  have hlen : (BitVec.ofNat 6 bytes.length).toNat = bytes.length := by
    rw [BitVec.toNat_ofNat]; omega
  have noOff : ∀ p, inPipeline s p → (worker s p).st ≠ .off := fun p hp h => by
    have := (a.offPrefix hb p hp h).1; rw [hc] at this; cases this
  have noS : ∀ k, ¬ slotSentinel s k := fun k h => by
    have := (a.sentinelInSlot k h).1; rw [hc] at this; cases this
  have noH : ∀ k, ¬ holdSentinel s k := fun k h => by
    have := (a.sentinelInHand k h).1; rw [hc] at this; cases this
  constructor
  · simp [hb']
  · intro _; exact a.count hb
  · exact a.direction
  · intro _
    refine ⟨(a.outside hb).1, fun k hk => ?_⟩
    have hk0 : k ≠ 0 := by
      intro h; have : s.nb.toNat < k.val := hk; rw [h] at this; simp at this
    rw [hs, if_neg hk0]; exact (a.outside hb).2 k hk
  · intro _ p hp h; exact (noOff p hp h).elim
  · intro k h
    simp only [slotSentinel, hs] at h
    split at h
    · rename_i hk; subst hk
      refine ⟨?_, ⟨fun q hq => by simp at hq, fun q hq => by simp at hq⟩⟩
      rw [hcl]
      have : bytes.length = 0 := by rw [← hlen, show BitVec.ofNat 6 bytes.length = 0#6 from h.2]; rfl
      simpa using this
    · exact (noS k h).elim
  · intro p h; exact (noH p h).elim
  · exact a.dataInHand
  · intro _ h
    rw [hcl] at h
    have h0 : bytes = [] := by simpa using h
    refine .inl ⟨0, by simp, ?_⟩
    unfold slotSentinel; rw [hs, if_pos rfl]; simp [h0]
  · exact a.bound
  · exact a.distinct

/-- A `POP` (46_pipeline R314). -/
theorem ArbiterOk.pop {s : State} (a : ArbiterOk s) {k : Fin 10} (hk : outSlot s = some k) (ho : outValid s = true) :
    ArbiterOk (popBlock k s) := by
  simp only [outValid, hk, Bool.and_eq_true, Bool.not_eq_true'] at ho
  obtain ⟨⟨hf, hb⟩, hv⟩ := ho
  have hkv : k.val = s.nb.toNat := by
    unfold outSlot at hk; split at hk <;> cases hk; rfl
  obtain ⟨hn1, hn9⟩ := a.count hb
  have hs : ∀ j, slot (popBlock k s) j = if j = k then { slot s k with v := false } else slot s j := by
    intro j; unfold popBlock; dsimp only; split <;> exact slot_setSlot _ _ _ _
  have hw : ∀ j, worker (popBlock k s) j = worker s j := by
    intro j; unfold popBlock; dsimp only; split <;> rfl
  have hnb : (popBlock k s).nb = s.nb := by unfold popBlock; dsimp only; split <;> rfl
  have hbd : (popBlock k s).bdir = s.bdir := by unfold popBlock; dsimp only; split <;> rfl
  have hbi : (popBlock k s).binding = s.binding := by unfold popBlock; dsimp only; split <;> rfl
  have huv : ∀ u, unitValid (popBlock k s) u = unitValid s u := by
    intro u; unfold popBlock; dsimp only; split <;> cases u <;> rfl
  by_cases hl : (slot s k).len = 0#6
  · have hsent : slotSentinel s k := ⟨hv, hl⟩
    obtain ⟨hc, hleft⟩ := a.sentinelInSlot k hsent
    have hcl : (popBlock k s).closing = false := by simp [popBlock, hl]
    have hb' : built (popBlock k s) = false := by simp [popBlock, hl, built]
    have hes : (popBlock k s).estate = .closed := by simp [popBlock, hl]
    have allOff : ∀ p, (worker s p).st = .off := by
      intro p
      by_cases hp : p.val < k.val
      · exact hleft.1 p hp
      · exact (a.outside hb).1 p (by omega)
    have allEmpty : ∀ j, (slot (popBlock k s) j).v = false := by
      intro j; rw [hs]; split
      · rfl
      · rename_i hj
        by_cases h : j.val < k.val
        · exact hleft.2 j h
        · exact (a.outside hb).2 j (by have : j.val ≠ k.val := fun h => hj (Fin.ext h); omega)
    constructor
    · intro _; exact ⟨hcl, allEmpty, fun p => by rw [hw]; exact allOff p⟩
    · simp [hb']
    · rw [hes]; simp
    · simp [hb']
    · simp [hb']
    · intro j h; rw [slotSentinel, allEmpty] at h; cases h.1
    · intro p h; rw [holdSentinel, hw, allOff] at h; cases h.1
    · intro p h; rw [hw, allOff] at h; cases h
    · simp [hb']
    · simp [hb']
    · simp [hb']
  · have hcl : (popBlock k s).closing = s.closing := by simp [popBlock, hl, setSlot]
    have hes : (popBlock k s).estate = s.estate := by simp [popBlock, hl, setSlot]
    have hb' : built (popBlock k s) = built s := built_eq hes
    have hS : ∀ j, slotSentinel (popBlock k s) j ↔ slotSentinel s j := by
      intro j; unfold slotSentinel; rw [hs]; split
      · rename_i h; subst h; simp [hl]
      · rfl
    have hsv : ∀ j, (slot (popBlock k s) j).v = true → (slot s j).v = true := by
      intro j; rw [hs]; split
      · intro h; cases h
      · exact id
    have hsv' : ∀ j, (slot s j).v = false → (slot (popBlock k s) j).v = false := by
      intro j h; rw [hs]; split
      · rfl
      · exact h
    have hL : ∀ n, leftDone s n → leftDone (popBlock k s) n := by
      intro n h; exact ⟨by simpa only [hw] using h.1, fun j hj => hsv' j (h.2 j hj)⟩
    constructor
    · rw [hb', hb]; simp
    · rw [hb', hnb]; exact a.count
    · rw [hes, hbd]; exact a.direction
    · rw [hb', hnb]; simp only [hw]; intro _
      exact ⟨(a.outside hb).1, fun j hj => hsv' j ((a.outside hb).2 j hj)⟩
    · rw [hb', hcl]; simp only [inPipeline, hnb, hw]
      intro _ p hp h
      obtain ⟨h1, h2, h3⟩ := a.offPrefix hb p hp h
      exact ⟨h1, hL _ h2, hsv' _ h3⟩
    · rw [hcl]; simp only [hS]
      intro j h
      obtain ⟨h1, h2⟩ := a.sentinelInSlot j h
      exact ⟨h1, hL _ h2⟩
    · rw [hcl]; simp only [holdSentinel, hw]
      intro p h
      obtain ⟨h1, h2, h3, h4⟩ := a.sentinelInHand p h
      exact ⟨h1, hL _ h2, hsv' _ h3, h4⟩
    · simp only [hw]; exact a.dataInHand
    · rw [hb', hcl, hnb]; simp only [hS, inPipeline, holdSentinel, hw, hnb]; exact a.closingHas
    · rw [hb']; simp only [inPipeline, hnb, hbi, huv]; exact a.bound
    · rw [hb']; simp only [inPipeline, hnb, hbi]; exact a.distinct

/-- A worker's receiving step (46_pipeline R307). -/
theorem ArbiterOk.take {s : State} (a : ArbiterOk s) {p : Fin 9} {r : List Byte} {last : Bool}
    (hw : (worker s p).st = .wait) (hv : (slot s (leftSlot p)).v = true)
    (hr : r.length = (slot s (leftSlot p)).len.toNat) (hl : last = true ↔ (slot s (leftSlot p)).len = 0#6) :
    ArbiterOk (takeBlock p r last s) := by
  have hb : built s = true := by
    cases h : built s with
    | true => rfl
    | false => have := (a.idle h).2.2 p; rw [hw] at this; cases this
  have hp : p.val < s.nb.toNat := by
    by_contra h
    have := (a.outside hb).1 p (by omega); rw [hw] at this; cases this
  have hlen : BitVec.ofNat 6 r.length = (slot s (leftSlot p)).len := by rw [hr]; simp
  have hs : ∀ k, slot (takeBlock p r last s) k =
      if k = leftSlot p then { slot s (leftSlot p) with v := false }
      else slot s k :=
    fun k => slot_setSlot _ _ _ _
  have hwk : ∀ q, worker (takeBlock p r last s) q =
      if q = p then
        { st := .hold, hlen := BitVec.ofNat 6 r.length,
          hdata := writeBytes (worker s p).hdata 0 r, last := last }
      else worker s q :=
    fun k => worker_setWorker _ _ _ _
  have hsv : ∀ j, (slot (takeBlock p r last s) j).v = true → (slot s j).v = true := by
    intro j; rw [hs]; split
    · intro h; cases h
    · exact id
  have hsv' : ∀ j, (slot s j).v = false → (slot (takeBlock p r last s) j).v = false := by
    intro j h; rw [hs]; split
    · rfl
    · exact h
  have notLeft : ∀ n, leftDone s n → ¬ p.val < n := fun n h hpn => by
    have := h.1 p hpn; rw [hw] at this; cases this
  have hL : ∀ n, leftDone s n → leftDone (takeBlock p r last s) n := by
    intro n h
    refine ⟨fun q hq => ?_, fun j hj => hsv' j (h.2 j hj)⟩
    rw [hwk, if_neg (by rintro rfl; exact notLeft n h hq)]
    exact h.1 q hq
  have hS : ∀ j, slotSentinel (takeBlock p r last s) j → slotSentinel s j ∧ j ≠ leftSlot p := by
    intro j; unfold slotSentinel; rw [hs]; split
    · intro h; cases h.1
    · rename_i hj; exact fun h => ⟨h, hj⟩
  constructor
  · intro h; have : built s = false := h; rw [hb] at this; cases this
  · exact a.count
  · exact a.direction
  · intro _
    refine ⟨fun q hq => ?_, fun j hj => hsv' j ((a.outside hb).2 j hj)⟩
    have hq' : s.nb.toNat ≤ q.val := hq
    rw [hwk, if_neg (by rintro rfl; omega)]
    exact (a.outside hb).1 q hq
  · intro _ q hq h
    rw [hwk] at h; split at h
    · cases h
    · obtain ⟨h1, h2, h3⟩ := a.offPrefix hb q hq h
      exact ⟨h1, hL _ h2, hsv' _ h3⟩
  · intro j h
    obtain ⟨h1, h2⟩ := a.sentinelInSlot j (hS j h).1
    exact ⟨h1, hL _ h2⟩
  · intro q h
    unfold holdSentinel at h
    rw [hwk] at h ⊢
    split at h
    · rename_i hq; subst hq
      have hl' := hl.1 h.2
      obtain ⟨h1, h2⟩ := a.sentinelInSlot _ ⟨hv, hl'⟩
      refine ⟨h1, hL _ h2, ?_, ?_⟩
      · rw [hs, if_pos rfl]
      · rw [if_pos rfl]; rw [hlen]; exact hl'
    · rename_i hq
      obtain ⟨h1, h2, h3, h4⟩ := a.sentinelInHand q h
      rw [if_neg hq]
      exact ⟨h1, hL _ h2, hsv' _ h3, h4⟩
  · intro q h h'
    rw [hwk] at h h' ⊢
    split
    · rename_i hq
      rw [if_pos hq] at h'
      rw [hlen]; intro h0
      have := hl.2 h0
      rw [this] at h'; cases h'
    · rename_i hq
      rw [if_neg hq] at h h'
      exact a.dataInHand q h h'
  · intro _ hc
    rcases a.closingHas hb hc with ⟨k, hk, h⟩ | ⟨q, hq, h⟩
    · by_cases hkp : k = leftSlot p
      · subst hkp
        refine .inr ⟨p, hp, ?_⟩
        unfold holdSentinel; rw [hwk, if_pos rfl]; exact ⟨rfl, hl.2 h.2⟩
      · refine .inl ⟨k, hk, ?_⟩
        unfold slotSentinel; rw [hs, if_neg hkp]; exact h
    · refine .inr ⟨q, hq, ?_⟩
      unfold holdSentinel; rw [hwk, if_neg]
      · exact h
      · rintro rfl; rw [holdSentinel, hw] at h; cases h.1
  · exact a.bound
  · exact a.distinct

/-- A worker's sending step (46_pipeline R308, R309). -/
theorem ArbiterOk.send {s : State} (a : ArbiterOk s) {p : Fin 9} (h : sendEnabled s p = true) :
    ArbiterOk (workerSend p s) := by
  simp only [sendEnabled, slotRoom_eq, Bool.and_eq_true, Bool.not_eq_true', beq_iff_eq] at h
  obtain ⟨⟨hf, hw⟩, hv⟩ := h
  have hb : built s = true := by
    cases h : built s with
    | true => rfl
    | false => have := (a.idle h).2.2 p; rw [hw] at this; cases this
  have hp : p.val < s.nb.toNat := by
    by_contra h
    have := (a.outside hb).1 p (by omega); rw [hw] at this; cases this
  have hs : ∀ k, slot (workerSend p s) k =
      if k = rightSlot p then
        { v := true, len := (worker s p).hlen,
          data := writeBytes (slot s (rightSlot p)).data 0 (readBytes (worker s p).hdata 0 (worker s p).hlen.toNat) }
      else slot s k :=
    fun k => slot_setSlot _ _ _ _
  have hwk : ∀ q, worker (workerSend p s) q =
      if q = p then { worker s p with st := if (worker s p).last then .off else .wait }
      else worker s q :=
    fun k => worker_setWorker _ _ _ _
  have notLeft : ∀ n, leftDone s n → ¬ p.val < n := fun n h hpn => by
    have := h.1 p hpn; rw [hw] at this; cases this
  have rne : ∀ j : Fin 10, j.val ≤ p.val → j ≠ rightSlot p := by
    intro j h he
    have : j.val = p.val + 1 := by rw [he]; rfl
    omega
  have hL : ∀ n, leftDone s n → leftDone (workerSend p s) n := by
    intro n h
    have hnl := notLeft n h
    refine ⟨fun q hq => ?_, fun j hj => ?_⟩
    · rw [hwk, if_neg (by rintro rfl; exact hnl hq)]
      exact h.1 q hq
    · rw [hs, if_neg (rne j (by omega))]; exact h.2 j hj
  constructor
  · intro h; have : built s = false := h; rw [hb] at this; cases this
  · exact a.count
  · exact a.direction
  · intro _
    refine ⟨fun q hq => ?_, fun j hj => ?_⟩
    · have hq' : s.nb.toNat ≤ q.val := hq
      rw [hwk, if_neg (by rintro rfl; omega)]
      exact (a.outside hb).1 q hq
    · have hj' : s.nb.toNat < j.val := hj
      rw [hs, if_neg]
      · exact (a.outside hb).2 j hj
      · rintro rfl; have : (rightSlot p).val = p.val + 1 := rfl; omega
  · intro _ q hq h
    rw [hwk] at h; split at h
    · rename_i hqp; subst hqp
      have hlast : (worker s q).last = true := by
        cases hl : (worker s q).last with
        | true => rfl
        | false => simp [hl] at h
      obtain ⟨h1, h2, h3, -⟩ := a.sentinelInHand q ⟨hw, hlast⟩
      refine ⟨h1, hL _ h2, ?_⟩
      rw [hs, if_neg (rne _ (by simp [leftSlot]))]; exact h3
    · obtain ⟨h1, h2, h3⟩ := a.offPrefix hb q hq h
      refine ⟨h1, hL _ h2, ?_⟩
      have := notLeft _ h2
      rw [hs, if_neg (rne _ (by simp only [leftSlot]; omega))]; exact h3
  · intro j h
    by_cases hj : j = rightSlot p
    · subst hj
      unfold slotSentinel at h; rw [hs, if_pos rfl] at h
      have hlast : (worker s p).last = true := by
        cases hl : (worker s p).last with
        | true => rfl
        | false => exact (a.dataInHand p hw hl h.2).elim
      obtain ⟨h1, h2, h3, -⟩ := a.sentinelInHand p ⟨hw, hlast⟩
      refine ⟨h1, ?_, ?_⟩
      · intro q hq
        have hq' : q.val < p.val + 1 := hq
        by_cases hqp : q = p
        · rw [hwk, if_pos hqp]; simp [hlast]
        · have : q.val ≠ p.val := fun h => hqp (Fin.ext h)
          exact (hL _ h2).1 q (by omega)
      · intro k hk
        have hk' : k.val < p.val + 1 := hk
        rw [hs, if_neg (rne _ (by omega))]
        by_cases hkp : k.val = p.val
        · have : k = leftSlot p := Fin.ext hkp
          rw [this]; exact h3
        · exact h2.2 k (by omega)
    · unfold slotSentinel at h; rw [hs, if_neg hj] at h
      obtain ⟨h1, h2⟩ := a.sentinelInSlot j h
      exact ⟨h1, hL _ h2⟩
  · intro q h
    unfold holdSentinel at h
    rw [hwk] at h
    split at h
    · rename_i hq; subst hq
      have h1 := h.1; have h2 : (worker s q).last = true := h.2
      simp [h2] at h1
    · rename_i hq
      obtain ⟨h1, h2, h3, h4⟩ := a.sentinelInHand q h
      have := notLeft _ h2
      rw [hwk, if_neg hq]
      refine ⟨h1, hL _ h2, ?_, h4⟩
      rw [hs, if_neg (rne _ (by simp only [leftSlot]; omega))]; exact h3
  · intro q h h'
    rw [hwk] at h h' ⊢
    split
    · rename_i hq
      rw [if_pos hq] at h h'
      have h' : (worker s p).last = false := h'
      simp [h'] at h
    · rename_i hq
      rw [if_neg hq] at h h'
      exact a.dataInHand q h h'
  · intro _ hc
    rcases a.closingHas hb hc with ⟨k, hk, h⟩ | ⟨q, hq, h⟩
    · refine .inl ⟨k, hk, ?_⟩
      unfold slotSentinel; rw [hs, if_neg]
      · exact h
      · rintro rfl; rw [slotSentinel, hv] at h; cases h.1
    · by_cases hqp : q = p
      · subst hqp
        refine .inl ⟨rightSlot q, ?_, ?_⟩
        · show q.val + 1 ≤ s.nb.toNat; omega
        · unfold slotSentinel; rw [hs, if_pos rfl]
          exact ⟨rfl, (a.sentinelInHand q h).2.2.2⟩
      · refine .inr ⟨q, hq, ?_⟩
        unfold holdSentinel; rw [hwk, if_neg hqp]; exact h
  · exact a.bound
  · exact a.distinct

end Sys2Proof.Machine
end

