-- ==== Sys2Proof/Laws/Faults.lean ====
section
/-! SUPPORT. A command that raises a fault writes the fault record and nothing else (60_exceptions R351). -/

namespace Sys2Proof.Machine

/-- On a block that is not faulted, a command that stops has raised a fault. -/
theorem stopped_faulted {i : Instr} {s t : State} (h : Stopped i s t) (hf : s.faulted = false) :
    ∃ c u, t = commandFaulted i c u s := by
  rcases h with ⟨h, -⟩ | ⟨-, h⟩
  · rw [hf] at h; cases h
  · exact h

theorem seekRotor_faulted {k : Fin 6} {s t : State} (h : seekRotor k s = .ok t) : t.faulted = s.faulted := by
  rcases seekRotor_ok h with ⟨c, -, rfl⟩ | ⟨-, -, rfl⟩ <;> rfl

/-- Seeks raise no fault once they answer. -/
theorem seekAll_faulted {b s t : State} {ids} (h : seekAll b s ids = .ok t) : t.faulted = s.faulted := by
  induction ids generalizing s with
  | nil => cases h; rfl
  | cons u rest ih =>
    unfold seekAll at h
    split at h
    · cases h
    · rename_i t' ht
      rw [ih h, renewed_faulted]
      cases u with
      | rotor k => exact seekRotor_faulted ht
      | perm k => cases ht; rfl
      | counter => cases ht; rfl

theorem passBlock_faulted (s : State) : (passBlock s).faulted = s.faulted := by
  unfold passBlock; split <;> rfl

/-- A direct transform that answers raises no fault. -/
theorem directTransform_faulted {u : UnitId} {s t : State} {f : State → List Byte → Except Trap (State × List Byte)}
    (h : directTransform u s f = .ok t) (hf : ∀ b t r, f s b = .ok (t, r) → t.faulted = s.faulted) :
    t.faulted = s.faulted := by
  obtain ⟨-, t', r, h', rfl⟩ := directTransform_ok h
  refine (blockOut_faulted u t' r).trans ?_
  cases h' with
  | breached _ => exact breach_faulted u s
  | undefined _ _ => exact scramble_faulted u s
  | ran _ h' => exact hf _ _ _ h'

/-- Everything a command that faults can leave. -/
theorem exec_fault {i : Instr} {s t : State} (h : exec i s = .next t) (hf : s.faulted = false) (ht : t.faulted = true) :
    ∃ c u, t = commandFaulted i c u s := by
  have go : ∀ {P : Prop}, (P → t.faulted = s.faulted) → Stopped i s t ∨ P → ∃ c u, t = commandFaulted i c u s := by
    intro P hP h
    rcases h with h | h
    · exact stopped_faulted h hf
    · rw [hP h, hf] at ht; cases ht
  cases i with
  | nop => refine go ?_ (execNop_inv h); rintro ⟨-, rfl⟩; rfl
  | engInit => refine go ?_ (execEngInit_inv h); rintro ⟨-, -, rfl⟩; rfl
  | engSetdir d => refine go ?_ (execEngSetdir_inv h); rintro ⟨-, x, -, rfl⟩; rfl
  | engBuild => refine go ?_ (execEngBuild_inv h); rintro ⟨-, -, -, -, -, rfl⟩; rfl
  | engSetindex => refine go ?_ (execEngSetindex_inv h); rintro ⟨-, -, ids, -, h⟩; exact seekAll_faulted h
  | engIndex => refine go ?_ (execEngIndex_inv h); rintro ⟨-, -, ids, -, ⟨-, rfl⟩ | ⟨-, rfl⟩⟩ <;> rfl
  | wcAdd => refine go ?_ (execWcAdd_inv h); rintro ⟨-, -, rfl⟩; rfl
  | wcSub => refine go ?_ (execWcSub_inv h); rintro ⟨-, -, rfl⟩; rfl
  | wcMul => refine go ?_ (execWcMul_inv h); rintro ⟨-, -, rfl⟩; rfl
  | wcDiv => refine go ?_ (execWcDiv_inv h); rintro ⟨-, -, rfl⟩; rfl
  | wcDivmod => refine go ?_ (execWcDivmod_inv h); rintro ⟨-, -, rfl⟩; rfl
  | wcMod => refine go ?_ (execWcMod_inv h); rintro ⟨-, -, rfl⟩; rfl
  | wcInc => refine go ?_ (execWcInc_inv h); rintro ⟨-, -, rfl⟩; rfl
  | wcIszero => refine go ?_ (execWcIszero_inv h); rintro ⟨-, rfl⟩; rfl
  | wcParse => refine go ?_ (execWcParse_inv h); rintro ⟨-, -, -, v, -, rfl⟩; rfl
  | wcTostr => refine go ?_ (execWcTostr_inv h); rintro ⟨-, rfl⟩; rfl
  | rotConstruct u =>
    refine go ?_ (execRotConstruct_inv h)
    rintro ⟨-, k, -, h⟩
    obtain ⟨-, rfl⟩ := constructRotor_ok h
    simp [setRotor]
  | rotApplyf u =>
    refine go ?_ (execRotApplyf_inv h)
    rintro ⟨-, k, -, -, h⟩
    exact directTransform_faulted h fun _ _ _ h => by cases h; rfl
  | rotApplyg u =>
    refine go ?_ (execRotApplyg_inv h)
    rintro ⟨-, k, -, -, h⟩
    exact directTransform_faulted h fun _ _ _ h => by cases h; rfl
  | rotSetindex u => refine go ?_ (execRotSetindex_inv h); rintro ⟨-, k, t', -, -, h', rfl⟩; simp [seekRotor_faulted h']
  | rotIndex u => refine go ?_ (execRotIndex_inv h); rintro ⟨-, k, -, -, rfl⟩; rfl
  | rotUpdate u =>
    refine go ?_ (execRotUpdate_inv h)
    rintro ⟨-, k, -, -, h⟩
    obtain ⟨-, rfl⟩ := constructRotor_ok h
    simp [setRotor]
  | rotDump u => refine go ?_ (execRotDump_inv h); rintro ⟨-, k, -, -, rfl⟩; rfl
  | prmConstruct u =>
    refine go ?_ (execPrmConstruct_inv h)
    rintro ⟨-, k, -, h⟩
    obtain ⟨-, rfl⟩ := constructPerm_ok h
    simp [setPerm]
  | prmApplyf u =>
    refine go ?_ (execPrmApplyf_inv h)
    rintro ⟨-, k, -, -, h⟩
    exact directTransform_faulted h fun _ _ _ h => by cases h; rfl
  | prmApplyg u =>
    refine go ?_ (execPrmApplyg_inv h)
    rintro ⟨-, k, -, -, h⟩
    exact directTransform_faulted h fun _ _ _ h => by cases h; rfl
  | prmSetindex u => refine go ?_ (execPrmSetindex_inv h); rintro ⟨-, k, -, -, rfl⟩; simp [setPerm]
  | prmIndex u => refine go ?_ (execPrmIndex_inv h); rintro ⟨-, k, -, -, rfl⟩; rfl
  | prmUpdate u =>
    refine go ?_ (execPrmUpdate_inv h)
    rintro ⟨-, k, -, -, h⟩
    obtain ⟨-, rfl⟩ := constructPerm_ok h
    simp [setPerm]
  | prmDump u => refine go ?_ (execPrmDump_inv h); rintro ⟨-, k, -, -, rfl⟩; rfl
  | prmAdvance u => refine go ?_ (execPrmAdvance_inv h); rintro ⟨-, k, -, -, rfl⟩; simp [setPerm]
  | prmRebuild u => refine go ?_ (execPrmRebuild_inv h); rintro ⟨-, k, -, -, rfl⟩; simp [setPerm]
  | ctrReset => refine go ?_ (execCtrReset_inv h); rintro ⟨-, rfl⟩; simp
  | ctrApplyf => refine go ?_ (execCtrApplyf_inv h); rintro ⟨-, -, ⟨-, rfl⟩ | ⟨-, -, rfl⟩⟩ <;> simp [passBlock_faulted]
  | ctrApplyg => refine go ?_ (execCtrApplyg_inv h); rintro ⟨-, -, rfl⟩; simp [passBlock_faulted]
  | ctrSetindex => refine go ?_ (execCtrSetindex_inv h); rintro ⟨-, rfl⟩; simp
  | ctrIndex => refine go ?_ (execCtrIndex_inv h); rintro ⟨-, rfl⟩; rfl
  | ctrUpdate => refine go ?_ (execCtrUpdate_inv h); rintro ⟨-, rfl⟩; rfl
  | bitGet n => refine go ?_ (execBitGet_inv h); rintro ⟨-, -, -, rfl⟩; rfl
  | bitSet n => refine go ?_ (execBitSet_inv h); rintro ⟨-, -, -, rfl⟩; rfl
  | bitClr n => refine go ?_ (execBitClr_inv h); rintro ⟨-, -, -, rfl⟩; rfl

end Sys2Proof.Machine
end

