-- ==== Sys2Proof/Laws/Host.lean ====
section
/-! SUPPORT. What each of the host's procedures can answer (45_keystream_host): one lemma per procedure, so that no proof about a draw
unfolds the run of the machine under it. -/

namespace Sys2Proof.Machine

/-- A run of `m + n` steps is a run of `m` and then one of `n`. -/
theorem runSteps_add (m n : Nat) (s : State) : runSteps (m + n) s = (runSteps m s).bind (runSteps n) := by
  induction m generalizing s with
  | zero => simp [runSteps]
  | succ m ih =>
    rw [Nat.succ_add, runSteps, runSteps]
    cases step s with
    | next t => exact ih t
    | fault _ => rfl
    | refused _ => rfl

/-- A push and its pop: what the run under them left (R282). -/
theorem pushPop_ok {bytes r : List Byte} {s t : State} (h : pushPop bytes s = some (r, t)) :
    ∃ v, runSteps (throughSchedule s.nb.toNat).length
        { s with sched := throughSchedule s.nb.toNat, hostq := [.push bytes, .pop], replies := [] } = some v ∧
      v.replies = [.block r] ∧ t = { v with replies := s.replies, sched := s.sched, hostq := s.hostq } := by
  unfold pushPop at h
  dsimp only at h
  split at h
  · cases h
  · rename_i v hv
    split at h
    · rename_i r' hr
      cases h
      exact ⟨v, hv, hr, rfl⟩
    · cases h

/-- Host actions on a block: every one was taken and the block is not faulted. -/
theorem runActions_ok {actions : List HostAction} {s t : State} {rs : List Reply} (h : runActions actions s = some (rs, t)) :
    ∃ v, runSteps actions.length
        { s with sched := List.replicate actions.length .host, hostq := actions, replies := [] } = some v ∧
      v.hostq = [] ∧ v.faulted = false ∧ rs = v.replies ∧
      t = { v with replies := s.replies, sched := s.sched, hostq := s.hostq } := by
  unfold runActions at h
  split at h
  · cases h
  · rename_i v hv
    split at h
    · rename_i hc
      simp only [Bool.and_eq_true, List.isEmpty_iff, Bool.not_eq_true'] at hc
      cases h
      exact ⟨v, hv, hc.1, hc.2, rfl, rfl⟩
    · cases h

/-- Everything one read can do (R282): the next byte kept, or the first byte of a new block. -/
theorem readOne_ok {src src' : KeystreamSource} {b : Byte} (h : readOne src = some (b, src')) :
    (src.left[src.off]? = some b ∧ src' = { src with off := src.off + 1 }) ∨
    (src.left[src.off]? = none ∧ ∃ rest t, pushPop (probeBytes src.probes src.left) src.block = some (b :: rest, t) ∧
      src' = { block := t, left := b :: rest, off := 1, probes := src.probes + 1 }) := by
  unfold readOne at h
  split at h
  · rename_i x hx
    cases h
    exact .inl ⟨hx, rfl⟩
  · rename_i hx
    split at h
    · rename_i x rest t hp
      cases h
      exact .inr ⟨hx, rest, t, hp, rfl⟩
    · cases h
    · cases h

/-- `Read` answers as many bytes as it is asked for (R282). -/
theorem readKeystream_length {m : Nat} {src src' : KeystreamSource} {bs : List Byte}
    (h : readKeystream m src = some (bs, src')) : bs.length = m := by
  induction m generalizing src bs with
  | zero =>
    cases h
    rfl
  | succ m ih =>
    unfold readKeystream at h
    split at h
    · cases h
    · split at h
      · cases h
      · rename_i hr
        cases h
        simp [ih hr]

/-- Everything one draw of a rotor Update can do (R288). -/
theorem drawRotorValue_ok {o : DrawOrder} {fuel size : Nat} {d : RotorDraw} {v v' : RotorValues} {src src' : KeystreamSource}
    (h : drawRotorValue o fuel size d v src = some (v', src')) :
    (d = .start ∧ ∃ x, intn fuel size src = some (x, src') ∧ v' = { v with start := x }) ∨
    (d = .step ∧ ∃ x, drawStep o.step fuel size src = some (x, src') ∧ v' = { v with step := x }) ∨
    (d = .fresh ∧ ∃ x, readKeystream ((size + 7) / 8) src = some (x, src') ∧ v' = { v with fresh := x }) := by
  cases d <;> obtain ⟨⟨x, y⟩, h1, h2⟩ := Option.map_eq_some_iff.1 h <;> cases h2
  · exact .inl ⟨rfl, x, h1, rfl⟩
  · exact .inr (.inl ⟨rfl, x, h1, rfl⟩)
  · exact .inr (.inr ⟨rfl, x, h1, rfl⟩)

/-- What a rotor Update from a source did: all its draws, then its actions on the block the draws left (R288). -/
theorem updateRotor_ok {o : DrawOrder} {fuel size : Nat} {k : Fin 6} {src src' : KeystreamSource}
    (h : updateRotor o fuel k size src = some src') :
    ∃ v x rs t, drawRotor o fuel size src = some (v, x) ∧
      runActions (rotorUpdate k size v.start v.step v.fresh) x.block = some (rs, t) ∧ src' = { x with block := t } := by
  unfold updateRotor at h
  split at h
  · cases h
  · rename_i v x hd
    unfold KeystreamSource.issueAll at h
    split at h
    · cases h
    · rename_i rs t hr
      cases h
      exact ⟨v, x, rs, t, hd, hr, rfl⟩

/-- What a permutator Update from a source did (R289). -/
theorem updatePerm_ok {o : DrawOrder} {fuel : Nat} {k : Fin 2} {lengths : Vector Nat 4} {src src' : KeystreamSource}
    (h : updatePerm o fuel k lengths src = some src') :
    ∃ l table x rs t, drawPerm o fuel lengths src = some ((l, table), x) ∧
      runActions (permUpdate k l table) x.block = some (rs, t) ∧ src' = { x with block := t } := by
  unfold updatePerm at h
  split at h
  · cases h
  · rename_i l table x hd
    unfold KeystreamSource.issueAll at h
    split at h
    · cases h
    · rename_i rs t hr
      cases h
      exact ⟨l, table, x, rs, t, hd, hr, rfl⟩

/-- The Updates are strictly sequential: the first one on the source as it is, the others on what it left (R291 (a), (b)). -/
theorem updateAll_cons_ok {o : DrawOrder} {fuel : Nat} {u : UnitId} {rest : List UnitId} {pools : Pools}
    {src : KeystreamSource} {x : Pools × KeystreamSource} (h : updateAll o fuel (u :: rest) pools src = some x) :
    ∃ pools' src', updateStage o fuel u pools src = some (pools', src') ∧ updateAll o fuel rest pools' src' = some x := by
  unfold updateAll at h
  split at h
  · cases h
  · rename_i pools' src' hs
    exact ⟨pools', src', hs, h⟩

/-- A list reordered by a permutation of its places has the same elements. -/
theorem reorder_perm {α : Type} (how : Reordering) {a : List Nat} {xs : List α} (h : a.Perm (List.range xs.length)) :
    (reorder how a xs).Perm xs := by
  have places : (List.range xs.length).filterMap (fun i => xs[i]?) = xs := by
    clear h
    induction xs with
    | nil => rfl
    | cons x xs ih => simp [List.range_succ_eq_map, List.filterMap_map, ih]
  have hn : a.Nodup := h.nodup_iff.2 List.nodup_range
  cases how with
  | takes => exact (h.filterMap _).trans (.of_eq places)
  | goesTo =>
    have hi : a.map a.idxOf = List.range a.length :=
      List.ext_getElem (by simp) fun i _ _ => by simp [hn.idxOf_getElem]
    have hp : ((List.range a.length).map a.idxOf).Perm (List.range xs.length) := by
      have := h.length_eq
      simp only [List.length_range] at this
      rw [this]
      exact (h.symm.map _).trans (.of_eq (by rw [hi, this]))
    have := (hp.filterMap fun i => xs[i]?).trans (.of_eq places)
    rwa [List.filterMap_map] at this

/-- The stage order of step 8: the eight keyed stages, each once, and the counter ninth (R290). -/
theorem keyed_order_perm {b : BootDetail} {a : List Nat} (hb : b.ok) (ha : a.Perm (List.range 8)) :
    (reorder b.ordering a b.keyed).Perm keyedUnits :=
  (reorder_perm _ (by rw [hb.2.2.2.1.length_eq]; exact ha)).trans hb.2.2.2.1

/-- What a bootstrap that completes has done: the steps of R290, in order, on one block. -/
theorem bootstrap_ok {o : DrawOrder} {b : BootDetail} {d : Dir} {fuel : Nat} {s t : State}
    (h : bootstrap o b d fuel s = some t) :
    o.ok ∧ b.ok ∧ ∃ src shuffled src1 unused src2 a src3 v rs,
      bootSource b s = some src ∧ shufflePools b fuel src = some (shuffled, src1) ∧
      updateAll o fuel b.updates shuffled src1 = some (unused, src2) ∧ permDraw fuel 8 src2 = some (a, src3) ∧
      closePipeline src3.block = some v ∧
      runActions (bootOrder (reorder b.ordering a b.keyed) ++ bootStart d) v = some (rs, t) := by
  unfold bootstrap at h
  split at h
  · rename_i hok
    refine ⟨hok.1, hok.2, ?_⟩
    split at h
    · cases h
    · rename_i src2 hk
      unfold bootKeys at hk
      split at hk
      · cases hk
      · rename_i src hs
        split at hk
        · cases hk
        · rename_i shuffled src1 hp
          obtain ⟨⟨unused, _⟩, hu, rfl⟩ := Option.map_eq_some_iff.1 hk
          unfold bootFinish at h
          split at h
          · cases h
          · rename_i a src3 ha
            split at h
            · cases h
            · rename_i v hv
              obtain ⟨⟨rs, _⟩, hr, rfl⟩ := Option.map_eq_some_iff.1 h
              exact ⟨src, shuffled, src1, unused, _, a, src3, v, rs, hs, hp, hu, ha, hv, hr⟩
  · cases h

end Sys2Proof.Machine
end

