-- ==== Sys2Proof/Laws/PerInstr.lean ====
section
/-! SUPPORT. The family `WordShape`, one lemma per command: the word of a command carries its opcode in bits 31:24 and its operand bits
below (30_encoding R101), and its opcode is listed (R104, R106). -/

namespace Sys2Proof.Laws

/-- The word of `i` has the opcode of `i` above the operand bits of `i`, and that opcode is listed (30_encoding R101, R106). -/
def WordShape.Statement (i : Instr) : Prop :=
  opcodeField (encode i) = opcodeOf i ∧ (encode i).extractLsb' 0 24 = operandBits i ∧
    (opcodeForm (opcodeOf i).toNat).isSome = true

/-- The two fields of a word put together from them. -/
theorem WordShape.fields (op : Byte) (low : BitVec 24) :
    (op ++ low).extractLsb' 24 8 = op ∧ (op ++ low).extractLsb' 0 24 = low := by
  have h (k : Nat) : (op ++ low).getLsbD k = if k < 24 then low.getLsbD k else op.getLsbD (k - 24) :=
    BitVec.getLsbD_append
  constructor
  · refine BitVec.eq_of_getLsbD_eq fun k hk => ?_
    simp [h, hk]
  · refine BitVec.eq_of_getLsbD_eq fun k hk => ?_
    simp [h, hk]

theorem WordShape.nop : WordShape.Statement .nop := ⟨(WordShape.fields _ _).1, (WordShape.fields _ _).2, rfl⟩

theorem WordShape.engInit : WordShape.Statement .engInit := ⟨(WordShape.fields _ _).1, (WordShape.fields _ _).2, rfl⟩

theorem WordShape.engSetdir (d : Byte) : WordShape.Statement (.engSetdir d) := ⟨(WordShape.fields _ _).1, (WordShape.fields _ _).2, rfl⟩

theorem WordShape.engBuild : WordShape.Statement .engBuild := ⟨(WordShape.fields _ _).1, (WordShape.fields _ _).2, rfl⟩

theorem WordShape.engSetindex : WordShape.Statement .engSetindex := ⟨(WordShape.fields _ _).1, (WordShape.fields _ _).2, rfl⟩

theorem WordShape.engIndex : WordShape.Statement .engIndex := ⟨(WordShape.fields _ _).1, (WordShape.fields _ _).2, rfl⟩

theorem WordShape.wcAdd : WordShape.Statement .wcAdd := ⟨(WordShape.fields _ _).1, (WordShape.fields _ _).2, rfl⟩

theorem WordShape.wcSub : WordShape.Statement .wcSub := ⟨(WordShape.fields _ _).1, (WordShape.fields _ _).2, rfl⟩

theorem WordShape.wcMul : WordShape.Statement .wcMul := ⟨(WordShape.fields _ _).1, (WordShape.fields _ _).2, rfl⟩

theorem WordShape.wcDiv : WordShape.Statement .wcDiv := ⟨(WordShape.fields _ _).1, (WordShape.fields _ _).2, rfl⟩

theorem WordShape.wcDivmod : WordShape.Statement .wcDivmod := ⟨(WordShape.fields _ _).1, (WordShape.fields _ _).2, rfl⟩

theorem WordShape.wcMod : WordShape.Statement .wcMod := ⟨(WordShape.fields _ _).1, (WordShape.fields _ _).2, rfl⟩

theorem WordShape.wcInc : WordShape.Statement .wcInc := ⟨(WordShape.fields _ _).1, (WordShape.fields _ _).2, rfl⟩

theorem WordShape.wcIszero : WordShape.Statement .wcIszero := ⟨(WordShape.fields _ _).1, (WordShape.fields _ _).2, rfl⟩

theorem WordShape.wcParse : WordShape.Statement .wcParse := ⟨(WordShape.fields _ _).1, (WordShape.fields _ _).2, rfl⟩

theorem WordShape.wcTostr : WordShape.Statement .wcTostr := ⟨(WordShape.fields _ _).1, (WordShape.fields _ _).2, rfl⟩

theorem WordShape.rotConstruct (u : UnitCode) : WordShape.Statement (.rotConstruct u) := ⟨(WordShape.fields _ _).1, (WordShape.fields _ _).2, rfl⟩

theorem WordShape.rotApplyf (u : UnitCode) : WordShape.Statement (.rotApplyf u) := ⟨(WordShape.fields _ _).1, (WordShape.fields _ _).2, rfl⟩

theorem WordShape.rotApplyg (u : UnitCode) : WordShape.Statement (.rotApplyg u) := ⟨(WordShape.fields _ _).1, (WordShape.fields _ _).2, rfl⟩

theorem WordShape.rotSetindex (u : UnitCode) : WordShape.Statement (.rotSetindex u) := ⟨(WordShape.fields _ _).1, (WordShape.fields _ _).2, rfl⟩

theorem WordShape.rotIndex (u : UnitCode) : WordShape.Statement (.rotIndex u) := ⟨(WordShape.fields _ _).1, (WordShape.fields _ _).2, rfl⟩

theorem WordShape.rotUpdate (u : UnitCode) : WordShape.Statement (.rotUpdate u) := ⟨(WordShape.fields _ _).1, (WordShape.fields _ _).2, rfl⟩

theorem WordShape.rotDump (u : UnitCode) : WordShape.Statement (.rotDump u) := ⟨(WordShape.fields _ _).1, (WordShape.fields _ _).2, rfl⟩

theorem WordShape.prmConstruct (u : UnitCode) : WordShape.Statement (.prmConstruct u) := ⟨(WordShape.fields _ _).1, (WordShape.fields _ _).2, rfl⟩

theorem WordShape.prmApplyf (u : UnitCode) : WordShape.Statement (.prmApplyf u) := ⟨(WordShape.fields _ _).1, (WordShape.fields _ _).2, rfl⟩

theorem WordShape.prmApplyg (u : UnitCode) : WordShape.Statement (.prmApplyg u) := ⟨(WordShape.fields _ _).1, (WordShape.fields _ _).2, rfl⟩

theorem WordShape.prmSetindex (u : UnitCode) : WordShape.Statement (.prmSetindex u) := ⟨(WordShape.fields _ _).1, (WordShape.fields _ _).2, rfl⟩

theorem WordShape.prmIndex (u : UnitCode) : WordShape.Statement (.prmIndex u) := ⟨(WordShape.fields _ _).1, (WordShape.fields _ _).2, rfl⟩

theorem WordShape.prmUpdate (u : UnitCode) : WordShape.Statement (.prmUpdate u) := ⟨(WordShape.fields _ _).1, (WordShape.fields _ _).2, rfl⟩

theorem WordShape.prmDump (u : UnitCode) : WordShape.Statement (.prmDump u) := ⟨(WordShape.fields _ _).1, (WordShape.fields _ _).2, rfl⟩

theorem WordShape.prmAdvance (u : UnitCode) : WordShape.Statement (.prmAdvance u) := ⟨(WordShape.fields _ _).1, (WordShape.fields _ _).2, rfl⟩

theorem WordShape.prmRebuild (u : UnitCode) : WordShape.Statement (.prmRebuild u) := ⟨(WordShape.fields _ _).1, (WordShape.fields _ _).2, rfl⟩

theorem WordShape.ctrReset : WordShape.Statement .ctrReset := ⟨(WordShape.fields _ _).1, (WordShape.fields _ _).2, rfl⟩

theorem WordShape.ctrApplyf : WordShape.Statement .ctrApplyf := ⟨(WordShape.fields _ _).1, (WordShape.fields _ _).2, rfl⟩

theorem WordShape.ctrApplyg : WordShape.Statement .ctrApplyg := ⟨(WordShape.fields _ _).1, (WordShape.fields _ _).2, rfl⟩

theorem WordShape.ctrSetindex : WordShape.Statement .ctrSetindex := ⟨(WordShape.fields _ _).1, (WordShape.fields _ _).2, rfl⟩

theorem WordShape.ctrIndex : WordShape.Statement .ctrIndex := ⟨(WordShape.fields _ _).1, (WordShape.fields _ _).2, rfl⟩

theorem WordShape.ctrUpdate : WordShape.Statement .ctrUpdate := ⟨(WordShape.fields _ _).1, (WordShape.fields _ _).2, rfl⟩

theorem WordShape.bitGet (n : Byte) : WordShape.Statement (.bitGet n) := ⟨(WordShape.fields _ _).1, (WordShape.fields _ _).2, rfl⟩

theorem WordShape.bitSet (n : Byte) : WordShape.Statement (.bitSet n) := ⟨(WordShape.fields _ _).1, (WordShape.fields _ _).2, rfl⟩

theorem WordShape.bitClr (n : Byte) : WordShape.Statement (.bitClr n) := ⟨(WordShape.fields _ _).1, (WordShape.fields _ _).2, rfl⟩

end Sys2Proof.Laws
end

