-- ==== Sys2Proof/Laws/WideCounter.lean ====
section
/-! SUPPORT. The laws of decimal strings (44_wide_counter R260 to R268): what the scan of WC.PARSE answers, the digits WC.TOSTR
writes, and that the one undoes the other. -/

namespace Sys2Proof.Machine

/-! ### The scan -/

/-- The number a digit string continues `v` to. -/
theorem foldl_digits_ge (l : List Byte) (v : Nat) :
    v ≤ l.foldl (fun v ch => v * 10 + (ch.toNat - 0x30)) v := by
  induction l generalizing v with
  | nil => exact Nat.le_refl v
  | cons ch t ih =>
    refine Nat.le_trans ?_ (ih _)
    show v ≤ v * 10 + (ch.toNat - 0x30)
    omega

/-- A string of digits whose number fits 128 bits is accepted (R262). -/
theorem parseDigits_of_fits {l : List Byte} {acc : Nat} (hd : ∀ ch ∈ l, isDigit ch = true)
    (hv : l.foldl (fun v ch => v * 10 + (ch.toNat - 0x30)) acc < 2 ^ 128) :
    parseDigits acc l = .ok (l.foldl (fun v ch => v * 10 + (ch.toNat - 0x30)) acc) := by
  induction l generalizing acc with
  | nil => rfl
  | cons ch t ih =>
    have h1 := foldl_digits_ge t (acc * 10 + (ch.toNat - 0x30))
    simp only [List.foldl_cons] at hv ⊢
    have h2 : ¬ (acc * 10 ≥ Config.wideLimit) := by simp only [Config.wideLimit]; omega
    have h3 : ¬ (acc * 10 + (ch.toNat - 0x30) ≥ Config.wideLimit) := by simp only [Config.wideLimit]; omega
    rw [parseDigits, if_pos (hd ch (by simp)), if_neg h2, if_neg h3]
    exact ih (fun c hc => hd c (by simp [hc])) hv

/-- The scan goes through an accepted prefix. -/
theorem parseDigits_append {pre : List Byte} {acc : Nat} {rest : List Byte} {v : Nat} (h : parseDigits acc pre = .ok v) :
    parseDigits acc (pre ++ rest) = parseDigits v rest := by
  induction pre generalizing acc with
  | nil =>
    cases h
    rfl
  | cons ch t ih =>
    rw [List.cons_append, parseDigits]
    rw [parseDigits] at h
    split at h
    · split at h
      · cases h
      · split at h
        · cases h
        · rename_i c1 c2 c3
          rw [if_pos c1, if_neg c2, if_neg c3]
          exact ih h
    · cases h

/-- What the scan accepts is a string of digits, and the answer is its number. -/
theorem parseDigits_ok {l : List Byte} {acc v : Nat} (h : parseDigits acc l = .ok v) (ha : acc < 2 ^ 128) :
    (∀ ch ∈ l, isDigit ch = true) ∧ v = l.foldl (fun v ch => v * 10 + (ch.toNat - 0x30)) acc ∧ v < 2 ^ 128 := by
  induction l generalizing acc with
  | nil =>
    cases h
    exact ⟨by simp, rfl, ha⟩
  | cons ch t ih =>
    rw [parseDigits] at h
    split at h
    · split at h
      · cases h
      · split at h
        · cases h
        · rename_i c1 c2 c3
          obtain ⟨h1, h2, h3⟩ := ih h (Nat.lt_of_not_le c3)
          refine ⟨?_, h2, h3⟩
          intro c hc
          rcases List.mem_cons.1 hc with rfl | hc
          · exact c1
          · exact h1 c hc
    · cases h

/-! ### The digits -/

/-- The digits of the loop are the decimal digits. -/
theorem digitsLow_eq {fuel x : Nat} (h : x < 10 ^ fuel) : digitsLow fuel x = Nat.digits 10 x := by
  induction fuel generalizing x with
  | zero =>
    have : x = 0 := by simpa using h
    subst this
    simp [digitsLow]
  | succ n ih =>
    rw [digitsLow]
    by_cases h0 : x = 0
    · subst h0
      simp
    · have hp : 0 < x := Nat.pos_of_ne_zero h0
      rw [if_neg h0, Nat.digits_def' (by norm_num) hp, ih]
      rw [Nat.pow_succ] at h
      exact Nat.div_lt_of_lt_mul (by omega)

theorem pow128_lt : (2 : Nat) ^ 128 < 10 ^ 39 := by norm_num

/-- The characters of a non-zero value: its decimal digits, most significant first. -/
theorem decimalString_pos {x : Nat} (h0 : x ≠ 0) (hx : x < 2 ^ 128) :
    decimalString x = (Nat.digits 10 x).reverse.map fun d => BitVec.ofNat 8 (0x30 + d) := by
  rw [decimalString, if_neg h0, digitsLow_eq (Nat.lt_trans hx pow128_lt)]

theorem decimalString_zero : decimalString 0 = [0x30#8] := rfl

/-- One to 39 characters (R266 (c)). -/
theorem decimalString_length {x : Nat} (hx : x < 2 ^ 128) :
    1 ≤ (decimalString x).length ∧ (decimalString x).length ≤ 39 := by
  by_cases h0 : x = 0
  · subst h0
    simp [decimalString_zero]
  · rw [decimalString_pos h0 hx, List.length_map, List.length_reverse]
    have hne : Nat.digits 10 x ≠ [] := Nat.digits_ne_nil_iff_ne_zero.2 h0
    have h1 : 0 < (Nat.digits 10 x).length := List.length_pos_iff.2 hne
    have h2 : (Nat.digits 10 x).length ≤ 39 := (Nat.digits_length_le_iff (by norm_num) x).2 (Nat.lt_trans hx pow128_lt)
    omega

/-- The character of a digit has the digit's value. -/
theorem digit_char {d : Nat} (h : d < 10) :
    isDigit (BitVec.ofNat 8 (0x30 + d)) = true ∧ (BitVec.ofNat 8 (0x30 + d)).toNat - 0x30 = d := by
  have : (BitVec.ofNat 8 (0x30 + d)).toNat = 0x30 + d := by rw [BitVec.toNat_ofNat]; omega
  refine ⟨?_, by omega⟩
  simp only [isDigit, this, decide_eq_true_eq]
  omega

/-- The number a list of digit characters continues `v` to. -/
theorem foldl_digit_chars (l : List Nat) (h : ∀ d ∈ l, d < 10) (v : Nat) :
    (l.map fun d => BitVec.ofNat 8 (0x30 + d)).foldl (fun v ch => v * 10 + (ch.toNat - 0x30)) v =
      l.foldl (fun v d => v * 10 + d) v := by
  induction l generalizing v with
  | nil => rfl
  | cons d t ih =>
    rw [List.map_cons, List.foldl_cons, List.foldl_cons, (digit_char (h d (by simp))).2, ih fun e he => h e (by simp [he])]

theorem foldl_reverse_digits (l : List Nat) : l.reverse.foldl (fun v d => v * 10 + d) 0 = Nat.ofDigits 10 l := by
  rw [List.foldl_reverse]
  induction l with
  | nil => rfl
  | cons d t ih =>
    rw [List.foldr_cons, ih, Nat.ofDigits_cons]
    ring

/-- The string of a value is a string of digits that stands for the value (R268). -/
theorem decimalString_spec {x : Nat} (hx : x < 2 ^ 128) :
    (∀ ch ∈ decimalString x, isDigit ch = true) ∧ decimalValue (decimalString x) = x := by
  by_cases h0 : x = 0
  · subst h0
    exact ⟨by simp [decimalString_zero, isDigit], rfl⟩
  · have hd : ∀ d ∈ (Nat.digits 10 x).reverse, d < 10 := fun d hm =>
      Nat.digits_lt_base (by norm_num) (List.mem_reverse.1 hm)
    rw [decimalString_pos h0 hx]
    refine ⟨?_, ?_⟩
    · intro ch hm
      obtain ⟨d, hdm, rfl⟩ := List.mem_map.1 hm
      exact (digit_char (hd d hdm)).1
    · rw [decimalValue, foldl_digit_chars _ hd, foldl_reverse_digits, Nat.ofDigits_digits]

/-- Parsing the string of a value gives the value (R268). -/
theorem parseDigits_decimalString {x : Nat} (hx : x < 2 ^ 128) : parseDigits 0 (decimalString x) = .ok x := by
  obtain ⟨h1, h2⟩ := decimalString_spec hx
  have := parseDigits_of_fits (acc := 0) h1 (by rw [← decimalValue, h2]; exact hx)
  rw [← decimalValue, h2] at this
  exact this

end Sys2Proof.Machine
end

