-- ==== Sys2Proof/Tests/Slice0.lean ====
section
/-! SUPPORT. The model's own tests. The expected results are the spec's: the encodings of 30_encoding R101 to R112 and the vectors of
95_test_vectors (named V-... in the comments). A `witness_` theorem shows a state that meets every hypothesis of a statement. -/

namespace Sys2Proof.Tests

set_option Elab.async false

open Sys2Proof.Machine

/-! ### Well-formedness refuses a unit id outside its group (30_encoding R103 step 4, R104) -/

theorem test_ill_formed_rotConstruct : WellFormed (.rotConstruct 6#4) = false ∧ WellFormed (.rotConstruct 15#4) = false := by decide

theorem test_ill_formed_rotApplyf : WellFormed (.rotApplyf 6#4) = false ∧ WellFormed (.rotApplyf 15#4) = false := by decide

theorem test_ill_formed_rotApplyg : WellFormed (.rotApplyg 6#4) = false ∧ WellFormed (.rotApplyg 15#4) = false := by decide

theorem test_ill_formed_rotSetindex : WellFormed (.rotSetindex 6#4) = false ∧ WellFormed (.rotSetindex 15#4) = false := by decide

theorem test_ill_formed_rotIndex : WellFormed (.rotIndex 6#4) = false ∧ WellFormed (.rotIndex 15#4) = false := by decide

theorem test_ill_formed_rotUpdate : WellFormed (.rotUpdate 6#4) = false ∧ WellFormed (.rotUpdate 15#4) = false := by decide

theorem test_ill_formed_rotDump : WellFormed (.rotDump 6#4) = false ∧ WellFormed (.rotDump 15#4) = false := by decide

theorem test_ill_formed_prmConstruct : WellFormed (.prmConstruct 5#4) = false ∧ WellFormed (.prmConstruct 8#4) = false := by decide

theorem test_ill_formed_prmApplyf : WellFormed (.prmApplyf 5#4) = false ∧ WellFormed (.prmApplyf 8#4) = false := by decide

theorem test_ill_formed_prmApplyg : WellFormed (.prmApplyg 5#4) = false ∧ WellFormed (.prmApplyg 8#4) = false := by decide

theorem test_ill_formed_prmSetindex : WellFormed (.prmSetindex 5#4) = false ∧ WellFormed (.prmSetindex 8#4) = false := by decide

theorem test_ill_formed_prmIndex : WellFormed (.prmIndex 5#4) = false ∧ WellFormed (.prmIndex 8#4) = false := by decide

theorem test_ill_formed_prmUpdate : WellFormed (.prmUpdate 5#4) = false ∧ WellFormed (.prmUpdate 8#4) = false := by decide

theorem test_ill_formed_prmDump : WellFormed (.prmDump 5#4) = false ∧ WellFormed (.prmDump 8#4) = false := by decide

theorem test_ill_formed_prmAdvance : WellFormed (.prmAdvance 5#4) = false ∧ WellFormed (.prmAdvance 8#4) = false := by decide

theorem test_ill_formed_prmRebuild : WellFormed (.prmRebuild 5#4) = false ∧ WellFormed (.prmRebuild 8#4) = false := by decide

/-- The edges of the two ranges are well-formed. -/
theorem test_well_formed_edges :
    WellFormed (.rotDump 0#4) = true ∧ WellFormed (.rotDump 5#4) = true ∧ WellFormed (.prmDump 6#4) = true ∧
      WellFormed (.prmDump 7#4) = true := by decide

/-! ### Decoding, one word per constructor, written out from 30_encoding R101, R106 -/

theorem test_decode_nop : decode 0x00000000#32 = .ok .nop := by decide

theorem test_decode_engInit : decode 0x01000000#32 = .ok .engInit := by decide

theorem test_decode_engSetdir : decode 0x02000001#32 = .ok (.engSetdir 1#8) := by decide

theorem test_decode_engBuild : decode 0x03000000#32 = .ok .engBuild := by decide

theorem test_decode_engSetindex : decode 0x04000000#32 = .ok .engSetindex := by decide

theorem test_decode_engIndex : decode 0x05000000#32 = .ok .engIndex := by decide

theorem test_decode_wcAdd : decode 0x10000000#32 = .ok .wcAdd := by decide

theorem test_decode_wcSub : decode 0x11000000#32 = .ok .wcSub := by decide

theorem test_decode_wcMul : decode 0x12000000#32 = .ok .wcMul := by decide

theorem test_decode_wcDiv : decode 0x13000000#32 = .ok .wcDiv := by decide

theorem test_decode_wcDivmod : decode 0x14000000#32 = .ok .wcDivmod := by decide

theorem test_decode_wcMod : decode 0x15000000#32 = .ok .wcMod := by decide

theorem test_decode_wcInc : decode 0x16000000#32 = .ok .wcInc := by decide

theorem test_decode_wcIszero : decode 0x17000000#32 = .ok .wcIszero := by decide

theorem test_decode_wcParse : decode 0x18000000#32 = .ok .wcParse := by decide

theorem test_decode_wcTostr : decode 0x19000000#32 = .ok .wcTostr := by decide

theorem test_decode_rotConstruct : decode 0x20000000#32 = .ok (.rotConstruct 0#4) := by decide

theorem test_decode_rotApplyf : decode 0x21100000#32 = .ok (.rotApplyf 1#4) := by decide

theorem test_decode_rotApplyg : decode 0x22200000#32 = .ok (.rotApplyg 2#4) := by decide

theorem test_decode_rotSetindex : decode 0x23300000#32 = .ok (.rotSetindex 3#4) := by decide

theorem test_decode_rotIndex : decode 0x24400000#32 = .ok (.rotIndex 4#4) := by decide

theorem test_decode_rotUpdate : decode 0x25500000#32 = .ok (.rotUpdate 5#4) := by decide

theorem test_decode_rotDump : decode 0x26000000#32 = .ok (.rotDump 0#4) := by decide

theorem test_decode_prmConstruct : decode 0x30600000#32 = .ok (.prmConstruct 6#4) := by decide

theorem test_decode_prmApplyf : decode 0x31700000#32 = .ok (.prmApplyf 7#4) := by decide

theorem test_decode_prmApplyg : decode 0x32600000#32 = .ok (.prmApplyg 6#4) := by decide

theorem test_decode_prmSetindex : decode 0x33700000#32 = .ok (.prmSetindex 7#4) := by decide

theorem test_decode_prmIndex : decode 0x34600000#32 = .ok (.prmIndex 6#4) := by decide

theorem test_decode_prmUpdate : decode 0x35700000#32 = .ok (.prmUpdate 7#4) := by decide

theorem test_decode_prmDump : decode 0x36600000#32 = .ok (.prmDump 6#4) := by decide

theorem test_decode_prmAdvance : decode 0x37700000#32 = .ok (.prmAdvance 7#4) := by decide

theorem test_decode_prmRebuild : decode 0x38600000#32 = .ok (.prmRebuild 6#4) := by decide

theorem test_decode_ctrReset : decode 0x40800000#32 = .ok .ctrReset := by decide

theorem test_decode_ctrApplyf : decode 0x41800000#32 = .ok .ctrApplyf := by decide

theorem test_decode_ctrApplyg : decode 0x42800000#32 = .ok .ctrApplyg := by decide

theorem test_decode_ctrSetindex : decode 0x43800000#32 = .ok .ctrSetindex := by decide

theorem test_decode_ctrIndex : decode 0x44800000#32 = .ok .ctrIndex := by decide

theorem test_decode_ctrUpdate : decode 0x45800000#32 = .ok .ctrUpdate := by decide

theorem test_decode_bitGet : decode 0x500000FF#32 = .ok (.bitGet 255#8) := by decide

theorem test_decode_bitSet : decode 0x510000C8#32 = .ok (.bitSet 200#8) := by decide

theorem test_decode_bitClr : decode 0x5200001F#32 = .ok (.bitClr 31#8) := by decide

/-- V-ENC-2 to V-ENC-7: words that are no command. -/
theorem test_decode_illegal :
    decode 0x00000001#32 = .error (.mustBeZero 0xF#4) ∧ decode 0x1A000000#32 = .error .unknownOpcode ∧
      decode 0x53000000#32 = .error .unknownOpcode ∧ decode 0xFF000000#32 = .error .unknownOpcode ∧
      decode 0x30500000#32 = .error (.unitRange 5#4) ∧ decode 0x30800000#32 = .error (.unitRange 8#4) ∧
      decode 0x21300001#32 = .error (.mustBeZero 3#4) ∧ decode 0x50000100#32 = .error (.mustBeZero 0xF#4) := by decide

/-- The table's numbering: a command word is one 32-bit value. -/
theorem test_decodeTableWord :
    decodeTableWord 32 0x21300000 = some (.rotApplyf 3#4) ∧ decodeTableWord 32 0x06000000 = none := by decide

/-! ### Reset, the step, and the ports -/

/-- The state after a step; the state itself where the model stops. -/
def stepped (s : State) : State :=
  match step s with
  | .next t => t
  | .fault _ => s
  | .refused _ => s

/-- The state in which the host does `x` next. -/
def hostDoes (x : HostAction) (s : State) : State := { s with sched := [.host], hostq := [x] }

/-- The state after a command. -/
def after (i : Instr) (s : State) : State :=
  match exec i s with
  | .next t => t
  | .fault _ => s
  | .refused _ => s

/-- V-ENG-1: `STATUS` right after reset. -/
theorem test_reset_status : statusWord State.reset = 0x400#64 := by decide +kernel

/-- V-REG-1: `ID`. -/
theorem test_read_id :
    (stepped (hostDoes (.rd 0x000) State.reset)).replies = [.value 0x544E544500070001#64] := by decide +kernel

/-- V-REG-3: a register that is not implemented. -/
theorem test_read_unimplemented :
    let t := stepped (hostDoes (.rd 0x999) State.reset)
    t.replies = [.value 0] ∧ faultWord t.fault = 0x2F03#64 ∧ t.fcmd = 0x999#64 ∧ t.faulted = true := by decide +kernel

/-- V-REG-4: a read-only register. -/
theorem test_write_readonly :
    let t := stepped (hostDoes (.wr 0x013 1) State.reset)
    faultWord t.fault = 0x2F03#64 ∧ t.fcmd = 0x013#64 ∧ t.wrem = 0#64 := by decide +kernel

/-- V-REG-6: the last word of the staging memory, least significant byte first. -/
theorem test_write_stg :
    readBytes (stepped (hostDoes (.wr 0x17F 0x1122334455667788) State.reset)).stg 1016 8 =
      [0x88, 0x77, 0x66, 0x55, 0x44, 0x33, 0x22, 0x11] := by decide +kernel

/-- V-ENG-15: an over-long push. -/
theorem test_push_too_long :
    let t := stepped (hostDoes (.push (List.replicate 33 0#8)) State.reset)
    faultWord t.fault = 0x3F40#64 ∧ t.fcmd = 0x21#64 := by decide +kernel

/-- V-ENC-1, and how a table word comes to run first. -/
theorem test_withFetchWord :
    (stepped (State.reset.withFetchWord 32 0x01000000)).estate = .initialized ∧
      stepped (State.reset.withFetchWord 32 0x00000000) = State.reset := by decide +kernel

/-- A `RESET` gives up a blocked `POP` (70_reset R390). -/
theorem test_reset_while_blocked :
    let t := stepped { State.reset with nst := 3, sched := [.hostReset], hostq := [.pop, .reset, .rd 0] }
    t.nst = 0 ∧ t.hostq = [.rd 0] := by decide +kernel

/-! ### Wide-counter unit -/

/-- A state with `WACC` = `hi:lo` and `WOP` = `op`. -/
def wide (hi lo op : Word) : State := { State.reset with waccHi := hi, waccLo := lo, wop := op }

/-- `WACC` as `hi:lo`, and the fault word. -/
def wideResult (s : State) : Word × Word × Word := (s.waccHi, s.waccLo, faultWord s.fault)

/-- V-WC-1 and V-WC-3. -/
theorem test_wcAdd :
    wideResult (after .wcAdd (wide 0 0xFFFFFFFFFFFFFFFF 1)) = (1, 0, 0) ∧
      wideResult (after .wcAdd (wide 0xFFFFFFFFFFFFFFFF 0xFFFFFFFFFFFFFFFF 1)) =
        (0xFFFFFFFFFFFFFFFF, 0xFFFFFFFFFFFFFFFF, 0x0F10) := by decide +kernel

/-- V-WC-4 and V-WC-5. -/
theorem test_wcSub :
    wideResult (after .wcSub (wide 1 0 1)) = (0, 0xFFFFFFFFFFFFFFFF, 0) ∧
      wideResult (after .wcSub (wide 0 5 6)) = (0, 5, 0x0F11) := by decide +kernel

/-- V-WC-7 and V-WC-8. -/
theorem test_wcMul :
    wideResult (after .wcMul (wide 0x0123456789ABCDEF 0xFEDCBA9876543210 0x10)) =
        (0x123456789ABCDEFF, 0xEDCBA98765432100, 0) ∧
      wideResult (after .wcMul (wide 0x8000000000000000 0 2)) = (0x8000000000000000, 0, 0x0F12) := by decide +kernel

/-- V-WC-9 and V-WC-15. -/
theorem test_wcDiv :
    wideResult (after .wcDiv (wide 1 0 3)) = (0, 0x5555555555555555, 0) ∧ (after .wcDiv (wide 1 0 3)).wrem = 0 ∧
      wideResult (after .wcDiv (wide 1 0 0)) = (1, 0, 0x0F13) := by decide +kernel

/-- V-WC-14. -/
theorem test_wcDivmod :
    let t := after .wcDivmod (wide 0x00EDC4E57E669EB5 0x2D3A8E6E7C9F4B87 1000000007)
    wideResult t = (0x0000000003FD35EA, 0xF58B03F0628CF44C, 0) ∧ t.wrem = 0x1848A573#64 := by decide +kernel

/-- V-WC-11. -/
theorem test_wcMod :
    let t := after .wcMod (wide 1 0 3)
    wideResult t = (1, 0, 0) ∧ t.wrem = 1#64 := by decide +kernel

/-- V-WC-16 and V-WC-17. -/
theorem test_wcInc :
    wideResult (after .wcInc (wide 0 0xFFFFFFFFFFFFFFFF 0)) = (1, 0, 0) ∧
      (faultWord (after .wcInc (wide 0xFFFFFFFFFFFFFFFF 0xFFFFFFFFFFFFFFFF 0)).fault) = 0x0F14#64 := by decide +kernel

/-- V-WC-18 and V-WC-19. -/
theorem test_wcIszero :
    (after .wcIszero (wide 0 0 0)).flagZ = true ∧ (after .wcIszero { wide 1 0 0 with flagZ := true }).flagZ = false := by
  decide +kernel

/-- A state with a string in `WSTR`. -/
def withString (bytes : List Byte) : State :=
  { State.reset with wstr := writeBytes [] 0 bytes, wstrLen := BitVec.ofNat 7 bytes.length }

/-- V-WC-25 and V-WC-26. -/
theorem test_wcParse :
    wideResult (after .wcParse (withString [0x30, 0x30, 0x30, 0x31, 0x32, 0x33])) = (0, 123, 0) ∧
      wideResult (after .wcParse (withString [0x31, 0x32, 0x61, 0x34])) = (0, 0, 0x0F15) := by decide +kernel

/-- V-WC-20, and S2 the other way: the digits of 1234567890, zero bytes above. -/
theorem test_wcTostr :
    let t := after .wcTostr (wide 0 1234567890 0)
    (after .wcTostr (wide 0 0 0)).wstrLen = 1 ∧ wordAt (after .wcTostr (wide 0 0 0)).wstr 0 = 0x30 ∧
      t.wstrLen = 10 ∧ wordAt t.wstr 0 = 0x3837363534333231 ∧ wordAt t.wstr 1 = 0x3039 ∧ wordAt t.wstr 2 = 0 := by
  decide +kernel

/-! ### Bit primitives -/

/-- `blk.load 4, 81 00 10 FF`. -/
def bits : State := { State.reset with blk := writeBytes [] 0 [0x81, 0x00, 0x10, 0xFF], blkLen := 4 }

/-- V-BIT-4 and V-BIT-8. -/
theorem test_bitGet :
    (after (.bitGet 20) bits).flagB = true ∧ faultWord (after (.bitGet 32) bits).fault = 0x0F41#64 := by decide +kernel

/-- V-BIT-5. -/
theorem test_bitSet : wordAt (after (.bitSet 9) bits).blk 0 = 0xFF100281#64 := by decide +kernel

/-- V-BIT-6 and V-BIT-7. -/
theorem test_bitClr :
    wordAt (after (.bitClr 31) bits).blk 0 = 0x7F100081#64 ∧ (after (.bitClr 8) bits).blk = bits.blk := by decide +kernel

/-! ### Rotor -/

/-- The data of the rotor fixture `RT`. -/
def rotorData : List Byte := (List.range 33).map fun k => BitVec.ofNat 8 (37 * k + 11)

/-- The arguments of the rotor fixture, staged. -/
def rotorStaged : State := { State.reset with psize := 263, pstart := 5, pstep := 7, stg := writeBytes [] 0 rotorData }

/-- The rotor of the fixture. -/
def rotorFixture : Rotor := builtRotor Rotor.reset 263 5 7 rotorData

/-- The fixture in unit `r0`, and a block of `n` zero bytes. -/
def rotorState (n : Nat) : State := setRotor 0 rotorFixture { State.reset with blkLen := BitVec.ofNat 6 n }

/-- V-ROT-1: the mirror and the padding of the constructed unit. -/
theorem test_rotConstruct :
    let r := rotor (after (.rotConstruct 0) rotorStaged) 0
    readBytes r.buf 32 8 = [0xAB, 0x05, 0x98, 0x2A, 0xBD, 0x4F, 0xE2, 0x74] ∧ readBytes r.buf 63 3 = [0x30, 0x43, 0x00] ∧
      r.size = 263 ∧ r.start = 5 ∧ r.step = 7 ∧ r.current = 5 ∧ r.valid = true := by decide +kernel

/-- V-ROT-10: a step of 0. -/
theorem test_rotConstruct_fault :
    faultWord (after (.rotConstruct 0) { rotorStaged with pstep := 0 }).fault = 0x0020#64 := by decide +kernel

/-- V-ROT-3: zeros become the window. -/
theorem test_rotApplyf :
    let t := after (.rotApplyf 0) (rotorState 32)
    readBytes t.blk 0 8 = [0x80, 0xA9, 0xD2, 0xFB, 0x24, 0x4E, 0x77, 0x98] ∧ (rotor t 0).current = 12 := by decide +kernel

/-- V-ROT-11. -/
theorem test_rotApplyf_not_valid : faultWord (after (.rotApplyf 2) State.reset).fault = 0x0222#64 := by decide +kernel

/-- V-ROT-5, undone from the same `CURRENT` = 19. -/
theorem test_rotApplyg :
    let s := setRotor 0 { rotorFixture with current := 19 }
      { State.reset with blkLen := 3, blk := writeBytes [] 0 [0x3A, 0xEF, 0x93] }
    let t := after (.rotApplyg 0) s
    readBytes t.blk 0 4 = [0xF0, 0xFF, 0xFF, 0x00] ∧ (rotor t 0).current = 26 := by decide +kernel

/-- V-ROT-9: the largest index that does not fault, and the next. -/
theorem test_rotSetindex :
    let s := { rotorState 0 with waccHi := 0x2492492492492492, waccLo := 0x4924924924924923 }
    let t := { rotorState 0 with waccHi := 0x2492492492492492, waccLo := 0x4924924924924924 }
    (rotor (after (.rotSetindex 0) s) 0).current = 27 ∧ faultWord (after (.rotSetindex 0) t).fault = 0x0010#64 ∧
      (rotor (after (.rotSetindex 0) t) 0).current = 5 := by decide +kernel

/-- V-ROT-12. -/
theorem test_rotIndex : (after (.rotIndex 0) (rotorState 0)).untracked = true := by decide +kernel

/-- R160 of 41_rotor: an update of a unit that is not valid, and of one that is. -/
theorem test_rotUpdate :
    faultWord (after (.rotUpdate 0) rotorStaged).fault = 0x0022#64 ∧
      (rotor (after (.rotUpdate 0) (setRotor 0 { rotorFixture with current := 99 } rotorStaged)) 0).current = 5 := by
  decide +kernel

/-- V-ROT-13. -/
theorem test_rotDump :
    let t := after (.rotDump 0) (rotorState 0)
    t.psize = 263 ∧ t.pstart = 5 ∧ t.pstep = 7 ∧ readByte t.stg 32 = 0xAB ∧ readByte t.stg 64 = 0x43 := by decide +kernel

/-! ### Permutator. The results on the cut-down unit are hand calculations from 42_permutator R184 to R190: four rings of two. -/

/-- A permutator of eight entries: the rings are 3 0, 5 1, 7 2 and 4 6. -/
def smallPerm (c : BitVec 8) : Perm :=
  rebuild { len := #v[2, 2, 2, 2], start := #v[0, 2, 4, 6], cur := #v[c, c, c, c], cstate := c.setWidth 25, maxst := 16, valid := true
            randp := [(0, 3), (2, 5), (3, 1), (4, 7), (5, 2), (6, 4), (7, 6)], bperm := [] }

/-- It stands in unit `p0`, with a block of `n` bytes. -/
def permState (c : BitVec 8) (n : BitVec 6) (b : Mem) : State :=
  setPerm 0 (smallPerm c) { State.reset with blkLen := n, blk := b }

/-- V-PRM-9: lengths whose sum is 255, and a length of 0. -/
theorem test_prmConstruct_fault :
    faultWord (after (.prmConstruct 6) { State.reset with plen := #v[64, 64, 64, 63] }).fault = 0x0621#64 ∧
      faultWord (after (.prmConstruct 6) { State.reset with plen := #v[0, 64, 64, 128] }).fault = 0x0621#64 := by decide +kernel

/-- One tick: the two values of each ring change places. -/
theorem test_prmAdvance :
    let p := perm (after (.prmAdvance 6) (permState 0 0 [])) 0
    p.cur = #v[1, 1, 1, 1] ∧ p.cstate = 1 ∧ readBytes p.bperm 0 8 = [3, 5, 7, 0, 6, 1, 4, 2] := by decide +kernel

/-- 37 modulo 16 is 5, and 5 modulo 2 is 1. -/
theorem test_prmSetindex :
    let p := perm (after (.prmSetindex 6) { permState 0 0 [] with waccLo := 37 }) 0
    p.cstate = 5 ∧ p.cur = #v[1, 1, 1, 1] ∧ readBytes p.bperm 0 4 = [3, 5, 7, 0] := by decide +kernel

/-- Bits 0 and 1 go to bits 3 and 5, and the unit ticks after the block. -/
theorem test_prmApplyf :
    let t := after (.prmApplyf 6) (permState 1 32 [(0, 0x03)])
    t.blk = [(0, 0x28)] ∧ (perm t 0).cstate = 2 ∧ (perm t 0).cur = #v[0, 0, 0, 0] := by decide +kernel

/-- V-PRM-6: a short block passes, and the unit advances. -/
theorem test_prmApplyf_short :
    let t := after (.prmApplyf 6) (permState 0 3 [(0, 0x61), (1, 0x62), (2, 0x63)])
    t.blk = [(0, 0x61), (1, 0x62), (2, 0x63)] ∧ (perm t 0).cstate = 1 := by decide +kernel

/-- The way back of `test_prmApplyf`. -/
theorem test_prmApplyg : (after (.prmApplyg 6) (permState 1 32 [(0, 0x28)])).blk = [(0, 0x03)] := by decide +kernel

/-- V-PRM-10. -/
theorem test_prmIndex : (after (.prmIndex 6) (permState 0 0 [])).untracked = true := by decide +kernel

/-- R194 of 42_permutator: an update of a unit that is not valid, and one with bad lengths. -/
theorem test_prmUpdate :
    faultWord (after (.prmUpdate 6) State.reset).fault = 0x0622#64 ∧
      faultWord (after (.prmUpdate 6) (permState 1 0 [])).fault = 0x0621#64 := by decide +kernel

/-- Both tables and the lengths. -/
theorem test_prmDump :
    let t := after (.prmDump 6) (permState 1 0 [])
    t.plen = #v[2, 2, 2, 2] ∧ readBytes t.stg 0 4 = [3, 0, 5, 1] ∧ readBytes t.stg 256 4 = [3, 5, 7, 0] := by decide +kernel

/-- R185 of 42_permutator: nothing changes. -/
theorem test_prmRebuild : perm (after (.prmRebuild 6) (permState 1 0 [])) 0 = smallPerm 1 := by decide +kernel

/-! ### Counter -/

/-- A state with `IDX` = `n`. -/
def counted (n : BitVec 128) : State := { State.reset with idx := n, blkLen := 1, blk := [(0, 0x68)] }

theorem test_ctrReset : (after .ctrReset (counted 9)).idx = 0 := by decide +kernel

/-- V-CTR-1 and V-CTR-4. -/
theorem test_ctrApplyf :
    (after .ctrApplyf (counted 41)).idx = 42 ∧ (after .ctrApplyf (counted 41)).blk = [(0, 0x68)] ∧
      faultWord (after .ctrApplyf (counted 0xFFFFFFFFFFFFFFFFFFFFFFFFFFFFFFFF)).fault = 0x0814#64 := by decide +kernel

/-- V-CTR-2. -/
theorem test_ctrApplyg : (after .ctrApplyg (counted 42)).idx = 42 := by decide +kernel

/-- V-CTR-5. -/
theorem test_ctrSetindex : (after .ctrSetindex (wide 0 10000 0)).idx = 10000 := by decide +kernel

/-- V-CTR-6. -/
theorem test_ctrIndex :
    let t := after .ctrIndex { counted 10000 with untracked := true }
    t.waccLo = 10000 ∧ t.waccHi = 0 ∧ t.untracked = false := by decide +kernel

/-- V-CTR-7. -/
theorem test_ctrUpdate : after .ctrUpdate (counted 7) = counted 7 := by decide +kernel

/-! ### Engine -/

/-- `INITIALIZED`, `NST` = `n`, `ORDER` = `order`, direction `d`. -/
def engine (n : BitVec 4) (order : BitVec 36) (d : Dir) : State :=
  { State.reset with estate := .initialized, nst := n, order := order, dir := d }

theorem test_nop : after .nop (counted 3) = counted 3 := by decide +kernel

/-- V-ENG-11 on a fresh block and again. -/
theorem test_engInit :
    (after .engInit State.reset).estate = .initialized ∧
      faultWord (after .engInit (engine 0 0 .none)).fault = 0x0F02#64 := by decide +kernel

/-- V-ENC-8 and V-ENC-9. -/
theorem test_engSetdir :
    (after (.engSetdir 1) State.reset).dir = .encrypt ∧
      faultWord (after (.engSetdir 3) State.reset).fault = 0x0F31#64 := by decide +kernel

/-- V-ENG-9. -/
theorem test_engBuild :
    let t := after .engBuild (engine 1 8 .encrypt)
    builtCfgWord t = 0x811#64 ∧ wstatWord t = 0x1#64 ∧ statusWord t = 0x1502#64 := by decide +kernel

/-- V-ENG-3 to V-ENG-8: the six faults of a build. -/
theorem test_engBuild_faults :
    faultWord (after .engBuild (engine 0 0 .none)).fault = 0x0F30#64 ∧
      faultWord (after .engBuild (engine 1 8 .none)).fault = 0x0F31#64 ∧
      faultWord (after .engBuild (engine 2 0x88 .encrypt)).fault = 0x0832#64 ∧
      faultWord (after .engBuild (engine 1 9 .encrypt)).fault = 0x0932#64 ∧
      faultWord (after .engBuild (engine 10 0 .encrypt)).fault = 0x0F32#64 ∧
      faultWord (after .engBuild (engine 1 3 .encrypt)).fault = 0x0322#64 := by decide +kernel

/-- R317 of 46_pipeline on the counter alone, and V-ENG-12. -/
theorem test_engSetindex :
    (after .engSetindex { engine 1 8 .none with waccLo := 5 }).idx = 5 ∧
      faultWord (after .engSetindex State.reset).fault = 0x0F02#64 := by decide +kernel

/-- R318 of 46_pipeline with the counter in the list, and V-ENG-14. -/
theorem test_engIndex :
    (after .engIndex { engine 1 8 .none with idx := 5, untracked := true }).waccLo = 5 ∧
      (after .engIndex { setPerm 0 (smallPerm 0) (setRotor 0 rotorFixture (engine 2 0x60 .none)) with waccLo := 4 }).untracked = true :=
  by decide +kernel

/-! ### The arbiter -/

/-- The one-stage pipeline of V-ENG-9. -/
def pipe1 : State := buildPipeline (engine 1 8 .encrypt)

/-- 46_pipeline R312, R307 and R308: one block in, through the worker, out. -/
theorem test_one_block :
    let s := stepped { hostDoes (.push [0x61, 0x62]) pipe1 with sched := [.host] }
    let t := stepped { s with sched := [.worker 0] }
    let v := stepped { t with sched := [.worker 0] }
    (slot s 0).v = true ∧ (worker t 0).st = .hold ∧ t.idx = 1 ∧ (slot v 1).v = true ∧
      (stepped (hostDoes .pop v)).replies = [.block [0x61, 0x62]] := by decide +kernel

/-! ### Witnesses: states that meet the hypotheses of the statements -/

/-- A good rotor at the edges of its parameters: the smallest `SIZE`, the largest `START`, `STEP` and `CURRENT`. -/
def edgeRotor : Rotor := { size := 256, start := 255, step := 255, current := 255, valid := true, buf := [] }

theorem bufBit_nil (i : Nat) : bufBit [] i = false := by simp [bufBit]

theorem edgeRotor_good : RotorGood edgeRotor where
  sizeMin := by decide
  startLt := by decide
  stepPos := by decide
  stepLt := by decide
  currentLt := by decide
  mirrored := fun i _ => (bufBit_nil _).trans (bufBit_nil _).symm
  padded := fun i _ _ => bufBit_nil _

/-- The identity table. -/
def idTable : Mem := writeBytes [] 0 ((List.range 256).map (BitVec.ofNat 8))

theorem idTable_wf : Mem.wf idTable := writeBytes_wf wf_nil _ _

theorem readByte_idTable {i : Nat} (h : i < 256) : readByte idTable i = BitVec.ofNat 8 i := by
  rw [idTable, readByte_writeBytes wf_nil]
  simp [h]

theorem idTable_bijective : TableBijective idTable := by
  intro i j hi hj h
  rw [readByte_idTable hi, readByte_idTable hj] at h
  have := congrArg BitVec.toNat h
  simp only [BitVec.toNat_ofNat, Config.permEntries] at this hi hj
  omega

theorem idTable_within : Mem.within 256 idTable := writeBytes_within (by simp [Mem.within]) (by simp)

/-- The parameters of a permutator at the edges: three rings of one entry, `MAXST` = 253, in its last state. -/
def edgeParams (m : Mem) : Perm :=
  { len := #v[1, 1, 1, 253], start := #v[0, 1, 2, 3], cur := #v[0, 0, 0, 252], cstate := 252, maxst := 253, valid := true,
    randp := m, bperm := [] }

theorem edgeParams_len (m : Mem) : (edgeParams m).len = #v[1, 1, 1, 253] := rfl

theorem edgeParams_randp (m : Mem) : (edgeParams m).randp = m := rfl

theorem edgeParams_start (m : Mem) : (edgeParams m).start = #v[0, 1, 2, 3] := rfl

theorem edgeParams_cur (m : Mem) : (edgeParams m).cur = #v[0, 0, 0, 252] := rfl

theorem edgeParams_cstate (m : Mem) : (edgeParams m).cstate = 252 := rfl

theorem edgeParams_maxst (m : Mem) : (edgeParams m).maxst = 253 := rfl

theorem edgeParams_cycles {m : Mem} (h : TableBijective m) : CyclesOk (edgeParams m) where
  lenPos := by
    rw [edgeParams_len]
    decide +revert
  lenSum := by
    rw [edgeParams_len]
    decide +revert
  start0 := by simp [edgeParams]
  start1 := by simp [edgeParams]
  start2 := by simp [edgeParams]
  start3 := by simp [edgeParams]
  randp := h

/-- A good permutator. -/
def edgePerm : Perm := rebuild (edgeParams idTable)

theorem edgeParams_good {m : Mem} (h : TableBijective m) : PermGood (rebuild (edgeParams m)) := by
  refine permGood_of_rebuild (edgeParams_cycles h) wf_nil ?_ ?_ ?_
  · rw [edgeParams_maxst, edgeParams_len]
    decide +revert
  · rw [edgeParams_maxst, edgeParams_cstate]
    decide +revert
  · intro j
    fin_cases j <;> simp [edgeParams]

theorem edgePerm_good : PermGood edgePerm := edgeParams_good idTable_bijective

theorem edgePerm_randp_wf : Mem.wf edgePerm.randp := by
  rw [edgePerm, rebuild_randp, edgeParams_randp]
  exact idTable_wf

theorem edgePerm_wf : Mem.wf edgePerm.bperm := rebuild_wf wf_nil

/-- Both units, and a block of `n` bytes. -/
def units (n : BitVec 6) : State := setPerm 1 edgePerm (setRotor 5 edgeRotor { State.reset with blkLen := n })

theorem rotor_units (n : BitVec 6) : rotor (units n) 5 = edgeRotor := by simp [units]

theorem perm_units (n : BitVec 6) : perm (units n) 1 = edgePerm := by simp [units]

theorem units_defined (n : BitVec 6) (u : UnitId) : UnitDefined (units n) u := by
  refine ⟨by simp [breaksPrecondition, liveBound, units, built, setPerm, setRotor, State.reset], ?_⟩
  simp [marked, units, setPerm, setRotor, State.reset]

theorem units_settled (n : BitVec 6) (u : UnitId) : unsettled (units n) u = false :=
  unsettled_eq_false.2 ⟨(units_defined n u).1, (marked_eq_false.1 (units_defined n u).2).1⟩

theorem witness_DecodeOfEncode : WellFormed (.rotApplyf 5#4) = true ∧ WellFormed (.prmDump 6#4) = true := by decide

theorem witness_EncodeOfDecode : decode 0x21500000#32 = .ok (.rotApplyf 5#4) := by decide

theorem not_a_word (i : Instr) : encode i ≠ 0x06000000#32 := by
  intro h
  have h' := congrArg opcodeField h
  rw [show opcodeField (encode i) = opcodeOf i from (Laws.WordShape.fields _ _).1] at h'
  revert h'
  cases i <;> simp [opcodeOf] <;> decide

theorem witness_IllegalWordsFault :
    State.reset.faulted = false ∧ (∀ i, WellFormed i = true → encode i ≠ 0x06000000#32) ∧
      ((0x05#8).toNat ≤ 0x05 ∧ (0x05#8).toNat ≠ 0x02 ∧ 1#24 ≠ 0) ∧ ((0x19#8).toNat ≤ 0x19 ∧ (0x800000#24) ≠ 0) ∧
      ((0x52#8).toNat ≤ 0x52 ∧ 1#16 ≠ 0) ∧
      (0x20 ≤ (0x26#8).toNat ∧ (0x26#8).toNat ≤ 0x26 ∧ 5 < (6#4).toNat) ∧
      (0x30 ≤ (0x30#8).toNat ∧ (0x30#8).toNat ≤ 0x38 ∧ (5#4).toNat ≠ 6 ∧ (5#4).toNat ≠ 7) ∧
      (0x40 ≤ (0x45#8).toNat ∧ (0x45#8).toNat ≤ 0x45 ∧ (9#4).toNat ≠ 8) ∧ 0x53 ≤ (0x53#8).toNat :=
  ⟨rfl, fun i _ => not_a_word i, by decide, by decide, by decide, by decide, by decide, by decide, by decide⟩

theorem witness_StepRunsTheDecodedInstruction :
    let s := State.reset.withFetchWord 32 0x10000000
    (nextTurn s).1 = .host ∧ s.hostq = [.cmd 0x10000000#32] ∧ decode 0x10000000#32 = .ok .wcAdd ∧
      (nextTurn { State.reset with sched := [.worker 8] }).1 = .worker 8 := by decide +kernel

/-- The counter pipeline with a block of one byte waiting, and the counter at its largest value. -/
def aboutToOverflow : State :=
  { setSlot 0 { v := true, len := 1, data := [] } pipe1 with idx := 0xFFFFFFFFFFFFFFFFFFFFFFFFFFFFFFFF, sched := [.worker 0] }

theorem witness_FaultWritesNothingElse :
    (stepped (hostDoes (.cmd 0x06000000) State.reset)).faulted = true ∧ (stepped aboutToOverflow).faulted = true ∧
      (stepped (hostDoes (.rd 0x282) State.reset)).faulted = true ∧
      (stepped (hostDoes (.wr 0x000 0) State.reset)).faulted = true ∧
      (stepped (hostDoes (.push (List.replicate 33 0)) State.reset)).faulted = true ∧
      State.reset.faulted = false ∧ aboutToOverflow.faulted = false := by decide +kernel

/-- A faulted block. -/
def faultedState : State := { State.reset with faulted := true }

theorem witness_FrozenWhileFaulted :
    faultedState.faulted = true ∧ (List.replicate 32 0#8).length ≤ 32 ∧ 32 < (List.replicate 33 0#8).length ∧
      HostAction.reset ∉ faultedState.hostq.take 2 := by decide +kernel

theorem witness_ResetLeaves :
    (let s := { faultedState with sched := [.host], hostq := [.reset] }
     (nextTurn s).1 = .host ∧ s.hostq = .reset :: []) ∧
    (let s := { faultedState with sched := [.hostReset], hostq := [.pop, .reset] }
     (nextTurn s).1 = .hostReset ∧ s.hostq = .pop :: .reset :: [] ∧ actionBlocked s .pop = true) := by decide +kernel

theorem witness_RegisterPort :
    State.reset.faulted = false ∧ Mem.wf State.reset.wstr ∧ Mem.wf State.reset.blk ∧ Mem.wf State.reset.stg ∧
      rwWidth (0x004#12).toNat = some 4 ∧ rwWidth (0x17F#12).toNat = some 64 ∧ rwWidth (0x000#12).toNat = none ∧
      roRegister (0x281#12).toNat = true ∧ rwWidth (0x282#12).toNat = none ∧ roRegister (0x282#12).toNat = false :=
  ⟨rfl, wf_nil, wf_nil, wf_nil, rfl, rfl, rfl, rfl, rfl, rfl⟩

theorem witness_FlagsWrittenOnlyBy : exec .nop State.reset = .next State.reset := rfl

theorem witness_EngineStateTransitions : ∃ t, step (State.reset.withFetchWord 32 0x01000000) = .next t := ⟨_, rfl⟩

/-- The largest `WACC`. -/
def wideMax (op : Word) : State := wide 0xFFFFFFFFFFFFFFFF 0xFFFFFFFFFFFFFFFF op

theorem witness_WcAddSubMul :
    (wideMax 0).faulted = false ∧ wacc (wideMax 0) + (wideMax 0).wop.toNat < 2 ^ 128 ∧
      2 ^ 128 ≤ wacc (wideMax 1) + (wideMax 1).wop.toNat ∧ (wide 0 5 5).wop.toNat ≤ wacc (wide 0 5 5) ∧
      wacc (wide 0 5 6) < (wide 0 5 6).wop.toNat ∧ wacc (wideMax 1) * (wideMax 1).wop.toNat < 2 ^ 128 ∧
      2 ^ 128 ≤ wacc (wideMax 2) * (wideMax 2).wop.toNat := by decide +kernel

theorem witness_WcDivisions : (wideMax 1).faulted = false ∧ (wideMax 1).wop ≠ 0 ∧ (wideMax 0).wop = 0 := by decide +kernel

theorem witness_WcIncIszero :
    (wideMax 0).faulted = false ∧ wacc (wideMax 0) = 2 ^ 128 - 1 ∧
      wacc (wide 0xFFFFFFFFFFFFFFFF 0xFFFFFFFFFFFFFFFE 0) ≠ 2 ^ 128 - 1 := by decide +kernel

/-- A string of `n` zero digits. -/
def zeros (n : Nat) : State := withString (List.replicate n 0x30)

theorem witness_WcParse :
    (zeros 64).faulted = false ∧ (zeros 64).wstrLen.toNat = 64 ∧
      (∀ ch ∈ readBytes (zeros 64).wstr 0 64, 0x30 ≤ ch.toNat ∧ ch.toNat ≤ 0x39) ∧
      decimalValue (readBytes (zeros 64).wstr 0 64) < 2 ^ 128 ∧ (zeros 0).wstrLen.toNat = 0 ∧ (zeros 65).wstrLen.toNat = 65 ∧
      readBytes (withString [0x39, 0x2F]).wstr 0 2 = [0x39] ++ 0x2F :: [] ∧ decimalValue [0x39] < 2 ^ 128 := by decide +kernel

/-- Where the two overflows of WC.PARSE begin: the digits read so far, and the next one. -/
theorem witness_WcParse_overflow :
    2 ^ 128 ≤ 34028236692093846346337460743176821146 * 10 ∧ 34028236692093846346337460743176821145 * 10 < 2 ^ 128 ∧
      2 ^ 128 ≤ 34028236692093846346337460743176821145 * 10 + (0x36 - 0x30) := by decide

theorem witness_WcTostr : (wideMax 0).faulted = false ∧ Mem.wf (wideMax 0).wstr := ⟨rfl, wf_nil⟩

theorem witness_AddThenSub :
    (wide 0 5 5).faulted = false ∧ exec .wcAdd (wide 0 5 5) = .next (wide 0 10 5) ∧
      exec .wcSub (wide 0 5 5) = .next (wide 0 0 5) ∧ (wide 0 10 5).faulted = false := ⟨rfl, rfl, rfl, rfl⟩

theorem witness_DivisionLaws : (wideMax 1).faulted = false ∧ (wideMax 1).wop ≠ 0 := by decide +kernel

theorem witness_ParseAndTostr :
    (zeros 2).faulted = false ∧ Mem.wf (zeros 2).wstr ∧ ∃ t, exec .wcParse (zeros 2) = .next t ∧ t.faulted = false :=
  ⟨rfl, writeBytes_wf wf_nil _ _, _, rfl, rfl⟩

theorem witness_BitCommands :
    (units 32).faulted = false ∧ Mem.wf (units 32).blk ∧ (units 32).blkLen.toNat ≤ 32 ∧
      (255#8).toNat < 8 * (units 32).blkLen.toNat ∧ 32 < (units 33).blkLen.toNat ∧
      8 * (units 1).blkLen.toNat ≤ (8#8).toNat :=
  ⟨rfl, wf_nil, by decide, by decide, by decide, by decide⟩

theorem witness_UnitChecks :
    (units 33).faulted = false ∧ (rotor (units 33) 0).valid = false ∧ (perm (units 33) 0).valid = false ∧
      (rotor (units 33) 5).valid = true ∧ (perm (units 33) 1).valid = true ∧ 32 < (units 33).blkLen.toNat := by
  refine ⟨rfl, ?_, ?_, by rw [rotor_units]; rfl, by rw [perm_units]; rfl, by decide⟩
  · simp [units, rotor, setPerm, setRotor, State.reset, Rotor.reset]
  · simp [units, perm, setPerm, setRotor, State.reset, Perm.reset]

/-- Staged rotor arguments. -/
def rotorArgs (size start step : Word) : State := { units 0 with psize := size, pstart := start, pstep := step }

/-- The staged arguments change no unit and build nothing. -/
theorem rotorArgs_ok (a b c : Word) :
    (rotor (rotorArgs a b c) 5).valid = true ∧ (∀ u, breaksPrecondition (rotorArgs a b c) u = false) ∧
      Mem.wf (rotor (rotorArgs a b c) 5).buf := by
  have h : rotor (rotorArgs a b c) 5 = edgeRotor := rotor_units 0
  refine ⟨by rw [h]; rfl, fun u => (units_defined 0 u).1, ?_⟩
  rw [h]
  exact wf_nil

theorem witness_RotConstructUpdate :
    (∀ a b c, (rotorArgs a b c).faulted = false ∧ (rotor (rotorArgs a b c) 5).valid = true ∧
      breaksPrecondition (rotorArgs a b c) (.rotor 5) = false ∧ Mem.wf (rotor (rotorArgs a b c) 5).buf) ∧
    (let s := rotorArgs 256 255 255
     256 ≤ s.psize.toNat ∧ s.psize.toNat ≤ 4095 ∧ s.pstart.toNat < s.psize.toNat ∧ s.pstep.toNat ≠ 0 ∧
       s.pstep.toNat < s.psize.toNat) ∧
    ¬ (256 ≤ (rotorArgs 255 0 1).psize.toNat) ∧ ¬ ((rotorArgs 4096 0 1).psize.toNat ≤ 4095) :=
  ⟨fun a b c => ⟨rfl, (rotorArgs_ok a b c).1, (rotorArgs_ok a b c).2.1 _, (rotorArgs_ok a b c).2.2⟩, by decide, by decide, by decide⟩

theorem witness_RotApplyF :
    (units 32).faulted = false ∧ (rotor (units 32) 5).valid = true ∧ RotorGood (rotor (units 32) 5) ∧
      (units 32).blkLen.toNat ≤ 32 ∧ Mem.wf (units 32).blk ∧ UnitDefined (units 32) (.rotor 5) := by
  rw [rotor_units]
  exact ⟨rfl, rfl, edgeRotor_good, by decide, wf_nil, units_defined 32 _⟩

theorem witness_RotApplyG :
    (units 0).faulted = false ∧ (rotor (units 0) 5).valid = true ∧ RotorGood (rotor (units 0) 5) ∧
      (units 0).blkLen.toNat ≤ 32 ∧ Mem.wf (units 0).blk ∧ UnitDefined (units 0) (.rotor 5) := by
  rw [rotor_units]
  exact ⟨rfl, rfl, edgeRotor_good, by decide, wf_nil, units_defined 0 _⟩

/-- The units with an index in `WACC`. -/
def unitsAt (hi lo : Word) : State := { units 0 with waccHi := hi, waccLo := lo }

theorem unitsAt_ok (hi lo : Word) :
    (unitsAt hi lo).faulted = false ∧ rotor (unitsAt hi lo) 5 = edgeRotor ∧ perm (unitsAt hi lo) 1 = edgePerm ∧
      ∀ u, unsettled (unitsAt hi lo) u = false :=
  ⟨rfl, rotor_units 0, perm_units 0, units_settled 0⟩

/-- The units of an earlier breach of 46_pipeline R319. -/
def undefinedUnits (n : BitVec 6) : State := { units n with loose := Vector.replicate 9 true }

theorem undefinedUnits_unsettled (n : BitVec 6) (u : UnitId) : unsettled (undefinedUnits n) u = true := by
  simp [unsettled, undefinedUnits]

/-- `STEP` = `START` = 255 divides `2^128 - 1`: one below that quotient is the last index without a fault. -/
theorem witness_RotSetindex :
    (∀ hi lo, (unitsAt hi lo).faulted = false ∧ (rotor (unitsAt hi lo) 5).valid = true ∧
      breaksPrecondition (unitsAt hi lo) (.rotor 5) = false ∧ unsettled (unitsAt hi lo) (.rotor 5) = false) ∧
    ((undefinedUnits 0).faulted = false ∧ (rotor (undefinedUnits 0) 5).valid = true ∧
      unsettled (undefinedUnits 0) (.rotor 5) = true) ∧
    wacc (unitsAt 0 0) = 0 ∧
    wacc (unitsAt 0x0101010101010101 0x0101010101010100) * 255 + 255 < 2 ^ 128 ∧
    wacc (unitsAt 0x0101010101010101 0x0101010101010101) * 255 < 2 ^ 128 ∧
    2 ^ 128 ≤ wacc (unitsAt 0x0101010101010101 0x0101010101010101) * 255 + 255 ∧
    2 ^ 128 ≤ wacc (unitsAt 0x0101010101010101 0x0101010101010102) * 255 := by
  refine ⟨fun hi lo => ?_, ⟨rfl, ?_, undefinedUnits_unsettled 0 _⟩, by decide +kernel, by decide +kernel, by decide +kernel,
    by decide +kernel, by decide +kernel⟩
  · obtain ⟨h1, h2, -, h4⟩ := unitsAt_ok hi lo
    exact ⟨h1, by rw [h2]; rfl, (unsettled_eq_false.1 (h4 _)).1, h4 _⟩
  · show (rotor (units 0) 5).valid = true
    rw [rotor_units]
    rfl

theorem witness_IndexUntracked :
    (units 0).faulted = false ∧ (rotor (units 0) 5).valid = true ∧ (perm (units 0) 1).valid = true ∧
      (rotor (units 0) 0).valid = false ∧ (perm (units 0) 0).valid = false := by
  rw [rotor_units, perm_units]
  refine ⟨rfl, rfl, rfl, ?_, ?_⟩
  · simp [units, rotor, setPerm, setRotor, State.reset, Rotor.reset]
  · simp [units, perm, setPerm, setRotor, State.reset, Perm.reset]

theorem witness_RotDump :
    (units 0).faulted = false ∧ (rotor (units 0) 5).valid = true ∧ Mem.wf (units 0).stg := by
  rw [rotor_units]
  exact ⟨rfl, rfl, wf_nil⟩

/-- Staged permutator arguments: the identity table. -/
def permArgs (len : Vector Word 4) : State := { units 0 with plen := len, stg := idTable }

theorem permArgs_stg (len : Vector Word 4) : (permArgs len).stg = idTable := by simp only [permArgs]

theorem witness_PrmConstructUpdate :
    (∀ len, (permArgs len).faulted = false ∧ (perm (permArgs len) 1).valid = true ∧
      breaksPrecondition (permArgs len) (.perm 1) = false ∧ Mem.wf (perm (permArgs len) 1).randp ∧
      Mem.wf (perm (permArgs len) 1).bperm) ∧
    ((∀ j : Fin 4, (#v[1, 1, 1, 253] : Vector Word 4)[j].toNat ≠ 0 ∧ (#v[1, 1, 1, 253] : Vector Word 4)[j].toNat ≤ 256) ∧
      1 + 1 + 1 + 253 = 256 ∧ TableBijective (permArgs #v[1, 1, 1, 253]).stg) ∧
    ¬ (64 + 64 + 64 + 63 = 256) := by
  refine ⟨fun len => ?_, ⟨by decide, by omega, ?_⟩, by omega⟩
  on_goal 2 => rw [permArgs_stg]; exact idTable_bijective
  have h : perm (permArgs len) 1 = edgePerm := perm_units 0
  rw [h]
  exact ⟨rfl, rfl, (units_defined 0 _).1, edgePerm_randp_wf, edgePerm_wf⟩

theorem witness_RebuildRotatesTheCycles (m : Mem) (h : TableBijective m) :
    CyclesOk (edgeParams m) ∧ Mem.wf (edgeParams m).bperm ∧ 252 < (edgeParams m).len[(3 : Fin 4)].toNat ∧
      0 < (edgeParams m).len[(0 : Fin 4)].toNat ∧ TableBijective idTable :=
  ⟨edgeParams_cycles h, wf_nil, by rw [edgeParams_len]; decide +revert, by rw [edgeParams_len]; decide +revert, idTable_bijective⟩

/-- The hypotheses of every statement about a permutator in place: at a full block, a short block and no block. -/
theorem witness_permutator (n : BitVec 6) (hn : n.toNat ≤ 32) :
    (units n).faulted = false ∧ (perm (units n) 1).valid = true ∧ PermGood (perm (units n) 1) ∧
      Mem.wf (perm (units n) 1).bperm ∧ breaksPrecondition (units n) (.perm 1) = false ∧ (units n).blkLen.toNat ≤ 32 ∧
      Mem.wf (units n).blk ∧ Mem.wf (units n).stg ∧ UnitDefined (units n) (.perm 1) := by
  rw [perm_units]
  exact ⟨rfl, rfl, edgePerm_good, edgePerm_wf, (units_defined n _).1, hn, wf_nil, wf_nil, units_defined n _⟩

theorem witness_PrmRebuildNoEffect :
    (units 0).faulted = false ∧ (perm (units 0) 1).valid = true ∧ PermGood (perm (units 0) 1) ∧
      unsettled (units 0) (.perm 1) = false :=
  let h := witness_permutator 0 (by decide)
  ⟨h.1, h.2.1, h.2.2.1, units_settled 0 _⟩

theorem witness_PrmAdvance :
    (units 0).faulted = false ∧ (perm (units 0) 1).valid = true ∧ PermGood (perm (units 0) 1) ∧
      Mem.wf (perm (units 0) 1).bperm ∧ unsettled (units 0) (.perm 1) = false :=
  let h := witness_permutator 0 (by decide)
  ⟨h.1, h.2.1, h.2.2.1, h.2.2.2.1, units_settled 0 _⟩

theorem witness_PrmApplyF :
    (units 32).faulted = false ∧ (perm (units 32) 1).valid = true ∧ PermGood (perm (units 32) 1) ∧
      (units 32).blkLen.toNat = 32 ∧ Mem.wf (units 32).blk ∧ Mem.wf (perm (units 32) 1).bperm ∧
      UnitDefined (units 32) (.perm 1) ∧ (units 31).blkLen.toNat < 32 :=
  let h := witness_permutator 32 (by decide)
  ⟨h.1, h.2.1, h.2.2.1, by decide, h.2.2.2.2.2.2.1, h.2.2.2.1, h.2.2.2.2.2.2.2.2, by decide⟩

theorem witness_PrmApplyG :
    (units 32).faulted = false ∧ (perm (units 32) 1).valid = true ∧ (units 32).blkLen.toNat = 32 ∧ Mem.wf (units 32).blk ∧
      UnitDefined (units 32) (.perm 1) ∧ (units 31).blkLen.toNat < 32 :=
  let h := witness_permutator 32 (by decide)
  ⟨h.1, h.2.1, by decide, h.2.2.2.2.2.2.1, h.2.2.2.2.2.2.2.2, by decide⟩

theorem witness_PrmSetindex :
    (unitsAt 0 253).faulted = false ∧ (perm (unitsAt 0 253) 1).valid = true ∧ PermGood (perm (unitsAt 0 253) 1) ∧
      Mem.wf (perm (unitsAt 0 253) 1).bperm ∧ breaksPrecondition (unitsAt 0 253) (.perm 1) = false := by
  obtain ⟨h1, -, h3, h4⟩ := unitsAt_ok 0 253
  rw [h3]
  exact ⟨h1, rfl, edgePerm_good, edgePerm_wf, (unsettled_eq_false.1 (h4 _)).1⟩

theorem witness_PrmDump :
    (units 0).faulted = false ∧ (perm (units 0) 1).valid = true ∧ Mem.wf (units 0).stg :=
  let h := witness_permutator 0 (by decide)
  ⟨h.1, h.2.1, h.2.2.2.2.2.2.2.1⟩

theorem witness_InverseLaws : PermGood edgePerm ∧ Mem.wf edgePerm.bperm := ⟨edgePerm_good, edgePerm_wf⟩

theorem seek_wf {p : Perm} (h : Mem.wf p.bperm) (n : Nat) : Mem.wf (permSeek p n).bperm := rebuild_wf h

theorem seek_cstate (p : Perm) (n : Nat) : (permSeek p n).cstate = BitVec.ofNat 25 (n % p.maxst.toNat) := rfl

theorem witness_PositionLaws :
    RotorGood edgeRotor ∧ rotorSeek edgeRotor 1 = .ok 254 ∧
      (1 + [(true, [0x61#8]), (false, [])].length) * edgeRotor.step.toNat + edgeRotor.start.toNat < 2 ^ 128 ∧
      PermGood (permSeek edgePerm 253) ∧ Mem.wf (permSeek edgePerm 253).bperm ∧ (permSeek edgePerm 253).cstate = 0 := by
  refine ⟨edgeRotor_good, by decide +kernel, by decide +kernel, permSeek_good edgePerm_good edgePerm_wf 253,
    seek_wf edgePerm_wf 253, ?_⟩
  rw [seek_cstate, edgePerm, rebuild_maxst, edgeParams_maxst]
  decide

theorem witness_CounterCommands : (units 0).faulted = false ∧ breaksPrecondition (units 0) .counter = false :=
  ⟨rfl, (units_defined 0 _).1⟩

/-- The counter at its largest value, in no pipeline. -/
def counterFull : State := { units 32 with idx := 0xFFFFFFFFFFFFFFFFFFFFFFFFFFFFFFFF }

theorem witness_CounterTransforms :
    (∀ n, (units n).faulted = false ∧ UnitDefined (units n) .counter ∧ marked (units n) .counter = false) ∧
      (units 32).blkLen.toNat ≤ 32 ∧ (units 0).idx.toNat ≠ 2 ^ 128 - 1 ∧
      (unsettled counterFull .counter = false ∧ counterFull.idx.toNat = 2 ^ 128 - 1) ∧
      unsettled (undefinedUnits 0) .counter = true ∧ 32 < (units 33).blkLen.toNat :=
  ⟨fun n => ⟨rfl, units_defined n _, (units_defined n _).2⟩, by decide, by decide +kernel, ⟨units_settled 32 _, by decide +kernel⟩,
    undefinedUnits_unsettled 0 _, by decide⟩

theorem witness_NopInitSetdir :
    State.reset.faulted = false ∧ State.reset.estate = .created ∧ (engine 1 8 .none).faulted = false ∧
      (engine 1 8 .none).estate ≠ .created ∧ (0#8 ≠ 1#8 ∧ 0#8 ≠ 2#8) ∧ (3#8 ≠ 1#8 ∧ 3#8 ≠ 2#8) := by
  decide +kernel

theorem witness_IllegalStateFaults :
    State.reset.faulted = false ∧ State.reset.estate = .created ∧ (engine 1 8 .none).estate ≠ .created ∧
      pipe1.faulted = false ∧ pipe1.estate ≠ .initialized ∧ pipe1.estate ≠ .closed ∧
      ∃ t, exec .engInit (engine 1 8 .none) = .next t ∧ t.fault.cause = causeCode .illegalState ∧ t.faulted = true :=
  ⟨rfl, rfl, by decide, rfl, by decide, by decide, _, rfl, rfl, rfl⟩

/-- The counter can stand at place 0. -/
theorem counter_stage (d : Dir) : ∀ p < (engine 1 8 d).nst.toNat, StageOk (engine 1 8 d) p := by
  intro p hp
  have h0 : p = 0 := by
    have : (engine 1 8 d).nst.toNat = 1 := rfl
    omega
  subst h0
  exact ⟨⟨.counter, rfl, rfl⟩, fun q hq => absurd hq (Nat.not_lt_zero q)⟩

/-- Lists that `CheckOrder` refuses: too long, an entry that is no unit, the counter twice, a rotor that is not valid. -/
theorem bad_lists (d : Dir) :
    CheckOrderFault (engine 10 8 d) .badOrder 0xF ∧ CheckOrderFault (engine 1 9 d) .badOrder 9 ∧
      CheckOrderFault (engine 2 0x88 d) .badOrder 8 ∧ CheckOrderFault (engine 1 5 d) .unitNotValid 5 := by
  refine ⟨.inl ⟨by cases d <;> decide, rfl, rfl⟩, .inr ⟨by cases d <;> decide, 0, by cases d <;> decide, by omega, by cases d <;> decide, .inl ⟨rfl, .inl rfl⟩⟩,
    .inr ⟨by cases d <;> decide, 1, by cases d <;> decide, ?_, by cases d <;> decide, .inl ⟨rfl, .inr ⟨0, by omega, by cases d <;> decide⟩⟩⟩,
    .inr ⟨by cases d <;> decide, 0, by cases d <;> decide, by omega, by cases d <;> decide, .inr ⟨rfl, by omega, .rotor 5, rfl, by cases d <;> decide +kernel⟩⟩⟩
  intro q hq
  have h0 : q = 0 := by omega
  subst h0
  exact ⟨⟨.counter, by cases d <;> decide, rfl⟩, fun r hr => absurd hr (Nat.not_lt_zero r)⟩

theorem witness_EngBuild :
    (∀ d : Dir, (engine 1 8 d).faulted = false ∧ (engine 1 8 d).estate = .initialized ∧ 1 ≤ (engine 1 8 d).nst.toNat ∧
      (engine 1 8 d).nst.toNat ≤ 9 ∧ (∀ p < (engine 1 8 d).nst.toNat, StageOk (engine 1 8 d) p) ∧ (engine 1 8 d).dir = d) ∧
      (engine 0 8 .encrypt).nst.toNat = 0 ∧ CheckOrderFault (engine 2 0x88 .decrypt) .badOrder 8 ∧
      CheckOrderFault (engine 1 5 .encrypt) .unitNotValid 5 ∧
      hostWrite 0x005 0x123 pipe1 = { pipe1 with order := 0x123 } ∧
      exec (.engSetdir 2) pipe1 = .next { pipe1 with dir := .decrypt } :=
  ⟨fun d => ⟨rfl, rfl, by cases d <;> decide, by cases d <;> decide, counter_stage d, rfl⟩, rfl, (bad_lists _).2.2.1, (bad_lists _).2.2.2, rfl, rfl⟩

/-- The rotor `r5` with its last rotor index 0 alone in the stage list, at an index whose product overflows. -/
def farRotor : State := setRotor 5 edgeRotor { engine 1 5 .none with waccHi := 0xFFFFFFFFFFFFFFFF }

theorem farRotor_stage : ∀ p < farRotor.nst.toNat, StageOk farRotor p := by
  intro p hp
  have h0 : p = 0 := by
    have : farRotor.nst.toNat = 1 := rfl
    omega
  subst h0
  refine ⟨⟨.rotor 5, rfl, ?_⟩, fun q hq => absurd hq (Nat.not_lt_zero q)⟩
  simp [farRotor, unitValid, edgeRotor]

theorem witness_EngSetindex :
    (engine 1 8 .none).faulted = false ∧ (engine 1 8 .none).estate ≠ .created ∧ (engine 1 8 .none).nst.toNat ≤ 9 ∧
      (∀ p < (engine 1 8 .none).nst.toNat, StageOk (engine 1 8 .none) p) ∧
      (∀ u, unitCode u ∈ stageList (engine 1 8 .none) → breaksPrecondition (engine 1 8 .none) u = false) ∧
      (∀ k, unitCode (.rotor k) ∈ stageList (engine 1 8 .none) →
        ∃ c, rotorSeek (rotor (engine 1 8 .none) k) (wacc (engine 1 8 .none)) = .ok c) ∧
      CheckOrderFault (engine 2 0x88 .none) .badOrder 8 ∧ unsettled farRotor (.rotor 5) = false ∧
      farRotor.faulted = false ∧ farRotor.estate ≠ .created ∧ farRotor.nst.toNat ≤ 9 ∧
      (∀ p < farRotor.nst.toNat, StageOk farRotor p) ∧ orderEntry farRotor 0 = unitCode (.rotor 5) ∧
      rotorSeek (rotor farRotor 5) (wacc farRotor) = .error .wcMulOverflow :=
  ⟨rfl, by decide, by decide, counter_stage _, fun _ _ => rfl, fun k _ => ⟨0, by revert k; decide +kernel⟩, (bad_lists _).2.2.1,
    by simp [unsettled, breaksPrecondition, liveBound, built, farRotor, engine, setRotor, State.reset], rfl, by decide, by decide,
    farRotor_stage, by decide, by decide +kernel⟩

theorem witness_EngIndex :
    (engine 1 8 .none).faulted = false ∧ (engine 1 8 .none).estate ≠ .created ∧
      (∀ p < (engine 1 8 .none).nst.toNat, StageOk (engine 1 8 .none) p) ∧ 8#4 ∈ stageList (engine 1 8 .none) ∧
      farRotor.estate ≠ .created ∧ (∀ p < farRotor.nst.toNat, StageOk farRotor p) ∧ 8#4 ∉ stageList farRotor ∧
      CheckOrderFault (engine 1 5 .none) .unitNotValid 5 :=
  ⟨rfl, by decide, counter_stage _, by decide, by decide, farRotor_stage, by decide, (bad_lists _).2.2.2⟩

/-- The counter pipeline with a block of `n` bytes in its first slot. -/
def loaded (n : BitVec 6) : State := setSlot 0 { v := true, len := n, data := [] } pipe1

theorem witness_WorkerReceive :
    receiveEnabled (loaded 32) 0 = true ∧ (slot (loaded 32) (leftSlot 0)).len ≠ 0 ∧
      unitOfCode (loaded 32).binding[(0 : Fin 9)] = some .counter ∧ marked (loaded 32) .counter = false ∧
      ({ loaded 32 with loose := Vector.replicate 9 true }).loose[unitIndex .counter] = true ∧
      Mem.wf (worker (loaded 32) 0).hdata ∧
      ((loaded 32).bdir = .encrypt ∧ ∃ t r, unitTransformF .counter (loaded 32) (List.replicate 32 0) = .ok (t, r)) ∧
      receiveEnabled (loaded 0) 0 = true ∧ (slot (loaded 0) (leftSlot 0)).len = 0 ∧
      receiveEnabled aboutToOverflow 0 = true ∧ aboutToOverflow.loose[unitIndex .counter] = false ∧
      aboutToOverflow.idx.toNat = 2 ^ 128 - 1 :=
  ⟨by decide +kernel, by decide +kernel, by decide +kernel, by decide +kernel, by simp, wf_nil, ⟨rfl, _, _, rfl⟩, by decide +kernel,
    by decide +kernel, by decide +kernel, by decide +kernel, by decide +kernel⟩

/-- The counter pipeline whose worker holds a block. -/
def holding : State := setWorker 0 { st := .hold, hlen := 32, hdata := [], last := false } pipe1

theorem witness_WorkerSend : sendEnabled holding 0 = true ∧ Mem.wf (slot holding (rightSlot 0)).data :=
  ⟨by decide +kernel, wf_nil⟩

theorem witness_PushPop :
    pipe1.faulted = false ∧ (List.replicate 32 0#8).length ≤ 32 ∧ Mem.wf (slot pipe1 0).data ∧
      32 < (List.replicate 33 0#8).length ∧ (1 : Fin 10).val = pipe1.nb.toNat ∧
      (slot (setSlot 1 { v := true, len := 32, data := [] } pipe1) 1).len ≠ 0 ∧ (slot pipe1 1).len = 0 ∧
      (let s := hostDoes .pop pipe1
       s.hostq = [.pop] ∧ actionBlocked s .pop = true ∧ (nextTurn s).1 = .host) :=
  ⟨rfl, by decide, wf_nil, by decide, by decide +kernel, by decide +kernel, by decide +kernel, by decide +kernel⟩

/-- A state whose memories are as reset leaves them, whatever the registers. -/
theorem memoriesOk_of_empty {s : State} (h1 : s.wstr = []) (h2 : s.blk = []) (h3 : s.stg = []) (h4 : ∀ k, (rotor s k).buf = [])
    (h5 : ∀ k, (perm s k).randp = []) (h6 : ∀ k, (perm s k).bperm = []) (h7 : ∀ k, (slot s k).data = [])
    (h8 : ∀ p, (worker s p).hdata = []) (h9 : ∀ k, (slot s k).len = 0) (h10 : ∀ p, (worker s p).hlen = 0) :
    MemoriesOk s := by
  have e : ∀ n, memOk n [] := fun n => ⟨wf_nil, by simp [Mem.within]⟩
  constructor
  · rw [h1]
    exact e _
  · rw [h2]
    exact e _
  · rw [h3]
    exact e _
  · intro k
    rw [h4]
    exact e _
  · intro k
    rw [h5]
    exact e _
  · intro k
    rw [h6]
    exact e _
  · intro k
    rw [h7]
    exact e _
  · intro p
    rw [h8]
    exact e _
  · intro k _
    rw [h9]
    decide
  · intro p _
    rw [h10]
    decide

theorem pipe1_memories : MemoriesOk pipe1 := by
  apply memoriesOk_of_empty <;> decide +kernel

theorem pipe1_arbiter : ArbiterOk pipe1 :=
  .build (by decide) (checkOrder_ok_iff.2 ⟨by decide, rfl, by decide, by decide⟩ : checkOrder _ = .ok [.counter]) (by decide)

theorem pipe1_units : UnitsOk pipe1 :=
  ⟨fun u => by simp [pipe1, buildPipeline, engine, State.reset], fun k h => absurd h (by revert k; decide +kernel),
    fun k h => absurd h (by revert k; decide +kernel)⟩

/-- The host's next action is a push. -/
def pipe1Push : State := { pipe1 with sched := [.host], hostq := [.push [0x61]] }

theorem pipe1Push_arbiter : ArbiterOk pipe1Push := pipe1_arbiter.same (.of_eq rfl rfl rfl rfl rfl rfl rfl rfl rfl)

theorem witness_StepKeepsMemories : MemoriesOk pipe1Push ∧ ∃ t, step pipe1Push = .next t :=
  ⟨by apply memoriesOk_of_empty <;> decide +kernel, _, rfl⟩

theorem witness_StepKeepsArbiter : ArbiterOk pipe1Push ∧ ∃ t, step pipe1Push = .next t := ⟨pipe1Push_arbiter, _, rfl⟩

/-- A host about to issue a mutating command at a quiescent point of a built pipeline. -/
def pipe1Reset : State := { pipe1 with sched := [.host], hostq := [.cmd 0x40800000] }

theorem witness_StepKeepsUnits :
    MemoriesOk pipe1Reset ∧ UnitsOk pipe1Reset ∧ hostRespects pipe1Reset ∧ ∃ t, step pipe1Reset = .next t := by
  refine ⟨by apply memoriesOk_of_empty <;> decide +kernel,
    ⟨pipe1_units.settled, fun k h => absurd h (by revert k; decide +kernel), fun k h => absurd h (by revert k; decide +kernel)⟩,
    ?_, _, rfl⟩
  intro w rest i _ _ u _
  have : quiescent pipe1Reset = true := by decide +kernel
  simp [breaksPrecondition, this]

theorem witness_NoStop : ArbiterOk pipe1Push := pipe1Push_arbiter

/-- A block of one byte pushed into the counter pipeline. -/
def inFlight : State := pushBlock [0x61] pipe1

theorem inFlight_arbiter : ArbiterOk inFlight := pipe1_arbiter.push (by decide) (by decide +kernel)

/-- A step of a built pipeline with no host action pending answers a state of the same kind. -/
theorem undisturbed_step {s : State} (hq : s.hostq = []) (hb : ∀ p : Fin 9, (unitOfCode s.binding[p]).isSome = true)
    (hd : s.bdir ≠ .none) :
    ∃ t, step s = .next t ∧ t.hostq = [] ∧ (∀ p : Fin 9, (unitOfCode t.binding[p]).isSome = true) ∧ t.bdir ≠ .none := by
  obtain ⟨d, q, e⟩ := nextTurn_frame s
  unfold step
  rw [e]
  cases (nextTurn s).1 with
  | host => exact ⟨{ s with draws := d, sched := q }, by simp only [takeTurn, hostTurn, hq], hq, hb, hd⟩
  | hostReset => exact ⟨{ s with draws := d, sched := q }, by simp only [takeTurn, hostResetTurn, hq], hq, hb, hd⟩
  | worker p =>
    obtain ⟨t, ht⟩ := workerTurn_answers (s := { s with draws := d, sched := q }) (hb p) hd
    obtain ⟨h1, -, h2, h3⟩ := workerTurn_keeps ht
    exact ⟨t, ht, h1.trans hq, by rw [h2]; exact hb, by rw [h3]; exact hd⟩

/-- The run from a block in flight when the host adds nothing. -/
def undisturbed : Nat → State
  | 0 => inFlight
  | n + 1 => stepped (undisturbed n)

theorem undisturbed_ok (n : Nat) :
    (undisturbed n).hostq = [] ∧ (∀ p : Fin 9, (unitOfCode (undisturbed n).binding[p]).isSome = true) ∧
      (undisturbed n).bdir ≠ .none := by
  induction n with
  | zero => decide +kernel
  | succ n ih =>
    obtain ⟨t, h, h'⟩ := undisturbed_step ih.1 ih.2.1 ih.2.2
    simpa only [undisturbed, stepped, h] using h'

theorem undisturbed_run : Run undisturbed := by
  intro n
  obtain ⟨h1, h2, h3⟩ := undisturbed_ok n
  obtain ⟨t, h, -⟩ := undisturbed_step h1 h2 h3
  refine ⟨t, [], h, ?_⟩
  simp only [undisturbed, stepped, h, List.append_nil]

theorem witness_Progress :
    ArbiterOk inFlight ∧ inFlight.faulted = false ∧ built inFlight = true ∧ BlockInFlight inFlight ∧
      (∃ t, step { inFlight with sched := [.worker 8] } = .next t) ∧
      (nextTurn { inFlight with sched := [.worker 8] }).1 ≠ .worker 0 ∧
      workerEnabled { inFlight with sched := [.worker 8] } 0 = true ∧ Run undisturbed ∧ undisturbed 0 = inFlight :=
  ⟨inFlight_arbiter, rfl, rfl, .inl ⟨0, by decide +kernel⟩, ⟨_, rfl⟩, by decide +kernel, by decide +kernel, undisturbed_run, rfl⟩

/-- The pipeline of the counter and the rotor `r5`, with blocks of one byte before both workers. -/
def pipe2 : State := buildPipeline (setRotor 5 edgeRotor (engine 2 0x58 .encrypt))

/-- The first block taken by the first worker, then handed on, and a second block pushed behind it. -/
def pipe2Taken : State := takeBlock 0 [0x61] false (pushBlock [0x61] pipe2)

/-- See `pipe2Taken`. -/
def pipe2Full : State := pushBlock [0x62] (workerSend 0 pipe2Taken)

theorem pipe2Full_arbiter : ArbiterOk pipe2Full := by
  have h0 : ArbiterOk pipe2 := .build (by decide)
    (checkOrder_ok_iff.2 ⟨by decide, by decide, by decide, by decide⟩ : checkOrder _ = .ok [.counter, .rotor 5]) (by decide)
  have h1 : ArbiterOk pipe2Taken :=
    (h0.push (bytes := [0x61]) (by decide) (by decide +kernel)).take (by decide +kernel) (by decide +kernel) (by decide +kernel)
      (by decide +kernel)
  exact (h1.send (p := 0) (by decide +kernel)).push (by decide) (by decide +kernel)

/-- Nothing marks a unit of `pipe2Full`. -/
theorem pipe2Full_unmarked (u : UnitId) : marked pipe2Full u = false := by
  have h1 : pipe2Full.loose = Vector.replicate 9 false := by decide +kernel
  have h2 : pipe2Full.tainted = Vector.replicate 9 false := by decide +kernel
  simp [marked, h1, h2]

theorem witness_WorkersCommute :
    ArbiterOk pipe2Full ∧ (∀ u, marked pipe2Full u = false) ∧ (0 : Fin 9) ≠ 1 ∧
      receiveEnabled pipe2Full 0 = true ∧ receiveEnabled pipe2Full 1 = true ∧
      (∃ a, workerTurn 0 pipe2Full = .next a ∧ a.faulted = false) ∧ ∃ b, workerTurn 1 pipe2Full = .next b ∧ b.faulted = false :=
  ⟨pipe2Full_arbiter, pipe2Full_unmarked, by decide, by decide +kernel, by decide +kernel, ⟨_, rfl, by decide +kernel⟩, _, rfl,
    by decide +kernel⟩

theorem witness_CommandsTouchTheirUnitsOnly :
    (∃ t, exec .ctrReset State.reset = .next t) ∧ respects .ctrReset State.reset ∧
      ¬ mutatesUnit .ctrReset (.rotor 0) State.reset ∧
      ¬ mutatesUnit .ctrReset (.perm 0) State.reset ∧ ¬ mutatesUnit .nop .counter State.reset ∧
      (∃ t, exec .ctrReset inFlight = .next t) ∧ breaksPrecondition inFlight .counter = true :=
  ⟨exec_answers _ _, fun u _ => by simp [breaksPrecondition, liveBound, built, State.reset], by simp [mutatesUnit],
    by simp [mutatesUnit], by simp [mutatesUnit], exec_answers _ _, by decide +kernel⟩

/-- 46_pipeline R319, 92_eei_decisions D33: a counter reset under a block in flight marks the counter, and keeps the block's length,
the valid bit and the worker's state, without a fault. -/
theorem test_breach :
    (after .ctrReset inFlight).faulted = false ∧ (after .ctrReset inFlight).loose[unitIndex .counter] = true ∧
      (slot (after .ctrReset inFlight) 0).v = true ∧ (slot (after .ctrReset inFlight) 0).len = 1 ∧
      (worker (after .ctrReset inFlight) 0).st = .wait := by decide +kernel

/-- The same command at a quiescent point ends the undefined state (93_implementation_defined item 1). -/
theorem test_settled :
    (after .ctrReset { pipe1 with loose := Vector.replicate 9 true }).loose[unitIndex .counter] = false ∧
      (after .ctrReset { pipe1 with loose := Vector.replicate 9 true }).loose[unitIndex (.rotor 0)] = true := by decide +kernel

theorem witness_RoundTripOfTheFold :
    MemoriesOk pipe1 ∧ UnitsOk pipe1 ∧ [UnitId.counter].Nodup ∧ (∀ u ∈ [UnitId.counter], unitValid pipe1 u = true) ∧
      foldStages unitTransformF [.counter] pipe1 [0x61] = .ok ({ pipe1 with idx := 1 }, [0x61]) :=
  ⟨pipe1_memories, pipe1_units, by decide, by decide, rfl⟩

/-- Units whose memories are in place and inside their spaces. -/
theorem units_memories (n : BitVec 6) : MemoriesOk (units n) := by
  have e : ∀ m, memOk m [] := fun m => ⟨wf_nil, by simp [Mem.within]⟩
  constructor
  · exact e _
  · exact e _
  · exact e _
  · intro k
    fin_cases k <;> exact e _
  · intro k
    fin_cases k
    · exact e _
    · show memOk _ (perm (units n) 1).randp
      rw [perm_units, edgePerm, rebuild_randp, edgeParams_randp]
      exact ⟨idTable_wf, idTable_within⟩
  · intro k
    fin_cases k
    · exact e _
    · show memOk _ (perm (units n) 1).bperm
      rw [perm_units]
      exact ⟨edgePerm_wf, rebuild_within (by simp [edgeParams, Mem.within])⟩
  · intro k
    fin_cases k <;> exact e _
  · intro p
    fin_cases p <;> exact e _
  · intro k h
    have : slot (units n) k = slot State.reset k := rfl
    rw [this] at h ⊢
    clear this
    revert h k
    decide +kernel
  · intro p h
    have : worker (units n) p = worker State.reset p := rfl
    rw [this] at h ⊢
    clear this
    revert h p
    decide +kernel

theorem witness_DumpAndLoad :
    (units 0).faulted = false ∧ MemoriesOk (units 0) ∧ (rotor (units 0) 5).valid = true ∧ RotorGood (rotor (units 0) 5) ∧
      breaksPrecondition (units 0) (.rotor 0) = false ∧ (∃ t, exec (.rotDump (unitCode (.rotor 5))) (units 0) = .next t) ∧
      (perm (units 0) 1).valid = true ∧ PermGood (perm (units 0) 1) ∧ breaksPrecondition (units 0) (.perm 0) = false ∧
      ∃ t, exec (.prmDump (unitCode (.perm 1))) (units 0) = .next t := by
  rw [rotor_units, perm_units]
  exact ⟨rfl, units_memories 0, rfl, edgeRotor_good, (units_defined 0 _).1, exec_answers _ _, rfl, edgePerm_good,
    (units_defined 0 _).1, exec_answers _ _⟩

/-- A source with two undelivered bytes. -/
def source : KeystreamSource := { block := pipe1, left := [0x03, 0x02], off := 0, probes := 0 }

/-- One way to draw: start, step, bytes; the table before the order of the lengths. -/
def drawOrder : DrawOrder :=
  { rotor := [.start, .step, .fresh], step := .shifted, keepsSize := Vector.replicate 6 false, perm := [.table, .ordering],
    reordering := .takes }

theorem witness_KeystreamDraws :
    built pipe1 = true ∧ quiescent pipe1 = true ∧ SourceOk source ∧ ArbiterOk source.block ∧ MemoriesOk source.block ∧
      readOne source = some (0x03, { source with off := 1 }) ∧
      intn 2 3 source = some (2, { source with off := 2 }) ∧ permDraw 1 2 source = some ([0, 1], { source with off := 1 }) ∧
      drawOrder.ok ∧
      (drawRotor drawOrder 1 3 { source with left := [0x01, 0x00, 0x7F] }).map Prod.fst =
        some { start := 1, step := 1, fresh := [0x7F] } ∧
      (drawPerm drawOrder 1 #v[61, 63, 64, 68] { source with left := List.replicate 258 0 }).isSome = true := by
  have hq : quiescent pipe1 = true := by decide +kernel
  exact ⟨rfl, hq, ⟨rfl, hq, by decide, by decide⟩, pipe1_arbiter, pipe1_memories, rfl, rfl, rfl, ⟨.refl _, .refl _⟩,
    by decide +kernel, by decide +kernel⟩

/-- A detail of the host with no constants in it. -/
def bootDetail (proforma updates keyed : List UnitId) (sizes : List Nat) (partitions : List (Vector Nat 4)) : BootDetail :=
  { rotors := Vector.replicate 6 (509, 1, 1, []), perms := Vector.replicate 2 (#v[61, 63, 64, 68], []), secretEntry := [],
    proforma := proforma, proformaDir := .encrypt, pools := { sizes := sizes, partitions := partitions },
    sizeOrdering := .takes, partitionOrdering := .goesTo, updates := updates, keyed := keyed, ordering := .takes }

/-- R290: the updates may come in any order and the proforma pipeline may hold a counter; a stage left out of the updates, a counter
among the keyed stages or a pool entry the block refuses is no bootstrap. -/
theorem test_bootDetail_ok :
    (bootDetail keyedUnits keyedUnits.reverse keyedUnits [256, 4095] [#v[61, 63, 64, 68]]).ok ∧
      (bootDetail (.counter :: keyedUnits) keyedUnits keyedUnits [] []).ok ∧
      ¬ (bootDetail keyedUnits keyedUnits.tail keyedUnits [] []).ok ∧
      ¬ (bootDetail keyedUnits keyedUnits (.counter :: keyedUnits.tail) [] []).ok ∧
      ¬ (bootDetail keyedUnits keyedUnits keyedUnits [255] []).ok ∧
      ¬ (bootDetail keyedUnits keyedUnits keyedUnits [] [#v[0, 64, 64, 128]]).ok :=
  ⟨by decide +kernel, by decide +kernel, by decide +kernel, by decide +kernel, by decide +kernel, by decide +kernel⟩

theorem witness_OneBlockIsTheFold :
    ArbiterOk pipe1 ∧ MemoriesOk pipe1 ∧ pipe1.faulted = false ∧ built pipe1 = true ∧ quiescent pipe1 = true ∧
      (∀ u, marked pipe1 u = false) ∧ [UnitId.counter].length = pipe1.nb.toNat ∧
      (∀ (p : Fin 9) (h : p.val < [UnitId.counter].length), pipe1.binding[p] = unitCode [UnitId.counter][p.val]) ∧
      foldStages (if pipe1.bdir = .encrypt then unitTransformF else unitTransformG) [.counter] pipe1 [0x61] =
        .ok ({ pipe1 with idx := 1 }, [0x61]) ∧
      (let turns : List Turn := [.host, .host, .worker 3, .worker 0, .hostReset, .worker 0, .host]
       (runSteps turns.length { pipe1 with sched := turns, hostq := [.push [0x61], .pop], replies := [] }).map State.hostq =
         some []) := by
  refine ⟨pipe1_arbiter, pipe1_memories, rfl, rfl, by decide +kernel, fun u => ?_, rfl, fun p h => ?_, rfl, by decide +kernel⟩
  · simp [marked, pipe1, buildPipeline, engine, State.reset]
  · have : p = 0 := Fin.ext (by simpa using h)
    subst this
    exact (by decide +kernel : pipe1.binding[(0 : Fin 9)] = unitCode .counter)

end Sys2Proof.Tests
end

section
/-! What a step runs, and why no step of the model stops (00_scope R18, 30_encoding R103, 46_pipeline R322). -/

namespace Sys2Proof.Machine

/-! ### The step on each agent's turn -/

theorem step_of_host {s : State} (h : (nextTurn s).1 = .host) : step s = hostTurn (nextTurn s).2 := by
  simp only [step, h, takeTurn]

theorem step_of_worker {s : State} {p : Fin 9} (h : (nextTurn s).1 = .worker p) :
    step s = workerTurn p (nextTurn s).2 := by
  simp only [step, h, takeTurn]

theorem step_of_hostReset {s : State} (h : (nextTurn s).1 = .hostReset) : step s = hostResetTurn (nextTurn s).2 := by
  simp only [step, h, takeTurn]

/-- Choosing the turn leaves the host's pending actions alone. -/
@[simp] theorem nextTurn_hostq (s : State) : (nextTurn s).2.hostq = s.hostq := by
  obtain ⟨d, q, e⟩ := nextTurn_frame s
  rw [e]

/-- A command word never blocks: on the host's turn the command it decodes to runs (30_encoding R103). -/
theorem hostTurn_of_cmd {s : State} {w : Cmd} {rest : List HostAction} {i : Instr} (hq : s.hostq = .cmd w :: rest)
    (hw : decode w = .ok i) : hostTurn s = exec i { s with hostq := rest } := by
  simp [hostTurn, hq, actionBlocked, performAction, runCommand, hw]

/-! ### Every turn answers a next state -/

theorem hostTurn_answers (s : State) : ∃ t, hostTurn s = .next t := by
  unfold hostTurn
  split
  · exact ⟨_, rfl⟩
  · split
    · exact ⟨_, rfl⟩
    · exact performAction_answers _ _

theorem hostResetTurn_answers (s : State) : ∃ t, hostResetTurn s = .next t := by
  unfold hostResetTurn
  split
  · split <;> exact ⟨_, rfl⟩
  · exact ⟨_, rfl⟩

/-- Only the workers of a built pipeline are ever on (46_pipeline R322 (a), (b)). -/
theorem ArbiterOk.live {s : State} (a : ArbiterOk s) {p : Fin 9} (h : (worker s p).st ≠ .off) :
    built s = true ∧ inPipeline s p := by
  have hb : built s = true := Bool.of_not_eq_false fun hb => h ((a.idle hb).2.2 p)
  exact ⟨hb, Nat.lt_of_not_le fun hp => h ((a.outside hb).1 p hp)⟩

/-- A built pipeline has a direction (46_pipeline R303). -/
theorem ArbiterOk.bdir_ne_none {s : State} (a : ArbiterOk s) (hb : built s = true) : s.bdir ≠ .none := by
  obtain ⟨henc, hdec⟩ := a.direction
  have he : s.estate = .encBuilt ∨ s.estate = .decBuilt := by simpa [built] using hb
  rcases he with he | he
  · simp [henc he]
  · simp [hdec he]

/-- Choosing the turn keeps the invariants of the arbiter. -/
theorem ArbiterOk.nextTurn {s : State} (a : ArbiterOk s) : ArbiterOk (nextTurn s).2 := by
  obtain ⟨d, q, e⟩ := nextTurn_frame s
  rw [e]
  exact a.same (.of_eq rfl rfl rfl rfl rfl rfl rfl rfl rfl)

/-- A worker that is off takes no step, so its binding is never looked at (46_pipeline R307, R308; log 13). -/
theorem workerTurn_of_off {s : State} {p : Fin 9} (h : (worker s p).st = .off) : workerTurn p s = .next s := by
  simp [workerTurn, receiveEnabled, sendEnabled, h]

/-- Under the arbiter's invariants a worker that is on is bound to a unit in a built direction, so no worker stops (log 13). -/
theorem ArbiterOk.workerTurn_answers {s : State} (a : ArbiterOk s) (p : Fin 9) : ∃ t, workerTurn p s = .next t := by
  by_cases hoff : (worker s p).st = .off
  · exact ⟨s, workerTurn_of_off hoff⟩
  · obtain ⟨hb, hp⟩ := a.live hoff
    obtain ⟨u, hu, -⟩ := a.bound hb p hp
    exact Machine.workerTurn_answers (by rw [hu]; rfl) (a.bdir_ne_none hb)

/-! ### The obligations -/

/-- Settles O53: the turn of each agent answers, and the arbiter's invariants bind the one agent that could stop. -/
theorem noStop : Obligations.NoStop := by
  intro s a
  cases h : (nextTurn s).1 with
  | host =>
    rw [step_of_host h]
    exact hostTurn_answers _
  | worker p =>
    rw [step_of_worker h]
    exact a.nextTurn.workerTurn_answers p
  | hostReset =>
    rw [step_of_hostReset h]
    exact hostResetTurn_answers _

/-- Settles O5, one clause by each rule of the step. -/
theorem stepRunsTheDecodedInstruction : Obligations.StepRunsTheDecodedInstruction := by
  refine ⟨fun s w rest i hturn hq hw => ?_, fun s p hturn => step_of_worker hturn, fun s turns turn hs => nextTurn_of_sched hs⟩
  have hq' : (nextTurn s).2.hostq = .cmd w :: rest := (nextTurn_hostq s).trans hq
  rw [step_of_host hturn, hostTurn_of_cmd hq' hw]

end Sys2Proof.Machine
end

section
/-! What a command can do to the state, said once (10_state R53, 30_encoding R103, 46_pipeline R319): it writes registers outside
the units, or it takes a series of small updates of the units it mutates, or it is ENG.INIT or ENG.BUILD. Every statement about all
commands is an induction over these shapes. -/

namespace Sys2Proof.Machine

-- As in the tests: with every proof in a thread of its own the check runs into its memory limit.
set_option Elab.async false

/-! ### Buffers in their space -/

theorem memOk.nil (n : Nat) : memOk n [] := ⟨wf_nil, by simp [Mem.within]⟩

theorem memOk.writeBytes {n : Nat} {m : Mem} (h : memOk n m) {a : Nat} {bs : List Byte} (hb : a + bs.length ≤ n) :
    memOk n (writeBytes m a bs) :=
  ⟨writeBytes_wf h.1 _ _, writeBytes_within h.2 hb⟩

/-- Copying `k` bytes of another buffer. -/
theorem memOk.copy {n : Nat} {m : Mem} (h : memOk n m) {a k : Nat} (hk : a + k ≤ n) (m' : Mem) (a' : Nat) :
    memOk n (Machine.writeBytes m a (readBytes m' a' k)) :=
  h.writeBytes (by rw [readBytes_length]; exact hk)

theorem memOk.setWordAt {n : Nat} {m : Mem} (h : memOk n m) {k : Nat} (hk : 8 * k + 8 ≤ n) (v : Word) :
    memOk n (setWordAt m k v) :=
  h.writeBytes (by rw [bytesOfWord_length]; exact hk)

theorem memOk.putBit {n : Nat} {m : Mem} (h : memOk n m) {i : Nat} (hi : i / 8 < n) (b : Bool) : memOk n (putBit m i b) :=
  ⟨putBit_wf h.1 _ _, putBit_within h.2 hi b⟩

theorem memOk.rebuild {p : Perm} (h : memOk Config.permEntries p.bperm) : memOk Config.permEntries (rebuild p).bperm :=
  ⟨rebuild_wf h.1, rebuild_within h.2⟩

@[simp] theorem freeBytes_length (d k n : Nat) : (freeBytes d k n).length = n := by simp [freeBytes]

/-! ### New contents of a unit -/

/-- A rule may put contents `r'` in place of `r`: the buffer stays in its space, and a rotor good before is good after. -/
structure RotorStep (r r' : Rotor) : Prop where
  buf : memOk Config.rbufBytes r.buf → memOk Config.rbufBytes r'.buf
  good : Mem.wf r.buf → (r.valid = true → RotorGood r) → r'.valid = true → RotorGood r'

/-- Moving `CURRENT` to a position below the size (41_rotor R154, R158). -/
theorem RotorStep.setCurrent {r : Rotor} {c : BitVec 12} (hc : RotorGood r → c.toNat < r.size.toNat) :
    RotorStep r { r with current := c } where
  buf h := h
  good _ hg hv := (hg hv).setCurrent (hc (hg hv))

theorem RotorStep.advance (r : Rotor) : RotorStep r (advanceRotor r) where
  buf h := h
  good _ hg hv := (hg hv).advance

/-- ROT.CONSTRUCT and ROT.UPDATE (41_rotor R152, R160). -/
theorem RotorStep.built (r : Rotor) {size start step : Nat} (hp : rotorParamsOk size start step = true) {data : List Byte}
    (hl : data.length = dataBytes size) : RotorStep r (builtRotor r size start step data) where
  buf h := by
    have hs : 256 ≤ size ∧ size ≤ 4095 := by
      simp only [rotorParamsOk, Config.sizeMin, Config.sizeMax, decide_eq_true_eq] at hp
      exact ⟨hp.1, hp.2.1⟩
    simp only [builtRotor, Config.rbufBytes] at h ⊢
    exact ⟨rotorBuffer_wf h.1 size data, rotorBuffer_within h.2 hs hl⟩
  good h _ _ := builtRotor_good h hp hl

/-- A rule may put contents `p'` in place of `p`: both tables stay in their spaces, and a permutator good before is good after. -/
structure PermStep (p p' : Perm) : Prop where
  randp : memOk Config.permEntries p.randp → memOk Config.permEntries p'.randp
  bperm : memOk Config.permEntries p.bperm → memOk Config.permEntries p'.bperm
  good : Mem.wf p.randp → Mem.wf p.bperm → (p.valid = true → PermGood p) → p'.valid = true → PermGood p'

theorem PermStep.advance (p : Perm) : PermStep p (permAdvance p) where
  randp h := h
  bperm h := memOk.rebuild h
  good _ hw hg hv := permAdvance_good (hg hv) hw

theorem PermStep.seek (p : Perm) (idx : Nat) : PermStep p (permSeek p idx) where
  randp h := h
  bperm h := memOk.rebuild h
  good _ hw hg hv := permSeek_good (hg hv) hw idx

/-- A good unit's table is the one a rebuild writes (42_permutator R185). -/
theorem PermGood.rebuild_eq {p : Perm} (h : PermGood p) : rebuild p = p := by
  show { p with bperm := (rebuild p).bperm } = p
  rw [h.bperm]

theorem PermStep.rebuild (p : Perm) : PermStep p (rebuild p) where
  randp h := h
  bperm h := memOk.rebuild h
  good _ _ hg hv := by
    rw [(hg hv).rebuild_eq]
    exact hg hv

/-- A table written over the first 256 bytes reads as the bytes written. -/
theorem tableBijective_writeBytes {m : Mem} (h : Mem.wf m) {bs : List Byte} (hl : bs.length = 256) (hn : bs.Nodup) :
    TableBijective (writeBytes m 0 bs) := by
  intro i j hi hj e
  simp only [Config.permEntries] at hi hj
  rw [readByte_writeBytes h, readByte_writeBytes h, if_pos (by omega), if_pos (by omega)] at e
  simp only [Nat.sub_zero, List.getD_eq_getElem?_getD] at e
  rw [List.getElem?_eq_getElem (by omega), List.getElem?_eq_getElem (by omega)] at e
  exact hn.getElem_inj_iff.1 e

/-- The checks of 42_permutator R183 that pass. -/
theorem permParamsOk_iff (len : Vector Word 4) (randp : List Byte) :
    permParamsOk len randp = true ↔
      (∀ j : Fin 4, len[j].toNat ≠ 0 ∧ len[j].toNat ≤ 256) ∧
      len[0].toNat + len[1].toNat + len[2].toNat + len[3].toNat = 256 ∧ randp.Nodup := by
  have hall : (∀ l ∈ len.toList, l.toNat ≠ 0 ∧ l.toNat ≤ 256) ↔ ∀ j : Fin 4, len[j].toNat ≠ 0 ∧ len[j].toNat ≤ 256 := by
    constructor
    · exact fun h j => h _ (by simp)
    · intro h l hl
      obtain ⟨j, hj, rfl⟩ := List.getElem_of_mem hl
      exact h ⟨j, by simpa using hj⟩
  rw [← hall, ← noRepeat_zero_iff]
  simp only [permParamsOk, Config.permEntries, Bool.and_eq_true, List.all_eq_true, decide_eq_true_eq, and_assoc]

/-- The sums of R183 that place the cycles one after the other. -/
theorem cycleStart_eq (len : Vector Word 4) :
    cycleStart len 0 = 0 ∧ cycleStart len 1 = len[0].toNat ∧ cycleStart len 2 = len[0].toNat + len[1].toNat ∧
      cycleStart len 3 = len[0].toNat + len[1].toNat + len[2].toNat := by
  obtain ⟨⟨l⟩, hl⟩ := len
  match l, hl with
  | [a, b, c, d], _ => simp [cycleStart, Nat.add_assoc]

/-- Four lengths that sum to 256 have a product that fits the 25 bits of `MAXST` (42_permutator R183). -/
theorem lengths_product_lt {a b c d : Nat} (h : a + b + c + d = 256) : a * b * c * d < 2 ^ 25 := by
  have h1 : 4 * (a * b) ≤ (a + b) ^ 2 := by nlinarith [four_mul_le_sq_add a b]
  have h2 : 4 * (c * d) ≤ (c + d) ^ 2 := by nlinarith [four_mul_le_sq_add c d]
  have h3 : (a + b) * (c + d) ≤ 2 ^ 14 := by nlinarith [four_mul_le_sq_add (a + b) (c + d)]
  calc a * b * c * d = a * b * (c * d) := by ring
    _ < 2 ^ 25 := by nlinarith [Nat.mul_le_mul h1 h2, Nat.mul_le_mul h3 h3]

/-- The numbers a construction writes, where the lengths and their product fit their registers. -/
theorem builtPerm_len (p : Perm) {len : Vector Word 4} (randp : List Byte) {j : Fin 4} (h : len[j].toNat ≤ 256) :
    (builtPerm p len randp).len[j].toNat = len[j].toNat := by
  simp only [Fin.getElem_fin] at h
  simp only [builtPerm, rebuild_len, Fin.getElem_fin, Vector.getElem_ofFn, BitVec.toNat_setWidth]
  omega

theorem builtPerm_start (p : Perm) (len : Vector Word 4) (randp : List Byte) (j : Fin 4) :
    (builtPerm p len randp).start[j].toNat = cycleStart len j % 256 := by
  simp [builtPerm]

theorem builtPerm_maxst (p : Perm) {len : Vector Word 4} (randp : List Byte)
    (h : len[0].toNat + len[1].toNat + len[2].toNat + len[3].toNat = 256) :
    (builtPerm p len randp).maxst.toNat = len[0].toNat * len[1].toNat * len[2].toNat * len[3].toNat := by
  simp only [builtPerm, rebuild_maxst, BitVec.toNat_ofNat, Nat.mod_eq_of_lt (lengths_product_lt h)]

/-- The unit a construction leaves is good (42_permutator R183, 10_state R44, R45). -/
theorem builtPerm_good {p : Perm} (hr : Mem.wf p.randp) (hb : Mem.wf p.bperm) {len : Vector Word 4} {randp : List Byte}
    (hp : permParamsOk len randp = true) (hl : randp.length = 256) : PermGood (builtPerm p len randp) := by
  obtain ⟨hlen, hsum, hn⟩ := (permParamsOk_iff len randp).1 hp
  have hle : ∀ j : Fin 4, (builtPerm p len randp).len[j].toNat = len[j].toNat := fun j => builtPerm_len p randp (hlen j).2
  obtain ⟨e0, e1, e2, e3⟩ : _ ∧ _ ∧ _ ∧ _ := ⟨hle 0, hle 1, hle 2, hle 3⟩
  obtain ⟨l0, l1, l2, l3⟩ : _ ∧ _ ∧ _ ∧ _ := ⟨(hlen 0).1, (hlen 1).1, (hlen 2).1, (hlen 3).1⟩
  obtain ⟨s0, s1, s2, s3⟩ : _ ∧ _ ∧ _ ∧ _ :=
    ⟨builtPerm_start p len randp 0, builtPerm_start p len randp 1, builtPerm_start p len randp 2,
      builtPerm_start p len randp 3⟩
  obtain ⟨c0, c1, c2, c3⟩ := cycleStart_eq len
  rw [c0] at s0
  rw [c1] at s1
  rw [c2] at s2
  rw [c3] at s3
  simp only [Fin.getElem_fin, Fin.isValue, Fin.coe_ofNat_eq_mod, Nat.reduceMod] at *
  have cycles : CyclesOk (builtPerm p len randp) := by
    constructor
    · exact fun j => by rw [Fin.getElem_fin, hle j]; exact Nat.pos_of_ne_zero (hlen j).1
    · rw [e0, e1, e2, e3, hsum]
    · rw [s0]
    · rw [s0, s1, e0]; omega
    · rw [s1, s2, e1]; omega
    · rw [s2, s3, e2]; omega
    · exact tableBijective_writeBytes hr hl hn
  refine permGood_of_rebuild { cycles with } hb ?_ ?_ fun j => ?_
  · exact (builtPerm_maxst p randp hsum).trans (by rw [← e0, ← e1, ← e2, ← e3]; rfl)
  · refine Nat.lt_of_lt_of_eq ?_ (builtPerm_maxst p randp hsum).symm
    exact Nat.mul_pos (Nat.mul_pos (Nat.mul_pos (by omega) (by omega)) (by omega)) (by omega)
  · simp

/-- PRM.CONSTRUCT and PRM.UPDATE (42_permutator R183, R194). -/
theorem PermStep.built (p : Perm) {len : Vector Word 4} {randp : List Byte} (hp : permParamsOk len randp = true)
    (hl : randp.length = 256) : PermStep p (builtPerm p len randp) where
  randp h := h.writeBytes (by simp only [Config.permEntries]; omega)
  bperm h := memOk.rebuild h
  good hr hb _ _ := builtPerm_good hr hb hp hl

/-! ### The small updates of a unit -/

/-- Unit `u` was given new contents that its rules allow, and nothing else was touched. -/
inductive Placed (u : UnitId) (s : State) : State → Prop where
  | rotor {k : Fin 6} {r : Rotor} : u = .rotor k → RotorStep (rotor s k) r → Placed u s (setRotor k r s)
  | perm {k : Fin 2} {p : Perm} : u = .perm k → PermStep (perm s k) p → Placed u s (setPerm k p s)
  | counter (v : Wide) : u = .counter → Placed u s { s with idx := v }

/-- A transform of a block places the unit's next state (46_pipeline R304). -/
theorem Placed.of_moved {u : UnitId} {b : List Byte} {s t : State} (h : Moved u b s t) : Placed u s t := by
  cases h with
  | rotorF k hu => exact .rotor hu (.advance _)
  | rotorG k hu => exact .rotor hu (.advance _)
  | permF k hu => exact .perm hu (.advance _)
  | permG k hu => exact .perm hu (.advance _)
  | counterF hu _ => exact .counter _ hu
  | counterG hu => exact .counter s.idx hu

/-- One small update by a command that began in state `b` and mutates the units in `P`: contents placed in a unit, what a breach of R319
of 46_pipeline leaves, the mark of an undefined unit ended, a free value drawn, `BLK` written. -/
inductive Touch (b : State) (P : UnitId → Prop) (s : State) : State → Prop where
  | place {u : UnitId} {t : State} : P u → Placed u s t → Touch b P s t
  | scramble {u : UnitId} : P u → b.loose[unitIndex u] = true → Touch b P s (scramble u s)
  | breach {u : UnitId} : P u → breaksPrecondition b u = true → Touch b P s (breach u s)
  | settle (u : UnitId) : Touch b P s (settle b u s)
  | draw : Touch b P s { s with draws := s.draws + 1 }
  | blk {r : List Byte} : r.length ≤ 32 → Touch b P s (setBlk r s)

/-- A series of small updates. -/
abbrev Touches (b : State) (P : UnitId → Prop) : State → State → Prop := Relation.ReflTransGen (Touch b P)

section
variable {b s t : State} {P : UnitId → Prop} {u : UnitId}

/-- No update at all. -/
theorem Touches.none : Touches b P s s := Relation.ReflTransGen.refl

theorem Touches.of_placed (hu : P u) (h : Placed u s t) : Touches b P s t := .single (.place hu h)

theorem Touches.setIdx (v : Wide) (hu : P .counter) : Touches b P s { s with idx := v } := .of_placed hu (.counter v rfl)

theorem Touches.renewed (hu : P u) (h : Touches b P s t) : Touches b P s (renewed b u t) := by
  unfold Machine.renewed
  split
  · rename_i hb
    exact h.tail (.breach hu hb)
  · exact h.tail (.settle u)

theorem Touches.mutated (hu : P u) (h : Touches b P s t) : Touches b P s (mutated b u t) := by
  unfold Machine.mutated
  split
  · rename_i hb
    exact h.tail (.breach hu hb)
  · split
    · rename_i hl
      exact h.tail (.scramble hu hl)
    · exact h

theorem Touches.blockOut (h : Touches b P s t) (u : UnitId) (r : List Byte) : Touches b P s (blockOut u t r).1 := by
  unfold Machine.blockOut
  split
  · exact h.tail .draw
  · exact h

/-- A direct transform whose rule moves its unit and keeps the length of the block (41_rotor R154, 42_permutator R187). -/
theorem Touches.directTransform {f : State → List Byte → Except Trap (State × List Byte)} (hu : P u)
    (h : directTransform u s f = .ok t)
    (hf : ∀ b t r, f s b = .ok (t, r) → Moved u b s t ∧ r.length = b.length) : Touches s P s t := by
  obtain ⟨hb, t', r, h1, rfl⟩ := directTransform_ok h
  have h2 : Touches s P s t' ∧ r.length = (blkBlock s).length := by
    cases h1 with
    | breached hb => exact ⟨.single (.breach hu hb), rfl⟩
    | undefined _ hl => exact ⟨.single (.scramble hu hl), rfl⟩
    | ran _ h1 =>
      obtain ⟨hm, hr⟩ := hf _ _ _ h1
      exact ⟨.of_placed hu (.of_moved hm), hr⟩
  obtain ⟨h3, hr⟩ := h2
  refine (h3.blockOut u r).tail (.blk ?_)
  rw [blockOut_length, hr, blkBlock_length]
  exact hb

theorem Touches.applyF (hu : P u) (h : Machine.directTransform u s (unitTransformF u) = .ok t) : Touches s P s t :=
  .directTransform hu h fun _ _ _ h => ⟨moved_of_F h, unitTransformF_length h⟩

theorem Touches.applyG (hu : P u) (h : Machine.directTransform u s (unitTransformG u) = .ok t) : Touches s P s t :=
  .directTransform hu h fun _ _ _ h => ⟨moved_of_G h, unitTransformG_length h⟩

theorem Touches.passBlock (h : Touches b P s t) (hb : t.blkLen.toNat ≤ 32) : Touches b P s (passBlock t) := by
  unfold Machine.passBlock
  split
  · exact (h.tail .draw).tail (.blk (by rw [freeBytes_length]; exact hb))
  · exact h

/-- A seek of a unit places its new position, or leaves an undefined rotor where it is (46_pipeline R317). -/
theorem Touches.seekUnit (hu : P u) (h : seekUnit u s = .ok t) : Touches b P s t := by
  cases u with
  | rotor k =>
    rcases seekRotor_ok h with ⟨c, hc, rfl⟩ | ⟨-, -, rfl⟩
    · exact .of_placed hu (.rotor rfl (.setCurrent fun hg => rotorSeek_lt hg hc))
    · exact .refl
  | perm k =>
    cases h
    exact .of_placed hu (.perm rfl (.seek _ _))
  | counter =>
    cases h
    exact .of_placed hu (.counter _ rfl)

theorem Touches.seekAll {ids : List UnitId} (hu : ∀ u ∈ ids, P u) (h : seekAll b s ids = .ok t) : Touches b P s t := by
  induction ids generalizing s with
  | nil =>
    cases h
    exact .refl
  | cons u rest ih =>
    unfold Machine.seekAll at h
    split at h
    · cases h
    · rename_i t' ht
      have h1 : Touches b P s t' := .seekUnit (hu u (by simp)) ht
      exact (h1.renewed (hu u (by simp))).trans (ih (fun v hv => hu v (by simp [hv])) h)

theorem Touches.constructRotor {k : Fin 6} (hu : P (.rotor k)) (h : constructRotor k s = .ok t) : Touches s P s t := by
  obtain ⟨hp, rfl⟩ := constructRotor_ok h
  exact (Touches.of_placed hu (.rotor rfl (.built _ hp (staged_length _ _)))).renewed hu

theorem Touches.constructPerm {k : Fin 2} (hu : P (.perm k)) (h : constructPerm k s = .ok t) : Touches s P s t := by
  obtain ⟨hp, rfl⟩ := constructPerm_ok h
  exact (Touches.of_placed hu (.perm rfl (.built _ hp (staged_length _ _)))).renewed hu

end

/-! ### Updates outside the units -/

/-- The units, the pipeline and the marks are as before, and the three buffers the host reaches stay in their spaces. -/
structure Quiet (s t : State) : Prop where
  estate : t.estate = s.estate := by rfl
  config : t.nb = s.nb ∧ t.bdir = s.bdir ∧ t.binding = s.binding ∧ t.closing = s.closing := by exact ⟨rfl, rfl, rfl, rfl⟩
  units : t.rotors = s.rotors ∧ t.perms = s.perms ∧ t.idx = s.idx := by exact ⟨rfl, rfl, rfl⟩
  chain : t.slots = s.slots ∧ t.workers = s.workers := by exact ⟨rfl, rfl⟩
  loose : t.loose = s.loose := by rfl
  wstr : memOk Config.strCap s.wstr → memOk Config.strCap t.wstr := by exact id
  blk : memOk Config.blockBytes s.blk → memOk Config.blockBytes t.blk := by exact id
  stg : memOk Config.stgBytes s.stg → memOk Config.stgBytes t.stg := by exact id

/-- A command that writes registers outside the units, and of the condition flags only its own (10_state R25). -/
structure WritesRegisters (i : Instr) (s t : State) : Prop extends Quiet s t where
  flagZ : i ≠ .wcIszero → t.flagZ = s.flagZ := by intros; rfl
  flagB : (∀ n, i ≠ .bitGet n) → t.flagB = s.flagB := by intros; rfl
  untracked : (∀ u, i ≠ .rotIndex u ∧ i ≠ .prmIndex u) → i ≠ .ctrIndex → i ≠ .engIndex → t.untracked = s.untracked := by
    intros; rfl
  dir : (∀ d, i ≠ .engSetdir d) → t.dir = s.dir := by intros; rfl

/-- A command that is dropped or faults writes the fault record at most (60_exceptions R351). -/
theorem WritesRegisters.of_stopped {i : Instr} {s t : State} (h : Stopped i s t) : WritesRegisters i s t := by
  rcases h with ⟨-, rfl⟩ | ⟨-, c, u, rfl⟩ <;> exact {}

/-- The units a command mutates (46_pipeline R319). -/
def mutatedBy (i : Instr) (s : State) (u : UnitId) : Prop := mutatesUnit i u s

/-- Everything a command can do. -/
inductive Effect (i : Instr) (s t : State) : Prop where
  | registers : WritesRegisters i s t → Effect i s t
  | units : Touches s (mutatedBy i s) s t → Effect i s t
  | init : i = .engInit → t = { s with estate := .initialized } → Effect i s t
  | build : i = .engBuild → t = buildPipeline s → Effect i s t

/-- A command that stops or else does what its rule says. -/
theorem Effect.of_inv {i : Instr} {s t : State} {Q : Prop} (h : Stopped i s t ∨ Q) (hQ : Q → Effect i s t) : Effect i s t :=
  h.elim (fun h => .registers (.of_stopped h)) hQ

theorem exec_effect {i : Instr} {s t : State} (h : exec i s = .next t) : Effect i s t := by
  cases i with
  | nop => refine .of_inv (execNop_inv h) ?_; rintro ⟨-, rfl⟩; exact .registers {}
  | engInit => refine .of_inv (execEngInit_inv h) ?_; rintro ⟨-, -, h⟩; exact .init rfl h
  | engSetdir d =>
    refine .of_inv (execEngSetdir_inv h) ?_
    rintro ⟨-, x, -, rfl⟩
    exact .registers { dir := fun hd => (hd d rfl).elim }
  | engBuild => refine .of_inv (execEngBuild_inv h) ?_; rintro ⟨-, -, -, -, -, h⟩; exact .build rfl h
  | engSetindex =>
    refine .of_inv (execEngSetindex_inv h) ?_
    rintro ⟨-, -, ids, hids, h⟩
    obtain ⟨-, hl, -, -⟩ := checkOrder_ok_iff.1 hids
    refine .units (.seekAll (fun u hu => ?_) h)
    show unitCode u ∈ stageList s
    exact hl ▸ List.mem_map_of_mem hu
  | engIndex =>
    refine .of_inv (execEngIndex_inv h) ?_
    rintro ⟨-, -, ids, -, ⟨-, rfl⟩ | ⟨-, rfl⟩⟩ <;> exact .registers { untracked := fun _ _ h => (h rfl).elim }
  | wcAdd => refine .of_inv (execWcAdd_inv h) ?_; rintro ⟨-, -, rfl⟩; exact .registers {}
  | wcSub => refine .of_inv (execWcSub_inv h) ?_; rintro ⟨-, -, rfl⟩; exact .registers {}
  | wcMul => refine .of_inv (execWcMul_inv h) ?_; rintro ⟨-, -, rfl⟩; exact .registers {}
  | wcDiv => refine .of_inv (execWcDiv_inv h) ?_; rintro ⟨-, -, rfl⟩; exact .registers {}
  | wcDivmod => refine .of_inv (execWcDivmod_inv h) ?_; rintro ⟨-, -, rfl⟩; exact .registers {}
  | wcMod => refine .of_inv (execWcMod_inv h) ?_; rintro ⟨-, -, rfl⟩; exact .registers {}
  | wcInc => refine .of_inv (execWcInc_inv h) ?_; rintro ⟨-, -, rfl⟩; exact .registers {}
  | wcIszero =>
    refine .of_inv (execWcIszero_inv h) ?_
    rintro ⟨-, rfl⟩
    exact .registers { flagZ := fun h => (h rfl).elim }
  | wcParse => refine .of_inv (execWcParse_inv h) ?_; rintro ⟨-, -, -, v, -, rfl⟩; exact .registers {}
  | wcTostr =>
    refine .of_inv (execWcTostr_inv h) ?_
    rintro ⟨-, rfl⟩
    have hl := (decimalString_length (wacc_lt s)).2
    refine .registers { wstr := fun h => h.writeBytes ?_ }
    simp only [List.length_append, List.length_replicate, Config.strCap]
    omega
  | rotConstruct u =>
    refine .of_inv (execRotConstruct_inv h) ?_
    rintro ⟨-, k, hu, h⟩
    exact .units (.constructRotor ⟨k, rfl, hu⟩ h)
  | rotApplyf u =>
    refine .of_inv (execRotApplyf_inv h) ?_
    rintro ⟨-, k, hu, -, h⟩
    exact .units (.applyF ⟨k, rfl, hu⟩ h)
  | rotApplyg u =>
    refine .of_inv (execRotApplyg_inv h) ?_
    rintro ⟨-, k, hu, -, h⟩
    exact .units (.applyG ⟨k, rfl, hu⟩ h)
  | rotSetindex u =>
    refine .of_inv (execRotSetindex_inv h) ?_
    rintro ⟨-, k, t', hu, -, h', rfl⟩
    have hm : mutatedBy (.rotSetindex u) s (.rotor k) := ⟨k, rfl, hu⟩
    exact .units ((Touches.seekUnit (u := .rotor k) hm h').renewed hm)
  | rotIndex u =>
    refine .of_inv (execRotIndex_inv h) ?_
    rintro ⟨-, k, -, -, rfl⟩
    exact .registers { untracked := fun h => ((h u).1 rfl).elim }
  | rotUpdate u =>
    refine .of_inv (execRotUpdate_inv h) ?_
    rintro ⟨-, k, hu, -, h⟩
    exact .units (.constructRotor ⟨k, rfl, hu⟩ h)
  | rotDump u =>
    refine .of_inv (execRotDump_inv h) ?_
    rintro ⟨-, k, -, -, rfl⟩
    have hk : 0 + (dataBytes (rotor s k).size.toNat + 32) ≤ Config.stgBytes := by
      have hs := (rotor s k).size.isLt
      simp only [dataBytes, Config.stgBytes]
      omega
    exact .registers { stg := fun h => by dsimp only; exact h.copy hk _ _ }
  | prmConstruct u =>
    refine .of_inv (execPrmConstruct_inv h) ?_
    rintro ⟨-, k, hu, h⟩
    exact .units (.constructPerm ⟨k, rfl, hu⟩ h)
  | prmApplyf u =>
    refine .of_inv (execPrmApplyf_inv h) ?_
    rintro ⟨-, k, hu, -, h⟩
    exact .units (.applyF ⟨k, rfl, hu⟩ h)
  | prmApplyg u =>
    refine .of_inv (execPrmApplyg_inv h) ?_
    rintro ⟨-, k, hu, -, h⟩
    exact .units (.applyG ⟨k, rfl, hu⟩ h)
  | prmSetindex u =>
    refine .of_inv (execPrmSetindex_inv h) ?_
    rintro ⟨-, k, hu, -, rfl⟩
    have hm : mutatedBy (.prmSetindex u) s (.perm k) := ⟨k, rfl, hu⟩
    exact .units ((Touches.of_placed hm (.perm rfl (.seek _ _))).renewed hm)
  | prmIndex u =>
    refine .of_inv (execPrmIndex_inv h) ?_
    rintro ⟨-, k, -, -, rfl⟩
    exact .registers { untracked := fun h => ((h u).2 rfl).elim }
  | prmUpdate u =>
    refine .of_inv (execPrmUpdate_inv h) ?_
    rintro ⟨-, k, hu, -, h⟩
    exact .units (.constructPerm ⟨k, rfl, hu⟩ h)
  | prmDump u =>
    refine .of_inv (execPrmDump_inv h) ?_
    rintro ⟨-, k, -, -, rfl⟩
    exact .registers { stg := fun h => by dsimp only; exact (h.copy (by decide) _ _).copy (by decide) _ _ }
  | prmAdvance u =>
    refine .of_inv (execPrmAdvance_inv h) ?_
    rintro ⟨-, k, hu, -, rfl⟩
    have hm : mutatedBy (.prmAdvance u) s (.perm k) := ⟨k, rfl, hu⟩
    exact .units ((Touches.of_placed hm (.perm rfl (.advance _))).mutated hm)
  | prmRebuild u =>
    refine .of_inv (execPrmRebuild_inv h) ?_
    rintro ⟨-, k, hu, -, rfl⟩
    have hm : mutatedBy (.prmRebuild u) s (.perm k) := ⟨k, rfl, hu⟩
    exact .units ((Touches.of_placed hm (.perm rfl (.rebuild _))).mutated hm)
  | ctrReset =>
    refine .of_inv (execCtrReset_inv h) ?_
    rintro ⟨-, rfl⟩
    have hm : mutatedBy .ctrReset s .counter := rfl
    exact .units ((Touches.setIdx _ hm).renewed hm)
  | ctrApplyf =>
    refine .of_inv (execCtrApplyf_inv h) ?_
    have hm : mutatedBy .ctrApplyf s .counter := rfl
    rintro ⟨-, hb, ⟨-, rfl⟩ | ⟨-, -, rfl⟩⟩
    · exact .units ((Touches.none.mutated hm).passBlock (by rw [mutated_blkLen]; exact hb))
    · exact .units ((Touches.setIdx _ hm).passBlock hb)
  | ctrApplyg =>
    refine .of_inv (execCtrApplyg_inv h) ?_
    rintro ⟨-, hb, rfl⟩
    exact .units (Touches.none.passBlock hb)
  | ctrSetindex =>
    refine .of_inv (execCtrSetindex_inv h) ?_
    rintro ⟨-, rfl⟩
    have hm : mutatedBy .ctrSetindex s .counter := rfl
    exact .units ((Touches.setIdx _ hm).renewed hm)
  | ctrIndex =>
    refine .of_inv (execCtrIndex_inv h) ?_
    rintro ⟨-, rfl⟩
    exact .registers { untracked := fun _ h => (h rfl).elim }
  | ctrUpdate => refine .of_inv (execCtrUpdate_inv h) ?_; rintro ⟨-, rfl⟩; exact .registers {}
  | bitGet n =>
    refine .of_inv (execBitGet_inv h) ?_
    rintro ⟨-, -, -, rfl⟩
    exact .registers { flagB := fun h => (h n rfl).elim }
  | bitSet n =>
    refine .of_inv (execBitSet_inv h) ?_
    rintro ⟨-, hb, hn, rfl⟩
    refine .registers { blk := fun h => h.putBit (i := n.toNat) (b := true) ?_ }
    simp only [Config.blockBytes]
    omega
  | bitClr n =>
    refine .of_inv (execBitClr_inv h) ?_
    rintro ⟨-, hb, hn, rfl⟩
    refine .registers { blk := fun h => h.putBit (i := n.toNat) (b := false) ?_ }
    simp only [Config.blockBytes]
    omega

end Sys2Proof.Machine
end

section
/-! The memories stay in their spaces and the units stay good (10_state R40 to R50, 20_memory R70): one lemma per thing a step can
do, over the shapes of what a command can do; then the condition flags and the ownership of state over the same shapes. -/

namespace Sys2Proof.Machine

-- As in the tests: with every proof in a thread of its own the check runs into its memory limit.
set_option Elab.async false

/-! ### Memories (20_memory R70) -/

section
variable {s t : State}

/-- Only the units, the chain of slots and workers, and the three buffers the host reaches matter. -/
theorem MemoriesOk.quiet (m : MemoriesOk s) (h : Quiet s t) : MemoriesOk t := by
  obtain ⟨hr, hp, -⟩ := h.units
  obtain ⟨hs, hw⟩ := h.chain
  constructor
  · exact h.wstr m.wstr
  · exact h.blk m.blk
  · exact h.stg m.stg
  · simpa only [rotor, hr] using m.rbuf
  · simpa only [perm, hp] using m.randp
  · simpa only [perm, hp] using m.bperm
  · simpa only [slot, hs] using m.slotData
  · simpa only [worker, hw] using m.holdData
  · simpa only [slot, hs] using m.slotLen
  · simpa only [worker, hw] using m.holdLen

theorem MemoriesOk.setRotor {k : Fin 6} {r : Rotor} (m : MemoriesOk s) (h : memOk Config.rbufBytes r.buf) :
    MemoriesOk (setRotor k r s) :=
  { m with
    rbuf := fun j => by
      rw [rotor_setRotor]
      split
      · exact h
      · exact m.rbuf j }

theorem MemoriesOk.setPerm {k : Fin 2} {p : Perm} (m : MemoriesOk s) (hr : memOk Config.permEntries p.randp)
    (hb : memOk Config.permEntries p.bperm) : MemoriesOk (setPerm k p s) :=
  { m with
    randp := fun j => by
      rw [perm_setPerm]
      split
      · exact hr
      · exact m.randp j
    bperm := fun j => by
      rw [perm_setPerm]
      split
      · exact hb
      · exact m.bperm j }

theorem MemoriesOk.setSlot {k : Fin 10} {q : Slot} (m : MemoriesOk s) (hd : memOk Config.blockBytes q.data)
    (hl : q.v = true → q.len.toNat ≤ Config.blockBytes) : MemoriesOk (setSlot k q s) :=
  { m with
    slotData := fun j => by
      rw [slot_setSlot]
      split
      · exact hd
      · exact m.slotData j
    slotLen := fun j => by
      rw [slot_setSlot]
      split
      · exact hl
      · exact m.slotLen j }

theorem MemoriesOk.setWorker {p : Fin 9} {w : Worker} (m : MemoriesOk s) (hd : memOk Config.blockBytes w.hdata)
    (hl : w.st = .hold → w.hlen.toNat ≤ Config.blockBytes) : MemoriesOk (setWorker p w s) :=
  { m with
    holdData := fun j => by
      rw [worker_setWorker]
      split
      · exact hd
      · exact m.holdData j
    holdLen := fun j => by
      rw [worker_setWorker]
      split
      · exact hl
      · exact m.holdLen j }

theorem MemoriesOk.placed {u : UnitId} (m : MemoriesOk s) (h : Placed u s t) : MemoriesOk t := by
  cases h with
  | rotor _ hr => exact m.setRotor (hr.buf (m.rbuf _))
  | perm _ hp => exact m.setPerm (hp.randp (m.randp _)) (hp.bperm (m.bperm _))
  | counter v _ => exact { m with }

/-- A buffer of free bytes fills its space. -/
theorem memOk.free (n d k : Nat) : memOk n (Machine.writeBytes [] 0 (freeBytes d k n)) :=
  (memOk.nil n).writeBytes (by rw [freeBytes_length, Nat.zero_add])

theorem freeRotor_buf (d : Nat) : memOk Config.rbufBytes (freeRotor d).buf := by
  simp only [freeRotor, memOk.free]

theorem freePerm_randp (d : Nat) : memOk Config.permEntries (freePerm d).randp := by
  simp only [freePerm, memOk.free]

theorem freePerm_bperm (d : Nat) : memOk Config.permEntries (freePerm d).bperm := by
  simp only [freePerm, memOk.free]

/-- Free contents stay inside the unit's memories (log 8). -/
theorem MemoriesOk.scramble (m : MemoriesOk s) (u : UnitId) : MemoriesOk (scramble u s) := by
  cases u with
  | rotor k => exact { m.setRotor (k := k) (freeRotor_buf s.draws) with }
  | perm k => exact { m.setPerm (k := k) (freePerm_randp s.draws) (freePerm_bperm s.draws) with }
  | counter => exact { m with }

/-- Free data fills a block in flight up to its length. -/
theorem MemoriesOk.freeSlot (m : MemoriesOk s) (d : Nat) (k : Fin 10) :
    memOk Config.blockBytes (freeSlot d k (slot s k)).data := by
  unfold Machine.freeSlot
  split
  · rename_i hv
    exact (m.slotData k).writeBytes (by rw [freeBytes_length, Nat.zero_add]; exact m.slotLen k hv)
  · exact m.slotData k

theorem MemoriesOk.freeHand (m : MemoriesOk s) (d : Nat) (p : Fin 9) :
    memOk Config.blockBytes (freeHand d p (worker s p)).hdata := by
  unfold Machine.freeHand
  split
  · rename_i hv
    exact (m.holdData p).writeBytes (by rw [freeBytes_length, Nat.zero_add]; exact m.holdLen p hv)
  · exact m.holdData p

/-- A breach gives the unit the contents that free values give it. -/
theorem rotor_breach (u : UnitId) (s : State) (k : Fin 6) : rotor (breach u s) k = rotor (scramble u s) k := by
  simp only [Machine.breach, freeInFlight, rotor]

theorem perm_breach (u : UnitId) (s : State) (k : Fin 2) : perm (breach u s) k = perm (scramble u s) k := by
  simp only [Machine.breach, freeInFlight, perm]

theorem idx_breach (u : UnitId) (s : State) : (breach u s).idx = (scramble u s).idx := by
  simp only [Machine.breach, freeInFlight]

theorem MemoriesOk.breach (m : MemoriesOk s) (u : UnitId) : MemoriesOk (breach u s) := by
  have m' := m.scramble u
  constructor
  · rw [breach_wstr]; exact m.wstr
  · rw [breach_blk]; exact m.blk
  · rw [breach_stg]; exact m.stg
  · exact fun k => by rw [rotor_breach]; exact m'.rbuf k
  · exact fun k => by rw [perm_breach]; exact m'.randp k
  · exact fun k => by rw [perm_breach]; exact m'.bperm k
  · exact fun k => by rw [slot_breach]; exact m.freeSlot _ k
  · exact fun p => by rw [worker_breach]; exact m.freeHand _ p
  · exact fun k => by rw [slot_breach, freeSlot_v, freeSlot_len]; exact m.slotLen k
  · exact fun p => by rw [worker_breach, freeHand_st, freeHand_hlen]; exact m.holdLen p

theorem MemoriesOk.touch {b : State} {P : UnitId → Prop} (m : MemoriesOk s) (h : Touch b P s t) : MemoriesOk t := by
  cases h with
  | place _ h => exact m.placed h
  | scramble _ _ => exact m.scramble _
  | breach _ _ => exact m.breach _
  | settle u =>
    rw [settle_eq]
    exact { m with }
  | draw => exact { m with }
  | blk hr => exact { m with blk := m.blk.writeBytes (by rw [Nat.zero_add]; exact hr) }

theorem MemoriesOk.touches {b : State} {P : UnitId → Prop} (m : MemoriesOk s) (h : Touches b P s t) : MemoriesOk t := by
  induction h with
  | refl => exact m
  | tail _ h ih => exact ih.touch h

/-- ENG.BUILD empties the slots and the workers' hands and leaves every buffer alone (46_pipeline R303). -/
theorem MemoriesOk.build (m : MemoriesOk s) : MemoriesOk (buildPipeline s) :=
  { m with
    slotData := fun k => by rw [slot_build]; exact m.slotData k
    holdData := fun p => by rw [worker_build]; exact m.holdData p
    slotLen := fun k h => by rw [slot_build] at h; cases h
    holdLen := fun p h => by
      rw [worker_build] at h
      dsimp only at h
      split at h <;> cases h }

theorem MemoriesOk.exec {i : Instr} (m : MemoriesOk s) (h : exec i s = .next t) : MemoriesOk t := by
  cases exec_effect h with
  | registers h => exact m.quiet h.toQuiet
  | units h => exact m.touches h
  | init _ h => exact h ▸ { m with }
  | build _ h => exact h ▸ m.build

end

/-! ### What the host and the workers do outside the commands -/

section
variable {s t : State}

theorem Quiet.trans {v : State} (h : Quiet s t) (h' : Quiet t v) : Quiet s v where
  estate := h'.estate.trans h.estate
  config := by
    obtain ⟨h1, h2, h3, h4⟩ := h.config
    obtain ⟨g1, g2, g3, g4⟩ := h'.config
    exact ⟨g1.trans h1, g2.trans h2, g3.trans h3, g4.trans h4⟩
  units := by
    obtain ⟨h1, h2, h3⟩ := h.units
    obtain ⟨g1, g2, g3⟩ := h'.units
    exact ⟨g1.trans h1, g2.trans h2, g3.trans h3⟩
  chain := ⟨h'.chain.1.trans h.chain.1, h'.chain.2.trans h.chain.2⟩
  loose := h'.loose.trans h.loose
  wstr m := h'.wstr (h.wstr m)
  blk m := h'.blk (h.blk m)
  stg m := h'.stg (h.stg m)

theorem Quiet.raiseFault (src : Source) (e : Trap) (w : BitVec 4) (i : Word) (s : State) :
    Quiet s (raiseFault src e w i s) := by
  unfold Machine.raiseFault
  split <;> exact {}

/-- A `WR` reaches the host's registers alone (60_exceptions R367). -/
theorem Quiet.hostWrite (a : RegNum) (v : Word) (s : State) : Quiet s (hostWrite a v s) := by
  rcases hostWrite_cases a v s with ⟨-, h⟩ | ⟨-, r, t, -, hw, h⟩ | ⟨-, h⟩
  · rw [h]; exact {}
  · rw [h]
    obtain ⟨h1, h2, h3⟩ := writeReg_buffers hw
    rw [writeReg_frame hw]
    have keep {n k : Nat} (hk : 8 * k + 8 ≤ n) {m m' : Mem} (e : m' = setWordAt m k v) (h : memOk n m) : memOk n m' :=
      e ▸ h.setWordAt hk v
    exact {
      wstr := by
        rcases h1 with e | ⟨k, e⟩
        · exact fun h => e ▸ h
        · exact keep (by have := k.isLt; simp only [Config.strCap]; omega) e
      blk := by
        rcases h2 with e | ⟨k, e⟩
        · exact fun h => e ▸ h
        · exact keep (by have := k.isLt; simp only [Config.blockBytes]; omega) e
      stg := by
        rcases h3 with e | ⟨k, e⟩
        · exact fun h => e ▸ h
        · exact keep (by have := k.isLt; simp only [Config.stgBytes]; omega) e }
  · rw [h]; exact .raiseFault _ _ _ _ _

theorem Quiet.hostRead (a : RegNum) (s : State) : Quiet s (hostRead a s) := by
  rcases hostRead_cases a s with ⟨r, -, h⟩ | ⟨-, h⟩
  · rw [h]; exact {}
  · rw [h]
    have h0 : Quiet s { s with replies := s.replies ++ [.value 0#64] } := {}
    exact h0.trans (.raiseFault _ _ _ _ _)

/-- Everything a host action can do, in five cases. -/
theorem performAction_effect {x : HostAction} (h : performAction x s = .next t) :
    Quiet s t ∨ (∃ w i, x = .cmd w ∧ decode w = .ok i ∧ exec i s = .next t) ∨
      (∃ bytes : List Byte, bytes.length ≤ 32 ∧ t = pushBlock bytes s) ∨ (∃ k, t = popBlock k s) ∨ t = resetBlock s := by
  rcases performAction_cases h with ⟨a, v, -, rfl⟩ | ⟨a, -, rfl⟩ | ⟨w, hx, h⟩ | ⟨bytes, -, hb, rfl⟩ | ⟨bytes, -, -, rfl⟩ |
    ⟨k, -, -, rfl⟩ | ⟨-, -, rfl⟩ | ⟨-, rfl⟩
  · exact .inl (.hostWrite a v s)
  · exact .inl (.hostRead a s)
  · rcases runCommand_cases h with ⟨e, -, rfl⟩ | ⟨i, hi, h⟩
    · exact .inl (.raiseFault _ _ _ _ _)
    · exact .inr (.inl ⟨w, i, hx, hi, h⟩)
  · exact .inr (.inr (.inl ⟨bytes, hb, rfl⟩))
  · exact .inl (.raiseFault _ _ _ _ _)
  · exact .inr (.inr (.inr (.inl ⟨k, rfl⟩)))
  · exact .inl {}
  · exact .inr (.inr (.inr (.inr rfl)))

/-- Everything a step can do (00_scope R18): a worker's turn, or a quiet step, or a host action of `performAction_effect` on a state that
differs from `s` outside the block alone. -/
theorem step_effect (h : step s = .next t) :
    ∃ s', s' = { s with draws := s'.draws, sched := s'.sched, hostq := s'.hostq } ∧
      (Quiet s' t ∨ (∃ p, workerTurn p s' = .next t) ∨
        (∃ w i, s.hostq.head? = some (.cmd w) ∧ decode w = .ok i ∧ exec i s' = .next t) ∨
        (∃ bytes : List Byte, bytes.length ≤ 32 ∧ t = pushBlock bytes s') ∨ (∃ k, t = popBlock k s') ∨ t = resetBlock s') := by
  obtain ⟨d, q, h⟩ := step_cases h
  rcases h with ⟨p, h⟩ | h | h
  · exact ⟨{ s with draws := d, sched := q }, rfl, .inr (.inl ⟨p, h⟩)⟩
  · rcases hostTurn_cases h with rfl | ⟨x, rest, hq, -, h⟩
    · exact ⟨{ s with draws := d, sched := q }, rfl, .inl {}⟩
    · refine ⟨{ s with draws := d, sched := q, hostq := rest }, rfl, ?_⟩
      rcases performAction_effect h with h | ⟨w, i, rfl, hi, h⟩ | h
      · exact .inl h
      · exact .inr (.inr (.inl ⟨w, i, by rw [show s.hostq = _ from hq]; rfl, hi, h⟩))
      · exact .inr (.inr (.inr h))
  · rcases hostResetTurn_cases h with rfl | ⟨x, rest, -, -, rfl⟩
    · exact ⟨{ s with draws := d, sched := q }, rfl, .inl {}⟩
    · exact ⟨{ s with draws := d, sched := q, hostq := rest }, rfl, .inr (.inr (.inr (.inr (.inr rfl))))⟩

/-! ### The units and the chain after RESET (70_reset R390) -/

@[simp] theorem rotor_resetBlock (s : State) (k : Fin 6) : rotor (resetBlock s) k = Rotor.reset := by
  simp [rotor, resetBlock, State.reset]

@[simp] theorem perm_resetBlock (s : State) (k : Fin 2) : perm (resetBlock s) k = Perm.reset := by
  simp [perm, resetBlock, State.reset]

@[simp] theorem slot_resetBlock (s : State) (k : Fin 10) : slot (resetBlock s) k = Slot.reset := by
  simp [slot, resetBlock, State.reset]

@[simp] theorem worker_resetBlock (s : State) (p : Fin 9) : worker (resetBlock s) p = Worker.reset := by
  simp [worker, resetBlock, State.reset]

/-! ### Memories along a step -/

theorem MemoriesOk.push (m : MemoriesOk s) {bytes : List Byte} (hb : bytes.length ≤ 32) : MemoriesOk (pushBlock bytes s) := by
  have m' : MemoriesOk { s with closing := s.closing || bytes.isEmpty } := { m with }
  refine m'.setSlot ((m.slotData 0).writeBytes (by rw [Nat.zero_add]; exact hb)) fun _ => ?_
  simp only [BitVec.toNat_ofNat, Config.blockBytes]
  omega

theorem MemoriesOk.pop (m : MemoriesOk s) (k : Fin 10) : MemoriesOk (popBlock k s) := by
  have m' : MemoriesOk { s with replies := s.replies ++ [.block (slotBlock (slot s k))] } := { m with }
  have m'' := m'.setSlot (k := k) (q := { slot s k with v := false }) (m.slotData k) nofun
  unfold popBlock
  dsimp only
  split
  · exact { m'' with }
  · exact m''

theorem MemoriesOk.take (m : MemoriesOk s) (p : Fin 9) {r : List Byte} (hr : r.length ≤ 32) (last : Bool) :
    MemoriesOk (takeBlock p r last s) := by
  have m' := m.setSlot (k := leftSlot p) (q := { slot s (leftSlot p) with v := false }) (m.slotData _) nofun
  refine m'.setWorker ((m.holdData p).writeBytes (by rw [Nat.zero_add]; exact hr)) fun _ => ?_
  simp only [BitVec.toNat_ofNat, Config.blockBytes]
  omega

theorem MemoriesOk.send (m : MemoriesOk s) {p : Fin 9} (hp : (worker s p).st = .hold) : MemoriesOk (workerSend p s) := by
  have hl := m.holdLen p hp
  refine (m.setSlot ((m.slotData _).copy (by rw [Nat.zero_add]; exact hl) _ _) fun _ => hl).setWorker (m.holdData p) ?_
  intro h
  dsimp only at h
  split at h <;> cases h

theorem MemoriesOk.reset (s : State) : MemoriesOk (resetBlock s) := by
  constructor
  · exact memOk.nil _
  · exact memOk.nil _
  · exact memOk.nil _
  · exact fun k => by rw [rotor_resetBlock]; exact memOk.nil _
  · exact fun k => by rw [perm_resetBlock]; exact memOk.nil _
  · exact fun k => by rw [perm_resetBlock]; exact memOk.nil _
  · exact fun k => by rw [slot_resetBlock]; exact memOk.nil _
  · exact fun p => by rw [worker_resetBlock]; exact memOk.nil _
  · exact fun k h => by rw [slot_resetBlock] at h; cases h
  · exact fun p h => by rw [worker_resetBlock] at h; cases h

theorem MemoriesOk.workerTurn {p : Fin 9} (m : MemoriesOk s) (h : workerTurn p s = .next t) : MemoriesOk t := by
  rcases workerTurn_cases h with ⟨-, -, rfl⟩ | ⟨-, -, rfl⟩ | ⟨-, -, e, -, rfl⟩ | ⟨hr, -, t', r, ht, rfl⟩ | ⟨-, hs, rfl⟩
  · exact m
  · exact m.take p (by simp) true
  · exact m.quiet (.raiseFault _ _ _ _ _)
  · obtain ⟨u, x, r', -, hx, hl, he⟩ := workerTransform_ok ht
    have ht' : t' = (blockOut u x r').1 := congrArg Prod.fst he
    have hr' : r = (blockOut u x r').2 := congrArg Prod.snd he
    have hv : (slot s (leftSlot p)).v = true := by
      simp only [receiveEnabled, Bool.and_eq_true] at hr
      exact hr.2
    have mx : MemoriesOk x := by
      rcases hx with ⟨-, rfl⟩ | ⟨-, hx⟩
      · exact m.scramble u
      · exact m.placed (.of_moved hx)
    have mo : MemoriesOk (blockOut u x r').1 := mx.touches (Touches.blockOut (b := x) (P := fun _ => False) .none u r')
    rw [ht', hr']
    refine mo.take p ?_ false
    rw [blockOut_length, hl, slotBlock, readBytes_length]
    exact m.slotLen _ hv
  · refine m.send ?_
    simp only [sendEnabled, Bool.and_eq_true, beq_iff_eq] at hs
    exact hs.1.2

/-- Settles O49, one lemma per thing a step can do. -/
theorem stepKeepsMemories : Obligations.StepKeepsMemories := by
  intro s t m h
  obtain ⟨s', hs, h⟩ := step_effect h
  have m' : MemoriesOk s' := hs ▸ { m with }
  rcases h with h | ⟨p, h⟩ | ⟨w, i, -, -, h⟩ | ⟨bytes, hb, rfl⟩ | ⟨k, rfl⟩ | rfl
  · exact m'.quiet h
  · exact m'.workerTurn h
  · exact m'.exec h
  · exact m'.push hb
  · exact m'.pop k
  · exact .reset s'

end

/-! ### Units along a step (10_state R40, R44, R45) -/

section
variable {s t : State}

/-- Only the units' contents and the marks of undefined units matter. -/
theorem UnitsOk.congr (o : UnitsOk s) (hr : t.rotors = s.rotors) (hp : t.perms = s.perms) (hl : t.loose = s.loose) :
    UnitsOk t where
  settled u := by rw [hl]; exact o.settled u
  rotors := by simpa only [rotor, hr] using o.rotors
  perms := by simpa only [perm, hp] using o.perms

theorem UnitsOk.quiet (o : UnitsOk s) (h : Quiet s t) : UnitsOk t := by
  obtain ⟨hr, hp, -⟩ := h.units
  exact o.congr hr hp h.loose

theorem UnitsOk.placed {u : UnitId} (m : MemoriesOk s) (o : UnitsOk s) (h : Placed u s t) : UnitsOk t := by
  cases h with
  | @rotor k r _ hr =>
    refine { o with rotors := fun j => ?_ }
    rw [rotor_setRotor]
    split
    · exact hr.good (m.rbuf k).1 (o.rotors k)
    · exact o.rotors j
  | @perm k p _ hp =>
    refine { o with perms := fun j => ?_ }
    rw [perm_setPerm]
    split
    · exact hp.good (m.randp k).1 (m.bperm k).1 (o.perms k)
    · exact o.perms j
  | counter v _ => exact { o with }

/-- A host that respects R319 of 46_pipeline never leaves a unit undefined, and each small update keeps the units good. -/
theorem UnitsOk.touch {b : State} {P : UnitId → Prop} (hP : ∀ u, P u → breaksPrecondition b u = false)
    (hb : ∀ u, b.loose[unitIndex u] = false) (m : MemoriesOk s) (o : UnitsOk s) (h : Touch b P s t) : UnitsOk t := by
  cases h with
  | place _ h => exact o.placed m h
  | @scramble u _ hl => rw [hb u] at hl; cases hl
  | @breach u hu h => rw [hP u hu] at h; cases h
  | settle u =>
    refine ⟨fun v => settle_loose_of (o.settled v), fun k => ?_, fun k => ?_⟩
    · rw [rotor_settle]; exact o.rotors k
    · rw [perm_settle]; exact o.perms k
  | draw => exact { o with }
  | blk _ => exact { o with }

theorem UnitsOk.touches {b : State} {P : UnitId → Prop} (hP : ∀ u, P u → breaksPrecondition b u = false)
    (hb : ∀ u, b.loose[unitIndex u] = false) (m : MemoriesOk s) (o : UnitsOk s) (h : Touches b P s t) : UnitsOk t := by
  induction h with
  | refl => exact o
  | tail h1 h2 ih => exact ih.touch hP hb (m.touches h1) h2

theorem UnitsOk.exec {i : Instr} (m : MemoriesOk s) (o : UnitsOk s) (hr : respects i s) (h : exec i s = .next t) :
    UnitsOk t := by
  cases exec_effect h with
  | registers h => exact o.quiet h.toQuiet
  | units h => exact o.touches hr o.settled m h
  | init _ h => exact h ▸ { o with }
  | build _ h => exact h ▸ { o with }

theorem UnitsOk.reset (s : State) : UnitsOk (resetBlock s) where
  settled u := by simp [resetBlock, State.reset]
  rotors k h := by rw [rotor_resetBlock] at h; cases h
  perms k h := by rw [perm_resetBlock] at h; cases h

/-- A worker moves its unit as the unit's own command would, and no worker's unit is undefined (46_pipeline R304). -/
theorem UnitsOk.workerTurn {p : Fin 9} (m : MemoriesOk s) (o : UnitsOk s) (h : workerTurn p s = .next t) : UnitsOk t := by
  rcases workerTurn_cases h with ⟨-, -, rfl⟩ | ⟨-, -, rfl⟩ | ⟨-, -, e, -, rfl⟩ | ⟨-, -, t', r, ht, rfl⟩ | ⟨-, -, rfl⟩
  · exact o
  · exact { o with }
  · exact o.quiet (.raiseFault _ _ _ _ _)
  · obtain ⟨u, x, r', -, hx, -, he⟩ := workerTransform_ok ht
    have ht' : t' = (blockOut u x r').1 := congrArg Prod.fst he
    have ox : UnitsOk x := by
      rcases hx with ⟨hl, -⟩ | ⟨-, hx⟩
      · rw [o.settled u] at hl; cases hl
      · exact o.placed m (.of_moved hx)
    have ot : UnitsOk t' := ht' ▸ ox.congr (by simp) (by simp) (by simp)
    exact { ot with }
  · exact { o with }

/-- Whether a command respects R319 of 46_pipeline is read from the block alone. -/
theorem respects_of_sameBlock {i : Instr} (hs : t = { s with draws := t.draws, sched := t.sched, hostq := t.hostq })
    (h : respects i s) : respects i t := by
  intro u hu
  have hb : breaksPrecondition t u = breaksPrecondition s u := by rw [hs]; rfl
  rw [hb]
  refine h u ?_
  rw [hs] at hu
  cases i <;> exact hu

/-- Settles O51, one lemma per thing a step can do. -/
theorem stepKeepsUnits : Obligations.StepKeepsUnits := by
  intro s t m o hr h
  obtain ⟨s', hs, h⟩ := step_effect h
  have m' : MemoriesOk s' := hs ▸ { m with }
  have o' : UnitsOk s' := hs ▸ { o with }
  rcases h with h | ⟨p, h⟩ | ⟨w, i, hq, hi, h⟩ | ⟨bytes, -, rfl⟩ | ⟨k, rfl⟩ | rfl
  · exact o'.quiet h
  · exact o'.workerTurn m' h
  · obtain ⟨rest, hq⟩ := List.head?_eq_some_iff.1 hq
    exact o'.exec m' (respects_of_sameBlock hs (hr w rest i hq hi)) h
  · exact { o' with }
  · refine o'.congr ?_ ?_ ?_ <;> unfold popBlock <;> dsimp only <;> split <;> rfl
  · exact .reset s'

end

/-! ### The condition flags (10_state R25) -/

/-- No small update of a unit writes a condition flag. -/
theorem Touch.flags {b s t : State} {P : UnitId → Prop} (h : Touch b P s t) :
    t.flagZ = s.flagZ ∧ t.flagB = s.flagB ∧ t.untracked = s.untracked ∧ t.dir = s.dir := by
  cases h with
  | place _ h => cases h <;> exact ⟨rfl, rfl, rfl, rfl⟩
  | scramble _ _ => exact ⟨by simp, by simp, by simp, by simp⟩
  | breach _ _ => exact ⟨by simp, by simp, by simp, by simp⟩
  | settle u => exact ⟨by simp, by simp, by simp, by simp⟩
  | draw => exact ⟨rfl, rfl, rfl, rfl⟩
  | blk _ => exact ⟨rfl, rfl, rfl, rfl⟩

theorem Touches.flags {b s t : State} {P : UnitId → Prop} (h : Touches b P s t) :
    t.flagZ = s.flagZ ∧ t.flagB = s.flagB ∧ t.untracked = s.untracked ∧ t.dir = s.dir := by
  induction h with
  | refl => exact ⟨rfl, rfl, rfl, rfl⟩
  | tail _ h ih =>
    obtain ⟨h1, h2, h3, h4⟩ := h.flags
    obtain ⟨g1, g2, g3, g4⟩ := ih
    exact ⟨h1.trans g1, h2.trans g2, h3.trans g3, h4.trans g4⟩

/-- Settles O11: the commands named there are the ones whose register writes reach a flag. -/
theorem flagsWrittenOnlyBy : Obligations.FlagsWrittenOnlyBy := by
  intro i s t h
  cases exec_effect h with
  | registers h => exact ⟨h.flagZ, h.flagB, h.untracked, h.dir⟩
  | units h =>
    obtain ⟨h1, h2, h3, h4⟩ := h.flags
    exact ⟨fun _ => h1, fun _ => h2, fun _ _ _ => h3, fun _ => h4⟩
  | init _ h => subst h; exact ⟨fun _ => rfl, fun _ => rfl, fun _ _ _ => rfl, fun _ => rfl⟩
  | build _ h => subst h; exact ⟨fun _ => rfl, fun _ => rfl, fun _ _ _ => rfl, fun _ => rfl⟩

/-! ### Ownership (10_state R53, 46_pipeline R319) -/

/-- What a command that is not ENG.INIT or ENG.BUILD leaves: the units outside `P`, the built configuration, and the chain up to the data
of the blocks in flight; and the chain itself where no unit of `P` is mutated against R319 of 46_pipeline. -/
structure Owned (b : State) (P : UnitId → Prop) (s t : State) : Prop where
  rotor : ∀ k, ¬ P (.rotor k) → rotor t k = rotor s k
  perm : ∀ k, ¬ P (.perm k) → perm t k = perm s k
  idx : ¬ P .counter → t.idx = s.idx
  config : t.nb = s.nb ∧ t.bdir = s.bdir ∧ t.binding = s.binding ∧ t.closing = s.closing ∧ t.estate = s.estate
  chain : (∀ u, P u → breaksPrecondition b u = false) → t.slots = s.slots ∧ t.workers = s.workers
  slot : ∀ k, slot t k = { slot s k with data := (slot t k).data } ∧ ((slot s k).v = false → slot t k = slot s k)
  worker : ∀ p, worker t p = { worker s p with hdata := (worker t p).hdata } ∧
    ((worker s p).st ≠ .hold → worker t p = worker s p)

section
variable {b s t v : State} {P : UnitId → Prop}

theorem Owned.of_chain (hr : ∀ k, ¬ P (.rotor k) → Machine.rotor t k = Machine.rotor s k)
    (hp : ∀ k, ¬ P (.perm k) → Machine.perm t k = Machine.perm s k) (hi : ¬ P .counter → t.idx = s.idx)
    (hc : t.nb = s.nb ∧ t.bdir = s.bdir ∧ t.binding = s.binding ∧ t.closing = s.closing ∧ t.estate = s.estate)
    (hs : t.slots = s.slots) (hw : t.workers = s.workers) : Owned b P s t where
  rotor := hr
  perm := hp
  idx := hi
  config := hc
  chain _ := ⟨hs, hw⟩
  slot k := by
    have : Machine.slot t k = Machine.slot s k := by simp only [Machine.slot, hs]
    rw [this]
    exact ⟨rfl, fun _ => rfl⟩
  worker p := by
    have : Machine.worker t p = Machine.worker s p := by simp only [Machine.worker, hw]
    rw [this]
    exact ⟨rfl, fun _ => rfl⟩

theorem Owned.trans (h : Owned b P s t) (h' : Owned b P t v) : Owned b P s v where
  rotor k hk := (h'.rotor k hk).trans (h.rotor k hk)
  perm k hk := (h'.perm k hk).trans (h.perm k hk)
  idx hk := (h'.idx hk).trans (h.idx hk)
  config := by
    obtain ⟨h1, h2, h3, h4, h5⟩ := h.config
    obtain ⟨g1, g2, g3, g4, g5⟩ := h'.config
    exact ⟨g1.trans h1, g2.trans h2, g3.trans h3, g4.trans h4, g5.trans h5⟩
  chain hP := ⟨(h'.chain hP).1.trans (h.chain hP).1, (h'.chain hP).2.trans (h.chain hP).2⟩
  slot k := by
    obtain ⟨h1, h2⟩ := h.slot k
    obtain ⟨g1, g2⟩ := h'.slot k
    rw [h1] at g1 g2
    refine ⟨g1, fun hv => ?_⟩
    rw [g2 hv, ← h1, h2 hv]
  worker p := by
    obtain ⟨h1, h2⟩ := h.worker p
    obtain ⟨g1, g2⟩ := h'.worker p
    rw [h1] at g1 g2
    refine ⟨g1, fun hv => ?_⟩
    rw [g2 hv, ← h1, h2 hv]

theorem Owned.quiet (h : Quiet s t) : Owned b P s t := by
  obtain ⟨hr, hp, hi⟩ := h.units
  obtain ⟨h1, h2, h3, h4⟩ := h.config
  exact .of_chain (fun _ _ => by simp only [Machine.rotor, hr]) (fun _ _ => by simp only [Machine.perm, hp]) (fun _ => hi)
    ⟨h1, h2, h3, h4, h.estate⟩ h.chain.1 h.chain.2

theorem Owned.placed {u : UnitId} (hu : P u) (h : Placed u s t) : Owned b P s t := by
  cases h with
  | @rotor k r e _ =>
    subst e
    refine .of_chain (fun j hj => ?_) (fun _ _ => rfl) (fun _ => rfl) ⟨rfl, rfl, rfl, rfl, rfl⟩ rfl rfl
    rw [rotor_setRotor, if_neg (fun e : j = k => hj (e ▸ hu))]
  | @perm k p e _ =>
    subst e
    refine .of_chain (fun _ _ => rfl) (fun j hj => ?_) (fun _ => rfl) ⟨rfl, rfl, rfl, rfl, rfl⟩ rfl rfl
    rw [perm_setPerm, if_neg (fun e : j = k => hj (e ▸ hu))]
  | counter x e =>
    subst e
    exact .of_chain (fun _ _ => rfl) (fun _ _ => rfl) (fun h => (h hu).elim) ⟨rfl, rfl, rfl, rfl, rfl⟩ rfl rfl

/-- Free contents of a unit are contents like any other, but for the draw. -/
theorem Owned.scramble {u : UnitId} (hu : P u) (s : State) : Owned b P s (scramble u s) := by
  cases u with
  | rotor k =>
    refine .of_chain (fun j hj => ?_) (fun _ _ => rfl) (fun _ => rfl) ⟨rfl, rfl, rfl, rfl, rfl⟩ rfl rfl
    exact (rotor_setRotor j k _ s).trans (if_neg (fun e : j = k => hj (e ▸ hu)))
  | perm k =>
    refine .of_chain (fun _ _ => rfl) (fun j hj => ?_) (fun _ => rfl) ⟨rfl, rfl, rfl, rfl, rfl⟩ rfl rfl
    exact (perm_setPerm j k _ s).trans (if_neg (fun e : j = k => hj (e ▸ hu)))
  | counter => exact .of_chain (fun _ _ => rfl) (fun _ _ => rfl) (fun h => (h hu).elim) ⟨rfl, rfl, rfl, rfl, rfl⟩ rfl rfl

theorem freeSlot_data (d : Nat) (k : Fin 10) (q : Slot) :
    freeSlot d k q = { q with data := (freeSlot d k q).data } ∧ (q.v = false → freeSlot d k q = q) := by
  unfold freeSlot
  split
  · rename_i hv
    exact ⟨rfl, fun h => by rw [hv] at h; cases h⟩
  · exact ⟨rfl, fun _ => rfl⟩

theorem freeHand_hdata (d : Nat) (p : Fin 9) (w : Worker) :
    freeHand d p w = { w with hdata := (freeHand d p w).hdata } ∧ (w.st ≠ .hold → freeHand d p w = w) := by
  unfold freeHand
  split
  · rename_i hv
    exact ⟨rfl, fun h => (h hv).elim⟩
  · exact ⟨rfl, fun _ => rfl⟩

theorem Owned.breach {u : UnitId} (hu : P u) (hb : breaksPrecondition b u = true) (s : State) : Owned b P s (breach u s) where
  rotor k hk := (rotor_breach u s k).trans ((Owned.scramble (b := b) hu s).rotor k hk)
  perm k hk := (perm_breach u s k).trans ((Owned.scramble (b := b) hu s).perm k hk)
  idx hi := (idx_breach u s).trans ((Owned.scramble (b := b) hu s).idx hi)
  config := ⟨by simp, by simp, by simp, by simp, by simp⟩
  chain hP := by rw [hP u hu] at hb; cases hb
  slot k := by rw [slot_breach]; exact freeSlot_data _ _ _
  worker p := by rw [worker_breach]; exact freeHand_hdata _ _ _

theorem Owned.touch (h : Touch b P s t) : Owned b P s t := by
  cases h with
  | place hu h => exact .placed hu h
  | scramble hu _ => exact .scramble hu s
  | breach hu hb => exact .breach hu hb s
  | settle u =>
    rw [settle_eq]
    exact .of_chain (fun _ _ => rfl) (fun _ _ => rfl) (fun _ => rfl) ⟨rfl, rfl, rfl, rfl, rfl⟩ rfl rfl
  | draw => exact .of_chain (fun _ _ => rfl) (fun _ _ => rfl) (fun _ => rfl) ⟨rfl, rfl, rfl, rfl, rfl⟩ rfl rfl
  | blk _ => exact .of_chain (fun _ _ => rfl) (fun _ _ => rfl) (fun _ => rfl) ⟨rfl, rfl, rfl, rfl, rfl⟩ rfl rfl

theorem Owned.touches (h : Touches b P s t) : Owned b P s t := by
  induction h with
  | refl => exact .quiet {}
  | tail _ h ih => exact ih.trans (.touch h)

end

/-- What a command that is not ENG.INIT or ENG.BUILD owns is what it mutates. -/
theorem exec_owned {i : Instr} {s t : State} (h : exec i s = .next t) :
    Owned s (mutatedBy i s) s t ∨ (i = .engInit ∧ t = { s with estate := .initialized }) ∨
      (i = .engBuild ∧ t = buildPipeline s) := by
  cases exec_effect h with
  | registers h => exact .inl (.quiet h.toQuiet)
  | units h => exact .inl (.touches h)
  | init hi h => exact .inr (.inl ⟨hi, h⟩)
  | build hi h => exact .inr (.inr ⟨hi, h⟩)

/-- Settles O56, by the shapes of what a command can do. -/
theorem commandsTouchTheirUnitsOnly : Obligations.CommandsTouchTheirUnitsOnly := by
  intro i s t h
  rcases exec_owned h with h | ⟨hi, rfl⟩ | ⟨hi, rfl⟩
  · obtain ⟨h1, h2, h3, h4, h5⟩ := h.config
    exact ⟨h.rotor, h.perm, h.idx, fun _ => ⟨h1, h2, h3, h4, h.chain, h.slot, h.worker⟩, fun _ _ => h5⟩
  · exact ⟨fun _ _ => rfl, fun _ _ => rfl, fun _ => rfl,
      fun _ => ⟨rfl, rfl, rfl, rfl, fun _ => ⟨rfl, rfl⟩, fun _ => ⟨rfl, fun _ => rfl⟩, fun _ => ⟨rfl, fun _ => rfl⟩⟩,
      fun _ hn => (hn hi).elim⟩
  · exact ⟨fun _ _ => rfl, fun _ _ => rfl, fun _ => rfl, fun hn => (hn hi).elim, fun hn => (hn hi).elim⟩

end Sys2Proof.Machine
end

section
/-! Fault entry and RESET (60_exceptions R351, R356, 70_reset R390): a word that decodes is the word of its command, so a command's fault
records the word it was given; every other fault comes from one place with one record. -/

namespace Sys2Proof.Machine

-- As in the tests: with every proof in a thread of its own the check runs into its memory limit.
set_option Elab.async false

/-! ### A word that decodes is the word of its command (30_encoding R105, R106) -/

/-- The opcode map and the encoder agree on opcode `op`: the commands its format builds have that opcode, and the operand bits
the format says (30_encoding R101, R104). -/
def FormFits (op : Byte) : Form → Prop
  | .formN i => opcodeOf i = op ∧ operandBits i = 0#24
  | .formU lo hi mk => ∀ u : UnitCode, lo ≤ u.toNat → u.toNat ≤ hi → opcodeOf (mk u) = op ∧ operandBits (mk u) = u ++ 0#20
  | .formI mk => ∀ d : Byte, opcodeOf (mk d) = op ∧ operandBits (mk d) = 0#16 ++ d

theorem opcodeForm_fits {n : Nat} {f : Form} (h : opcodeForm n = some f) : FormFits (BitVec.ofNat 8 n) f := by
  -- The counter commands carry no operand: their unit field has the one value 8.
  have counter (u : UnitCode) (h1 : 8 ≤ u.toNat) (h2 : u.toNat ≤ 8) : 0x800000#24 = u ++ 0#20 := by
    rw [show u = 8#4 from BitVec.eq_of_toNat_eq (Nat.le_antisymm h2 h1)]
    rfl
  unfold opcodeForm at h
  split at h <;> cases h <;> simp [FormFits, opcodeOf, operandBits]
  all_goals exact counter

/-- A word is its opcode above its other bits (30_encoding R101). -/
theorem opcodeField_append (w : Cmd) : opcodeField w ++ w.extractLsb' 0 24 = w := by
  rw [opcodeField, BitVec.extractLsb'_append_extractLsb'_eq_extractLsb' (by rfl), BitVec.extractLsb'_eq_self]

/-- The operand bits of a word of format U and of format I (30_encoding R101). -/
theorem lowBits_eq_unit {w : Cmd} (h : w.extractLsb' 0 20 = 0#20) : w.extractLsb' 0 24 = unitBits w ++ 0#20 := by
  rw [← h, unitBits, BitVec.extractLsb'_append_extractLsb'_eq_extractLsb' (by rfl)]

theorem lowBits_eq_imm {w : Cmd} (h : w.extractLsb' 8 16 = 0#16) : w.extractLsb' 0 24 = 0#16 ++ immField w := by
  rw [← h, immField, BitVec.extractLsb'_append_extractLsb'_eq_extractLsb' (by rfl)]

/-- A word whose opcode has a format decodes to a command with that opcode and the word's operand bits. -/
theorem decodeForm_fields {f : Form} {w : Cmd} {i : Instr} {op : Byte} (hf : FormFits op f) (h : decodeForm f w = .ok i) :
    opcodeOf i = op ∧ operandBits i = w.extractLsb' 0 24 := by
  cases f with
  | formN j =>
    simp only [decodeForm] at h
    split at h
    · rename_i hz
      cases h
      exact ⟨hf.1, hf.2.trans hz.symm⟩
    · cases h
  | formU lo hi mk =>
    simp only [decodeForm] at h
    split at h
    · cases h
    · rename_i hz
      split at h
      · rename_i hu
        cases h
        obtain ⟨h1, h2⟩ := hf _ hu.1 hu.2
        exact ⟨h1, h2.trans (lowBits_eq_unit (not_not.1 hz)).symm⟩
      · cases h
  | formI mk =>
    simp only [decodeForm] at h
    split at h
    · rename_i hz
      cases h
      obtain ⟨h1, h2⟩ := hf (immField w)
      exact ⟨h1, h2.trans (lowBits_eq_imm hz).symm⟩
    · cases h

theorem encode_of_decode {w : Cmd} {i : Instr} (h : decode w = .ok i) : encode i = w := by
  unfold decode at h
  split at h
  · cases h
  · rename_i f hf
    obtain ⟨h1, h2⟩ := decodeForm_fields (opcodeForm_fits hf) h
    rw [encode, h1, h2, BitVec.ofNat_toNat, BitVec.setWidth_eq, opcodeField_append]

/-! ### Fault entry (60_exceptions R351) -/

/-- `t` is `s` with a fault taken: the record is `f` and `info`, and what lies outside the block may differ. -/
def FaultTaken (f : FaultReg) (info : Word) (s t : State) : Prop :=
  t.fault = f ∧ t.fcmd = info ∧ t.faulted = true ∧ sameBlock { s with fault := f, fcmd := info, faulted := true } t

theorem FaultTaken.raiseFault {s : State} (h : s.faulted = false) (src : Source) (e : Trap) (w : BitVec 4) (info : Word) :
    FaultTaken { cause := causeCode e.cause, unit := e.unit, src := sourceCode src, worker := w } info s
      (raiseFault src e w info s) := by
  rw [raiseFault_of_not_faulted h]
  exact ⟨rfl, rfl, rfl, rfl⟩

/-- The states before differ only outside the block. -/
theorem FaultTaken.of_sameBlock {f : FaultReg} {info : Word} {s s' t : State} (h : FaultTaken f info s' t) (hs : sameBlock s s') :
    FaultTaken f info s t := by
  obtain ⟨h1, h2, h3, h4⟩ := h
  refine ⟨h1, h2, h3, ?_⟩
  rw [hs] at h4
  exact h4

/-- A step that raises a fault is not one that leaves `FAULTED` as it was. -/
theorem faulted_ne {s t : State} (hf : s.faulted = false) (ht : t.faulted = true) : t.faulted ≠ s.faulted := by
  simp [hf, ht]

/-- The one fault of a worker (46_pipeline R307). -/
theorem workerTurn_fault {p : Fin 9} {s t : State} (hf : s.faulted = false) (h : workerTurn p s = .next t)
    (ht : t.faulted = true) :
    FaultTaken { cause := 0x14, unit := 8, src := 1, worker := BitVec.ofNat 4 p.val } 0 s t := by
  rcases workerTurn_cases h with ⟨-, -, rfl⟩ | ⟨-, -, rfl⟩ | ⟨-, -, e, he, rfl⟩ | ⟨-, -, t', r, hr, rfl⟩ | ⟨-, -, rfl⟩
  · exact (faulted_ne hf ht rfl).elim
  · exact (faulted_ne hf ht rfl).elim
  · obtain ⟨-, -, -, -, rfl⟩ := workerTransform_error he
    exact FaultTaken.raiseFault hf _ _ _ _
  · obtain ⟨u, x, r', -, hx, -, he⟩ := workerTransform_ok hr
    have ht' : t' = (blockOut u x r').1 := congrArg Prod.fst he
    have hxf : x.faulted = s.faulted := by
      rcases hx with ⟨-, rfl⟩ | ⟨-, hx⟩
      · exact scramble_faulted u s
      · cases hx <;> rfl
    refine (faulted_ne hf ht ?_).elim
    show t'.faulted = s.faulted
    rw [ht', blockOut_faulted, hxf]
  · exact (faulted_ne hf ht rfl).elim

/-- The faults of a command word: an illegal word, or the fault of the command it decodes to. -/
theorem runCommand_fault {w : Cmd} {s t : State} (hf : s.faulted = false) (h : runCommand w s = .next t)
    (ht : t.faulted = true) :
    ∃ c u, FaultTaken { cause := causeCode c, unit := u, src := 0, worker := 0 } (w.setWidth 64) s t := by
  rcases runCommand_cases h with ⟨e, -, rfl⟩ | ⟨i, hi, h⟩
  · exact ⟨_, _, FaultTaken.raiseFault hf _ _ _ _⟩
  · obtain ⟨c, u, rfl⟩ := exec_fault h hf ht
    rw [← encode_of_decode hi]
    exact ⟨c, u, rfl, rfl, rfl, rfl⟩

/-- The faults of the register port (60_exceptions R367). -/
theorem hostWrite_fault {a : RegNum} {v : Word} {s : State} (hf : s.faulted = false)
    (ht : (hostWrite a v s).faulted = true) :
    FaultTaken { cause := 0x03, unit := 0xF, src := 2, worker := 0 } (a.setWidth 64) s (hostWrite a v s) := by
  rcases hostWrite_cases a v s with ⟨h, -⟩ | ⟨-, r, t, -, hw, h⟩ | ⟨-, h⟩
  · rw [hf] at h; cases h
  · rw [h, writeReg_frame hw] at ht
    rw [show s.faulted = true from ht] at hf
    cases hf
  · rw [h]
    exact FaultTaken.raiseFault hf _ _ _ _

theorem hostRead_fault {a : RegNum} {s : State} (hf : s.faulted = false) (ht : (hostRead a s).faulted = true) :
    FaultTaken { cause := 0x03, unit := 0xF, src := 2, worker := 0 } (a.setWidth 64) s (hostRead a s) := by
  rcases hostRead_cases a s with ⟨r, -, h⟩ | ⟨-, h⟩
  · rw [h] at ht
    rw [show s.faulted = true from ht] at hf
    cases hf
  · rw [h]
    exact .of_sameBlock (FaultTaken.raiseFault (s := { s with replies := s.replies ++ [.value 0#64] }) hf _ _ _ _) rfl

/-- The four records of 10_state R28, R29, for a host whose oldest pending action is `x`. -/
def FaultRecord (x : Option HostAction) (f : FaultReg) (info : Word) : Prop :=
  (∃ (w : Cmd) (c : Cause) (u : UnitCode), x = some (.cmd w) ∧
      f = { cause := causeCode c, unit := u, src := 0, worker := 0 } ∧ info = w.setWidth 64) ∨
  (∃ p : Fin 9, f = { cause := 0x14, unit := 8, src := 1, worker := BitVec.ofNat 4 p.val } ∧ info = 0) ∨
  (∃ a : RegNum, (x = some (.rd a) ∨ ∃ v, x = some (.wr a v)) ∧
      f = { cause := 0x03, unit := 0xF, src := 2, worker := 0 } ∧ info = a.setWidth 64) ∨
  (∃ bytes : List Byte, x = some (.push bytes) ∧ 32 < bytes.length ∧
      f = { cause := 0x40, unit := 0xF, src := 3, worker := 0 } ∧ info = (BitVec.ofNat 8 bytes.length).setWidth 64)

theorem performAction_fault {x : HostAction} {s t : State} (hf : s.faulted = false) (h : performAction x s = .next t)
    (ht : t.faulted = true) : ∃ f info, FaultRecord (some x) f info ∧ FaultTaken f info s t := by
  rcases performAction_cases h with ⟨a, v, rfl, rfl⟩ | ⟨a, rfl, rfl⟩ | ⟨w, rfl, h⟩ | ⟨bytes, -, -, rfl⟩ |
    ⟨bytes, rfl, hb, rfl⟩ | ⟨k, -, -, rfl⟩ | ⟨-, -, rfl⟩ | ⟨-, rfl⟩
  · exact ⟨_, _, .inr (.inr (.inl ⟨a, .inr ⟨v, rfl⟩, rfl, rfl⟩)), hostWrite_fault hf ht⟩
  · exact ⟨_, _, .inr (.inr (.inl ⟨a, .inl rfl, rfl, rfl⟩)), hostRead_fault hf ht⟩
  · obtain ⟨c, u, h⟩ := runCommand_fault hf h ht
    exact ⟨_, _, .inl ⟨w, c, u, rfl, rfl, rfl⟩, h⟩
  · exact (faulted_ne hf ht rfl).elim
  · exact ⟨_, _, .inr (.inr (.inr ⟨bytes, rfl, hb, rfl, rfl⟩)), FaultTaken.raiseFault hf _ _ _ _⟩
  · refine (faulted_ne hf ht ?_).elim
    unfold popBlock
    dsimp only
    split <;> rfl
  · exact (faulted_ne hf ht rfl).elim
  · cases ht

/-- Settles O6: every fault has one of the four records, and fault entry is one operation. -/
theorem faultWritesNothingElse : Obligations.FaultWritesNothingElse := by
  intro s t hf h ht
  have taken : ∃ f info, FaultRecord s.hostq.head? f info ∧ FaultTaken f info s t := by
    obtain ⟨d, q, h⟩ := step_cases h
    rcases h with ⟨p, h⟩ | h | h
    · exact ⟨_, _, .inr (.inl ⟨p, rfl, rfl⟩), 
        .of_sameBlock (workerTurn_fault (s := { s with draws := d, sched := q }) hf h ht) rfl⟩
    · rcases hostTurn_cases h with rfl | ⟨x, rest, hq, -, h⟩
      · exact (faulted_ne hf ht rfl).elim
      · obtain ⟨f, info, hr, h⟩ := performAction_fault (s := { s with draws := d, sched := q, hostq := rest }) hf h ht
        rw [show s.hostq = x :: rest from hq]
        exact ⟨f, info, hr, .of_sameBlock h rfl⟩
    · rcases hostResetTurn_cases h with rfl | ⟨x, rest, -, -, rfl⟩
      · exact (faulted_ne hf ht rfl).elim
      · cases ht
  obtain ⟨f, info, hr, rfl, rfl, -, hs⟩ := taken
  exact ⟨hs, ht, hr⟩

/-! ### RESET (70_reset R390) -/

theorem isReset_resetBlock (s : State) : IsReset (resetBlock s) where
  estate := rfl
  flags := ⟨rfl, rfl, rfl, rfl, rfl⟩
  dir := rfl
  fault := ⟨rfl, rfl⟩
  stages := ⟨rfl, rfl⟩
  config := ⟨rfl, rfl, fun p => by simp [resetBlock, State.reset]⟩
  wcu := ⟨rfl, rfl, rfl, rfl, rfl, fun _ => rfl⟩
  block := ⟨rfl, fun _ => rfl⟩
  staging := ⟨rfl, rfl, rfl, fun j => by simp [resetBlock, State.reset], fun _ => rfl⟩
  rotors k := by rw [rotor_resetBlock]; exact ⟨rfl, rfl, rfl, rfl, rfl⟩
  perms k := by
    rw [perm_resetBlock]
    exact ⟨rfl, rfl, rfl, fun j => by simp [Perm.reset]⟩
  counter := rfl
  slots k := by rw [slot_resetBlock]; rfl
  workers p := by rw [worker_resetBlock]; rfl

/-- A RESET never blocks: on the host's turn it happens. -/
theorem hostTurn_of_reset {s : State} {rest : List HostAction} (hq : s.hostq = .reset :: rest) :
    hostTurn s = .next (resetBlock { s with hostq := rest }) := by
  simp [hostTurn, hq, actionBlocked, performAction]

/-- A blocked port is given up for the RESET behind it. -/
theorem hostResetTurn_of_blocked {s : State} {x : HostAction} {rest : List HostAction} (hq : s.hostq = x :: .reset :: rest)
    (hb : actionBlocked s x = true) : hostResetTurn s = .next (resetBlock { s with hostq := rest }) := by
  simp [hostResetTurn, hq, hb]

/-- Choosing the turn blocks and frees no port. -/
theorem actionBlocked_nextTurn (s : State) (x : HostAction) : actionBlocked (nextTurn s).2 x = actionBlocked s x := by
  obtain ⟨d, q, e⟩ := nextTurn_frame s
  rw [e]
  cases x <;> rfl

/-- Settles O8: both turns that reset end in `resetBlock`. -/
theorem resetLeaves : Obligations.ResetLeaves := by
  intro s rest h
  have hr : step s = .next (resetBlock { (nextTurn s).2 with hostq := rest }) := by
    rcases h with ⟨hturn, hq⟩ | ⟨hturn, x, hq, hb⟩
    · rw [step_of_host hturn, hostTurn_of_reset ((nextTurn_hostq s).trans hq)]
    · rw [step_of_hostReset hturn,
        hostResetTurn_of_blocked ((nextTurn_hostq s).trans hq) ((actionBlocked_nextTurn s x).trans hb)]
  exact ⟨_, hr, isReset_resetBlock _, rfl, rfl⟩

/-- Settles O52: the reset state is what RESET leaves of itself. -/
theorem invariantsAtReset : Obligations.InvariantsAtReset :=
  ⟨.reset State.reset, .reset State.reset, .reset State.reset, isReset_resetBlock State.reset⟩

/-! ### PRM.REBUILD (42_permutator R185) -/

theorem setPerm_self (k : Fin 2) (s : State) : setPerm k (perm s k) s = s := by
  simp [setPerm, perm]

/-- Settles O31: a good unit's table is already the one the rebuild writes. -/
theorem prmRebuildNoEffect : Obligations.PrmRebuildNoEffect := by
  intro k s hf hv hg hu
  refine ⟨by fin_cases k <;> rfl, ?_⟩
  show command _ s (onValidPerm (unitCode (.perm k)) s fun k => .ok (mutated s (.perm k) (setPerm k (rebuild (perm s k)) s))) = _
  rw [onValidPerm_of_valid hv, mutated_of_settled hu, hg.rebuild_eq, setPerm_self, command_of_ok hf rfl]

end Sys2Proof.Machine
end

section
/-! The register port (10_state R22 to R56, 60_exceptions R367): the fields of the words a register is put together from, what each register
number shows, and what a `WR` and an `RD` do to it. -/

namespace Sys2Proof.Machine

-- As in the tests: with every proof in a thread of its own the check runs into its memory limit.
set_option Elab.async false

/-! ### Fields of a number -/

/-- A field above `2 ^ m` does not see the part below. -/
theorem field_high {a m : Nat} (ha : a < 2 ^ m) (c k : Nat) : (a + 2 ^ m * c) / 2 ^ (m + k) = c / 2 ^ k := by
  rw [Nat.pow_add, ← Nat.div_div_eq_div_mul, Nat.add_mul_div_left _ _ (Nat.two_pow_pos m), Nat.div_eq_of_lt ha, Nat.zero_add]

/-- A field below `2 ^ m` does not see the part above. -/
theorem field_low (a c : Nat) {m k w : Nat} (h : k + w ≤ m) : (a + 2 ^ m * c) / 2 ^ k % 2 ^ w = a / 2 ^ k % 2 ^ w := by
  obtain ⟨j, rfl⟩ := Nat.exists_eq_add_of_le h
  rw [Nat.pow_add, Nat.pow_add, Nat.mul_assoc, Nat.mul_assoc, Nat.add_mul_div_left _ _ (Nat.two_pow_pos k),
    Nat.add_mul_mod_self_left]

/-- A bit of a 64-bit word. -/
theorem word_bit {n i : Nat} {b : Bool} (hi : i < 64) (h : n / 2 ^ i % 2 = b.toNat) : (BitVec.ofNat 64 n).getLsbD i = b := by
  rw [BitVec.getLsbD_ofNat, Nat.testBit_eq_decide_div_mod_eq, h]
  cases b <;> simp [hi]

/-- A field of a 64-bit word. -/
theorem word_field {n k w v : Nat} (hk : k + w ≤ 64) (h : n / 2 ^ k % 2 ^ w = v) :
    (BitVec.ofNat 64 n).extractLsb' k w = BitVec.ofNat w v := by
  refine BitVec.eq_of_getLsbD_eq fun j hj => ?_
  have hkj : k + j < 64 := by omega
  rw [BitVec.getLsbD_extractLsb', BitVec.getLsbD_ofNat, BitVec.getLsbD_ofNat, ← h, Nat.testBit_mod_two_pow,
    Nat.testBit_div_two_pow, Nat.add_comm j k]
  simp [hj, hkj]

/-- The number with `d 0, d 1, ...` in its fields of `w` bits, lowest first. -/
def fieldSum (w : Nat) {n : Nat} (d : Fin n → Nat) : Nat := ((List.finRange n).map fun p => 2 ^ (w * p.val) * d p).sum

theorem fieldSum_succ (w : Nat) {n : Nat} (d : Fin (n + 1) → Nat) :
    fieldSum w d = d 0 + 2 ^ w * fieldSum w fun p => d p.succ := by
  simp [fieldSum, List.finRange_succ, List.map_map, Function.comp_def, ← List.sum_map_mul_left, Nat.mul_add, Nat.pow_add,
    Nat.mul_comm, Nat.mul_left_comm]

/-- The fields moved up by `b` bits. -/
theorem fieldSum_shift (b w : Nat) {n : Nat} (d : Fin n → Nat) :
    ((List.finRange n).map fun p => 2 ^ (b + w * p.val) * d p).sum = 2 ^ b * fieldSum w d := by
  simp [fieldSum, ← List.sum_map_mul_left, Nat.pow_add, Nat.mul_assoc]

theorem fieldSum_lt {w n : Nat} {d : Fin n → Nat} (hd : ∀ p, d p < 2 ^ w) : fieldSum w d < 2 ^ (w * n) := by
  induction n with
  | zero => simp [fieldSum]
  | succ n ih =>
    have h0 := hd 0
    have h1 := ih fun p => hd p.succ
    rw [fieldSum_succ, Nat.mul_succ, Nat.add_comm (w * n), Nat.pow_add]
    nlinarith

theorem fieldSum_field {w n : Nat} {d : Fin n → Nat} (hd : ∀ p, d p < 2 ^ w) (p : Fin n) :
    fieldSum w d / 2 ^ (w * p.val) % 2 ^ w = d p := by
  induction n with
  | zero => exact p.elim0
  | succ n ih =>
    rw [fieldSum_succ]
    cases p using Fin.cases with
    | zero =>
      rw [Fin.val_zero, Nat.mul_zero, field_low _ _ (by omega), Nat.pow_zero, Nat.div_one, Nat.mod_eq_of_lt (hd 0)]
    | succ p =>
      rw [Fin.val_succ, Nat.mul_succ, Nat.add_comm (w * p.val), field_high (hd 0), ih fun p => hd p.succ]

/-- The bytes of a little-endian number. -/
theorem leNat_byte (bs : List Byte) (j : Nat) : leNat bs / 2 ^ (8 * j) % 2 ^ 8 = (bs.getD j 0#8).toNat := by
  induction bs generalizing j with
  | nil => simp [leNat]
  | cons b t ih =>
    have hb : b.toNat < 2 ^ 8 := b.isLt
    rw [leNat, show 256 = 2 ^ 8 from rfl]
    cases j with
    | zero => rw [Nat.mul_zero, field_low _ _ (by omega), Nat.pow_zero, Nat.div_one, Nat.mod_eq_of_lt hb]; rfl
    | succ j => rw [Nat.mul_succ, Nat.add_comm (8 * j), field_high hb, ih, List.getD_cons_succ]

/-- A register over a byte buffer shows its eight bytes (20_memory R75). -/
theorem showsBytes_wordAt (m : Mem) (k : Nat) : ShowsBytes (wordAt m k) m k := by
  intro j hj
  rw [wordAt, le64, word_field (by omega) (leNat_byte _ j), readBytes_getD _ _ _ _ hj, BitVec.ofNat_toNat, BitVec.setWidth_eq]

/-! ### The words put together from fields (10_state R25 to R31) -/

theorem estateCode_lt (e : EState) : estateCode e < 2 ^ 3 := by cases e <;> decide

theorem dirCode_lt (d : Dir) : dirCode d < 2 ^ 2 := by cases d <;> decide

theorem wstateCode_lt (w : WState) : wstateCode w < 2 ^ 2 := by cases w <;> decide

/-- Settles O10: each field of the sum, below and above its neighbours. -/
theorem statusFields : Obligations.StatusFields := by
  intro s
  have he := estateCode_lt s.estate
  have hd := dirCode_lt s.dir
  have h3 := s.faulted.toNat_le
  have h4 := s.closing.toNat_le
  have h5 := s.flagZ.toNat_le
  have h6 := s.flagB.toNat_le
  have h7 := s.untracked.toNat_le
  have h8 := (inReady s).toNat_le
  have h9 := (outValid s).toNat_le
  have h10 := (!s.faulted && quiescent s).toNat_le
  have h11 : false.toNat = 0 := rfl
  refine ⟨rfl, rfl, word_field (by decide) ?_, word_bit (by decide) ?_, word_bit (by decide) ?_, word_bit (by decide) ?_,
    word_bit (by decide) ?_, word_bit (by decide) ?_, word_bit (by decide) ?_, word_bit (by decide) ?_, word_bit (by decide) ?_,
    word_bit (by decide) ?_, word_field (by decide) ?_, word_field (v := 0) (by decide) ?_⟩ <;>
    omega

theorem faultWord_fields (f : FaultReg) :
    (faultWord f).extractLsb' 0 8 = f.cause ∧ (faultWord f).extractLsb' 8 4 = f.unit ∧
      (faultWord f).extractLsb' 12 4 = f.src ∧ (faultWord f).extractLsb' 16 4 = f.worker ∧
      (faultWord f).extractLsb' 20 44 = 0 := by
  have h1 := f.cause.isLt
  have h2 := f.unit.isLt
  have h3 := f.src.isLt
  have h4 := f.worker.isLt
  have back {w : Nat} (x : BitVec w) : BitVec.ofNat w x.toNat = x := by simp
  refine ⟨(word_field (by decide) ?_).trans (back _), (word_field (by decide) ?_).trans (back _),
    (word_field (by decide) ?_).trans (back _), (word_field (by decide) ?_).trans (back _),
    word_field (v := 0) (by decide) ?_⟩ <;> omega

theorem builtCfgWord_eq (s : State) :
    builtCfgWord s = BitVec.ofNat 64 (s.nb.toNat + 2 ^ 4 * dirCode s.bdir + 2 ^ 8 * fieldSum 4 fun p : Fin 9 => s.binding[p].toNat) := by
  rw [builtCfgWord, fieldSum_shift]

theorem builtCfgWord_fields (s : State) :
    (builtCfgWord s).extractLsb' 0 4 = s.nb ∧ (builtCfgWord s).extractLsb' 4 4 = BitVec.ofNat 4 (dirCode s.bdir) ∧
      (∀ p : Fin 9, (builtCfgWord s).extractLsb' (8 + 4 * p.val) 4 = s.binding[p]) ∧
      (builtCfgWord s).extractLsb' 44 20 = 0 := by
  have hn : s.nb.toNat < 2 ^ 4 := s.nb.isLt
  have hd := dirCode_lt s.bdir
  have hb : ∀ p : Fin 9, s.binding[p].toNat < 2 ^ 4 := fun p => s.binding[p].isLt
  have hs := fieldSum_lt hb
  have back {w : Nat} (x : BitVec w) : BitVec.ofNat w x.toNat = x := by simp
  rw [builtCfgWord_eq]
  refine ⟨(word_field (by decide) ?_).trans (back _), word_field (by decide) ?_, fun p => ?_, word_field (v := 0) (by decide) ?_⟩
  · omega
  · omega
  · refine (word_field (by omega) ?_).trans (back _)
    rw [field_high (by omega), fieldSum_field hb]
  · omega

theorem wstatWord_eq (s : State) :
    wstatWord s = BitVec.ofNat 64
      ((fieldSum 2 fun p : Fin 9 => wstateCode (worker s p).st)
        + 2 ^ 20 * ((fieldSum 1 fun p : Fin 9 => ((worker s p).st == .hold && (worker s p).last).toNat)
          + 2 ^ 12 * fieldSum 1 fun k : Fin 10 => (slot s k).v.toNat)) := by
  have h1 := fieldSum_shift 20 1 fun p : Fin 9 => ((worker s p).st == .hold && (worker s p).last).toNat
  have h2 := fieldSum_shift 32 1 fun k : Fin 10 => (slot s k).v.toNat
  simp only [Nat.one_mul] at h1 h2
  rw [wstatWord, h1, h2, Nat.mul_add, ← Nat.mul_assoc, ← Nat.pow_add, Nat.add_assoc]
  rfl

theorem wstatWord_fields (s : State) :
    (∀ p : Fin 9, (wstatWord s).extractLsb' (2 * p.val) 2 = BitVec.ofNat 2 (wstateCode (worker s p).st) ∧
      (wstatWord s).getLsbD (20 + p.val) = ((worker s p).st == .hold && (worker s p).last)) ∧
    (wstatWord s).extractLsb' 18 2 = 0 ∧ (wstatWord s).extractLsb' 29 3 = 0 ∧
    (∀ k : Fin 10, (wstatWord s).getLsbD (32 + k.val) = (slot s k).v) ∧ (wstatWord s).extractLsb' 42 22 = 0 := by
  have bit (b : Bool) : b.toNat < 2 ^ 1 := b.toNat_lt
  have h1 : ∀ p : Fin 9, wstateCode (worker s p).st < 2 ^ 2 := fun p => wstateCode_lt _
  have h2 : ∀ p : Fin 9, ((worker s p).st == .hold && (worker s p).last).toNat < 2 ^ 1 := fun p => bit _
  have h3 : ∀ k : Fin 10, (slot s k).v.toNat < 2 ^ 1 := fun k => bit _
  have f1 := fieldSum_field h1
  have f2 := fieldSum_field h2
  have f3 := fieldSum_field h3
  have l1 := fieldSum_lt h1
  have l2 := fieldSum_lt h2
  have l3 := fieldSum_lt h3
  rw [wstatWord_eq]
  simp only [Nat.one_mul, Nat.pow_one] at f2 f3
  refine ⟨fun p => ⟨?_, ?_⟩, word_field (v := 0) (by decide) ?_, word_field (v := 0) (by decide) ?_, fun k => ?_,
    word_field (v := 0) (by decide) ?_⟩
  · refine word_field (by omega) ?_
    rw [field_low _ _ (by omega), f1]
  · refine word_bit (by omega) ?_
    have := field_low (fieldSum 1 fun p : Fin 9 => ((worker s p).st == .hold && (worker s p).last).toNat)
      (fieldSum 1 fun k : Fin 10 => (slot s k).v.toNat) (m := 12) (k := p.val) (w := 1) (by omega)
    rw [field_high (by omega)]
    rw [Nat.pow_one] at this
    rw [this, f2]
  · omega
  · omega
  · refine word_bit (by omega) ?_
    rw [show 32 + k.val = 20 + (12 + k.val) by omega, field_high (by omega), field_high (by omega), f3]
  · omega

/-! ### The register map (10_state R56) -/

/-- The width of a register the host may write; none where it is read-only (10_state R56). -/
def writeWidth : Reg → Option Nat
  | .nst => some 4
  | .order => some 36
  | .wstrLen => some 7
  | .blkLen => some 6
  | .waccLo | .waccHi | .wop | .wstr _ | .blk _ | .psize | .pstart | .pstep | .plen _ | .stg _ => some 64
  | .id | .status | .fault | .fcmd | .builtCfg | .wstat | .wrem | .cidxLo | .cidxHi => none
  | .rotor _ _ | .perm _ _ => none

/-- The ranges of the staging words, whose number is the index of the word. -/
theorem regOf_stg (k : Nat) (hk : k < 128) : regOf (0x100 + k) = some (.stg ⟨k, hk⟩) := by
  rw [regOf, dif_neg (by omega), dif_neg (by omega), dif_neg (by omega), dif_pos (by omega)]
  simp

theorem regOf_wstr (k : Nat) (hk : k < 8) : regOf (0x018 + k) = some (.wstr ⟨k, hk⟩) := by
  rw [regOf, dif_pos (by omega)]
  simp

theorem regOf_blk (k : Nat) (hk : k < 4) : regOf (0x020 + k) = some (.blk ⟨k, hk⟩) := by
  rw [regOf, dif_neg (by omega), dif_pos (by omega)]
  simp

theorem regOf_plen (j : Fin 4) : regOf (0x034 + j.val) = some (.plen j) := by
  rw [regOf, dif_neg (by omega), dif_neg (by omega), dif_pos (by omega)]
  simp

theorem regOf_rotor : ∀ k : Fin 6,
    regOf (0x200 + 16 * k.val) = some (.rotor k .size) ∧ regOf (0x201 + 16 * k.val) = some (.rotor k .start) ∧
      regOf (0x202 + 16 * k.val) = some (.rotor k .step) ∧ regOf (0x203 + 16 * k.val) = some (.rotor k .current) ∧
      regOf (0x204 + 16 * k.val) = some (.rotor k .valid) := by
  decide

theorem regOf_perm : ∀ k : Fin 2,
    (∀ j : Fin 4, regOf (0x260 + 16 * k.val + j.val) = some (.perm k (.len j)) ∧
      regOf (0x264 + 16 * k.val + j.val) = some (.perm k (.cur j)) ∧
      regOf (0x268 + 16 * k.val + j.val) = some (.perm k (.start j))) ∧
    regOf (0x26C + 16 * k.val) = some (.perm k .cstate) ∧ regOf (0x26D + 16 * k.val) = some (.perm k .maxst) ∧
      regOf (0x26E + 16 * k.val) = some (.perm k .valid) := by
  decide

/-- A register shows what it reads. -/
theorem shown_of_regOf {a : Nat} {r : Reg} (h : regOf a = some r) (s : State) : shown s a = readReg s r := by
  simp [shown, h]

/-- Every register shows its own piece of state (10_state R24 to R48). -/
theorem registersShow (s : State) : RegistersShow s where
  id := rfl
  fault := by
    obtain ⟨h1, h2, h3, h4, h5⟩ := faultWord_fields s.fault
    exact ⟨h1, h2, h3, h4, h5, rfl⟩
  stages := ⟨rfl, rfl⟩
  config := builtCfgWord_fields s
  workers := by
    obtain ⟨h1, h2, h3, -, -⟩ := wstatWord_fields s
    exact ⟨h1, h2, h3⟩
  slots := by
    obtain ⟨-, -, -, h4, h5⟩ := wstatWord_fields s
    exact ⟨h4, h5⟩
  wcu := ⟨rfl, rfl, rfl, rfl, rfl, fun k hk => by rw [shown_of_regOf (regOf_wstr k hk)]; exact showsBytes_wordAt _ _⟩
  block := ⟨fun k hk => by rw [shown_of_regOf (regOf_blk k hk)]; exact showsBytes_wordAt _ _, rfl⟩
  staging := ⟨rfl, rfl, rfl, fun j => shown_of_regOf (regOf_plen j) s,
    fun k hk => by rw [shown_of_regOf (regOf_stg k hk)]; exact showsBytes_wordAt _ _⟩
  rotors k := by
    obtain ⟨h1, h2, h3, h4, h5⟩ := regOf_rotor k
    refine ⟨shown_of_regOf h1 s, shown_of_regOf h2 s, shown_of_regOf h3 s, shown_of_regOf h4 s, ?_⟩
    rw [shown_of_regOf h5, readReg, rotorReg]
    cases (rotor s k).valid <;> rfl
  perms k := by
    obtain ⟨hj, h1, h2, h3⟩ := regOf_perm k
    refine ⟨fun j => ?_, shown_of_regOf h1 s, shown_of_regOf h2 s, ?_⟩
    · obtain ⟨g1, g2, g3⟩ := hj j
      exact ⟨shown_of_regOf g1 s, shown_of_regOf g2 s, shown_of_regOf g3 s⟩
    · rw [shown_of_regOf h3, readReg, permReg]
      cases (perm s k).valid <;> rfl
  counter := ⟨rfl, rfl⟩

/-- What the register map of 10_state R56 says of a number agrees with the register there, or there is none. -/
def MapAgrees (a : Nat) (r : Option Reg) : Prop :=
  rwWidth a = r.bind writeWidth ∧ roRegister a = (r.any fun r => (writeWidth r).isNone)

/-- A number the map gives as 64 bits wide. -/
theorem mapAgrees_wide {a : Nat} {r : Reg} (hw : writeWidth r = some 64)
    (ha : (0x018 ≤ a ∧ a ≤ 0x01F) ∨ (0x020 ≤ a ∧ a ≤ 0x023) ∨ (0x034 ≤ a ∧ a ≤ 0x037) ∨ (0x100 ≤ a ∧ a ≤ 0x17F)) :
    MapAgrees a (some r) := by
  refine ⟨?_, ?_⟩
  · simp only [Option.bind_some, hw]
    unfold rwWidth
    split_ifs <;> first | rfl | omega
  · simp only [Option.any_some, hw, Option.isNone_some, roRegister, decide_eq_false_iff_not]
    omega

/-- Above the host's registers the map of 10_state R56 gives no width. -/
theorem rwWidth_high {a : Nat} (ha : 0x200 ≤ a) : rwWidth a = none := by
  unfold rwWidth
  split_ifs <;> first | rfl | omega

/-- A rotor's group has five registers, a permutator's fifteen (10_state R41, R46). -/
theorem rotorFieldOf_isSome : ∀ n : Nat, (rotorFieldOf n).isSome = decide (n ≤ 4)
  | 0 | 1 | 2 | 3 | 4 => rfl
  | n + 5 => by simp [rotorFieldOf]

theorem permFieldOf_isSome : ∀ n : Nat, (permFieldOf n).isSome = decide (n ≤ 14)
  | 0 | 1 | 2 | 3 | 4 | 5 | 6 | 7 | 8 | 9 | 10 | 11 | 12 | 13 | 14 => rfl
  | n + 15 => by simp [permFieldOf]

/-- The map of 10_state R56 and the register behind each number, range by range. -/
theorem regOf_agrees (a : Nat) : MapAgrees a (regOf a) := by
  unfold regOf
  split_ifs with h1 h2 h3 h4 h5 h6 h7 h8
  · exact mapAgrees_wide rfl (by omega)
  · exact mapAgrees_wide rfl (by omega)
  · exact mapAgrees_wide rfl (by omega)
  · exact mapAgrees_wide rfl (by omega)
  · have hs := rotorFieldOf_isSome (a % 16)
    constructor
    · rw [rwWidth_high (by omega)]
      cases rotorFieldOf (a % 16) <;> rfl
    · cases hf : rotorFieldOf (a % 16) <;> rw [hf] at hs <;> simp [roRegister, writeWidth] at hs ⊢ <;> omega
  · have hs := permFieldOf_isSome (a % 16)
    constructor
    · rw [rwWidth_high (by omega)]
      cases permFieldOf (a % 16) <;> rfl
    · cases hf : permFieldOf (a % 16) <;> rw [hf] at hs <;> simp [roRegister, writeWidth] at hs ⊢ <;> omega
  · subst h7; exact ⟨rfl, rfl⟩
  · subst h8; exact ⟨rfl, rfl⟩
  · unfold singleRegOf
    split
    -- The last case is a number of no register.
    case h_18 =>
      simp only [imp_false] at *
      constructor
      · unfold rwWidth
        split_ifs <;> first | rfl | omega
      · simp only [roRegister, Option.any_none, decide_eq_false_iff_not]
        omega
    all_goals exact ⟨rfl, rfl⟩

/-! ### Writing a register (10_state R22) -/

/-- A read-only register refuses every write, any other takes it. -/
theorem writeReg_eq_none_iff (s : State) (r : Reg) (v : Word) : writeReg s r v = none ↔ writeWidth r = none := by
  cases r <;> simp [writeReg, writeWidth]

/-- A narrow register keeps the low bits and shows them with zeros above. -/
theorem setWidth_setWidth_eq (v : Word) (n : Nat) :
    (v.setWidth n).setWidth 64 = BitVec.ofNat 64 (v.toNat % 2 ^ n) := by
  apply BitVec.eq_of_toNat_eq
  simp

theorem word_eq_ofNat_mod (v : Word) : v = BitVec.ofNat 64 (v.toNat % 2 ^ 64) := by
  rw [Nat.mod_eq_of_lt v.isLt, BitVec.ofNat_toNat, BitVec.setWidth_eq]

section
variable {s t : State} {r : Reg} {v : Word}

/-- What a written register shows. -/
theorem readReg_writeReg_same {n : Nat} (h1 : Mem.wf s.wstr) (h2 : Mem.wf s.blk) (h3 : Mem.wf s.stg)
    (hr : writeWidth r = some n) (h : writeReg s r v = some t) : readReg t r = BitVec.ofNat 64 (v.toNat % 2 ^ n) := by
  cases r with
  | nst | order | wstrLen | blkLen =>
    cases hr
    cases h
    exact setWidth_setWidth_eq v _
  | waccLo | waccHi | wop | psize | pstart | pstep =>
    cases hr
    cases h
    exact word_eq_ofNat_mod v
  | wstr k =>
    cases hr
    cases h
    exact (wordAt_setWordAt_same h1 _ _).trans (word_eq_ofNat_mod v)
  | blk k =>
    cases hr
    cases h
    exact (wordAt_setWordAt_same h2 _ _).trans (word_eq_ofNat_mod v)
  | stg k =>
    cases hr
    cases h
    exact (wordAt_setWordAt_same h3 _ _).trans (word_eq_ofNat_mod v)
  | plen j =>
    cases hr
    cases h
    exact Eq.trans (by simp [readReg]) (word_eq_ofNat_mod v)
  | id | status | fault | fcmd | builtCfg | wstat | wrem | cidxLo | cidxHi => cases hr
  | rotor u f => cases hr
  | perm u f => cases hr

/-- A write shows in no other register. -/
theorem readReg_writeReg_other (h1 : Mem.wf s.wstr) (h2 : Mem.wf s.blk) (h3 : Mem.wf s.stg)
    (h : writeReg s r v = some t) {r' : Reg} (hne : r' ≠ r) : readReg t r' = readReg s r' := by
  cases r with
  | nst => cases h; cases r' with | nst => contradiction | _ => rfl
  | order => cases h; cases r' with | order => contradiction | _ => rfl
  | waccLo => cases h; cases r' with | waccLo => contradiction | _ => rfl
  | waccHi => cases h; cases r' with | waccHi => contradiction | _ => rfl
  | wop => cases h; cases r' with | wop => contradiction | _ => rfl
  | wstrLen => cases h; cases r' with | wstrLen => contradiction | _ => rfl
  | blkLen => cases h; cases r' with | blkLen => contradiction | _ => rfl
  | psize => cases h; cases r' with | psize => contradiction | _ => rfl
  | pstart => cases h; cases r' with | pstart => contradiction | _ => rfl
  | pstep => cases h; cases r' with | pstep => contradiction | _ => rfl
  | wstr k =>
    cases h
    cases r' with
    | wstr j => exact wordAt_setWordAt_other h1 (fun e => hne (by rw [Fin.ext e])) v
    | _ => rfl
  | blk k =>
    cases h
    cases r' with
    | blk j => exact wordAt_setWordAt_other h2 (fun e => hne (by rw [Fin.ext e])) v
    | _ => rfl
  | stg k =>
    cases h
    cases r' with
    | stg j => exact wordAt_setWordAt_other h3 (fun e => hne (by rw [Fin.ext e])) v
    | _ => rfl
  | plen k =>
    cases h
    cases r' with
    | plen j =>
      have hkj : k.val ≠ j.val := fun e => hne (by rw [Fin.ext e])
      simp [readReg, hkj]
    | _ => rfl
  | _ => cases h

end

/-! ### The two actions of the port (60_exceptions R367) -/

theorem hostWrite_of_writeReg {a : RegNum} {s t : State} {r : Reg} {v : Word} (hf : s.faulted = false)
    (hr : regOf a.toNat = some r) (hw : writeReg s r v = some t) : hostWrite a v s = t := by
  simp [hostWrite, hf, hr, hw]

/-- A `WR` to a number with no writable register faults. -/
theorem hostWrite_of_refused {a : RegNum} {s : State} (v : Word) (hf : s.faulted = false)
    (hr : (regOf a.toNat).bind writeWidth = none) : hostWrite a v s = registerFault a s := by
  cases h : regOf a.toNat with
  | none => simp [hostWrite, hf, h]
  | some r =>
    rw [h] at hr
    simp [hostWrite, hf, h, (writeReg_eq_none_iff s r v).2 hr]

theorem registerFault_eq {s : State} (hf : s.faulted = false) (a : RegNum) :
    registerFault a s =
      { s with
        fault := { cause := 0x03, unit := 0xF, src := 2, worker := 0 }, fcmd := a.setWidth 64, faulted := true } :=
  raiseFault_of_not_faulted hf _ _ _ _

/-- Settles O9, by the register map: each number names a register of the stated width and access, or none. -/
theorem registerPort : Obligations.RegisterPort := by
  refine ⟨registersShow, fun a s hf h1 h2 h3 => ?_⟩
  obtain ⟨hw, hro⟩ := regOf_agrees a.toNat
  refine ⟨fun v n hn => ?_, fun v hn => ?_, fun h => ?_, fun hn hro' => ?_⟩
  · obtain ⟨r, hr, hrn⟩ := Option.bind_eq_some_iff.1 (hw.symm.trans hn)
    cases ht : writeReg s r v with
    | none => rw [(writeReg_eq_none_iff s r v).1 ht] at hrn; cases hrn
    | some t =>
      exact ⟨r, t, hr, congrArg _ (hostWrite_of_writeReg hf hr ht), readReg_writeReg_same h1 h2 h3 hrn ht,
        fun r' hne => readReg_writeReg_other h1 h2 h3 ht hne, writeReg_frame ht⟩
  · show Host.Outcome.next (hostWrite a v s) = _
    rw [hostWrite_of_refused v hf (hw.symm.trans hn), registerFault_eq hf]
  · cases hr : regOf a.toNat with
    | none => simp [hw, hro, hr] at h
    | some r =>
      refine ⟨r, rfl, ?_⟩
      simp [performAction, hostRead, hr]
  · have hr : regOf a.toNat = none := by
      cases hr : regOf a.toNat with
      | none => rfl
      | some r =>
        rw [hr] at hw hro
        rw [hro] at hro'
        have hnone : writeWidth r = none := hw.symm.trans hn
        simp [hnone] at hro'
    have hread : hostRead a s = registerFault a { s with replies := s.replies ++ [.value 0#64] } := by
      simp [hostRead, hr]
    show Host.Outcome.next (hostRead a s) = _
    rw [hread, registerFault_eq (s := { s with replies := s.replies ++ [.value 0#64] }) hf]
    rfl

end Sys2Proof.Machine
end

section
/-! What a step can do to the chain of slots and workers (46_pipeline R307 to R314, R322): one inversion lemma for a worker's turn, one for
the host's, and from them that every step keeps the arbiter's invariants and that no step but a worker's own takes its enabled step away. -/

namespace Sys2Proof.Machine

-- As in the tests: with every proof in a thread of its own the check runs into its memory limit.
set_option Elab.async false

/-! ### Enabled steps (46_pipeline R307, R308) -/

/-- Worker `W[p]` waits and a block stands in its left slot: step 1 is enabled unless the block is faulted. -/
def ReceiveDue (s : State) (p : Fin 9) : Prop := (worker s p).st = .wait ∧ (slot s (leftSlot p)).v = true

/-- Worker `W[p]` holds a block and its right slot is empty: step 2 is enabled unless the block is faulted. -/
def SendDue (s : State) (p : Fin 9) : Prop := (worker s p).st = .hold ∧ (slot s (rightSlot p)).v = false

theorem receiveEnabled_iff {s : State} {p : Fin 9} : receiveEnabled s p = true ↔ s.faulted = false ∧ ReceiveDue s p := by
  simp [receiveEnabled, ReceiveDue, and_assoc]

theorem sendEnabled_iff {s : State} {p : Fin 9} : sendEnabled s p = true ↔ s.faulted = false ∧ SendDue s p := by
  simp [sendEnabled, SendDue, and_assoc]

theorem workerEnabled_iff {s : State} {p : Fin 9} :
    workerEnabled s p = true ↔ s.faulted = false ∧ (ReceiveDue s p ∨ SendDue s p) := by
  rw [workerEnabled, Bool.or_eq_true, receiveEnabled_iff, sendEnabled_iff, and_or_left]

theorem ReceiveDue.not_sendDue {s : State} {p : Fin 9} (h : ReceiveDue s p) : ¬ SendDue s p :=
  fun h' => nomatch h.1.symm.trans h'.1

/-! ### A worker's turn -/

/-- The transform of a worker leaves the chain alone and keeps the length of the block (46_pipeline R304, 40_bitvector R131). -/
theorem workerTransform_pipeline {p : Fin 9} {s t : State} {b r : List Byte}
    (h : workerTransform p s b = some (.ok (t, r))) : SamePipeline s t ∧ r.length = b.length := by
  obtain ⟨u, x, r', -, hx, hl, he⟩ := workerTransform_ok h
  have ht : t = (blockOut u x r').1 := congrArg Prod.fst he
  have hr : r = (blockOut u x r').2 := congrArg Prod.snd he
  have hsx : SamePipeline s x := by
    rcases hx with ⟨-, rfl⟩ | ⟨-, hx⟩
    · exact .scramble u s
    · exact .moved hx
  rw [ht, hr, blockOut_length]
  exact ⟨hsx.blockOut u r', hl⟩

/-- Everything a turn of worker `W[q]` can do to the chain. -/
inductive WorkerMove (q : Fin 9) (s t : State) : Prop where
  | idle : workerEnabled s q = false → t = s → WorkerMove q s t
  | fault : t.faulted = true → SamePipeline s t → WorkerMove q s t
  | received : ReceiveDue s q → t.nb = s.nb → (∀ k, (slot t k).v = if k = leftSlot q then false else (slot s k).v) →
      (∀ p, (worker t p).st = if p = q then .hold else (worker s p).st) → WorkerMove q s t
  | sent : SendDue s q → t.nb = s.nb → (∀ k, (slot t k).v = if k = rightSlot q then true else (slot s k).v) →
      (∀ p, p ≠ q → (worker t p).st = (worker s p).st) → WorkerMove q s t

theorem slot_takeBlock (p : Fin 9) (r : List Byte) (last : Bool) (s : State) (k : Fin 10) :
    slot (takeBlock p r last s) k = if k = leftSlot p then { slot s (leftSlot p) with v := false } else slot s k :=
  slot_setSlot _ _ _ _

theorem worker_takeBlock (p : Fin 9) (r : List Byte) (last : Bool) (s : State) (q : Fin 9) :
    worker (takeBlock p r last s) q =
      if q = p then
        { st := .hold, hlen := BitVec.ofNat 6 r.length, hdata := writeBytes (worker s p).hdata 0 r, last := last }
      else worker s q :=
  worker_setWorker _ _ _ _

theorem slot_workerSend (p : Fin 9) (s : State) (k : Fin 10) :
    slot (workerSend p s) k =
      if k = rightSlot p then
        { v := true, len := (worker s p).hlen,
          data := writeBytes (slot s (rightSlot p)).data 0 (readBytes (worker s p).hdata 0 (worker s p).hlen.toNat) }
      else slot s k :=
  slot_setSlot _ _ _ _

theorem worker_workerSend (p : Fin 9) (s : State) (q : Fin 9) :
    worker (workerSend p s) q =
      if q = p then { worker s p with st := if (worker s p).last then .off else .wait } else worker s q :=
  worker_setWorker _ _ _ _

/-- Taking a block out of the left slot, after a transform that left the chain alone. -/
theorem WorkerMove.take {q : Fin 9} {s t : State} (hs : SamePipeline s t) (hd : ReceiveDue s q) (r : List Byte) (last : Bool) :
    WorkerMove q s (takeBlock q r last t) := by
  refine .received hd hs.nb (fun k => ?_) fun p => ?_
  · rw [slot_takeBlock, ← hs.slotV k]
    split <;> rfl
  · rw [worker_takeBlock, ← hs.st p]
    split <;> rfl

theorem workerTurn_move {q : Fin 9} {s t : State} (h : workerTurn q s = .next t) : WorkerMove q s t := by
  rcases workerTurn_cases h with ⟨hr, hs, rfl⟩ | ⟨hr, -, rfl⟩ | ⟨hr, -, e, -, rfl⟩ | ⟨hr, -, t', r, ht, rfl⟩ | ⟨-, hs, rfl⟩
  · exact .idle (by rw [workerEnabled, hr, hs]; rfl) rfl
  · exact .take (.refl s) (receiveEnabled_iff.1 hr).2 _ _
  · refine .fault ?_ (.raiseFault _ _ _ _ s)
    rw [workerFault, raiseFault_of_not_faulted (receiveEnabled_iff.1 hr).1]
  · exact .take (workerTransform_pipeline ht).1 (receiveEnabled_iff.1 hr).2 _ _
  · refine .sent (sendEnabled_iff.1 hs).2 rfl (fun k => ?_) fun p hp => ?_
    · rw [slot_workerSend]
      split <;> rfl
    · rw [worker_workerSend, if_neg hp]

/-- A worker with a step due takes it, unless the block is faulted or faults. -/
theorem WorkerMove.of_due {q : Fin 9} {s t : State} (h : WorkerMove q s t) (hd : ReceiveDue s q ∨ SendDue s q) :
    s.faulted = true ∨ t.faulted = true ∨ (t.nb = s.nb ∧
      ((ReceiveDue s q ∧ (worker t q).st = .hold) ∨ (SendDue s q ∧ (slot t (rightSlot q)).v = true))) := by
  cases h with
  | idle hidle _ =>
    refine .inl (Bool.of_not_eq_false fun hf => ?_)
    rw [workerEnabled_iff.2 ⟨hf, hd⟩] at hidle
    cases hidle
  | fault hf _ => exact .inr (.inl hf)
  | received hr hnb _ hst => exact .inr (.inr ⟨hnb, .inl ⟨hr, by rw [hst, if_pos rfl]⟩⟩)
  | sent hs hnb hv _ => exact .inr (.inr ⟨hnb, .inr ⟨hs, by rw [hv, if_pos rfl]⟩⟩)

theorem ArbiterOk.workerTurn {p : Fin 9} {s t : State} (a : ArbiterOk s) (h : workerTurn p s = .next t) : ArbiterOk t := by
  rcases workerTurn_cases h with ⟨-, -, rfl⟩ | ⟨hr, hl, rfl⟩ | ⟨-, -, e, -, rfl⟩ | ⟨hr, hl, t', r, ht, rfl⟩ | ⟨-, hs, rfl⟩
  · exact a
  · obtain ⟨-, hst, hv⟩ := receiveEnabled_iff.1 hr
    exact a.take hst hv (by rw [hl]; rfl) (by simp [hl])
  · exact a.same (.raiseFault _ _ _ _ s)
  · obtain ⟨-, hst, hv⟩ := receiveEnabled_iff.1 hr
    obtain ⟨hp, hlen⟩ := workerTransform_pipeline ht
    refine (a.same hp).take ((hp.st p).trans hst) ((hp.slotV _).trans hv) ?_ ?_
    · rw [hlen, slotBlock, readBytes_length, hp.slotLen]
    · simp [hp.slotLen, hl]
  · exact a.send hs

/-! ### The host's turn -/

/-- Everything a turn of the host can do to the chain. -/
inductive HostMove (s t : State) : Prop where
  | same : SamePipeline s t → HostMove s t
  | init : s.estate = .created → t = { s with estate := .initialized } → HostMove s t
  | build : built s = false → s.nst ≠ 0#4 → (∃ ids, checkOrder s = .ok ids) → s.dir ≠ .none → t = buildPipeline s → HostMove s t
  | push (bytes : List Byte) : bytes.length ≤ 32 → inReady s = true → t = pushBlock bytes s → HostMove s t
  | pop (k : Fin 10) : outSlot s = some k → outValid s = true → t = popBlock k s → HostMove s t
  | reset : t = resetBlock s → HostMove s t

theorem exec_move {i : Instr} {s t : State} (h : exec i s = .next t) : HostMove s t := by
  rcases exec_pipeline h with h | ⟨-, -, he, rfl⟩ | ⟨-, -, he, hn, hc, hd, rfl⟩
  · exact .same h
  · exact .init he rfl
  · refine .build ?_ hn hc hd rfl
    rcases he with he | he <;> simp [built, he]

theorem performAction_move {x : HostAction} {s t : State} (hb : actionBlocked s x = false)
    (h : performAction x s = .next t) : HostMove s t := by
  rcases performAction_cases h with ⟨a, v, -, rfl⟩ | ⟨a, -, rfl⟩ | ⟨w, -, h⟩ | ⟨bytes, rfl, hl, rfl⟩ | ⟨bytes, -, -, rfl⟩ |
    ⟨k, rfl, hk, rfl⟩ | ⟨-, -, rfl⟩ | ⟨-, rfl⟩
  · exact .same (.hostWrite a v s)
  · exact .same (.hostRead a s)
  · rcases runCommand_cases h with ⟨e, -, rfl⟩ | ⟨i, -, h⟩
    · exact .same (.raiseFault _ _ _ _ s)
    · exact exec_move h
  · exact .push bytes hl (by simpa [actionBlocked, hl] using hb) rfl
  · exact .same (.raiseFault _ _ _ _ s)
  · exact .pop k hk (by simpa [actionBlocked] using hb) rfl
  · exact .same (.refl _)
  · exact .reset rfl

theorem ArbiterOk.hostMove {s t : State} (a : ArbiterOk s) (h : HostMove s t) : ArbiterOk t := by
  cases h with
  | same h => exact a.same h
  | init he h => exact h ▸ a.init he
  | build _ hn hc hd h =>
    obtain ⟨ids, hc⟩ := hc
    exact h ▸ .build hn hc hd
  | push bytes hl hr h => exact h ▸ a.push hl hr
  | pop k hk ho h => exact h ▸ a.pop hk ho
  | reset h => exact h ▸ .reset s

/-! ### The step -/

/-- The two states differ outside the block alone: in the draws, the coming turns and the host's pending actions. -/
def SameInside (s s' : State) : Prop := s' = { s with draws := s'.draws, sched := s'.sched, hostq := s'.hostq }

theorem SameInside.pipeline {s s' : State} (h : SameInside s s') : SamePipeline s s' := by
  rw [h]
  exact .of_eq rfl rfl rfl rfl rfl rfl rfl rfl rfl

/-- Everything a step can do to the chain (00_scope R18): the move of the worker whose turn it is, or a move of the host. -/
theorem step_move {s t : State} (h : step s = .next t) :
    ∃ s', SameInside s s' ∧
      ((∃ p, (nextTurn s).1 = .worker p ∧ workerTurn p s' = .next t) ∨
       ((∀ p, (nextTurn s).1 ≠ .worker p) ∧ HostMove s' t)) := by
  obtain ⟨d, q, e⟩ := nextTurn_frame s
  cases hturn : (nextTurn s).1 with
  | worker p =>
    rw [step_of_worker hturn, e] at h
    exact ⟨{ s with draws := d, sched := q }, rfl, .inl ⟨p, rfl, h⟩⟩
  | host =>
    rw [step_of_host hturn, e] at h
    rcases hostTurn_cases h with rfl | ⟨x, rest, -, hb, h⟩
    · exact ⟨{ s with draws := d, sched := q }, rfl, .inr ⟨nofun, .same (.refl _)⟩⟩
    · refine ⟨{ s with draws := d, sched := q, hostq := rest }, rfl, .inr ⟨nofun, performAction_move ?_ h⟩⟩
      cases x <;> exact hb
  | hostReset =>
    rw [step_of_hostReset hturn, e] at h
    rcases hostResetTurn_cases h with rfl | ⟨x, rest, -, -, rfl⟩
    · exact ⟨{ s with draws := d, sched := q }, rfl, .inr ⟨nofun, .same (.refl _)⟩⟩
    · exact ⟨{ s with draws := d, sched := q, hostq := rest }, rfl, .inr ⟨nofun, .reset rfl⟩⟩

/-- Every step keeps the invariants of the arbiter (46_pipeline R322). -/
theorem ArbiterOk.step {s t : State} (a : ArbiterOk s) (h : step s = .next t) : ArbiterOk t := by
  obtain ⟨s', hs, ⟨p, -, h⟩ | ⟨-, h⟩⟩ := step_move h
  · exact (a.same hs.pipeline).workerTurn h
  · exact (a.same hs.pipeline).hostMove h

/-! ### Only a worker's own turn takes its enabled step away (20_memory R89) -/

/-- What is due for worker `W[p]` in `s` is still due in `t`. -/
def KeepsDue (p : Fin 9) (s t : State) : Prop := (ReceiveDue s p → ReceiveDue t p) ∧ (SendDue s p → SendDue t p)

theorem SamePipeline.keepsDue {s t : State} (h : SamePipeline s t) (p : Fin 9) : KeepsDue p s t := by
  simp [KeepsDue, ReceiveDue, SendDue, h.st, h.slotV]

theorem leftSlot_inj {p q : Fin 9} : leftSlot p = leftSlot q ↔ p = q :=
  ⟨fun h => Fin.ext (show (leftSlot p).val = (leftSlot q).val from congrArg Fin.val h), congrArg leftSlot⟩

theorem rightSlot_inj {p q : Fin 9} : rightSlot p = rightSlot q ↔ p = q :=
  ⟨fun h => Fin.ext (Nat.succ.inj (show (rightSlot p).val = (rightSlot q).val from congrArg Fin.val h)), congrArg rightSlot⟩

theorem rightSlot_ne_zero (p : Fin 9) : rightSlot p ≠ 0 := fun h => Nat.succ_ne_zero p.val (congrArg Fin.val h)

/-- A receive fills no slot and empties only its own; a send empties none and fills only its own. -/
theorem WorkerMove.keepsDue {p q : Fin 9} {s t : State} (h : WorkerMove q s t) (hpq : p ≠ q) : KeepsDue p s t := by
  cases h with
  | idle _ h =>
    subst h
    exact ⟨id, id⟩
  | fault _ h => exact h.keepsDue p
  | received _ _ hv hst =>
    refine ⟨fun ⟨h1, h2⟩ => ⟨?_, ?_⟩, fun ⟨h1, h2⟩ => ⟨?_, ?_⟩⟩
    · rw [hst, if_neg hpq, h1]
    · rw [hv, if_neg (leftSlot_inj.not.2 hpq), h2]
    · rw [hst, if_neg hpq, h1]
    · rw [hv, h2, ite_self]
  | sent _ _ hv hst =>
    refine ⟨fun ⟨h1, h2⟩ => ⟨?_, ?_⟩, fun ⟨h1, h2⟩ => ⟨?_, ?_⟩⟩
    · rw [hst p hpq, h1]
    · rw [hv, h2, ite_self]
    · rw [hst p hpq, h1]
    · rw [hv, if_neg (rightSlot_inj.not.2 hpq), h2]

/-- A worker with a step due is in a built pipeline. -/
theorem ArbiterOk.live_of_due {s : State} (a : ArbiterOk s) {p : Fin 9} (h : ReceiveDue s p ∨ SendDue s p) :
    built s = true ∧ inPipeline s p :=
  a.live fun hoff => by rcases h with ⟨h, -⟩ | ⟨h, -⟩ <;> rw [hoff] at h <;> cases h

theorem slot_pushBlock (bytes : List Byte) (s : State) (k : Fin 10) :
    slot (pushBlock bytes s) k =
      if k = 0 then { v := true, len := BitVec.ofNat 6 bytes.length, data := writeBytes (slot s 0).data 0 bytes }
      else slot s k :=
  slot_setSlot _ _ _ _

theorem slot_popBlock (j k : Fin 10) (s : State) :
    slot (popBlock j s) k = if k = j then { slot s j with v := false } else slot s k := by
  unfold popBlock
  dsimp only
  split <;> exact slot_setSlot _ _ _ _

@[simp] theorem worker_popBlock (j : Fin 10) (s : State) (p : Fin 9) : worker (popBlock j s) p = worker s p := by
  unfold popBlock
  dsimp only
  split <;> rfl

@[simp] theorem popBlock_nb (j : Fin 10) (s : State) : (popBlock j s).nb = s.nb := by
  unfold popBlock
  dsimp only
  split <;> rfl

theorem outSlot_val {s : State} {k : Fin 10} (h : outSlot s = some k) : k.val = s.nb.toNat := by
  unfold outSlot at h
  split at h <;> cases h
  rfl

theorem outSlot_of_val {s : State} {k : Fin 10} (h : k.val = s.nb.toNat) : outSlot s = some k := by
  have hlt : s.nb.toNat < 10 := h ▸ k.isLt
  rw [outSlot, dif_pos hlt]
  exact congrArg some (Fin.ext h.symm)

/-- A push fills the slot at the input end alone, which was empty; a pop empties the slot at the output end alone, which no worker
receives from; a build finds no step due. -/
theorem HostMove.keepsDue {s t : State} (a : ArbiterOk s) (h : HostMove s t) {p : Fin 9} (hp : ReceiveDue s p ∨ SendDue s p) :
    KeepsDue p s t ∨ t.estate = .created := by
  obtain ⟨hbuilt, hin⟩ := a.live_of_due hp
  cases h with
  | same h => exact .inl (h.keepsDue p)
  | init he _ =>
    rw [built, he] at hbuilt
    cases hbuilt
  | build hb =>
    rw [hb] at hbuilt
    cases hbuilt
  | push bytes _ hr h =>
    subst h
    simp only [inReady, slotRoom_eq, Bool.and_eq_true, Bool.not_eq_true'] at hr
    refine .inl ⟨fun ⟨h1, h2⟩ => ⟨h1, ?_⟩, fun ⟨h1, h2⟩ => ⟨h1, ?_⟩⟩
    · rw [slot_pushBlock]
      split
      · rfl
      · exact h2
    · rw [slot_pushBlock, if_neg (rightSlot_ne_zero p)]
      exact h2
  | pop k hk _ h =>
    subst h
    have hlt : p.val < k.val := outSlot_val hk ▸ hin
    have hne : leftSlot p ≠ k := fun e => by rw [← e, leftSlot_val] at hlt; omega
    refine .inl ⟨fun ⟨h1, h2⟩ => ⟨?_, ?_⟩, fun ⟨h1, h2⟩ => ⟨?_, ?_⟩⟩
    · rw [worker_popBlock, h1]
    · rw [slot_popBlock, if_neg hne, h2]
    · rw [worker_popBlock, h1]
    · rw [slot_popBlock]
      split
      · rfl
      · exact h2
  | reset h => exact .inr (h ▸ rfl)

/-- A step that is not worker `W[p]`'s keeps what is due for it, short of a RESET. -/
theorem step_keepsDue {s t : State} (a : ArbiterOk s) (h : step s = .next t) {p : Fin 9} (hp : ReceiveDue s p ∨ SendDue s p)
    (hturn : (nextTurn s).1 ≠ .worker p) : KeepsDue p s t ∨ t.estate = .created := by
  obtain ⟨s', hs, h⟩ := step_move h
  obtain ⟨hrecv, hsend⟩ := hs.pipeline.keepsDue p
  have back : KeepsDue p s' t → KeepsDue p s t := fun h => ⟨fun hr => h.1 (hrecv hr), fun hs => h.2 (hsend hs)⟩
  rcases h with ⟨q, hq, h⟩ | ⟨-, h⟩
  · have hpq : p ≠ q := fun e => hturn (e ▸ hq)
    exact .inl (back ((workerTurn_move h).keepsDue hpq))
  · exact (h.keepsDue (a.same hs.pipeline) (hp.imp hrecv hsend)).imp_left back

/-- The built pipeline keeps its length, short of a RESET. -/
theorem step_nb {s t : State} (hb : built s = true) (h : step s = .next t) : t.nb = s.nb ∨ t.estate = .created := by
  obtain ⟨s', hs, h⟩ := step_move h
  rw [← hs.pipeline.nb]
  have hb' : built s' = true := (built_eq hs.pipeline.estate).trans hb
  rcases h with ⟨q, -, h⟩ | ⟨-, h⟩
  · cases workerTurn_move h with
    | idle _ h => exact .inl (h ▸ rfl)
    | fault _ h => exact .inl h.nb
    | received _ h => exact .inl h
    | sent _ h => exact .inl h
  · cases h with
    | same h => exact .inl h.nb
    | init _ h => exact .inl (h ▸ rfl)
    | build hn => rw [hn] at hb'; cases hb'
    | push bytes _ _ h => exact .inl (h ▸ rfl)
    | pop k _ _ h => exact .inl (h ▸ popBlock_nb k s')
    | reset h => exact .inr (h ▸ rfl)

end Sys2Proof.Machine
end

section
/-! Weak fairness and progress (46_pipeline R324, 70_reset R410, 20_memory R89): a step takes the first of the coming turns and leaves the
others, so in every run every worker's turn comes again and again; and a block in flight goes from slot to hand to slot to the output
end. -/

namespace Sys2Proof.Machine

-- As in the tests: with every proof in a thread of its own the check runs into its memory limit.
set_option Elab.async false

/-! ### A block in flight has somewhere to go (46_pipeline R324) -/

section
variable {s : State}

/-- A block in a slot is in a built pipeline, at its output end at most. -/
theorem ArbiterOk.slot_le (a : ArbiterOk s) {k : Fin 10} (h : (slot s k).v = true) :
    built s = true ∧ k.val ≤ s.nb.toNat := by
  have hb : built s = true := Bool.of_not_eq_false fun hb => by simp [(a.idle hb).2.1 k] at h
  refine ⟨hb, Nat.le_of_not_lt fun hk => ?_⟩
  simp [(a.outside hb).2 k hk] at h

/-- A block at the output end can be popped. -/
theorem outValid_of_slot (hf : s.faulted = false) (hb : built s = true) {k : Fin 10} (hk : k.val = s.nb.toNat)
    (h : (slot s k).v = true) : outValid s = true := by
  simp [outValid, hf, hb, outSlot_of_val hk, h]

/-- The worker right of a slot with a block is not off: it waits for the block or holds another (46_pipeline R322). -/
theorem ArbiterOk.receives_or_holds (a : ArbiterOk s) {p : Fin 9} (h : (slot s (leftSlot p)).v = true) (hp : inPipeline s p) :
    ReceiveDue s p ∨ (worker s p).st = .hold := by
  obtain ⟨hb, -⟩ := a.slot_le h
  cases hst : (worker s p).st with
  | off => simp [(a.offPrefix hb p hp hst).2.2] at h
  | wait => exact .inl ⟨hst, h⟩
  | hold => exact .inr rfl

/-- From a block in a slot, by the distance to the output end: it is there, or its worker can take it, or that worker can send, or the
slot after has a block. -/
theorem ArbiterOk.progress_of_slot (a : ArbiterOk s) (hf : s.faulted = false) (d : Nat) :
    ∀ k : Fin 10, s.nb.toNat ≤ k.val + d → (slot s k).v = true →
      outValid s = true ∨ ∃ p, workerEnabled s p = true := by
  induction d with
  | zero =>
    intro k hk h
    obtain ⟨hb, hle⟩ := a.slot_le h
    exact .inl (outValid_of_slot hf hb (Nat.le_antisymm hle hk) h)
  | succ d ih =>
    intro k hk h
    obtain ⟨hb, hle⟩ := a.slot_le h
    rcases Nat.eq_or_lt_of_le hle with heq | hlt
    · exact .inl (outValid_of_slot hf hb heq h)
    · have h9 : s.nb.toNat ≤ 9 := (a.count hb).2
      obtain ⟨p, rfl⟩ : ∃ p : Fin 9, k = leftSlot p := ⟨⟨k.val, by omega⟩, rfl⟩
      rcases a.receives_or_holds h hlt with hr | hst
      · exact .inr ⟨p, workerEnabled_iff.2 ⟨hf, .inl hr⟩⟩
      · cases hv : (slot s (rightSlot p)).v with
        | false => exact .inr ⟨p, workerEnabled_iff.2 ⟨hf, .inr ⟨hst, hv⟩⟩⟩
        | true =>
          refine ih (rightSlot p) ?_ hv
          rw [leftSlot_val] at hk
          rw [rightSlot_val]
          omega

theorem ArbiterOk.progress (a : ArbiterOk s) (hf : s.faulted = false) (h : BlockInFlight s) :
    outValid s = true ∨ ∃ p, workerEnabled s p = true := by
  rcases h with ⟨k, h⟩ | ⟨p, h⟩
  · exact a.progress_of_slot hf s.nb.toNat k (Nat.le_add_left _ _) h
  · cases hv : (slot s (rightSlot p)).v with
    | false => exact .inr ⟨p, workerEnabled_iff.2 ⟨hf, .inr ⟨h, hv⟩⟩⟩
    | true => exact a.progress_of_slot hf s.nb.toNat (rightSlot p) (Nat.le_add_left _ _) hv

/-- An enabled step stays enabled until its worker takes it, short of a fault or a RESET (20_memory R89). -/
theorem workerEnabled_step {t : State} {p : Fin 9} (a : ArbiterOk s) (h : step s = .next t) (he : workerEnabled s p = true)
    (hturn : (nextTurn s).1 ≠ .worker p) : workerEnabled t p = true ∨ t.faulted = true ∨ t.estate = .created := by
  have hdue := (workerEnabled_iff.1 he).2
  rcases step_keepsDue a h hdue hturn with hk | hc
  · cases hf : t.faulted with
    | true => exact .inr (.inl rfl)
    | false => exact .inl (workerEnabled_iff.2 ⟨hf, hdue.imp hk.1 hk.2⟩)
  · exact .inr (.inr hc)

end

/-! ### A step leaves the turns behind its own (70_reset R410) -/

theorem Touch.sched {b s t : State} {P : UnitId → Prop} (h : Touch b P s t) : t.sched = s.sched := by
  cases h with
  | place _ h => cases h <;> rfl
  | scramble _ _ => simp
  | breach _ _ => simp
  | settle u => simp
  | draw => rfl
  | blk _ => rfl

theorem Touches.sched {b s t : State} {P : UnitId → Prop} (h : Touches b P s t) : t.sched = s.sched := by
  induction h with
  | refl => rfl
  | tail _ h ih => exact h.sched.trans ih

/-- The units a command touches do not matter for the coming turns. -/
abbrev AnyTouches (s t : State) : Prop := Touches s (fun _ => True) s t

/-- No command touches the coming turns. -/
theorem exec_sched {i : Instr} {s t : State} (h : exec i s = .next t) : t.sched = s.sched := by
  have of_inv {Q : Prop} (hQ : Q → t.sched = s.sched) (h : Stopped i s t ∨ Q) : t.sched = s.sched := by
    rcases h with (⟨-, rfl⟩ | ⟨-, c, u, rfl⟩) | h
    · rfl
    · rfl
    · exact hQ h
  have touched (h : AnyTouches s t) : t.sched = s.sched := h.sched
  cases i with
  | nop => refine of_inv ?_ (execNop_inv h); rintro ⟨-, rfl⟩; rfl
  | engInit => refine of_inv ?_ (execEngInit_inv h); rintro ⟨-, -, rfl⟩; rfl
  | engSetdir d => refine of_inv ?_ (execEngSetdir_inv h); rintro ⟨-, x, -, rfl⟩; rfl
  | engBuild => refine of_inv ?_ (execEngBuild_inv h); rintro ⟨-, -, -, -, -, rfl⟩; rfl
  | engSetindex => refine of_inv ?_ (execEngSetindex_inv h); rintro ⟨-, -, ids, -, h⟩; exact touched (.seekAll (fun _ _ => trivial) h)
  | engIndex => refine of_inv ?_ (execEngIndex_inv h); rintro ⟨-, -, ids, -, ⟨-, rfl⟩ | ⟨-, rfl⟩⟩ <;> rfl
  | wcAdd => refine of_inv ?_ (execWcAdd_inv h); rintro ⟨-, -, rfl⟩; rfl
  | wcSub => refine of_inv ?_ (execWcSub_inv h); rintro ⟨-, -, rfl⟩; rfl
  | wcMul => refine of_inv ?_ (execWcMul_inv h); rintro ⟨-, -, rfl⟩; rfl
  | wcDiv => refine of_inv ?_ (execWcDiv_inv h); rintro ⟨-, -, rfl⟩; rfl
  | wcDivmod => refine of_inv ?_ (execWcDivmod_inv h); rintro ⟨-, -, rfl⟩; rfl
  | wcMod => refine of_inv ?_ (execWcMod_inv h); rintro ⟨-, -, rfl⟩; rfl
  | wcInc => refine of_inv ?_ (execWcInc_inv h); rintro ⟨-, -, rfl⟩; rfl
  | wcIszero => refine of_inv ?_ (execWcIszero_inv h); rintro ⟨-, rfl⟩; rfl
  | wcParse => refine of_inv ?_ (execWcParse_inv h); rintro ⟨-, -, -, v, -, rfl⟩; rfl
  | wcTostr => refine of_inv ?_ (execWcTostr_inv h); rintro ⟨-, rfl⟩; rfl
  | rotConstruct u => refine of_inv ?_ (execRotConstruct_inv h); rintro ⟨-, k, -, h⟩; exact touched (.constructRotor trivial h)
  | rotApplyf u => refine of_inv ?_ (execRotApplyf_inv h); rintro ⟨-, k, -, -, h⟩; exact touched (.applyF trivial h)
  | rotApplyg u => refine of_inv ?_ (execRotApplyg_inv h); rintro ⟨-, k, -, -, h⟩; exact touched (.applyG trivial h)
  | rotSetindex u =>
    refine of_inv ?_ (execRotSetindex_inv h)
    rintro ⟨-, k, t', -, -, h', rfl⟩
    exact touched (.renewed trivial (.seekUnit (u := .rotor k) trivial h'))
  | rotIndex u => refine of_inv ?_ (execRotIndex_inv h); rintro ⟨-, k, -, -, rfl⟩; rfl
  | rotUpdate u => refine of_inv ?_ (execRotUpdate_inv h); rintro ⟨-, k, -, -, h⟩; exact touched (.constructRotor trivial h)
  | rotDump u => refine of_inv ?_ (execRotDump_inv h); rintro ⟨-, k, -, -, rfl⟩; rfl
  | prmConstruct u => refine of_inv ?_ (execPrmConstruct_inv h); rintro ⟨-, k, -, h⟩; exact touched (.constructPerm trivial h)
  | prmApplyf u => refine of_inv ?_ (execPrmApplyf_inv h); rintro ⟨-, k, -, -, h⟩; exact touched (.applyF trivial h)
  | prmApplyg u => refine of_inv ?_ (execPrmApplyg_inv h); rintro ⟨-, k, -, -, h⟩; exact touched (.applyG trivial h)
  | prmSetindex u => refine of_inv ?_ (execPrmSetindex_inv h); rintro ⟨-, k, -, -, rfl⟩; simp [setPerm]
  | prmIndex u => refine of_inv ?_ (execPrmIndex_inv h); rintro ⟨-, k, -, -, rfl⟩; rfl
  | prmUpdate u => refine of_inv ?_ (execPrmUpdate_inv h); rintro ⟨-, k, -, -, h⟩; exact touched (.constructPerm trivial h)
  | prmDump u => refine of_inv ?_ (execPrmDump_inv h); rintro ⟨-, k, -, -, rfl⟩; rfl
  | prmAdvance u => refine of_inv ?_ (execPrmAdvance_inv h); rintro ⟨-, k, -, -, rfl⟩; simp [setPerm]
  | prmRebuild u => refine of_inv ?_ (execPrmRebuild_inv h); rintro ⟨-, k, -, -, rfl⟩; simp [setPerm]
  | ctrReset => refine of_inv ?_ (execCtrReset_inv h); rintro ⟨-, rfl⟩; simp
  | ctrApplyf =>
    refine of_inv ?_ (execCtrApplyf_inv h)
    rintro ⟨-, hb, ⟨-, rfl⟩ | ⟨-, -, rfl⟩⟩
    · exact touched (.passBlock (.mutated trivial .none) (by rw [mutated_blkLen]; exact hb))
    · exact touched (.passBlock (.setIdx _ trivial) hb)
  | ctrApplyg => refine of_inv ?_ (execCtrApplyg_inv h); rintro ⟨-, hb, rfl⟩; exact touched (.passBlock .none hb)
  | ctrSetindex => refine of_inv ?_ (execCtrSetindex_inv h); rintro ⟨-, rfl⟩; simp
  | ctrIndex => refine of_inv ?_ (execCtrIndex_inv h); rintro ⟨-, rfl⟩; rfl
  | ctrUpdate => refine of_inv ?_ (execCtrUpdate_inv h); rintro ⟨-, rfl⟩; rfl
  | bitGet n => refine of_inv ?_ (execBitGet_inv h); rintro ⟨-, -, -, rfl⟩; rfl
  | bitSet n => refine of_inv ?_ (execBitSet_inv h); rintro ⟨-, -, -, rfl⟩; rfl
  | bitClr n => refine of_inv ?_ (execBitClr_inv h); rintro ⟨-, -, -, rfl⟩; rfl

theorem performAction_sched {x : HostAction} {s t : State} (h : performAction x s = .next t) : t.sched = s.sched := by
  rcases performAction_cases h with ⟨a, v, -, rfl⟩ | ⟨a, -, rfl⟩ | ⟨w, -, h⟩ | ⟨bytes, -, -, rfl⟩ | ⟨bytes, -, -, rfl⟩ |
    ⟨k, -, -, rfl⟩ | ⟨-, -, rfl⟩ | ⟨-, rfl⟩
  · rcases hostWrite_cases a v s with ⟨-, h⟩ | ⟨-, r, t, -, hw, h⟩ | ⟨-, h⟩ <;> rw [h]
    · rw [writeReg_frame hw]
    · exact raiseFault_sched _ _ _ _ _
  · rcases hostRead_cases a s with ⟨r, -, h⟩ | ⟨-, h⟩ <;> rw [h]
    exact raiseFault_sched _ _ _ _ _
  · rcases runCommand_cases h with ⟨e, -, rfl⟩ | ⟨i, -, h⟩
    · exact raiseFault_sched _ _ _ _ _
    · exact exec_sched h
  · rfl
  · exact raiseFault_sched _ _ _ _ _
  · unfold popBlock
    dsimp only
    split <;> rfl
  · rfl
  · rfl

theorem takeTurn_sched {turn : Turn} {s t : State} (h : takeTurn turn s = .next t) : t.sched = s.sched := by
  cases turn with
  | host =>
    rcases hostTurn_cases h with rfl | ⟨x, rest, -, -, h⟩
    · rfl
    · exact performAction_sched (s := { s with hostq := rest }) h
  | worker p => exact (workerTurn_keeps h).2.1
  | hostReset => rcases hostResetTurn_cases h with rfl | ⟨x, rest, -, -, rfl⟩ <;> rfl

/-! ### Every worker's turn comes again and again (70_reset R410) -/

section
variable {r : Nat → State}

/-- What a run does at step `n`, in the terms of its states: the chain and the coming turns do not see what the host adds. -/
theorem Run.step (hr : Run r) (n : Nat) : ∃ t, step (r n) = .next t ∧ SamePipeline t (r (n + 1)) ∧
    (r (n + 1)).faulted = t.faulted ∧ (r (n + 1)).sched = t.sched := by
  obtain ⟨t, more, h, e⟩ := hr n
  refine ⟨t, h, ?_, ?_⟩
  · rw [e]
    exact .of_eq rfl rfl rfl rfl rfl rfl rfl rfl rfl
  · rw [e]
    exact ⟨rfl, rfl⟩

theorem Run.sched (hr : Run r) (n : Nat) : (r (n + 1)).sched = (nextTurn (r n)).2.sched := by
  obtain ⟨t, h, -, -, e⟩ := hr.step n
  rw [e]
  exact takeTurn_sched h

/-- The first of the coming turns is taken and the others remain. -/
theorem Run.of_cons (hr : Run r) {n : Nat} {turn : Turn} {rest : List Turn} (h : (r n).sched = turn :: rest) :
    (nextTurn (r n)).1 = turn ∧ (r (n + 1)).sched = rest := by
  rw [hr.sched, nextTurn_of_sched h]
  exact ⟨rfl, rfl⟩

/-- A listed turn comes. -/
theorem Run.turn_of_mem (hr : Run r) {p : Fin 9} (turns : List Turn) :
    ∀ n, (r n).sched = turns → .worker p ∈ turns → ∃ m, n ≤ m ∧ TurnOf r p m := by
  induction turns with
  | nil =>
    intro n _ hmem
    cases hmem
  | cons turn rest ih =>
    intro n hs hmem
    obtain ⟨hturn, hrest⟩ := hr.of_cons hs
    rcases List.mem_cons.1 hmem with rfl | hmem
    · exact ⟨n, Nat.le_refl n, hturn⟩
    · obtain ⟨m, hm, h⟩ := ih (n + 1) hrest hmem
      exact ⟨m, by omega, h⟩

/-- The list of coming turns runs out. -/
theorem Run.sched_runs_out (hr : Run r) (turns : List Turn) :
    ∀ n, (r n).sched = turns → ∃ m, n ≤ m ∧ (r m).sched = [] := by
  induction turns with
  | nil => exact fun n hs => ⟨n, Nat.le_refl n, hs⟩
  | cons turn rest ih =>
    intro n hs
    obtain ⟨m, hm, h⟩ := ih (n + 1) (hr.of_cons hs).2
    exact ⟨m, by omega, h⟩

/-- Every worker's turn comes after every point: the list runs out, and the round drawn then leaves no worker out. -/
theorem Run.turn_comes (hr : Run r) (p : Fin 9) (n : Nat) : ∃ m, n ≤ m ∧ TurnOf r p m := by
  obtain ⟨m, hm, hs⟩ := hr.sched_runs_out _ n rfl
  obtain ⟨turn, rest, hround, hnext⟩ := nextTurn_of_empty hs
  have hmem := worker_mem_fairRound (Config.freePicks (r m).draws) p
  rw [hround] at hmem
  rcases List.mem_cons.1 hmem with rfl | hmem
  · exact ⟨m, hm, by rw [TurnOf, hnext]⟩
  · obtain ⟨m', hm', h⟩ := hr.turn_of_mem rest (m + 1) (by rw [hr.sched, hnext]) hmem
    exact ⟨m', by omega, h⟩

/-! ### A block in flight comes to the output end (46_pipeline R324) -/

/-- A block stands at the output end, or the block has faulted, or it was reset. -/
def Ended (s : State) : Prop := outValid s = true ∨ s.faulted = true ∨ s.estate = .created

/-- `P` holds of a later state of the run, or the run has ended by then. -/
def Reaches (r : Nat → State) (n : Nat) (P : State → Prop) : Prop := ∃ m, n ≤ m ∧ (Ended (r m) ∨ P (r m))

/-- To reach `Q` by way of `P`. -/
theorem Reaches.trans {n : Nat} {P Q : State → Prop} (h : Reaches r n P) (hPQ : ∀ m, P (r m) → Reaches r m Q) :
    Reaches r n Q := by
  obtain ⟨m, hm, he | hp⟩ := h
  · exact ⟨m, hm, .inl he⟩
  · obtain ⟨m', hm', h⟩ := hPQ m hp
    exact ⟨m', by omega, h⟩

theorem Reaches.mono {n : Nat} {P Q : State → Prop} (h : Reaches r n P) (hPQ : ∀ s, P s → Q s) : Reaches r n Q :=
  h.trans fun m hm => ⟨m, Nat.le_refl m, .inr (hPQ _ hm)⟩

theorem Run.arbiterOk (hr : Run r) (h0 : ArbiterOk (r 0)) (n : Nat) : ArbiterOk (r n) := by
  induction n with
  | zero => exact h0
  | succ n ih =>
    obtain ⟨t, h, hp, -⟩ := hr.step n
    exact (ih.step h).same hp

/-- What every step but worker `W[p]`'s keeps still holds when its turn comes, unless the run has ended. -/
theorem Run.kept_until_turn (hr : Run r) {p : Fin 9} {P : State → Prop}
    (hP : ∀ m, P (r m) → ¬ TurnOf r p m → P (r (m + 1)) ∨ Ended (r (m + 1))) {n : Nat} (h : P (r n)) :
    ∃ m, n ≤ m ∧ (Ended (r m) ∨ (P (r m) ∧ TurnOf r p m)) := by
  obtain ⟨m, hm, hturn⟩ := hr.turn_comes p n
  obtain ⟨d, rfl⟩ := Nat.exists_eq_add_of_le hm
  clear hm
  induction d generalizing n with
  | zero => exact ⟨n, Nat.le_refl n, .inr ⟨h, hturn⟩⟩
  | succ d ih =>
    by_cases hn : TurnOf r p n
    · exact ⟨n, Nat.le_refl n, .inr ⟨h, hn⟩⟩
    · rcases hP n h hn with h' | he
      · obtain ⟨m, hm, h⟩ := ih h' (by rwa [Nat.add_right_comm])
        exact ⟨m, by omega, h⟩
      · exact ⟨n + 1, by omega, .inl he⟩

/-- A worker's turn, when it comes, in a run that has not ended. -/
theorem Run.move_at_turn (hr : Run r) {p : Fin 9} {m : Nat} (hturn : TurnOf r p m) :
    ∃ s t, SamePipeline (r m) s ∧ s.faulted = (r m).faulted ∧ WorkerMove p s t ∧ SamePipeline t (r (m + 1)) ∧
      (r (m + 1)).faulted = t.faulted := by
  obtain ⟨t, h, hp, hf, -⟩ := hr.step m
  obtain ⟨d, q, e⟩ := nextTurn_frame (r m)
  rw [step_of_worker hturn, e] at h
  exact ⟨{ r m with draws := d, sched := q }, t, .of_eq rfl rfl rfl rfl rfl rfl rfl rfl rfl, rfl, workerTurn_move h, hp, hf⟩

/-- A block stands in slot `k` of a pipeline of `n` workers. -/
def InSlot (n : BitVec 4) (k : Fin 10) (s : State) : Prop := s.nb = n ∧ (slot s k).v = true

/-- Worker `W[p]` holds a block, in a pipeline of `n` workers. -/
def InHand (n : BitVec 4) (p : Fin 9) (s : State) : Prop := s.nb = n ∧ (worker s p).st = .hold

/-- A step due stays due until its worker's turn, in the same pipeline. -/
theorem Run.due_kept (hr : Run r) (h0 : ArbiterOk (r 0)) {n : BitVec 4} {p : Fin 9} {Due : State → Prop}
    (hdue : ∀ s, Due s → ReceiveDue s p ∨ SendDue s p) (hkeep : ∀ s t, KeepsDue p s t → Due s → Due t) (m : Nat)
    (h : (r m).nb = n ∧ Due (r m)) (hturn : ¬ TurnOf r p m) :
    ((r (m + 1)).nb = n ∧ Due (r (m + 1))) ∨ Ended (r (m + 1)) := by
  obtain ⟨hn, h⟩ := h
  have a := hr.arbiterOk h0 m
  obtain ⟨t, hstep, hp, -⟩ := hr.step m
  have hcreated : t.estate = .created → Ended (r (m + 1)) := fun h => .inr (.inr (hp.estate.trans h))
  rcases step_nb (a.live_of_due (hdue _ h)).1 hstep with hnb | hc
  · rcases step_keepsDue a hstep (hdue _ h) hturn with hk | hc
    · exact .inl ⟨(hp.nb.trans hnb).trans hn, hkeep _ _ (hp.keepsDue p) (hkeep _ _ hk h)⟩
    · exact .inr (hcreated hc)
  · exact .inr (hcreated hc)

/-- A step due is taken: unless the run ends first, a state comes that the worker's move left. -/
theorem Run.taken (hr : Run r) (h0 : ArbiterOk (r 0)) {n : BitVec 4} {p : Fin 9} {Due : State → Prop}
    (hdue : ∀ s, Due s → ReceiveDue s p ∨ SendDue s p) (hkeep : ∀ s t, KeepsDue p s t → Due s → Due t) {m : Nat}
    (hn : (r m).nb = n) (h : Due (r m)) :
    Reaches r m fun u => u.nb = n ∧ ∃ s, Due s ∧
      ((ReceiveDue s p ∧ (worker u p).st = .hold) ∨ (SendDue s p ∧ (slot u (rightSlot p)).v = true)) := by
  obtain ⟨m', hm', he | ⟨⟨hn', h'⟩, hturn⟩⟩ :=
    hr.kept_until_turn (P := fun s => s.nb = n ∧ Due s) (hr.due_kept h0 hdue hkeep) ⟨hn, h⟩
  · exact ⟨m', hm', .inl he⟩
  obtain ⟨s, t, hs, hf, hmove, ht, hft⟩ := hr.move_at_turn hturn
  have hd : Due s := hkeep _ _ (hs.keepsDue p) h'
  rcases hmove.of_due (hdue s hd) with hf' | hf' | ⟨hnb, hgone⟩
  · exact ⟨m', hm', .inl (.inr (.inl (hf.symm.trans hf')))⟩
  · exact ⟨m' + 1, by omega, .inl (.inr (.inl (hft.trans hf')))⟩
  · refine ⟨m' + 1, by omega, .inr ⟨((ht.nb.trans hnb).trans hs.nb).trans hn', s, hd, ?_⟩⟩
    rw [ht.st, ht.slotV]
    exact hgone

/-- A block waiting for a worker is taken into its hands. -/
theorem Run.receives (hr : Run r) (h0 : ArbiterOk (r 0)) {n : BitVec 4} {p : Fin 9} {m : Nat} (hn : (r m).nb = n)
    (h : ReceiveDue (r m) p) : Reaches r m (InHand n p) := by
  refine (hr.taken h0 (Due := (ReceiveDue · p)) (fun _ h => .inl h) (fun _ _ hk => hk.1) hn h).mono ?_
  rintro u ⟨hu, s, hd, ⟨-, hst⟩ | ⟨hs, -⟩⟩
  · exact ⟨hu, hst⟩
  · exact (hd.not_sendDue hs).elim

/-- A block in a worker's hands, before an empty slot, is sent there. -/
theorem Run.sends (hr : Run r) (h0 : ArbiterOk (r 0)) {n : BitVec 4} {p : Fin 9} {m : Nat} (hn : (r m).nb = n)
    (h : SendDue (r m) p) : Reaches r m (InSlot n (rightSlot p)) := by
  refine (hr.taken h0 (Due := (SendDue · p)) (fun _ h => .inr h) (fun _ _ hk => hk.2) hn h).mono ?_
  rintro u ⟨hu, s, hd, ⟨hrecv, -⟩ | ⟨-, hv⟩⟩
  · exact (hrecv.not_sendDue hd).elim
  · exact ⟨hu, hv⟩

/-- A block in a worker's hands goes on to the slot right of it, or finds one there. -/
theorem Run.slot_of_hand (hr : Run r) (h0 : ArbiterOk (r 0)) {n : BitVec 4} {p : Fin 9} {m : Nat} (h : InHand n p (r m)) :
    Reaches r m (InSlot n (rightSlot p)) := by
  obtain ⟨hn, hst⟩ := h
  cases hv : (slot (r m) (rightSlot p)).v with
  | true => exact ⟨m, Nat.le_refl m, .inr ⟨hn, hv⟩⟩
  | false => exact hr.sends h0 hn ⟨hst, hv⟩

/-- A block left of a worker goes on into its hands, or finds one there. -/
theorem Run.hand_of_slot (hr : Run r) (h0 : ArbiterOk (r 0)) {n : BitVec 4} {p : Fin 9} {m : Nat} (hp : p.val < n.toNat)
    (h : InSlot n (leftSlot p) (r m)) : Reaches r m (InHand n p) := by
  obtain ⟨hn, hv⟩ := h
  have hin : inPipeline (r m) p := by rw [inPipeline, hn]; exact hp
  rcases (hr.arbiterOk h0 m).receives_or_holds hv hin with hd | hst
  · exact hr.receives h0 hn hd
  · exact ⟨m, Nat.le_refl m, .inr ⟨hn, hst⟩⟩

/-- A block in a slot comes to the output end, by the distance to it. -/
theorem Run.out_of_slot (hr : Run r) (h0 : ArbiterOk (r 0)) {n : BitVec 4} (d : Nat) :
    ∀ (k : Fin 10) (m : Nat), n.toNat ≤ k.val + d → InSlot n k (r m) → Reaches r m fun _ => False := by
  induction d with
  | zero =>
    intro k m hk h
    obtain ⟨hn, hv⟩ := h
    obtain ⟨hb, hle⟩ := (hr.arbiterOk h0 m).slot_le hv
    refine ⟨m, Nat.le_refl m, .inl ?_⟩
    cases hf : (r m).faulted with
    | true => exact .inr (.inl hf)
    | false => exact .inl (outValid_of_slot hf hb (Nat.le_antisymm hle (hn ▸ hk)) hv)
  | succ d ih =>
    intro k m hk h
    by_cases hlt : k.val < n.toNat
    · have hb := ((hr.arbiterOk h0 m).slot_le h.2).1
      have h9 : n.toNat ≤ 9 := h.1 ▸ ((hr.arbiterOk h0 m).count hb).2
      obtain ⟨p, rfl⟩ : ∃ p : Fin 9, k = leftSlot p := ⟨⟨k.val, by omega⟩, rfl⟩
      have hslot : Reaches r m (InSlot n (rightSlot p)) :=
        (hr.hand_of_slot h0 hlt h).trans fun _ h => hr.slot_of_hand h0 h
      refine hslot.trans fun m' h' => ih (rightSlot p) m' ?_ h'
      rw [leftSlot_val] at hk
      rw [rightSlot_val]
      omega
    · exact ih k m (by omega) h

theorem Run.block_comes_out (hr : Run r) (h0 : ArbiterOk (r 0)) {n : Nat} (h : BlockInFlight (r n)) :
    ∃ m, n ≤ m ∧ Ended (r m) := by
  have out (k : Fin 10) (m : Nat) (h : InSlot (r n).nb k (r m)) : Reaches r m fun _ => False :=
    hr.out_of_slot h0 (r n).nb.toNat k m (Nat.le_add_left _ _) h
  have hreach : Reaches r n fun _ => False := by
    rcases h with ⟨k, hv⟩ | ⟨p, hst⟩
    · exact out k n ⟨rfl, hv⟩
    · exact (hr.slot_of_hand h0 ⟨rfl, hst⟩).trans fun m h => out _ m h
  obtain ⟨m, hm, he | hfalse⟩ := hreach
  · exact ⟨m, hm, he⟩
  · exact hfalse.elim

end

/-- Settles O54: a block in flight has somewhere to go, no other agent takes an enabled step away, every worker's turn comes again and
again, and so the block goes on, slot by slot. -/
theorem progress : Obligations.Progress := by
  refine ⟨fun s a hf _ h => a.progress hf h, fun s t p a h he hturn => workerEnabled_step a h he hturn, fun r hr => ?_,
    fun r hr h0 n _ _ h => hr.block_comes_out h0 h⟩
  exact ⟨fun p n _ => hr.turn_comes p n, hr.turn_comes⟩

end Sys2Proof.Machine
end

section
/-! A worker's step reads and writes its own place in the chain alone: itself, one slot, its unit (20_memory R85, 46_pipeline R330). A step is
a list of writes; writes to different places commute, and a write elsewhere does not change what the step reads. -/

namespace Sys2Proof.Machine

-- As in the tests: with every proof in a thread of its own the check runs into its memory limit.
set_option Elab.async false

/-! ### Places and writes -/

/-- A piece of state that a worker's step can read or write. -/
inductive Place where
  | unit (u : UnitId)
  | slot (k : Fin 10)
  | worker (p : Fin 9)

/-- New contents of one place. -/
inductive Write where
  | rotor (k : Fin 6) (r : Rotor)
  | perm (k : Fin 2) (p : Perm)
  | counter (v : Wide)
  | slot (k : Fin 10) (q : Slot)
  | worker (p : Fin 9) (w : Worker)

/-- The place a write is to. -/
def Write.place : Write → Place
  | .rotor k _ => .unit (.rotor k)
  | .perm k _ => .unit (.perm k)
  | .counter _ => .unit .counter
  | .slot k _ => .slot k
  | .worker p _ => .worker p

/-- The state after a write. -/
def Write.apply : Write → State → State
  | .rotor k r, s => setRotor k r s
  | .perm k p, s => setPerm k p s
  | .counter v, s => { s with idx := v }
  | .slot k q, s => setSlot k q s
  | .worker p w, s => setWorker p w s

/-- The state after a list of writes, the first one first. -/
def applyAll (ws : List Write) (s : State) : State := ws.foldl (fun s w => w.apply s) s

/-- The two states hold the same at a place. -/
def SameAt (s t : State) : Place → Prop
  | .unit (.rotor k) => rotor t k = rotor s k
  | .unit (.perm k) => perm t k = perm s k
  | .unit .counter => t.idx = s.idx
  | .slot k => slot t k = slot s k
  | .worker p => worker t p = worker s p

/-- The two states agree on what a worker's step reads besides places: whether it may move, what it is bound to, and the marks of R319. -/
structure SameControl (s t : State) : Prop where
  faulted : t.faulted = s.faulted
  binding : t.binding = s.binding
  bdir : t.bdir = s.bdir
  loose : t.loose = s.loose
  tainted : t.tainted = s.tainted

section
variable {s t : State}

theorem Write.apply_comm {v w : Write} (h : v.place ≠ w.place) (s : State) : v.apply (w.apply s) = w.apply (v.apply s) := by
  have hval {n : Nat} {j k : Fin n} (hjk : j ≠ k) : j.val ≠ k.val := fun e => hjk (Fin.ext e)
  cases v <;> cases w <;> try rfl
  case rotor.rotor j _ k _ =>
    have hjk : j ≠ k := fun e => h (by rw [e]; rfl)
    simp only [apply, setRotor, Vector.set_comm _ _ (hval hjk)]
  case perm.perm j _ k _ =>
    have hjk : j ≠ k := fun e => h (by rw [e]; rfl)
    simp only [apply, setPerm, Vector.set_comm _ _ (hval hjk)]
  case counter.counter => exact (h rfl).elim
  case slot.slot j _ k _ =>
    have hjk : j ≠ k := fun e => h (by rw [e]; rfl)
    simp only [apply, setSlot, Vector.set_comm _ _ (hval hjk)]
  case worker.worker j _ k _ =>
    have hjk : j ≠ k := fun e => h (by rw [e]; rfl)
    simp only [apply, setWorker, Vector.set_comm _ _ (hval hjk)]

/-- A write leaves every other place as it was. -/
theorem Write.sameAt {w : Write} {pl : Place} (h : w.place ≠ pl) (s : State) : SameAt s (w.apply s) pl := by
  cases w with
  | rotor j r =>
    match pl with
    | .unit (.rotor k) => exact (rotor_setRotor k j r s).trans (if_neg fun e => h (by rw [e]; rfl))
    | .unit (.perm _) | .unit .counter | .slot _ | .worker _ => rfl
  | perm j p =>
    match pl with
    | .unit (.perm k) => exact (perm_setPerm k j p s).trans (if_neg fun e => h (by rw [e]; rfl))
    | .unit (.rotor _) | .unit .counter | .slot _ | .worker _ => rfl
  | counter v =>
    match pl with
    | .unit .counter => exact (h rfl).elim
    | .unit (.rotor _) | .unit (.perm _) | .slot _ | .worker _ => rfl
  | slot j q =>
    match pl with
    | .slot k => exact (slot_setSlot k j q s).trans (if_neg fun e => h (by rw [e]; rfl))
    | .unit (.rotor _) | .unit (.perm _) | .unit .counter | .worker _ => rfl
  | worker j w =>
    match pl with
    | .worker k => exact (worker_setWorker k j w s).trans (if_neg fun e => h (by rw [e]; rfl))
    | .unit (.rotor _) | .unit (.perm _) | .unit .counter | .slot _ => rfl

theorem Write.sameControl (w : Write) (s : State) : SameControl s (w.apply s) := by
  cases w <;> exact ⟨rfl, rfl, rfl, rfl, rfl⟩

theorem SameAt.trans {v : State} {pl : Place} (h : SameAt s t pl) (h' : SameAt t v pl) : SameAt s v pl :=
  match pl, h, h' with
  | .unit (.rotor _), h, h' | .unit (.perm _), h, h' | .unit .counter, h, h' | .slot _, h, h' | .worker _, h, h' => Eq.trans h' h

theorem SameControl.trans {v : State} (h : SameControl s t) (h' : SameControl t v) : SameControl s v :=
  ⟨h'.faulted.trans h.faulted, h'.binding.trans h.binding, h'.bdir.trans h.bdir, h'.loose.trans h.loose,
    h'.tainted.trans h.tainted⟩

theorem SameControl.refl (s : State) : SameControl s s := ⟨rfl, rfl, rfl, rfl, rfl⟩

theorem SameAt.refl (s : State) : ∀ pl, SameAt s s pl
  | .unit (.rotor _) | .unit (.perm _) | .unit .counter | .slot _ | .worker _ => rfl

theorem SameControl.marked (h : SameControl s t) (u : UnitId) : marked t u = marked s u := by
  simp only [Machine.marked, h.loose, h.tainted]

theorem applyAll_sameControl (ws : List Write) (s : State) : SameControl s (applyAll ws s) := by
  induction ws generalizing s with
  | nil => exact .refl s
  | cons w ws ih => exact (w.sameControl s).trans (ih _)

theorem applyAll_sameAt {ws : List Write} {pl : Place} (h : ∀ w ∈ ws, w.place ≠ pl) (s : State) : SameAt s (applyAll ws s) pl := by
  induction ws generalizing s with
  | nil => exact .refl s pl
  | cons w ws ih =>
    obtain ⟨hw, hws⟩ := List.forall_mem_cons.1 h
    exact (w.sameAt hw s).trans (ih hws _)

theorem apply_applyAll {w : Write} {ws : List Write} (h : ∀ v ∈ ws, v.place ≠ w.place) (s : State) :
    w.apply (applyAll ws s) = applyAll ws (w.apply s) := by
  induction ws generalizing s with
  | nil => rfl
  | cons v ws ih =>
    obtain ⟨hv, hws⟩ := List.forall_mem_cons.1 h
    calc w.apply (applyAll ws (v.apply s)) = applyAll ws (w.apply (v.apply s)) := ih hws _
      _ = applyAll ws (v.apply (w.apply s)) := by rw [Write.apply_comm hv]

/-- Writes to different places commute (20_memory R85). -/
theorem applyAll_comm {vs ws : List Write} (h : ∀ v ∈ vs, ∀ w ∈ ws, v.place ≠ w.place) (s : State) :
    applyAll vs (applyAll ws s) = applyAll ws (applyAll vs s) := by
  induction vs generalizing s with
  | nil => rfl
  | cons v vs ih =>
    obtain ⟨hv, hvs⟩ := List.forall_mem_cons.1 h
    calc applyAll vs (v.apply (applyAll ws s)) = applyAll vs (applyAll ws (v.apply s)) := by
          rw [apply_applyAll fun w hw => (hv w hw).symm]
      _ = applyAll ws (applyAll vs (v.apply s)) := ih hvs _

/-! ### Transforms (46_pipeline R304) -/

/-- The transforms of the built direction (46_pipeline R304). -/
def builtTransform (s : State) : UnitId → State → List Byte → Except Trap (State × List Byte) :=
  if s.bdir = .encrypt then unitTransformF else unitTransformG

/-- A transform of unit `u` is one write to the unit, the same from every state that holds the same in it. -/
def IsUnitWrite (f : State → List Byte → Except Trap (State × List Byte)) (u : UnitId) : Prop :=
  ∀ s t b r, f s b = .ok (t, r) → ∃ w : Write, w.place = .unit u ∧ t = w.apply s ∧
    ∀ s', SameAt s s' (.unit u) → f s' b = .ok (w.apply s', r)

theorem counterTransformF_of_lt {b : List Byte} (h : s.idx.toNat ≠ 2 ^ 128 - 1) :
    counterTransformF s b = .ok ({ s with idx := BitVec.ofNat 128 (s.idx.toNat + 1) }, b) := by
  have hi : wideInc s.idx.toNat = .ok (s.idx.toNat + 1) := if_neg h
  simp only [counterTransformF, hi]

theorem unitTransformF_isUnitWrite (u : UnitId) : IsUnitWrite (unitTransformF u) u := by
  intro s t b r h
  rcases unitTransformF_ok h with ⟨k, rfl, rfl, rfl⟩ | ⟨k, rfl, rfl, rfl⟩ | ⟨rfl, hi, rfl, rfl⟩
  · refine ⟨.rotor k (rotorF (rotor s k) b).1, rfl, rfl, fun s' hs => ?_⟩
    have hs : rotor s' k = rotor s k := hs
    simp only [unitTransformF, rotorTransformF, hs, Write.apply]
  · refine ⟨.perm k (permF (perm s k) b).1, rfl, rfl, fun s' hs => ?_⟩
    have hs : perm s' k = perm s k := hs
    simp only [unitTransformF, permTransformF, hs, Write.apply]
  · refine ⟨.counter (BitVec.ofNat 128 (s.idx.toNat + 1)), rfl, rfl, fun s' hs => ?_⟩
    have hs : s'.idx = s.idx := hs
    rw [← hs] at hi ⊢
    exact counterTransformF_of_lt hi

theorem unitTransformG_isUnitWrite (u : UnitId) : IsUnitWrite (unitTransformG u) u := by
  intro s t b r h
  rcases unitTransformG_ok h with ⟨k, rfl, rfl, rfl⟩ | ⟨k, rfl, rfl, rfl⟩ | ⟨rfl, rfl, rfl⟩
  · refine ⟨.rotor k (rotorG (rotor s k) b).1, rfl, rfl, fun s' hs => ?_⟩
    have hs : rotor s' k = rotor s k := hs
    simp only [unitTransformG, rotorTransformG, hs, Write.apply]
  · refine ⟨.perm k (permG (perm s k) b).1, rfl, rfl, fun s' hs => ?_⟩
    have hs : perm s' k = perm s k := hs
    simp only [unitTransformG, permTransformG, hs, Write.apply]
  · refine ⟨.counter t.idx, rfl, rfl, fun s' hs => ?_⟩
    have hs : s'.idx = t.idx := hs
    rw [← hs]
    rfl

theorem builtTransform_isUnitWrite (s : State) (u : UnitId) : IsUnitWrite (builtTransform s u) u := by
  unfold builtTransform
  split
  · exact unitTransformF_isUnitWrite u
  · exact unitTransformG_isUnitWrite u

/-- A transform draws and marks nothing. -/
theorem IsUnitWrite.marked {f : State → List Byte → Except Trap (State × List Byte)} {u : UnitId} (hf : IsUnitWrite f u)
    {b r : List Byte} (h : f s b = .ok (t, r)) (v : UnitId) : marked t v = marked s v := by
  obtain ⟨w, -, rfl, -⟩ := hf s t b r h
  exact (w.sameControl s).marked v

/-- The transform of a worker bound to a unit. -/
theorem workerTransform_of_bound {p : Fin 9} {u : UnitId} (hu : unitOfCode s.binding[p] = some u) (hd : s.bdir ≠ .none)
    (b : List Byte) : workerTransform p s b = some (transformBlock u (builtTransform s u) s b) := by
  unfold workerTransform builtTransform
  rw [hu]
  cases h : s.bdir with
  | none => exact (hd h).elim
  | encrypt => rfl
  | decrypt => rfl

/-- While nothing is marked, a worker's transform is the one of its unit in the built direction. -/
theorem workerTransform_iff {p : Fin 9} {u : UnitId} (hu : unitOfCode s.binding[p] = some u) (hd : s.bdir ≠ .none)
    (hm : marked s u = false) {b r : List Byte} :
    workerTransform p s b = some (.ok (t, r)) ↔ builtTransform s u s b = .ok (t, r) := by
  have keeps {t r} (h : builtTransform s u s b = .ok (t, r)) : marked t u = marked s u :=
    (builtTransform_isUnitWrite s u).marked h u
  rw [workerTransform_of_bound hu hd, Option.some_inj]
  refine ⟨fun h => ?_, fun h => transformBlock_of_not_marked hm (keeps h) h⟩
  rcases transformBlock_ok h with ⟨hl, -⟩ | ⟨-, t', r', hf, he⟩
  · rw [(marked_eq_false.1 hm).1] at hl
    cases hl
  · rw [he, blockOut_of_not_marked ((keeps hf).trans hm)]
    exact hf

/-! ### The step of a worker as a list of writes -/

/-- The slot the next step of worker `W[p]` is about. -/
def activeSlot (s : State) (p : Fin 9) : Fin 10 := if (worker s p).st = .hold then rightSlot p else leftSlot p

/-- The next step of worker `W[p]` reads and writes this place. -/
def InReach (s : State) (p : Fin 9) : Place → Prop
  | .unit u => unitOfCode s.binding[p] = some u
  | .slot k => k = activeSlot s p
  | .worker q => q = p

/-- The two writes that end step 1 (46_pipeline R307). -/
def takeWrites (p : Fin 9) (r : List Byte) (last : Bool) (s : State) : List Write :=
  [.slot (leftSlot p) { slot s (leftSlot p) with v := false },
   .worker p { st := .hold, hlen := BitVec.ofNat 6 r.length, hdata := writeBytes (worker s p).hdata 0 r, last := last }]

/-- The two writes of step 2 (46_pipeline R308, R309). -/
def sendWrites (p : Fin 9) (s : State) : List Write :=
  [.slot (rightSlot p)
    { v := true, len := (worker s p).hlen,
      data := writeBytes (slot s (rightSlot p)).data 0 (readBytes (worker s p).hdata 0 (worker s p).hlen.toNat) },
   .worker p { worker s p with st := if (worker s p).last then .off else .wait }]

theorem takeBlock_eq (p : Fin 9) (r : List Byte) (last : Bool) (s : State) :
    takeBlock p r last s = applyAll (takeWrites p r last s) s := rfl

theorem workerSend_eq (p : Fin 9) (s : State) : workerSend p s = applyAll (sendWrites p s) s := rfl

/-- Step 1 behind a write to a unit. -/
theorem takeBlock_apply {w : Write} {u : UnitId} (hw : w.place = .unit u) (p : Fin 9) (r : List Byte) (last : Bool) (s : State) :
    takeBlock p r last (w.apply s) = applyAll (w :: takeWrites p r last s) s := by
  have hs : slot (w.apply s) (leftSlot p) = slot s (leftSlot p) := w.sameAt (pl := .slot (leftSlot p)) (by rw [hw]; nofun) s
  have hp : worker (w.apply s) p = worker s p := w.sameAt (pl := .worker p) (by rw [hw]; nofun) s
  rw [takeBlock_eq, takeWrites, hs, hp]
  rfl

theorem workerTurn_of_receive {p : Fin 9} (h : receiveEnabled s p = true) : workerTurn p s = workerReceive p s := by
  rw [workerTurn, if_pos h]

theorem workerTurn_of_sentinel {p : Fin 9} (h : receiveEnabled s p = true) (hl : (slot s (leftSlot p)).len = 0#6) :
    workerTurn p s = .next (takeBlock p [] true s) := by
  rw [workerTurn_of_receive h]
  simp only [workerReceive, hl, if_true]

theorem workerTurn_of_transform {p : Fin 9} {r : List Byte} (h : receiveEnabled s p = true)
    (hl : (slot s (leftSlot p)).len ≠ 0#6)
    (ht : workerTransform p s (slotBlock (slot s (leftSlot p))) = some (.ok (t, r))) :
    workerTurn p s = .next (takeBlock p r false t) := by
  rw [workerTurn_of_receive h]
  simp only [workerReceive, if_neg hl, ht]

theorem workerTurn_of_send {p : Fin 9} (h : sendEnabled s p = true) : workerTurn p s = .next (workerSend p s) := by
  have hr : receiveEnabled s p ≠ true := fun hr => (receiveEnabled_iff.1 hr).2.not_sendDue (sendEnabled_iff.1 h).2
  rw [workerTurn, if_neg hr, if_pos h]

theorem ReceiveDue.activeSlot {p : Fin 9} (h : ReceiveDue s p) : activeSlot s p = leftSlot p := by
  simp [Machine.activeSlot, h.1]

theorem SendDue.activeSlot {p : Fin 9} (h : SendDue s p) : activeSlot s p = rightSlot p := by
  simp [Machine.activeSlot, h.1]

/-- What worker `W[p]`'s step does to `s` is the writes `ws` within its reach, and it does the same to every state that looks the same to
the worker. -/
def TurnWrites (p : Fin 9) (s : State) (ws : List Write) : Prop :=
  (∀ w ∈ ws, InReach s p w.place) ∧
    ∀ s', SameControl s s' → (∀ pl, InReach s p pl → SameAt s s' pl) → workerTurn p s' = .next (applyAll ws s')

theorem TurnWrites.self {p : Fin 9} {ws : List Write} (h : TurnWrites p s ws) : workerTurn p s = .next (applyAll ws s) :=
  h.2 s (.refl s) fun pl _ => .refl s pl

section
variable {p : Fin 9} {s' : State}

theorem takeWrites_congr {r : List Byte} {last : Bool} (hs : slot s' (leftSlot p) = slot s (leftSlot p))
    (hw : worker s' p = worker s p) : takeWrites p r last s' = takeWrites p r last s := by
  simp only [takeWrites, hs, hw]

theorem receiveEnabled_congr (hc : SameControl s s') (hs : slot s' (leftSlot p) = slot s (leftSlot p))
    (hw : worker s' p = worker s p) : receiveEnabled s' p = receiveEnabled s p := by
  simp only [receiveEnabled, hc.faulted, hs, hw]

theorem takeWrites_inReach (hd : ReceiveDue s p) (r : List Byte) (last : Bool) :
    ∀ w ∈ takeWrites p r last s, InReach s p w.place := by
  rintro w hw
  rcases List.mem_pair.1 hw with rfl | rfl
  · exact hd.activeSlot.symm
  · rfl

theorem turnWrites_of_sentinel (h : receiveEnabled s p = true) (hl : (slot s (leftSlot p)).len = 0#6) :
    TurnWrites p s (takeWrites p [] true s) := by
  have hd := (receiveEnabled_iff.1 h).2
  refine ⟨takeWrites_inReach hd [] true, fun s' hc hat => ?_⟩
  have hs : slot s' (leftSlot p) = slot s (leftSlot p) := hat (.slot _) hd.activeSlot.symm
  have hw : worker s' p = worker s p := hat (.worker p) rfl
  rw [workerTurn_of_sentinel ((receiveEnabled_congr hc hs hw).trans h) (by rw [hs, hl]), takeBlock_eq, takeWrites_congr hs hw]

theorem turnWrites_of_send (h : sendEnabled s p = true) : TurnWrites p s (sendWrites p s) := by
  have hd := (sendEnabled_iff.1 h).2
  refine ⟨fun w hw => ?_, fun s' hc hat => ?_⟩
  · rcases List.mem_pair.1 hw with rfl | rfl
    · exact hd.activeSlot.symm
    · rfl
  · have hs : slot s' (rightSlot p) = slot s (rightSlot p) := hat (.slot _) hd.activeSlot.symm
    have hw : worker s' p = worker s p := hat (.worker p) rfl
    have he : sendEnabled s' p = true := by
      rw [← h]
      simp only [sendEnabled, hc.faulted, hs, hw]
    rw [workerTurn_of_send he, workerSend_eq]
    simp only [sendWrites, hs, hw]

theorem turnWrites_of_transform {u : UnitId} {r : List Byte} (h : receiveEnabled s p = true)
    (hl : (slot s (leftSlot p)).len ≠ 0#6) (hu : unitOfCode s.binding[p] = some u) (hd : s.bdir ≠ .none)
    (hm : marked s u = false) (hf : builtTransform s u s (slotBlock (slot s (leftSlot p))) = .ok (t, r)) :
    ∃ w : Write, w.place = .unit u ∧ t = w.apply s ∧ TurnWrites p s (w :: takeWrites p r false s) := by
  have hdue := (receiveEnabled_iff.1 h).2
  obtain ⟨w, hw, rfl, hsame⟩ := builtTransform_isUnitWrite s u _ _ _ _ hf
  refine ⟨w, hw, rfl, List.forall_mem_cons.2 ⟨?_, takeWrites_inReach hdue r false⟩, fun s' hc hat => ?_⟩
  · rw [hw]
    exact hu
  have hs : slot s' (leftSlot p) = slot s (leftSlot p) := hat (.slot _) hdue.activeSlot.symm
  have hp : worker s' p = worker s p := hat (.worker p) rfl
  have hb : builtTransform s' = builtTransform s := by simp only [builtTransform, hc.bdir]
  have ht : workerTransform p s' (slotBlock (slot s' (leftSlot p))) = some (.ok (w.apply s', r)) := by
    rw [workerTransform_iff (by rw [hc.binding]; exact hu) (by rwa [hc.bdir]) (by rw [hc.marked, hm]), hb, hs]
    exact hsame s' (hat (.unit u) hu)
  rw [workerTurn_of_transform ((receiveEnabled_congr hc hs hp).trans h) (by rwa [hs]) ht, takeBlock_apply hw,
    takeWrites_congr hs hp]

end

/-- An enabled step that does not fault is a list of writes within the worker's reach, while nothing is marked. -/
theorem ArbiterOk.turnWrites (a : ArbiterOk s) (hm : ∀ u, marked s u = false) {p : Fin 9} (he : workerEnabled s p = true)
    (h : Machine.workerTurn p s = .next t) (hf : t.faulted = false) : ∃ ws, TurnWrites p s ws := by
  obtain ⟨hb, hp⟩ := a.live_of_due (workerEnabled_iff.1 he).2
  obtain ⟨u, hu, -⟩ := a.bound hb p hp
  have hd := a.bdir_ne_none hb
  rcases workerTurn_cases h with ⟨hr, hs, -⟩ | ⟨hr, hl, -⟩ | ⟨hr, -, e, -, rfl⟩ | ⟨hr, hl, t', r, ht, -⟩ | ⟨-, hs, -⟩
  · rw [workerEnabled, hr, hs] at he
    cases he
  · exact ⟨_, turnWrites_of_sentinel hr hl⟩
  · rw [workerFault, raiseFault_of_not_faulted (receiveEnabled_iff.1 hr).1] at hf
    cases hf
  · obtain ⟨w, -, -, hw⟩ := turnWrites_of_transform hr hl hu hd (hm u) ((workerTransform_iff hu hd (hm u)).1 ht)
    exact ⟨_, hw⟩
  · exact ⟨_, turnWrites_of_send hs⟩

/-! ### Two workers (46_pipeline R330) -/

/-- Two steps due are about different slots: a slot cannot be full for its receiver and empty for its sender. -/
theorem activeSlot_ne {p q : Fin 9} (hpq : p ≠ q) (hp : ReceiveDue s p ∨ SendDue s p) (hq : ReceiveDue s q ∨ SendDue s q) :
    activeSlot s p ≠ activeSlot s q := by
  have full_empty {p q : Fin 9} (hr : ReceiveDue s p) (hs : SendDue s q) : leftSlot p ≠ rightSlot q := fun e => by
    have hv := hr.2
    rw [e, hs.2] at hv
    cases hv
  rcases hp with hp | hp <;> rcases hq with hq | hq <;> rw [hp.activeSlot, hq.activeSlot]
  · exact leftSlot_inj.not.2 hpq
  · exact full_empty hp hq
  · exact (full_empty hq hp).symm
  · exact rightSlot_inj.not.2 hpq

/-- Two workers with steps due have no place in common. -/
theorem ArbiterOk.reach_disjoint (a : ArbiterOk s) {p q : Fin 9} (hpq : p ≠ q) (hp : ReceiveDue s p ∨ SendDue s p)
    (hq : ReceiveDue s q ∨ SendDue s q) {pl pl' : Place} (h : InReach s p pl) (h' : InReach s q pl') : pl ≠ pl' := by
  rintro rfl
  cases pl with
  | unit u =>
    obtain ⟨hb, hinp⟩ := a.live_of_due hp
    obtain ⟨-, hinq⟩ := a.live_of_due hq
    exact hpq (a.distinct hb p q hinp hinq ((unitCode_of_unitOfCode h).symm.trans (unitCode_of_unitOfCode h')))
  | slot k => exact activeSlot_ne hpq hp hq (h.symm.trans h')
  | worker _ => exact hpq (h.symm.trans h')

/-- A worker's step after another worker's writes. -/
theorem TurnWrites.after {p : Fin 9} {ws vs : List Write} (h : TurnWrites p s ws)
    (hv : ∀ v ∈ vs, ∀ pl, InReach s p pl → v.place ≠ pl) :
    workerTurn p (applyAll vs s) = .next (applyAll ws (applyAll vs s)) :=
  h.2 _ (applyAll_sameControl vs s) fun pl hpl => applyAll_sameAt (fun v hvm => hv v hvm pl hpl) s

end

/-- Settles O55: the two steps are lists of writes to places of their own, and neither writes what the other reads. -/
theorem workersCommute : Obligations.WorkersCommute := by
  intro s a b p q ha hm hpq hp hq hpa hqb hfa hfb
  have ep : workerEnabled s p = true := by rw [workerEnabled, Bool.or_eq_true]; exact hp
  have eq : workerEnabled s q = true := by rw [workerEnabled, Bool.or_eq_true]; exact hq
  have dp := (workerEnabled_iff.1 ep).2
  have dq := (workerEnabled_iff.1 eq).2
  obtain ⟨ws, hws⟩ := ha.turnWrites hm ep hpa hfa
  obtain ⟨vs, hvs⟩ := ha.turnWrites hm eq hqb hfb
  obtain rfl : a = applyAll ws s := Host.Outcome.next.inj (hpa.symm.trans hws.self)
  obtain rfl : b = applyAll vs s := Host.Outcome.next.inj (hqb.symm.trans hvs.self)
  refine ⟨_, hvs.after fun w hw pl hpl => ha.reach_disjoint hpq dp dq (hws.1 w hw) hpl, ?_⟩
  rw [hws.after fun v hv pl hpl => (ha.reach_disjoint hpq dp dq hpl (hvs.1 v hv)).symm,
    applyAll_comm fun w hw v hv => ha.reach_disjoint hpq dp dq (hws.1 w hw) (hvs.1 v hv)]

end Sys2Proof.Machine
end

section
/-! One block through a quiescent pipeline (46_pipeline R330, 20_memory R86): at every moment the lone block is at one spot, from which one
agent's turn moves it on and every other turn changes nothing; so the list of turns alone decides where it gets, and the units are
where the sequential fold has them. -/

namespace Sys2Proof.Machine

-- As in the tests: with every proof in a thread of its own the check runs into its memory limit.
set_option Elab.async false

/-! ### The sequential fold (20_memory R86) -/

section
variable {f : UnitId → State → List Byte → Except Trap (State × List Byte)} {s t : State} {b r : List Byte}

theorem foldStages_append {us vs : List UnitId} (h : foldStages f us s b = .ok (t, r)) :
    foldStages f (us ++ vs) s b = foldStages f vs t r := by
  induction us generalizing s b with
  | nil =>
    cases h
    rfl
  | cons u us ih =>
    rw [foldStages] at h
    rw [List.cons_append, foldStages]
    split at h
    · cases h
    · exact ih h

/-- The stages before the last are a fold themselves. -/
theorem foldStages_append_ok {us vs : List UnitId} (h : foldStages f (us ++ vs) s b = .ok (t, r)) :
    ∃ v c, foldStages f us s b = .ok (v, c) := by
  induction us generalizing s b with
  | nil => exact ⟨s, b, rfl⟩
  | cons u us ih =>
    rw [List.cons_append, foldStages] at h
    rw [foldStages]
    split at h
    · cases h
    · exact ih h

theorem foldStages_single {u : UnitId} (h : foldStages f [u] s b = .ok (t, r)) : f u s b = .ok (t, r) := by
  rw [foldStages] at h
  split at h
  · cases h
  · rename_i hf
    cases h
    exact hf

/-- A fold that answers has an answer after each stage, which is the stage's transform of the answer before. -/
theorem foldStages_take_succ {us : List UnitId} (h : foldStages f us s b = .ok (t, r)) {k : Nat} (hk : k < us.length)
    {v : State} {c : List Byte} (hv : foldStages f (us.take k) s b = .ok (v, c)) :
    ∃ v' c', foldStages f (us.take (k + 1)) s b = .ok (v', c') ∧ f us[k] v c = .ok (v', c') := by
  rw [← List.take_append_drop (k + 1) us] at h
  obtain ⟨v', c', h'⟩ := foldStages_append_ok h
  refine ⟨v', c', h', foldStages_single ?_⟩
  rw [← foldStages_append hv, ← List.take_succ_eq_append_getElem hk]
  exact h'

end

/-- Everything that is fixed while a block goes through the pipeline. -/
structure SameConfig (s t : State) : Prop extends SameControl s t where
  estate : t.estate = s.estate
  closing : t.closing = s.closing
  nb : t.nb = s.nb

theorem SameConfig.refl (s : State) : SameConfig s s := ⟨.refl s, rfl, rfl, rfl⟩

theorem SameConfig.trans {s t v : State} (h : SameConfig s t) (h' : SameConfig t v) : SameConfig s v :=
  ⟨h.toSameControl.trans h'.toSameControl, h'.estate.trans h.estate, h'.closing.trans h.closing, h'.nb.trans h.nb⟩

theorem builtTransform_length {s v t : State} {u : UnitId} {b r : List Byte} (h : builtTransform s u v b = .ok (t, r)) :
    r.length = b.length := by
  unfold builtTransform at h
  split at h
  · exact unitTransformF_length h
  · exact unitTransformG_length h

theorem Write.sameConfig (w : Write) (s : State) : SameConfig s (w.apply s) :=
  ⟨w.sameControl s, by cases w <;> rfl, by cases w <;> rfl, by cases w <;> rfl⟩

/-- A fold is one write after the other, none of which changes the length of the block (40_bitvector R131). -/
theorem foldStages_keeps {s v t : State} {us : List UnitId} {b r : List Byte} {P : State → List Byte → Prop}
    (hP : ∀ (w : Write) (v : State) (b r : List Byte), r.length = b.length → P v b → P (w.apply v) r)
    (h : foldStages (builtTransform s) us v b = .ok (t, r)) (h0 : P v b) : P t r := by
  induction us generalizing v b with
  | nil =>
    cases h
    exact h0
  | cons u us ih =>
    rw [foldStages] at h
    split at h
    · cases h
    · rename_i hf
      obtain ⟨w, -, rfl, -⟩ := builtTransform_isUnitWrite s u _ _ _ _ hf
      exact ih h (hP w _ _ _ (builtTransform_length hf) h0)

/-- The fold keeps the configuration and the length of the block. -/
theorem foldStages_config {s v t : State} {us : List UnitId} {b r : List Byte}
    (h : foldStages (builtTransform s) us v b = .ok (t, r)) : SameConfig v t ∧ r.length = b.length :=
  foldStages_keeps (P := fun x c => SameConfig v x ∧ c.length = b.length)
    (fun w _ _ _ hl hx => ⟨hx.1.trans (w.sameConfig _), hl.trans hx.2⟩) h ⟨.refl v, rfl⟩

/-- The fold keeps what is outside the block. -/
theorem foldStages_outside {s v t : State} {us : List UnitId} {b r : List Byte}
    (h : foldStages (builtTransform s) us v b = .ok (t, r)) :
    t.sched = v.sched ∧ t.hostq = v.hostq ∧ t.replies = v.replies :=
  foldStages_keeps (P := fun x _ => x.sched = v.sched ∧ x.hostq = v.hostq ∧ x.replies = v.replies)
    (fun w _ _ _ _ hx => by cases w <;> exact hx) h ⟨rfl, rfl, rfl⟩

/-- The two states differ in the chain and outside the block alone. -/
def SameButChain (v x : State) : Prop :=
  ∃ slots workers sched hostq replies,
    x = { v with slots := slots, workers := workers, sched := sched, hostq := hostq, replies := replies }

section
variable {v x : State}

theorem SameButChain.sameConfig (h : SameButChain v x) : SameConfig v x := by
  obtain ⟨_, _, _, _, _, rfl⟩ := h
  exact ⟨⟨rfl, rfl, rfl, rfl, rfl⟩, rfl, rfl, rfl⟩

theorem SameButChain.sameAt (h : SameButChain v x) (u : UnitId) : SameAt v x (.unit u) := by
  obtain ⟨_, _, _, _, _, rfl⟩ := h
  cases u <;> rfl

/-- A transform moves both states alike. -/
theorem SameButChain.apply (h : SameButChain v x) {w : Write} {u : UnitId} (hw : w.place = .unit u) :
    SameButChain (w.apply v) (w.apply x) := by
  obtain ⟨sl, wo, sc, hq, re, rfl⟩ := h
  cases w with
  | rotor k r => exact ⟨sl, wo, sc, hq, re, rfl⟩
  | perm k p => exact ⟨sl, wo, sc, hq, re, rfl⟩
  | counter i => exact ⟨sl, wo, sc, hq, re, rfl⟩
  | slot k q => cases hw
  | worker p w => cases hw

theorem SameButChain.trans {y : State} (h : SameButChain v x) (h' : SameButChain x y) : SameButChain v y := by
  obtain ⟨_, _, _, _, _, rfl⟩ := h
  obtain ⟨sl, wo, sc, hq, re, rfl⟩ := h'
  exact ⟨sl, wo, sc, hq, re, rfl⟩

end

/-! ### The spots of a lone block -/

/-- Where the one block is: with the host still, in a slot, in a worker's hands, with the host again. -/
inductive Spot where
  | waiting
  | slot (k : Fin 10)
  | hand (p : Fin 9)
  | out

/-- How many of the `n` stages the block has passed. -/
def Spot.passed (n : Nat) : Spot → Nat
  | .waiting => 0
  | .slot k => k.val
  | .hand p => p.val + 1
  | .out => n

/-- Where a turn takes the block in a pipeline of `n` stages: one agent's turn moves it on, every other leaves it. -/
def Spot.after (n : Nat) (turn : Turn) (spot : Spot) : Spot :=
  match turn, spot with
  | .host, .waiting => .slot 0
  | .host, .slot k => if k.val = n then .out else .slot k
  | .worker p, .slot k => if leftSlot p = k ∧ p.val < n then .hand p else .slot k
  | .worker p, .hand q => if p = q then .slot (rightSlot p) else .hand q
  | _, spot => spot

/-- Where a list of turns takes the block. -/
def Spot.travel (n : Nat) (spot : Spot) (turns : List Turn) : Spot := turns.foldl (fun spot turn => spot.after n turn) spot

/-- The block `b` is what the spot holds, and the host has done its part so far. -/
def Carries (x : State) (b : List Byte) : Spot → Prop
  | .waiting => x.hostq = [.push b, .pop] ∧ x.replies = []
  | .slot k => slotBlock (slot x k) = b ∧ x.hostq = [.pop] ∧ x.replies = []
  | .hand p => readBytes (worker x p).hdata 0 (worker x p).hlen.toNat = b ∧ (worker x p).last = false ∧
      x.hostq = [.pop] ∧ x.replies = []
  | .out => x.hostq = [] ∧ x.replies = [.block b]

/-- A quiescent pipeline of the units `units`, a block for it, and what the sequential fold gives (46_pipeline R330). -/
structure LoneBlock (s : State) (units : List UnitId) (bytes : List Byte) (t : State) (r : List Byte) : Prop where
  arbiter : ArbiterOk s
  memories : MemoriesOk s
  faulted : s.faulted = false
  built : built s = true
  quiescent : quiescent s = true
  unmarked : ∀ u, marked s u = false
  nonempty : bytes ≠ []
  short : bytes.length ≤ 32
  length : units.length = s.nb.toNat
  bound : ∀ (p : Fin 9) (h : p.val < units.length), s.binding[p] = unitCode units[p.val]
  fold : foldStages (builtTransform s) units s bytes = .ok (t, r)

/-- In state `x` the block is at `spot` and nowhere else, and the units are where the fold of the stages it has passed has them. -/
structure AtSpot (s : State) (units : List UnitId) (bytes : List Byte) (spot : Spot) (x : State) : Prop where
  arbiter : ArbiterOk x
  memories : MemoriesOk x
  folded : ∃ v b, foldStages (builtTransform s) (units.take (spot.passed s.nb.toNat)) s bytes = .ok (v, b) ∧
    SameButChain v x ∧ Carries x b spot
  slots : ∀ k, (slot x k).v = true ↔ spot = .slot k
  hands : ∀ p, (worker x p).st = .hold ↔ spot = .hand p

section
variable {s t : State} {units : List UnitId} {bytes r : List Byte} {spot : Spot} {x : State}

/-- In a quiescent state nothing is in flight (46_pipeline R306). -/
theorem quiescent_iff : quiescent s = true ↔
    s.closing = false ∧ (∀ k, (slot s k).v = false) ∧ ∀ p, (worker s p).st ≠ .hold := by
  have hs (k : Fin 10) : slot s k ∈ s.slots.toList := by simp [slot]
  have hw (p : Fin 9) : worker s p ∈ s.workers.toList := by simp [worker]
  simp only [quiescent, Bool.and_eq_true, Bool.not_eq_true', List.all_eq_true, bne_iff_ne, and_assoc]
  refine and_congr_right fun _ => and_congr ⟨fun h k => h _ (hs k), fun h q hq => ?_⟩ ⟨fun h p => h _ (hw p), fun h w hq => ?_⟩
  · obtain ⟨k, hk, rfl⟩ := List.mem_iff_getElem.1 hq
    exact h ⟨k, by simpa using hk⟩
  · obtain ⟨p, hp, rfl⟩ := List.mem_iff_getElem.1 hq
    exact h ⟨p, by simpa using hp⟩

/-- After any number of stages the block is as long as it was: not empty, and not too long for a slot. -/
theorem LoneBlock.carried (L : LoneBlock s units bytes t r) {us : List UnitId} {v : State} {b : List Byte}
    (hf : foldStages (builtTransform s) us s bytes = .ok (v, b)) : b ≠ [] ∧ b.length ≤ 32 := by
  have hl : b.length = bytes.length := (foldStages_config hf).2
  refine ⟨fun e => L.nonempty (List.length_eq_zero_iff.1 ?_), hl ▸ L.short⟩
  rw [← hl, e]
  rfl

/-- A slot that holds a block does not hold the sentinel. -/
theorem slotLen_ne_zero {q : Slot} (h : slotBlock q ≠ []) : q.len ≠ 0#6 := fun e => h (by rw [slotBlock, e]; rfl)

/-- A block written with its length is read back. -/
theorem readBytes_written {m : Mem} (h : Mem.wf m) {b : List Byte} (hb : b.length ≤ 32) :
    readBytes (writeBytes m 0 b) 0 (BitVec.ofNat 6 b.length).toNat = b := by
  rw [BitVec.toNat_ofNat, Nat.mod_eq_of_lt (by omega)]
  exact readBytes_writeBytes_same h 0 b

/-- The block starts with the host. -/
theorem LoneBlock.start (L : LoneBlock s units bytes t r) (turns : List Turn) :
    AtSpot s units bytes .waiting { s with sched := turns, hostq := [.push bytes, .pop], replies := [] } := by
  obtain ⟨-, hslots, hworkers⟩ := quiescent_iff.1 L.quiescent
  have hm := L.memories
  refine ⟨L.arbiter.same (.of_eq rfl rfl rfl rfl rfl rfl rfl rfl rfl), { hm with }, ⟨s, bytes, rfl, ?_, rfl, rfl⟩,
    fun k => ?_, fun p => ?_⟩
  · exact ⟨_, _, _, _, _, rfl⟩
  · exact ⟨fun h => Bool.noConfusion ((hslots k).symm.trans h), nofun⟩
  · exact ⟨fun h => (hworkers p h).elim, nofun⟩

theorem AtSpot.config (h : AtSpot s units bytes spot x) : SameConfig s x := by
  obtain ⟨v, b, hf, hv, -⟩ := h.folded
  exact (foldStages_config hf).1.trans hv.sameConfig

theorem AtSpot.faulted (L : LoneBlock s units bytes t r) (h : AtSpot s units bytes spot x) : x.faulted = false :=
  h.config.faulted.trans L.faulted

theorem AtSpot.built (L : LoneBlock s units bytes t r) (h : AtSpot s units bytes spot x) : built x = true :=
  (built_eq h.config.estate).trans L.built

theorem AtSpot.closing (L : LoneBlock s units bytes t r) (h : AtSpot s units bytes spot x) : x.closing = false :=
  h.config.closing.trans (quiescent_iff.1 L.quiescent).1

/-- The coming turns do not matter for where the block is. -/
theorem AtSpot.setSched (h : AtSpot s units bytes spot x) (turns : List Turn) :
    AtSpot s units bytes spot { x with sched := turns } := by
  obtain ⟨v, b, hf, hv, hc⟩ := h.folded
  have hm := h.memories
  refine ⟨h.arbiter.same (.of_eq rfl rfl rfl rfl rfl rfl rfl rfl rfl), { hm with },
    ⟨v, b, hf, hv.trans ⟨_, _, _, _, _, rfl⟩, ?_⟩, h.slots, h.hands⟩
  cases spot <;> exact hc

/-! ### A worker's turn -/

theorem workerTurn_of_idle {p : Fin 9} (hr : ¬ ReceiveDue x p) (hs : ¬ SendDue x p) : workerTurn p x = .next x := by
  have hr' : receiveEnabled x p ≠ true := fun h => hr (receiveEnabled_iff.1 h).2
  have hs' : sendEnabled x p ≠ true := fun h => hs (sendEnabled_iff.1 h).2
  rw [workerTurn, if_neg hr', if_neg hs']

/-- A write to a unit leaves the chain and the host's side alone. -/
theorem unitWrite_frame {w : Write} {u : UnitId} (hw : w.place = .unit u) (x : State) :
    (∀ k, slot (w.apply x) k = slot x k) ∧ (∀ p, worker (w.apply x) p = worker x p) ∧
      (w.apply x).hostq = x.hostq ∧ (w.apply x).replies = x.replies := by
  cases w with
  | slot k q => cases hw
  | worker p w => cases hw
  | _ => exact ⟨fun _ => rfl, fun _ => rfl, rfl, rfl⟩

/-- The transform of the stage right of slot `Q[p]` is the fold's next one. -/
theorem AtSpot.stage (L : LoneBlock s units bytes t r) {p : Fin 9} (h : AtSpot s units bytes (.slot (leftSlot p)) x)
    (hp : p.val < units.length) :
    ∃ (v : State) (b : List Byte) (w : Write), foldStages (builtTransform s) (units.take (p.val + 1)) s bytes = .ok (v, b) ∧
      w.place = .unit units[p.val] ∧ SameButChain v (w.apply x) ∧
      workerTransform p x (slotBlock (slot x (leftSlot p))) = some (.ok (w.apply x, b)) := by
  obtain ⟨v, c, hf, hvx, hc, -, -⟩ := h.folded
  obtain ⟨v', b, hf', hstage⟩ := foldStages_take_succ L.fold hp hf
  obtain ⟨w, hw, rfl, hsame⟩ := builtTransform_isUnitWrite s _ _ _ _ _ hstage
  have hx : builtTransform x = builtTransform s := by simp only [builtTransform, h.config.bdir]
  have hu : unitOfCode x.binding[p] = some units[p.val] := by
    rw [h.config.binding, L.bound p hp, unitOfCode_unitCode]
  have hm : marked x units[p.val] = false := (h.config.marked _).trans (L.unmarked _)
  refine ⟨_, b, w, hf', hw, hvx.apply hw, ?_⟩
  rw [workerTransform_iff hu (h.arbiter.bdir_ne_none (h.built L)) hm, hx, hc]
  exact hsame x (hvx.sameAt _)

/-- The stage right of slot `Q[p]` takes the block. -/
theorem AtSpot.receive (L : LoneBlock s units bytes t r) {p : Fin 9} (h : AtSpot s units bytes (.slot (leftSlot p)) x)
    (hp : p.val < s.nb.toNat) : ∃ y, workerTurn p x = .next y ∧ AtSpot s units bytes (.hand p) y := by
  have hin : inPipeline x p := by rw [inPipeline, h.config.nb]; exact hp
  have hv : (slot x (leftSlot p)).v = true := (h.slots _).2 rfl
  have hdue : ReceiveDue x p := (h.arbiter.receives_or_holds hv hin).resolve_right fun hst => nomatch (h.hands p).1 hst
  obtain ⟨v₀, c, hf₀, -, hc, hq, hr⟩ := h.folded
  have hl : (slot x (leftSlot p)).len ≠ 0#6 := slotLen_ne_zero (hc ▸ (L.carried hf₀).1)
  obtain ⟨v, b, w, hf, hw, hvx, ht⟩ := h.stage L (L.length ▸ hp)
  obtain ⟨hslot, hworker, hhostq, hreplies⟩ := unitWrite_frame hw x
  have hturn := workerTurn_of_transform (receiveEnabled_iff.2 ⟨h.faulted L, hdue⟩) hl ht
  refine ⟨_, hturn, h.arbiter.workerTurn hturn, h.memories.workerTurn hturn,
    ⟨v, b, hf, hvx.trans ⟨_, _, _, _, _, rfl⟩, ?_, ?_, hhostq.trans hq, hreplies.trans hr⟩, fun k => ?_, fun q => ?_⟩
  · rw [worker_takeBlock, if_pos rfl, hworker]
    exact readBytes_written (h.memories.holdData p).1 (L.carried hf).2
  · rw [worker_takeBlock, if_pos rfl]
  · rw [slot_takeBlock, hslot, hslot]
    refine ⟨fun hk => ?_, nofun⟩
    split at hk
    · cases hk
    · rename_i hne
      exact (hne (Spot.slot.inj ((h.slots k).1 hk)).symm).elim
  · rw [worker_takeBlock, hworker, hworker]
    split
    · rename_i hqp
      exact ⟨fun _ => by rw [hqp], fun _ => rfl⟩
    · rename_i hqp
      exact ⟨fun hst => (nomatch (h.hands q).1 hst), fun he => (hqp (Spot.hand.inj he).symm).elim⟩

/-- The worker that holds the block sends it on. -/
theorem AtSpot.send (L : LoneBlock s units bytes t r) {p : Fin 9} (h : AtSpot s units bytes (.hand p) x) :
    ∃ y, workerTurn p x = .next y ∧ AtSpot s units bytes (.slot (rightSlot p)) y := by
  have hst : (worker x p).st = .hold := (h.hands p).2 rfl
  have hv : (slot x (rightSlot p)).v = false := Bool.of_not_eq_true fun hv => nomatch (h.slots _).1 hv
  have hturn := workerTurn_of_send (sendEnabled_iff.2 ⟨h.faulted L, hst, hv⟩)
  obtain ⟨v, b, hf, hvx, hb, hlast, hq, hr⟩ := h.folded
  refine ⟨_, hturn, h.arbiter.workerTurn hturn, h.memories.workerTurn hturn,
    ⟨v, b, hf, hvx.trans ⟨_, _, _, _, _, rfl⟩, ?_, hq, hr⟩, fun k => ?_, fun q => ?_⟩
  · have hl := readBytes_length (worker x p).hdata 0 (worker x p).hlen.toNat
    have hw := readBytes_writeBytes_same (h.memories.slotData (rightSlot p)).1 0
      (readBytes (worker x p).hdata 0 (worker x p).hlen.toNat)
    rw [hl, hb] at hw
    rw [slot_workerSend, if_pos rfl, slotBlock, hb]
    exact hw
  · rw [slot_workerSend]
    split
    · rename_i hk
      exact ⟨fun _ => by rw [hk], fun _ => rfl⟩
    · rename_i hk
      exact ⟨fun hkv => (nomatch (h.slots k).1 hkv), fun he => (hk (Spot.slot.inj he).symm).elim⟩
  · rw [worker_workerSend, hlast]
    refine ⟨fun hq => ?_, nofun⟩
    split at hq
    · cases hq
    · rename_i hqp
      exact (hqp (Spot.hand.inj ((h.hands q).1 hq)).symm).elim

theorem AtSpot.workerTurn (L : LoneBlock s units bytes t r) (h : AtSpot s units bytes spot x) (p : Fin 9) :
    ∃ y, workerTurn p x = .next y ∧ AtSpot s units bytes (spot.after s.nb.toNat (.worker p)) y := by
  have idle (hr : spot ≠ .slot (leftSlot p) ∨ ¬ p.val < s.nb.toNat) (hs : spot ≠ .hand p) : Machine.workerTurn p x = .next x := by
    refine workerTurn_of_idle (fun hd => ?_) fun hd => hs ((h.hands p).1 hd.1)
    rcases hr with hr | hr
    · exact hr ((h.slots _).1 hd.2)
    · have hin := (h.arbiter.live_of_due (.inl hd)).2
      rw [inPipeline, h.config.nb] at hin
      exact hr hin
  cases spot with
  | waiting => exact ⟨x, idle (.inl nofun) nofun, h⟩
  | out => exact ⟨x, idle (.inl nofun) nofun, h⟩
  | slot k =>
    rw [Spot.after]
    split
    · rename_i hk
      obtain ⟨rfl, hp⟩ := hk
      exact h.receive L hp
    · rename_i hk
      refine ⟨x, idle ?_ nofun, h⟩
      by_cases hp : p.val < s.nb.toNat
      · exact .inl fun e => hk ⟨(Spot.slot.inj e).symm, hp⟩
      · exact .inr hp
  | hand q =>
    rw [Spot.after]
    split
    · rename_i hpq
      subst hpq
      exact h.send L
    · rename_i hpq
      exact ⟨x, idle (.inl nofun) fun e => hpq (Spot.hand.inj e).symm, h⟩

/-! ### The host's turns -/

/-- The push happens: the pipeline is not closing and its first slot is empty (46_pipeline R310, R312). -/
theorem AtSpot.push (L : LoneBlock s units bytes t r) (h : AtSpot s units bytes .waiting x) :
    ∃ y, hostTurn x = .next y ∧ AtSpot s units bytes (.slot 0) y := by
  obtain ⟨v, b, hf, hvx, hq, hr⟩ := h.folded
  cases hf
  have hv : (slot x 0).v = false := Bool.of_not_eq_true fun hv => nomatch (h.slots 0).1 hv
  have hready : inReady x = true := by
    simp [inReady, h.faulted L, h.built L, h.closing L, hv]
  have hturn : hostTurn x = .next (pushBlock bytes { x with hostq := [.pop] }) := by
    have hb : actionBlocked x (.push bytes) = false := by simp [actionBlocked, hready]
    simp only [hostTurn, hq, hb, performAction, Config.blockBytes, if_pos L.short, Bool.false_eq_true, if_false]
  have hm : MemoriesOk { x with hostq := [.pop] } := { h.memories with }
  have ha : ArbiterOk { x with hostq := [.pop] } := h.arbiter.same (.of_eq rfl rfl rfl rfl rfl rfl rfl rfl rfl)
  have hclosing : (x.closing || bytes.isEmpty) = x.closing := by simp [L.nonempty]
  refine ⟨_, hturn, ha.push L.short hready, hm.push L.short,
    ⟨s, bytes, rfl, hvx.trans ?_, ?_, rfl, hr⟩, fun k => ?_, fun p => ?_⟩
  · exact ⟨_, _, _, _, _, by rw [pushBlock, hclosing]; rfl⟩
  · rw [slot_pushBlock, if_pos rfl]
    exact readBytes_written (h.memories.slotData 0).1 L.short
  · rw [slot_pushBlock]
    split
    · rename_i hk
      exact ⟨fun _ => by rw [hk], fun _ => rfl⟩
    · rename_i hk
      exact ⟨fun hkv => (nomatch (h.slots k).1 hkv), fun he => (hk (Spot.slot.inj he).symm).elim⟩
  · exact ⟨fun hp => (nomatch (h.hands p).1 hp), nofun⟩

/-- The pop happens at the output end (46_pipeline R313, R314). -/
theorem AtSpot.pop (L : LoneBlock s units bytes t r) {k : Fin 10} (h : AtSpot s units bytes (.slot k) x)
    (hk : k.val = s.nb.toNat) : ∃ y, hostTurn x = .next y ∧ AtSpot s units bytes .out y := by
  obtain ⟨v, b, hf, hvx, hb, hq, hr⟩ := h.folded
  have hv : (slot x k).v = true := (h.slots k).2 rfl
  have hkx : k.val = x.nb.toNat := by rw [h.config.nb]; exact hk
  have hout : outSlot x = some k := outSlot_of_val hkx
  have hvalid : outValid x = true := outValid_of_slot (h.faulted L) (h.built L) hkx hv
  have hl0 : (slot x k).len ≠ 0#6 := slotLen_ne_zero (hb ▸ (L.carried hf).1)
  have hturn : hostTurn x = .next (popBlock k { x with hostq := [] }) := by
    have hbl : actionBlocked x .pop = false := by simp [actionBlocked, hvalid]
    have hout' : outSlot { x with hostq := [] } = some k := hout
    simp only [hostTurn, hq, hbl, performAction, hout', Bool.false_eq_true, if_false]
  have hpop : popBlock k { x with hostq := [] } =
      setSlot k { slot x k with v := false } { x with hostq := [], replies := [.block b] } := by
    have hl : (slot { x with hostq := [] } k).len ≠ 0#6 := hl0
    simp only [popBlock, if_neg hl]
    rw [show slotBlock (slot { x with hostq := [] } k) = b from hb, hr]
    rfl
  have ha : ArbiterOk { x with hostq := [] } := h.arbiter.same (.of_eq rfl rfl rfl rfl rfl rfl rfl rfl rfl)
  have hm : MemoriesOk { x with hostq := [] } := { h.memories with }
  refine ⟨_, hturn, ha.pop hout hvalid, hm.pop k,
    ⟨v, b, ?_, hvx.trans ?_, ?_, ?_⟩, fun j => ?_, fun p => ?_⟩
  · rw [← hf]
    simp only [Spot.passed, hk]
  · rw [hpop]
    exact ⟨_, _, _, _, _, rfl⟩
  · rw [hpop]
    rfl
  · rw [hpop]
    rfl
  · rw [slot_popBlock]
    refine ⟨fun hj => ?_, nofun⟩
    split at hj
    · cases hj
    · rename_i hne
      exact (hne (Spot.slot.inj ((h.slots j).1 hj)).symm).elim
  · rw [worker_popBlock]
    exact ⟨fun hp => (nomatch (h.hands p).1 hp), nofun⟩

/-- Away from the output end the pop blocks (46_pipeline R313). -/
theorem AtSpot.pop_blocked (h : AtSpot s units bytes spot x) (hq : x.hostq = [.pop])
    (hne : ∀ k, spot = .slot k → k.val ≠ s.nb.toNat) : hostTurn x = .next x := by
  have hb : actionBlocked x .pop = true := by
    rw [actionBlocked, Bool.not_eq_true', outValid]
    cases ho : outSlot x with
    | none => simp
    | some k =>
      have hv : (slot x k).v = false := Bool.of_not_eq_true fun hv => by
        refine hne k ((h.slots k).1 hv) ?_
        rw [outSlot_val ho, h.config.nb]
      simp [hv]
  simp only [hostTurn, hq, hb, if_true]

theorem AtSpot.hostTurn (L : LoneBlock s units bytes t r) (h : AtSpot s units bytes spot x) :
    ∃ y, hostTurn x = .next y ∧ AtSpot s units bytes (spot.after s.nb.toNat .host) y := by
  obtain ⟨v, b, -, -, hc⟩ := h.folded
  cases spot with
  | waiting => exact h.push L
  | slot k =>
    rw [Spot.after]
    split
    · rename_i hk
      exact h.pop L hk
    · rename_i hk
      exact ⟨x, h.pop_blocked hc.2.1 fun j e => Spot.slot.inj e ▸ hk, h⟩
  | hand p => exact ⟨x, h.pop_blocked hc.2.2.1 nofun, h⟩
  | out => exact ⟨x, by simp only [Machine.hostTurn, hc.1], h⟩

/-- No RESET is pending, so the host gives nothing up (70_reset R390). -/
theorem AtSpot.hostResetTurn (h : AtSpot s units bytes spot x) : hostResetTurn x = .next x := by
  obtain ⟨v, b, -, -, hc⟩ := h.folded
  unfold Machine.hostResetTurn
  cases spot with
  | waiting => rw [hc.1]
  | slot k => rw [hc.2.1]
  | hand p => rw [hc.2.2.1]
  | out => rw [hc.1]

/-! ### The run -/

theorem AtSpot.takeTurn (L : LoneBlock s units bytes t r) (h : AtSpot s units bytes spot x) (turn : Turn) :
    ∃ y, takeTurn turn x = .next y ∧ AtSpot s units bytes (spot.after s.nb.toNat turn) y := by
  cases turn with
  | host => exact h.hostTurn L
  | worker p => exact h.workerTurn L p
  | hostReset => exact ⟨x, h.hostResetTurn, by cases spot <;> exact h⟩

/-- The turns alone decide where the block gets (46_pipeline R330). -/
theorem AtSpot.run (L : LoneBlock s units bytes t r) {turns : List Turn} (h : AtSpot s units bytes spot x)
    (hs : x.sched = turns) :
    ∃ y, runSteps turns.length x = some y ∧ y.sched = [] ∧
      AtSpot s units bytes (spot.travel s.nb.toNat turns) y := by
  induction turns generalizing spot x with
  | nil => exact ⟨x, rfl, hs, h⟩
  | cons turn turns ih =>
    obtain ⟨y, hy, hat⟩ := (h.setSched turns).takeTurn L turn
    have hstep : step x = .next y := by
      rw [step, nextTurn_of_sched hs]
      exact hy
    obtain ⟨z, hz, hrest⟩ := ih hat (takeTurn_sched hy)
    refine ⟨z, ?_, hrest⟩
    rw [List.length_cons, runSteps, hstep]
    exact hz

/-- The block that came out is the fold's, and the pipeline is quiescent again. -/
theorem AtSpot.out_state (L : LoneBlock s units bytes t r) (h : AtSpot s units bytes .out x) :
    SameButChain t x ∧ x.hostq = [] ∧ x.replies = [.block r] ∧ quiescent x = true := by
  obtain ⟨v, b, hf, hvx, hq, hr⟩ := h.folded
  rw [Spot.passed, ← L.length, List.take_length, L.fold] at hf
  cases hf
  refine ⟨hvx, hq, hr, quiescent_iff.2 ⟨h.closing L, fun k => Bool.of_not_eq_true fun hv => (nomatch (h.slots k).1 hv),
    fun p hp => nomatch (h.hands p).1 hp⟩⟩

/-- The host has nothing pending only when the block is out. -/
theorem AtSpot.out_of_hostq (h : AtSpot s units bytes spot x) (hq : x.hostq = []) : spot = .out := by
  obtain ⟨v, b, -, -, hc⟩ := h.folded
  cases spot with
  | waiting => rw [hc.1] at hq; cases hq
  | slot k => rw [hc.2.1] at hq; cases hq
  | hand p => rw [hc.2.2.1] at hq; cases hq
  | out => rfl

end

/-- A push and its pop, from the run under them (R282). -/
theorem pushPop_of_run {s v : State} {bytes r : List Byte}
    (h : runSteps (throughSchedule s.nb.toNat).length
      { s with sched := throughSchedule s.nb.toNat, hostq := [.push bytes, .pop], replies := [] } = some v)
    (hr : v.replies = [.block r]) :
    pushPop bytes s = some (r, { v with replies := s.replies, sched := s.sched, hostq := s.hostq }) := by
  simp only [pushPop, h, hr]

/-- The schedule of `pushPop` takes the block out, for every length of a pipeline. -/
theorem throughSchedule_out {n : Nat} (h1 : 1 ≤ n) (h9 : n ≤ 9) : Spot.waiting.travel n (throughSchedule n) = .out := by
  interval_cases n <;> rfl

/-- Settles O60: the turns decide where the lone block gets, and the units move as the fold moves them. -/
theorem oneBlockIsTheFold : Obligations.OneBlockIsTheFold := by
  intro s t units bytes r ha hm hf hb hquiet hmarks hne hlen hunits hbound hfold
  have L : LoneBlock s units bytes t r := ⟨ha, hm, hf, hb, hquiet, hmarks, hne, hlen, hunits, hbound, hfold⟩
  refine ⟨fun turns t' hrun hq => ?_, ?_⟩
  · obtain ⟨y, hy, hsched, hat⟩ := (L.start turns).run L rfl
    obtain rfl : y = t' := Option.some.inj (hy.symm.trans hrun)
    rw [hat.out_of_hostq hq] at hat
    obtain ⟨⟨_, _, _, _, _, rfl⟩, rfl, rfl, hquiet'⟩ := hat.out_state L
    cases hsched
    exact ⟨rfl, hquiet'⟩
  · obtain ⟨y, hy, -, hat⟩ := (L.start (throughSchedule s.nb.toNat)).run L rfl
    obtain ⟨h1, h9⟩ := L.arbiter.count L.built
    rw [throughSchedule_out h1 h9] at hat
    obtain ⟨hty, -, hr, hquiet'⟩ := hat.out_state L
    obtain ⟨hsched, hhostq, hreplies⟩ := foldStages_outside L.fold
    refine ⟨_, pushPop_of_run hy hr, ?_, hquiet'⟩
    obtain ⟨_, _, _, _, _, rfl⟩ := hty
    rw [← hsched, ← hhostq, ← hreplies]

end Sys2Proof.Machine
end

section
/-! The decoder on the words of each format, said once (30_encoding R101 to R106), and a word that is no command (R108, 60_exceptions
R353). -/

namespace Sys2Proof.Machine

-- As in the tests: with every proof in a thread of its own the check runs into its memory limit.
set_option Elab.async false

/-! ### Decoding, format by format (30_encoding R103) -/

/-- A word is decoded by the format of its opcode, the byte above its other bits. -/
theorem decode_of_form {op : Byte} {f : Form} (h : opcodeForm op.toNat = some f) (low : BitVec 24) :
    decode (op ++ low) = decodeForm f (op ++ low) := by
  rw [decode, opcodeField, BitVec.extractLsb'_append_eq_left, h]

theorem decode_of_unlisted {op : Byte} (h : opcodeForm op.toNat = none) (low : BitVec 24) :
    decode (op ++ low) = .error .unknownOpcode := by
  rw [decode, opcodeField, BitVec.extractLsb'_append_eq_left, h]

theorem decode_formN {op : Byte} {i : Instr} (h : opcodeForm op.toNat = some (.formN i)) (low : BitVec 24) :
    decode (op ++ low) = if low = 0#24 then .ok i else .error (.mustBeZero 0xF#4) := by
  rw [decode_of_form h, decodeForm, BitVec.extractLsb'_append_eq_right]

/-- A word of format U with no must-be-zero bit set: its unit id decides. -/
theorem decode_formU {op : Byte} {lo hi : Nat} {mk : UnitCode → Instr} (h : opcodeForm op.toNat = some (.formU lo hi mk))
    (u : UnitCode) :
    decode (op ++ (u ++ 0#20)) = if lo ≤ u.toNat ∧ u.toNat ≤ hi then .ok (mk u) else .error (.unitRange u) := by
  have hzero : (op ++ (u ++ 0#20)).extractLsb' 0 20 = 0#20 := by
    rw [BitVec.extractLsb'_append_eq_of_add_le (by decide), BitVec.extractLsb'_append_eq_right]
  have hunit : unitBits (op ++ (u ++ 0#20)) = u := by
    rw [unitBits, BitVec.extractLsb'_append_eq_of_add_le (by decide), BitVec.extractLsb'_append_eq_left]
  rw [decode_of_form h, decodeForm, hunit, if_neg (not_not.2 hzero)]

theorem decode_formI {op : Byte} {mk : Byte → Instr} (h : opcodeForm op.toNat = some (.formI mk)) (mid : BitVec 16) (imm : Byte) :
    decode (op ++ (mid ++ imm)) = if mid = 0#16 then .ok (mk imm) else .error (.mustBeZero 0xF#4) := by
  have hmid : (op ++ (mid ++ imm)).extractLsb' 8 16 = mid := by
    rw [BitVec.extractLsb'_append_eq_of_add_le (by decide), BitVec.extractLsb'_append_eq_left]
  have himm : immField (op ++ (mid ++ imm)) = imm := by
    rw [immField, BitVec.extractLsb'_append_eq_of_add_le (by decide), BitVec.extractLsb'_append_eq_right]
  rw [decode_of_form h, decodeForm, hmid, himm]

/-! ### Decoding undoes encoding (30_encoding R101 to R106) -/

/-- A unit id in its group's range builds the command. -/
theorem decode_formU_of_mem {op : Byte} {lo hi : Nat} {mk : UnitCode → Instr} (h : opcodeForm op.toNat = some (.formU lo hi mk))
    {u : UnitCode} (hu : lo ≤ u.toNat ∧ u.toNat ≤ hi) : decode (op ++ (u ++ 0#20)) = .ok (mk u) := by
  rw [decode_formU h, if_pos hu]

/-- The counter commands carry no operand: their unit field has the one value 8 (30_encoding R104). -/
theorem decode_counter {op : Byte} {i : Instr} (h : opcodeForm op.toNat = some (.formU 8 8 fun _ => i)) :
    decode (op ++ (8#4 ++ 0#20)) = .ok i :=
  decode_formU_of_mem h (by decide)

/-- Settles O1: the commands of one format and one range of unit ids decode alike. -/
theorem decodeOfEncode : Obligations.DecodeOfEncode := by
  intro i hi
  cases i with
  | nop | engInit | engBuild | engSetindex | engIndex | wcAdd | wcSub | wcMul | wcDiv | wcDivmod | wcMod | wcInc | wcIszero
  | wcParse | wcTostr => exact decode_formN rfl 0#24
  | engSetdir d | bitGet d | bitSet d | bitClr d => exact decode_formI rfl 0#16 d
  | rotConstruct u | rotApplyf u | rotApplyg u | rotSetindex u | rotIndex u | rotUpdate u | rotDump u =>
    exact decode_formU_of_mem rfl ⟨Nat.zero_le _, of_decide_eq_true hi⟩
  | prmConstruct u | prmApplyf u | prmApplyg u | prmSetindex u | prmIndex u | prmUpdate u | prmDump u | prmAdvance u
  | prmRebuild u => exact decode_formU_of_mem rfl (of_decide_eq_true hi)
  | ctrReset | ctrApplyf | ctrApplyg | ctrSetindex | ctrIndex | ctrUpdate =>
    exact decode_counter rfl

/-! ### A word that decodes is the word of a well-formed command (30_encoding R103 to R106) -/

/-- Every command the format builds from a field it accepts has a word (30_encoding R103 step 4). -/
def FormWellFormed : Form → Prop
  | .formN i => WellFormed i = true
  | .formU lo hi mk => ∀ u : UnitCode, lo ≤ u.toNat → u.toNat ≤ hi → WellFormed (mk u) = true
  | .formI mk => ∀ d : Byte, WellFormed (mk d) = true

/-- The opcode map gives each group the range of unit ids that well-formedness asks for (30_encoding R104). -/
theorem opcodeForm_wellFormed {n : Nat} {f : Form} (h : opcodeForm n = some f) : FormWellFormed f := by
  unfold opcodeForm at h
  split at h <;> cases h <;> simp [FormWellFormed, WellFormed]
  all_goals exact fun _ h6 h7 => ⟨h6, h7⟩

theorem decodeForm_wellFormed {f : Form} {w : Cmd} {i : Instr} (hf : FormWellFormed f) (h : decodeForm f w = .ok i) :
    WellFormed i = true := by
  cases f with
  | formN j =>
    rw [decodeForm] at h
    split at h <;> cases h
    exact hf
  | formU lo hi mk =>
    rw [decodeForm] at h
    split at h
    · cases h
    · split at h <;> cases h
      next hu => exact hf _ hu.1 hu.2
  | formI mk =>
    rw [decodeForm] at h
    split at h <;> cases h
    exact hf _

theorem wellFormed_of_decode {w : Cmd} {i : Instr} (h : decode w = .ok i) : WellFormed i = true := by
  unfold decode at h
  split at h
  · cases h
  · rename_i f hf
    exact decodeForm_wellFormed (opcodeForm_wellFormed hf) h

/-- Settles O2: a format keeps every bit of the words it accepts, and builds well-formed commands only. -/
theorem encodeOfDecode : Obligations.EncodeOfDecode :=
  fun _ _ h => ⟨wellFormed_of_decode h, encode_of_decode h⟩

/-! ### A word that is no command (30_encoding R108, 60_exceptions R353) -/

section
variable {n : Nat}

theorem opcodeForm_noOperand (h : n ≤ 0x05 ∨ (0x10 ≤ n ∧ n ≤ 0x19)) (hn : n ≠ 0x02) : ∃ i, opcodeForm n = some (.formN i) := by
  have hrange : n ≤ 0x01 ∨ (0x03 ≤ n ∧ n ≤ 0x05) ∨ (0x10 ≤ n ∧ n ≤ 0x19) := by omega
  rcases hrange with h1 | ⟨h1, h2⟩ | ⟨h1, h2⟩ <;> interval_cases n <;> exact ⟨_, rfl⟩

theorem opcodeForm_immediate (h : n = 0x02 ∨ (0x50 ≤ n ∧ n ≤ 0x52)) : ∃ mk, opcodeForm n = some (.formI mk) := by
  obtain rfl | ⟨h1, h2⟩ := h
  · exact ⟨_, rfl⟩
  · interval_cases n <;> exact ⟨_, rfl⟩

theorem opcodeForm_rotor (h1 : 0x20 ≤ n) (h2 : n ≤ 0x26) : ∃ mk, opcodeForm n = some (.formU 0 5 mk) := by
  interval_cases n <;> exact ⟨_, rfl⟩

theorem opcodeForm_perm (h1 : 0x30 ≤ n) (h2 : n ≤ 0x38) : ∃ mk, opcodeForm n = some (.formU 6 7 mk) := by
  interval_cases n <;> exact ⟨_, rfl⟩

theorem opcodeForm_counter (h1 : 0x40 ≤ n) (h2 : n ≤ 0x45) : ∃ mk, opcodeForm n = some (.formU 8 8 mk) := by
  interval_cases n <;> exact ⟨_, rfl⟩

theorem opcodeForm_unlisted
    (h : (0x06 ≤ n ∧ n ≤ 0x0F) ∨ (0x1A ≤ n ∧ n ≤ 0x1F) ∨ (0x27 ≤ n ∧ n ≤ 0x2F) ∨ (0x39 ≤ n ∧ n ≤ 0x3F) ∨
      (0x46 ≤ n ∧ n ≤ 0x4F) ∨ 0x53 ≤ n) : opcodeForm n = none := by
  unfold opcodeForm
  split
  case h_42 => rfl
  all_goals omega

end

/-- A group refuses the unit ids outside its range (30_encoding R103 step 4). -/
theorem decode_unit_out_of_range {op : Byte} {u : UnitCode}
    (h : (0x20 ≤ op.toNat ∧ op.toNat ≤ 0x26 ∧ 5 < u.toNat) ∨
      (0x30 ≤ op.toNat ∧ op.toNat ≤ 0x38 ∧ u.toNat ≠ 6 ∧ u.toNat ≠ 7) ∨
      (0x40 ≤ op.toNat ∧ op.toNat ≤ 0x45 ∧ u.toNat ≠ 8)) :
    decode (op ++ (u ++ 0#20)) = .error (.unitRange u) := by
  rcases h with ⟨h1, h2, hu⟩ | ⟨h1, h2, hu⟩ | ⟨h1, h2, hu⟩
  · obtain ⟨mk, hmk⟩ := opcodeForm_rotor h1 h2
    rw [decode_formU hmk, if_neg (by omega)]
  · obtain ⟨mk, hmk⟩ := opcodeForm_perm h1 h2
    rw [decode_formU hmk, if_neg (by omega)]
  · obtain ⟨mk, hmk⟩ := opcodeForm_counter h1 h2
    rw [decode_formU hmk, if_neg (by omega)]

/-- A rejected word raises `ILLEGAL_COMMAND` with the unit its rejection names (30_encoding R108). -/
theorem runCommand_of_rejected {s : State} {w : Cmd} {e : Reject} (hf : s.faulted = false) (h : decode w = .error e) :
    runCommand w s = .next { s with
      fault := { cause := 0x01, unit := e.unit, src := 0, worker := 0 }, fcmd := w.setWidth 64, faulted := true } := by
  simp only [runCommand, h, raiseFault_of_not_faulted hf]
  rfl

/-- A word that no well-formed command encodes to is rejected. -/
theorem decode_rejects {w : Cmd} (h : ∀ i, WellFormed i = true → encode i ≠ w) : ∃ e, decode w = .error e := by
  cases hd : decode w with
  | error e => exact ⟨e, rfl⟩
  | ok i =>
    obtain ⟨hi, hw⟩ := encodeOfDecode w i hd
    exact absurd hw (h i hi)

/-- Settles O3: what each format and each unlisted opcode rejects, and the one fault a rejected word raises. -/
theorem illegalWordsFault : Obligations.IllegalWordsFault := by
  intro s hf faulted
  refine ⟨fun w h => ?_, fun op low hop hne hlow => ?_, fun op mid imm hop hmid => ?_, fun op u h => ?_, fun op low hop => ?_⟩
  · obtain ⟨e, he⟩ := decode_rejects h
    exact ⟨e.unit, runCommand_of_rejected hf he⟩
  · obtain ⟨i, hi⟩ := opcodeForm_noOperand hop hne
    exact runCommand_of_rejected hf ((decode_formN hi low).trans (if_neg hlow))
  · obtain ⟨mk, hmk⟩ := opcodeForm_immediate hop
    rw [BitVec.append_assoc]
    exact runCommand_of_rejected hf ((decode_formI hmk mid imm).trans (if_neg hmid))
  · rw [BitVec.append_assoc]
    exact runCommand_of_rejected hf (decode_unit_out_of_range h)
  · exact runCommand_of_rejected hf (decode_of_unlisted (opcodeForm_unlisted hop) low)

/-! ### The worked encodings (30_encoding R112) -/

theorem decode_of_encode_eq {i : Instr} {w : Cmd} (hi : WellFormed i = true) (hw : encode i = w) : decode w = .ok i :=
  hw ▸ decodeOfEncode i hi

/-- Settles O4: a worked word is the encoding of its command, so it decodes to it; the four illegal words each meet their step of
R103. -/
theorem workedEncodings : Obligations.WorkedEncodings :=
  ⟨rfl, decode_of_encode_eq rfl rfl, rfl, decode_of_encode_eq rfl rfl, rfl, decode_of_encode_eq rfl rfl,
    rfl, decode_of_encode_eq rfl rfl, rfl, decode_of_encode_eq rfl rfl, rfl, decode_of_encode_eq rfl rfl,
    decode_unit_out_of_range (op := 0x21#8) (u := 6#4) (by decide), decode_formN (op := 0x10#8) rfl 1#24,
    decode_of_unlisted (op := 0x06#8) rfl 0#24, decode_unit_out_of_range (op := 0x44#8) (u := 7#4) (by decide)⟩

end Sys2Proof.Machine
end

section
/-! The bit commands on the block register: what their two checks answer, and what they do to the bytes of `BLK` (40_bitvector R132
to R134). -/

namespace Sys2Proof.Machine

-- As in the tests: with every proof in a thread of its own the check runs into its memory limit.
set_option Elab.async false

/-! ### The bytes of a buffer after one bit is written (20_memory R74) -/

theorem readByte_setBit {m : Mem} (h : Mem.wf m) (i a : Nat) :
    readByte (setBit m i) a = if a = i / 8 then readByte m (i / 8) ||| bitMask i else readByte m a :=
  readByte_writeByte h _ _ a

theorem readByte_clrBit {m : Mem} (h : Mem.wf m) (i a : Nat) :
    readByte (clrBit m i) a = if a = i / 8 then readByte m (i / 8) &&& ~~~(bitMask i) else readByte m a :=
  readByte_writeByte h _ _ a

/-! ### The two checks -/

section
variable {n : Byte} {s : State}

theorem onBlockBit_of_long (h : 32 < s.blkLen.toNat) (body : Except Trap State) :
    onBlockBit n s body = .error ⟨.badBlockLen, noUnit⟩ :=
  withBlock_of_long h noUnit _

theorem onBlockBit_of_outside (hb : s.blkLen.toNat ≤ 32) (hn : 8 * s.blkLen.toNat ≤ n.toNat) (body : Except Trap State) :
    onBlockBit n s body = .error ⟨.badBitIndex, noUnit⟩ := by
  rw [onBlockBit, withBlock_of_short hb, if_pos hn]

theorem onBlockBit_of_inside (hb : s.blkLen.toNat ≤ 32) (hn : n.toNat < 8 * s.blkLen.toNat) (body : Except Trap State) :
    onBlockBit n s body = body := by
  rw [onBlockBit, withBlock_of_short hb, if_neg (Nat.not_le_of_lt hn)]

/-! ### The commands -/

/-- The three BIT commands share one frame: they are legal in every engine state, and the two checks come before their rule. -/
theorem bitCommand_frame {i : Instr} (h : i = .bitGet n ∨ i = .bitSet n ∨ i = .bitClr n) (s : State) :
    legalIn i s.estate = true ∧ ∃ body, exec i s = command i s (onBlockBit n s body) := by
  rcases h with rfl | rfl | rfl <;> exact ⟨rfl, _, rfl⟩

/-- A block longer than the register faults first. -/
theorem exec_bitCommand_of_long {i : Instr} (h : i = .bitGet n ∨ i = .bitSet n ∨ i = .bitClr n) (hf : s.faulted = false)
    (hb : 32 < s.blkLen.toNat) : exec i s = .next (commandFaulted i .badBlockLen noUnit s) := by
  obtain ⟨hl, body, hexec⟩ := bitCommand_frame h s
  rw [hexec, onBlockBit_of_long hb, command_of_error hf hl]

/-- A bit index at or past the end of the block faults next. -/
theorem exec_bitCommand_of_outside {i : Instr} (h : i = .bitGet n ∨ i = .bitSet n ∨ i = .bitClr n) (hf : s.faulted = false)
    (hb : s.blkLen.toNat ≤ 32) (hn : 8 * s.blkLen.toNat ≤ n.toNat) :
    exec i s = .next (commandFaulted i .badBitIndex noUnit s) := by
  obtain ⟨hl, body, hexec⟩ := bitCommand_frame h s
  rw [hexec, onBlockBit_of_outside hb hn, command_of_error hf hl]

theorem exec_bitGet_of_inside (hf : s.faulted = false) (hb : s.blkLen.toNat ≤ 32) (hn : n.toNat < 8 * s.blkLen.toNat) :
    exec (.bitGet n) s = .next (setFlagB (bufBit s.blk n.toNat) s) := by
  show execBitGet n s = _
  rw [execBitGet, onBlockBit_of_inside hb hn, command_of_ok hf rfl]

theorem exec_bitSet_of_inside (hf : s.faulted = false) (hb : s.blkLen.toNat ≤ 32) (hn : n.toNat < 8 * s.blkLen.toNat) :
    exec (.bitSet n) s = .next { s with blk := setBit s.blk n.toNat } := by
  show execBitSet n s = _
  rw [execBitSet, onBlockBit_of_inside hb hn, command_of_ok hf rfl]

theorem exec_bitClr_of_inside (hf : s.faulted = false) (hb : s.blkLen.toNat ≤ 32) (hn : n.toNat < 8 * s.blkLen.toNat) :
    exec (.bitClr n) s = .next { s with blk := clrBit s.blk n.toNat } := by
  show execBitClr n s = _
  rw [execBitClr, onBlockBit_of_inside hb hn, command_of_ok hf rfl]

end

/-- Settles O21: the words by the format of an immediate command, the effects by the byte that holds the bit, the faults by the
shared frame of the three commands. -/
theorem bitCommands : Obligations.BitCommands := by
  intro n s hf hw old
  have word (op : Byte) : op ++ (0#16 ++ n) = op ++ 0#16 ++ n := (BitVec.append_assoc (x₁ := op)).symm
  refine ⟨word 0x50#8, word 0x51#8, word 0x52#8, fun hb hn => ⟨?get, ?set, ?clr⟩, fun i hi => ⟨?long, ?outside⟩⟩
  case get => exact exec_bitGet_of_inside hf hb hn
  case set => exact ⟨_, exec_bitSet_of_inside hf hb hn, setBit_wf hw _, readByte_setBit hw _⟩
  case clr => exact ⟨_, exec_bitClr_of_inside hf hb hn, clrBit_wf hw _, readByte_clrBit hw _⟩
  case long => exact exec_bitCommand_of_long hi hf
  case outside => exact exec_bitCommand_of_outside hi hf

end Sys2Proof.Machine
end

section
/-! The checks every command of a rotor or a permutator begins with, and the two INDEX commands, which do nothing after them
(41_rotor R151, R159, 42_permutator R181, R192). -/

namespace Sys2Proof.Machine

-- As in the tests: with every proof in a thread of its own the check runs into its memory limit.
set_option Elab.async false

/-- The commands that check `VALID` of a rotor (41_rotor R151). -/
abbrev checkedRotorCommands : List (UnitCode → Instr) :=
  [.rotApplyf, .rotApplyg, .rotSetindex, .rotIndex, .rotUpdate, .rotDump]

/-- The commands that check `VALID` of a permutator (42_permutator R181). -/
abbrev checkedPermCommands : List (UnitCode → Instr) :=
  [.prmApplyf, .prmApplyg, .prmSetindex, .prmIndex, .prmUpdate, .prmDump, .prmAdvance, .prmRebuild]

section
variable {f : UnitCode → Instr} {s : State}

/-! ### The frame of the commands -/

theorem rotorCommand_frame (h : f ∈ checkedRotorCommands) (u : UnitCode) (s : State) :
    legalIn (f u) s.estate = true ∧ ∃ body, exec (f u) s = command (f u) s (onValidRotor u s body) := by
  simp only [List.mem_cons, List.not_mem_nil, or_false] at h
  rcases h with rfl | rfl | rfl | rfl | rfl | rfl <;> exact ⟨rfl, _, rfl⟩

theorem permCommand_frame (h : f ∈ checkedPermCommands) (u : UnitCode) (s : State) :
    legalIn (f u) s.estate = true ∧ ∃ body, exec (f u) s = command (f u) s (onValidPerm u s body) := by
  simp only [List.mem_cons, List.not_mem_nil, or_false] at h
  rcases h with rfl | rfl | rfl | rfl | rfl | rfl | rfl | rfl <;> exact ⟨rfl, _, rfl⟩

theorem rotorApply_frame (h : f ∈ [Instr.rotApplyf, .rotApplyg]) (u : UnitCode) (s : State) :
    legalIn (f u) s.estate = true ∧
      ∃ g : Fin 6 → State → List Byte → Except Trap (State × List Byte),
        exec (f u) s = command (f u) s (onValidRotor u s fun k => directTransform (.rotor k) s (g k)) := by
  simp only [List.mem_cons, List.not_mem_nil, or_false] at h
  rcases h with rfl | rfl
  · exact ⟨rfl, rotorTransformF, rfl⟩
  · exact ⟨rfl, rotorTransformG, rfl⟩

theorem permApply_frame (h : f ∈ [Instr.prmApplyf, .prmApplyg]) (u : UnitCode) (s : State) :
    legalIn (f u) s.estate = true ∧
      ∃ g : Fin 2 → State → List Byte → Except Trap (State × List Byte),
        exec (f u) s = command (f u) s (onValidPerm u s fun k => directTransform (.perm k) s (g k)) := by
  simp only [List.mem_cons, List.not_mem_nil, or_false] at h
  rcases h with rfl | rfl
  · exact ⟨rfl, permTransformF, rfl⟩
  · exact ⟨rfl, permTransformG, rfl⟩

/-! ### The checks (41_rotor R151, 42_permutator R181) -/

theorem exec_rotor_of_not_valid (h : f ∈ checkedRotorCommands) {k : Fin 6} (hf : s.faulted = false)
    (hv : (rotor s k).valid = false) :
    exec (f (unitCode (.rotor k))) s =
      .next (commandFaulted (f (unitCode (.rotor k))) .unitNotValid (unitCode (.rotor k)) s) := by
  obtain ⟨hl, body, hexec⟩ := rotorCommand_frame h (unitCode (.rotor k)) s
  rw [hexec, onValidRotor_of_not_valid hv, command_of_error hf hl]

theorem exec_perm_of_not_valid (h : f ∈ checkedPermCommands) {k : Fin 2} (hf : s.faulted = false)
    (hv : (perm s k).valid = false) :
    exec (f (unitCode (.perm k))) s =
      .next (commandFaulted (f (unitCode (.perm k))) .unitNotValid (unitCode (.perm k)) s) := by
  obtain ⟨hl, body, hexec⟩ := permCommand_frame h (unitCode (.perm k)) s
  rw [hexec, onValidPerm_of_not_valid hv, command_of_error hf hl]

/-- The block is checked before anything else of a direct transform. -/
theorem directTransform_of_long (hb : 32 < s.blkLen.toNat) (u : UnitId)
    (g : State → List Byte → Except Trap (State × List Byte)) :
    directTransform u s g = .error ⟨.badBlockLen, unitCode u⟩ :=
  withBlock_of_long hb _ _

theorem exec_rotorApply_of_long (h : f ∈ [Instr.rotApplyf, .rotApplyg]) {k : Fin 6} (hf : s.faulted = false)
    (hv : (rotor s k).valid = true) (hb : 32 < s.blkLen.toNat) :
    exec (f (unitCode (.rotor k))) s =
      .next (commandFaulted (f (unitCode (.rotor k))) .badBlockLen (unitCode (.rotor k)) s) := by
  obtain ⟨hl, g, hexec⟩ := rotorApply_frame h (unitCode (.rotor k)) s
  rw [hexec, onValidRotor_of_valid hv, directTransform_of_long hb, command_of_error hf hl]

theorem exec_permApply_of_long (h : f ∈ [Instr.prmApplyf, .prmApplyg]) {k : Fin 2} (hf : s.faulted = false)
    (hv : (perm s k).valid = true) (hb : 32 < s.blkLen.toNat) :
    exec (f (unitCode (.perm k))) s =
      .next (commandFaulted (f (unitCode (.perm k))) .badBlockLen (unitCode (.perm k)) s) := by
  obtain ⟨hl, g, hexec⟩ := permApply_frame h (unitCode (.perm k)) s
  rw [hexec, onValidPerm_of_valid hv, directTransform_of_long hb, command_of_error hf hl]

/-! ### INDEX (41_rotor R159, 42_permutator R192) -/

theorem exec_rotIndex_of_valid {k : Fin 6} (hf : s.faulted = false) (hv : (rotor s k).valid = true) :
    exec (.rotIndex (unitCode (.rotor k))) s = .next (setUntracked true s) := by
  show execRotIndex _ s = _
  rw [execRotIndex, onValidRotor_of_valid hv, command_of_ok hf rfl]

theorem exec_prmIndex_of_valid {k : Fin 2} (hf : s.faulted = false) (hv : (perm s k).valid = true) :
    exec (.prmIndex (unitCode (.perm k))) s = .next (setUntracked true s) := by
  show execPrmIndex _ s = _
  rw [execPrmIndex, onValidPerm_of_valid hv, command_of_ok hf rfl]

end

/-- The word of a command of format U (30_encoding R101): opcode, unit id, zeros. -/
theorem unitWord (op : Byte) (u : UnitCode) : op ++ (u ++ 0#20) = op ++ u ++ 0#20 :=
  (BitVec.append_assoc (x₁ := op)).symm

/-- Settles O22: the two checks, for each kind of unit, by the frame its commands share. -/
theorem unitChecks : Obligations.UnitChecks := fun _ hf =>
  ⟨fun _ hv _ h => exec_rotor_of_not_valid h hf hv, fun _ hv hb _ h => exec_rotorApply_of_long h hf hv hb,
    fun _ hv _ h => exec_perm_of_not_valid h hf hv, fun _ hv hb _ h => exec_permApply_of_long h hf hv hb⟩

/-- Settles O27: on a valid unit only the flag is written, on any other the common check faults. -/
theorem indexUntracked : Obligations.IndexUntracked := fun _ hf =>
  ⟨fun _ => ⟨unitWord _ _, exec_rotIndex_of_valid hf, exec_rotor_of_not_valid (f := .rotIndex) (by simp) hf⟩,
    fun _ => ⟨unitWord _ _, exec_prmIndex_of_valid hf, exec_perm_of_not_valid (f := .prmIndex) (by simp) hf⟩⟩

end Sys2Proof.Machine
end

section
/-! The rotor commands (41_rotor R152 to R162): what the shared operations answer on a valid unit, and what a command does to the unit, to
`BLK` and to the staging state. -/

namespace Sys2Proof.Machine

-- As in the tests: with every proof in a thread of its own the check runs into its memory limit.
set_option Elab.async false

/-! ### Construction (41_rotor R152, R160) -/

theorem rotorParamsOk_iff (size start step : Nat) :
    rotorParamsOk size start step = true ↔ 256 ≤ size ∧ size ≤ 4095 ∧ start < size ∧ step ≠ 0 ∧ step < size := by
  rw [rotorParamsOk, decide_eq_true_iff]

/-- A bit of the staged bytes is that bit of `STG`. -/
theorem blockBit_staged (s : State) {n j : Nat} (hj : j < 8 * n) : blockBit (staged s n) j = bufBit s.stg j := by
  rw [blockBit, staged, readBytes_getD _ _ _ _ (by omega), Nat.zero_add, bufBit]

section
variable {s : State} {k : Fin 6}

/-- ROT.CONSTRUCT and, on a valid unit, ROT.UPDATE run the same steps (41_rotor R160). -/
theorem rotorConstruction_frame {i : Instr}
    (h : i = .rotConstruct (unitCode (.rotor k)) ∨ (i = .rotUpdate (unitCode (.rotor k)) ∧ (rotor s k).valid = true)) :
    legalIn i s.estate = true ∧ exec i s = command i s (constructRotor k s) := by
  rcases h with rfl | ⟨rfl, hv⟩
  · refine ⟨rfl, ?_⟩
    show execRotConstruct _ s = _
    rw [execRotConstruct, onRotor_unit]
  · refine ⟨rfl, ?_⟩
    show execRotUpdate _ s = _
    rw [execRotUpdate, onValidRotor_of_valid hv]

theorem constructRotor_of_good (hp : rotorParamsOk s.psize.toNat s.pstart.toNat s.pstep.toNat = true)
    (hb : breaksPrecondition s (.rotor k) = false) :
    constructRotor k s = .ok (settle s (.rotor k) (setRotor k
      (builtRotor (rotor s k) s.psize.toNat s.pstart.toNat s.pstep.toNat (staged s (dataBytes s.psize.toNat))) s)) := by
  simp only [constructRotor, hp, if_true, renewed_of_respected hb]

theorem constructRotor_of_bad (hp : ¬ rotorParamsOk s.psize.toNat s.pstart.toNat s.pstep.toNat = true) :
    constructRotor k s = .error ⟨.badRotorParam, unitCode (.rotor k)⟩ := if_neg hp

/-- Settles O23: the two commands run one construction, whose buffer is known bit by bit. -/
theorem rotConstructUpdate : Obligations.RotConstructUpdate := by
  intro k s i hf hi S A T nb
  obtain ⟨hl, hexec⟩ := rotorConstruction_frame hi
  have hlen := staged_length s (dataBytes S)
  have hd := @dataBytes_bound S
  rw [hexec]
  refine ⟨fun hp hb hw => ?good, fun hp => ?bad⟩
  case bad =>
    rw [constructRotor_of_bad (mt (rotorParamsOk_iff S A T).1 hp), command_of_error hf hl]
  case good =>
    have bit := bufBit_rotorBuffer hw hp.1 hlen
    rw [constructRotor_of_good ((rotorParamsOk_iff S A T).2 hp) hb, command_of_ok hf hl]
    refine ⟨rotorBuffer (rotor s k).buf S (staged s (dataBytes S)), rfl, rotorBuffer_wf hw _ _, fun j hj => ?data,
      fun j hj => ?mirror, fun j hj hj' => ?padding, fun a ha => readByte_rotorBuffer_above hw hp.1 hlen ha⟩
    case data => rw [bit j (by omega), if_pos hj, blockBit_staged s (by omega)]
    case mirror =>
      rw [bit (S + j) (by omega), bit j (by omega), if_neg (by omega), if_pos (by omega), if_pos (by omega),
        Nat.add_sub_cancel_left]
    case padding => rw [bit j hj', if_neg (by omega), if_neg (by omega)]

/-! ### The direct transforms (41_rotor R154 to R156) -/

/-- A list of `n` bytes written from address 0 on: it reads back, and the bytes above are kept. -/
theorem writeBytes_from_zero {m : Mem} (h : Mem.wf m) {r : List Byte} {n : Nat} (hr : r.length = n) :
    Mem.wf (writeBytes m 0 r) ∧ (∀ a, n ≤ a → readByte (writeBytes m 0 r) a = readByte m a) ∧
      readBytes (writeBytes m 0 r) 0 n = r := by
  subst hr
  exact ⟨writeBytes_wf h _ _, fun a ha => readByte_writeBytes_outside h (.inr (by omega)), readBytes_writeBytes_same h 0 r⟩

/-- Moving a unit by its transform changes none of its marks. -/
theorem marked_setRotor (r : Rotor) (u : UnitId) : marked (setRotor k r s) u = marked s u := rfl

theorem exec_rotApplyf_of_defined (hf : s.faulted = false) (hv : (rotor s k).valid = true) (hb : s.blkLen.toNat ≤ 32)
    (hd : UnitDefined s (.rotor k)) :
    exec (.rotApplyf (unitCode (.rotor k))) s =
      .next (setBlk (rotorF (rotor s k) (blkBlock s)).2 (setRotor k (advanceRotor (rotor s k)) s)) := by
  show execRotApplyf _ s = _
  rw [execRotApplyf, onValidRotor_of_valid hv, directTransform_of_defined hb hd (marked_setRotor _ _) rfl, command_of_ok hf rfl]
  rfl

theorem exec_rotApplyg_of_defined (hf : s.faulted = false) (hv : (rotor s k).valid = true) (hb : s.blkLen.toNat ≤ 32)
    (hd : UnitDefined s (.rotor k)) :
    exec (.rotApplyg (unitCode (.rotor k))) s =
      .next (setBlk (rotorG (rotor s k) (blkBlock s)).2 (setRotor k (advanceRotor (rotor s k)) s)) := by
  show execRotApplyg _ s = _
  rw [execRotApplyg, onValidRotor_of_valid hv, directTransform_of_defined hb hd (marked_setRotor _ _) rfl, command_of_ok hf rfl]
  rfl

/-- F on a good rotor as arithmetic (41_rotor R155). -/
theorem leNat_rotorF {r : Rotor} (h : RotorGood r) {b : List Byte} (hb : b.length ≤ 32) :
    leNat (rotorF r b).2 = (leNat b + windowNumber r b.length) % 2 ^ (8 * b.length) := by
  rw [rotorF, leNat_addCarry_mod (by simp), leNat_window_of_good h hb, Nat.pow_mul]

/-- G on a good rotor as arithmetic (41_rotor R156). -/
theorem leNat_rotorG {r : Rotor} (h : RotorGood r) {b : List Byte} (hb : b.length ≤ 32) :
    (leNat (rotorG r b).2 : Int) = ((leNat b : Int) - windowNumber r b.length) % 2 ^ (8 * b.length) := by
  rw [rotorG, leNat_subBorrow_mod (by simp), leNat_window_of_good h hb, pow_mul]
  norm_num

/-- Settles O24: the block written back is the one F computes, and F is an addition. -/
theorem rotApplyF : Obligations.RotApplyF := by
  intro k s hf hv hg hb hw hd r n
  obtain ⟨hwf, habove, hread⟩ := writeBytes_from_zero hw (r := (rotorF r (blkBlock s)).2) (n := n) (by simp [n])
  refine ⟨_, exec_rotApplyf_of_defined hf hv hb hd, hwf, habove, ?_⟩
  exact (congrArg leNat hread).trans (by
    rw [leNat_rotorF hg (by simpa using hb), blkBlock_length, blkBlock])

/-- Settles O25: the block written back is the one G computes, and G is a subtraction. -/
theorem rotApplyG : Obligations.RotApplyG := by
  intro k s hf hv hg hb hw hd r n
  obtain ⟨hwf, habove, hread⟩ := writeBytes_from_zero hw (r := (rotorG r (blkBlock s)).2) (n := n) (by simp [n])
  refine ⟨_, exec_rotApplyg_of_defined hf hv hb hd, hwf, habove, ?_⟩
  exact (congrArg (leNat · : List Byte → Int) hread).trans (by
    rw [leNat_rotorG hg (by simpa using hb), blkBlock_length, blkBlock])

/-! ### DUMP (41_rotor R162) -/

/-- The first `n` bytes of a buffer copied over those of another. -/
theorem readByte_copy {m : Mem} (h : Mem.wf m) (m' : Mem) (n a : Nat) :
    readByte (writeBytes m 0 (readBytes m' 0 n)) a = if a < n then readByte m' a else readByte m a := by
  rw [readByte_writeBytes h, readBytes_length, Nat.zero_add]
  by_cases ha : a < n
  · rw [if_pos ⟨Nat.zero_le a, ha⟩, if_pos ha, Nat.sub_zero, readBytes_getD _ _ _ _ ha, Nat.zero_add]
  · rw [if_neg (fun hin => ha hin.2), if_neg ha]

/-- Settles O28: the dump is one copy into `STG` and three register writes. -/
theorem rotDump : Obligations.RotDump := by
  intro k s hf hv hw r
  refine ⟨writeBytes s.stg 0 (readBytes r.buf 0 (dataBytes r.size.toNat + 32)), ?_, writeBytes_wf hw _ _,
    readByte_copy hw r.buf (dataBytes r.size.toNat + 32)⟩
  show execRotDump _ s = _
  rw [execRotDump, onValidRotor_of_valid hv, command_of_ok hf rfl]

/-! ### SETINDEX (41_rotor R158) -/

theorem rotorSeek_zero (r : Rotor) : rotorSeek r 0 = .ok r.start := rfl

section
variable {r : Rotor} {i : Nat}

/-- Off index 0 the formula of a seek needs nothing of the rotor; `rotorSeek_of_fits` is its form on a good one. -/
theorem rotorSeek_of_ne_zero (h0 : i ≠ 0) (h : i * r.step.toNat + r.start.toNat < 2 ^ 128) :
    rotorSeek r i = .ok (BitVec.ofNat 12 ((i * r.step.toNat + r.start.toNat) % r.size.toNat)) := by
  simp only [rotorSeek, Config.wideLimit]
  rw [if_neg h0, if_neg (by omega), if_neg (by omega)]

theorem rotorSeek_of_mul_overflow (h : 2 ^ 128 ≤ i * r.step.toNat) : rotorSeek r i = .error .wcMulOverflow := by
  have h0 : i ≠ 0 := by
    rintro rfl
    simp at h
  rw [rotorSeek, if_neg h0, if_pos h]

theorem rotorSeek_of_add_overflow (h0 : i ≠ 0) (hm : i * r.step.toNat < 2 ^ 128)
    (h : 2 ^ 128 ≤ i * r.step.toNat + r.start.toNat) : rotorSeek r i = .error .wcAddOverflow := by
  rw [rotorSeek, if_neg h0, if_neg (Nat.not_le_of_lt hm), if_pos h]

end

/-- From an undefined state no seek faults (92_eei_decisions D33). -/
theorem seekRotor_of_unsettled (h : unsettled s (.rotor k) = true) : ∃ t, seekRotor k s = .ok t := by
  cases hs : rotorSeek (rotor s k) (wacc s) with
  | ok c => exact ⟨_, seekRotor_of_ok hs⟩
  | error c => exact ⟨s, by simp only [seekRotor, hs, h, if_true]⟩

theorem exec_rotSetindex_of_ok {t : State} (hf : s.faulted = false) (hv : (rotor s k).valid = true)
    (h : seekRotor k s = .ok t) : exec (.rotSetindex (unitCode (.rotor k))) s = .next (renewed s (.rotor k) t) := by
  show execRotSetindex _ s = _
  rw [execRotSetindex, onValidRotor_of_valid hv, h, command_of_ok hf rfl]

/-- A seek under R319 of 46_pipeline that overflows nothing moves `CURRENT` and settles the unit. -/
theorem exec_rotSetindex_of_respected {c : BitVec 12} (hf : s.faulted = false) (hv : (rotor s k).valid = true)
    (hb : breaksPrecondition s (.rotor k) = false) (h : rotorSeek (rotor s k) (wacc s) = .ok c) :
    exec (.rotSetindex (unitCode (.rotor k))) s =
      .next (settle s (.rotor k) (setRotor k { rotor s k with current := c } s)) := by
  rw [exec_rotSetindex_of_ok hf hv (seekRotor_of_ok h), renewed_of_respected hb]

theorem exec_rotSetindex_of_overflow {c : Cause} (hf : s.faulted = false) (hv : (rotor s k).valid = true)
    (hu : unsettled s (.rotor k) = false) (h : rotorSeek (rotor s k) (wacc s) = .error c) :
    exec (.rotSetindex (unitCode (.rotor k))) s =
      .next (commandFaulted (.rotSetindex (unitCode (.rotor k))) c (unitCode (.rotor k)) s) := by
  show execRotSetindex _ s = _
  rw [execRotSetindex, onValidRotor_of_valid hv, seekRotor_of_error h hu, command_of_error hf rfl]

end

/-- Settles O26: one case for each way the computation of the position can end. -/
theorem rotSetindex : Obligations.RotSetindex := by
  intro k s hf hv r u i placed
  refine ⟨unitWord _ _, fun hb => ⟨fun h0 => ?zero, fun h0 h => ?fits⟩, fun hu => ⟨fun h => ?mul, fun h0 hm h => ?add⟩,
    fun hu => ?undefined⟩
  case zero => exact exec_rotSetindex_of_respected hf hv hb (by rw [show wacc s = 0 from h0, rotorSeek_zero])
  case fits => exact exec_rotSetindex_of_respected hf hv hb (rotorSeek_of_ne_zero h0 h)
  case mul => exact exec_rotSetindex_of_overflow hf hv hu (rotorSeek_of_mul_overflow h)
  case add => exact exec_rotSetindex_of_overflow hf hv hu (rotorSeek_of_add_overflow h0 hm h)
  case undefined =>
    obtain ⟨t, ht⟩ := seekRotor_of_unsettled hu
    exact ⟨_, exec_rotSetindex_of_ok hf hv ht, by rw [renewed_faulted, seekRotor_faulted ht, hf]⟩

end Sys2Proof.Machine
end

section
/-! The laws that tie the transforms of rotors and permutators together: F and G undo each other, and a transform is a seek one further
(41_rotor R157, R161, 42_permutator R189, R191). -/

namespace Sys2Proof.Machine

-- As in the tests: with every proof in a thread of its own the check runs into its memory limit.
set_option Elab.async false

/-! ### F and G undo each other (41_rotor R157, 42_permutator R189) -/

/-- The window an F or G transform reads does not depend on the block's bytes, so the second one reads the same. -/
theorem rotorG_rotorF (r : Rotor) (b : List Byte) : (rotorG r (rotorF r b).2).2 = b := by
  simp only [rotorG, rotorF_length]
  exact subBorrow_addCarry (by simp)

theorem rotorF_rotorG (r : Rotor) (b : List Byte) : (rotorF r (rotorG r b).2).2 = b := by
  simp only [rotorF, rotorG_length]
  exact addCarry_subBorrow (by simp)

section
variable {p : Perm} {b : List Byte}

theorem permF_of_full (h : b.length = 32) (p : Perm) : (permF p b).2 = permuteF p.bperm b := if_pos h

theorem permF_of_short (h : b.length ≠ 32) (p : Perm) : (permF p b).2 = b := if_neg h

theorem permG_of_full (h : b.length = 32) (p : Perm) : (permG p b).2 = permuteG p.bperm b := if_pos h

theorem permG_of_short (h : b.length ≠ 32) (p : Perm) : (permG p b).2 = b := if_neg h

theorem permG_permF (h : TableBijective p.bperm) (b : List Byte) : (permG p (permF p b).2).2 = b := by
  by_cases hb : b.length = 32
  · rw [permG_of_full (by rw [permF_length, hb]), permF_of_full hb, permuteG_permuteF h hb]
  · rw [permF_of_short hb, permG_of_short hb]

theorem permF_permG (h : TableBijective p.bperm) (b : List Byte) : (permF p (permG p b).2).2 = b := by
  by_cases hb : b.length = 32
  · rw [permF_of_full (by rw [permG_length, hb]), permG_of_full hb, permuteF_permuteG h hb]
  · rw [permG_of_short hb, permF_of_short hb]

end

/-- Settles O37: both transforms of a unit advance it in the same way, and each undoes the other's change of the block. -/
theorem inverseLaws : Obligations.InverseLaws :=
  ⟨fun r b => ⟨rotorG_rotorF r b, rotorF_rotorG r b, rfl⟩,
    fun _ b hg hw => ⟨permG_permF (hg.bpermBijective hw) b, permF_permG (hg.bpermBijective hw) b, rfl⟩⟩

/-! ### A transform is a seek one further (41_rotor R161, 42_permutator R191) -/

/-- What the blocks are does not matter for the state of a unit: a fold of transforms is a fold of advances. -/
theorem foldl_transforms_eq_iterate {U B : Type} {F G : U → B → U × List Byte} {next : U → U} (hF : ∀ x b, (F x b).1 = next x)
    (hG : ∀ x b, (G x b).1 = next x) (blocks : List (Bool × B)) (x : U) :
    blocks.foldl (fun x b => if b.1 then (F x b.2).1 else (G x b.2).1) x = next^[blocks.length] x := by
  induction blocks generalizing x with
  | nil => rfl
  | cons b t ih => rw [List.foldl_cons, ih, hF, hG, ite_self, List.length_cons, Function.iterate_succ_apply]

/-- The rotor at position `i`, where no step of the seek overflows. -/
def rotorAt (r : Rotor) (i : Nat) : Rotor :=
  { r with current := BitVec.ofNat 12 ((i * r.step.toNat + r.start.toNat) % r.size.toNat) }

theorem advanceRotor_rotorAt {r : Rotor} (h : RotorGood r) (i : Nat) : advanceRotor (rotorAt r i) = rotorAt r (i + 1) := by
  simp only [advanceRotor, rotorAt, toNat_ofNat_mod_size r _ h.sizePos, Nat.mod_add_mod]
  rw [show i * r.step.toNat + r.start.toNat + r.step.toNat = (i + 1) * r.step.toNat + r.start.toNat by ring]

theorem iterate_advanceRotor_rotorAt {r : Rotor} (h : RotorGood r) (i n : Nat) :
    advanceRotor^[n] (rotorAt r i) = rotorAt r (i + n) := by
  induction n with
  | zero => rfl
  | succ n ih => rw [Function.iterate_succ_apply', ih, advanceRotor_rotorAt h, Nat.add_assoc]

/-- The table a rebuild leaves depends on the cycles and on the bytes above the table alone. -/
theorem rebuild_bperm_congr {p q : Perm} (h : CyclesOk p) (hm : Mem.wf p.bperm) (hq : Mem.wf q.bperm) (e1 : q.len = p.len)
    (e2 : q.start = p.start) (e3 : q.cur = p.cur) (e4 : q.randp = p.randp)
    (above : ∀ a, 256 ≤ a → readByte q.bperm a = readByte p.bperm a) : (rebuild q).bperm = (rebuild p).bperm := by
  refine mem_ext (rebuild_wf hq) (rebuild_wf hm) fun a => ?_
  rcases Nat.lt_or_ge a 256 with ha | ha
  · exact (readByte_rebuild_congr h hm hq e1 e2 e3 e4 ha).symm
  · rw [readByte_rebuild_above hq ha, readByte_rebuild_above hm ha, above a ha]

/-- Above the table a seek writes nothing. -/
theorem readByte_permSeek_above {p : Perm} (hw : Mem.wf p.bperm) (i : Nat) {a : Nat} (ha : 256 ≤ a) :
    readByte (permSeek p i).bperm a = readByte p.bperm a := by
  unfold permSeek
  exact readByte_rebuild_above (by exact hw) ha

/-- A seek depends on where a permutator stands through its `BPERM` alone, and the rebuild writes that anew. -/
theorem permSeek_permSeek {p : Perm} (h : PermGood p) (hw : Mem.wf p.bperm) (i j : Nat) :
    permSeek (permSeek p i) j = permSeek p j := by
  have htable : (permSeek (permSeek p i) j).bperm = (permSeek p j).bperm :=
    rebuild_bperm_congr { h.toCyclesOk with } hw (rebuild_wf hw) rfl rfl rfl rfl fun _ => readByte_permSeek_above hw i
  show { permSeek p j with bperm := (permSeek (permSeek p i) j).bperm } = permSeek p j
  rw [htable]

/-- Only the index modulo the number of states matters to a seek (42_permutator R190). -/
theorem permSeek_congr (p : Perm) {i j : Nat} (h : i ≡ j [MOD p.maxst.toNat]) : permSeek p i = permSeek p j := by
  simp only [permSeek, show i % p.maxst.toNat = j % p.maxst.toNat from h]

theorem permAdvance_permSeek {p : Perm} (h : PermGood p) (hw : Mem.wf p.bperm) (i : Nat) :
    permAdvance (permSeek p i) = permSeek p (i + 1) := by
  have hc : (permSeek p i).cstate.toNat = i % p.maxst.toNat := toNat_ofNat_mod_maxst p i h.maxstPos
  rw [permAdvance_eq_seek (permSeek_good h hw i), permSeek_permSeek h hw, hc]
  exact permSeek_congr p (Nat.ModEq.add_right 1 (Nat.mod_modEq i _))

theorem iterate_permAdvance_permSeek {p : Perm} (h : PermGood p) (hw : Mem.wf p.bperm) (i n : Nat) :
    permAdvance^[n] (permSeek p i) = permSeek p (i + n) := by
  induction n with
  | zero => rfl
  | succ n ih => rw [Function.iterate_succ_apply', ih, permAdvance_permSeek h hw, Nat.add_assoc]

/-- Settles O38: a run of transforms is a run of advances, and each advance after a seek is a seek one further. -/
theorem positionLaws : Obligations.PositionLaws := by
  refine ⟨fun r i c blocks hg hs hfit => ?rotor, fun p i blocks hg hw => ?perm, rotorSeek_zero, fun p hg h0 => ?start⟩
  case rotor =>
    have hle : i * r.step.toNat ≤ (i + blocks.length) * r.step.toNat := Nat.mul_le_mul_right _ (Nat.le_add_right _ _)
    have hc := (rotorSeek_of_fits hg (Nat.lt_of_le_of_lt (Nat.add_le_add_right hle _) hfit)).symm.trans hs
    obtain rfl := Except.ok.inj hc
    refine ⟨_, rotorSeek_of_fits hg hfit, ?_⟩
    exact (foldl_transforms_eq_iterate (F := rotorF) (G := rotorG) (fun _ _ => rfl) (fun _ _ => rfl) blocks _).trans
      (iterate_advanceRotor_rotorAt hg i blocks.length)
  case perm =>
    exact (foldl_transforms_eq_iterate (F := permF) (G := permG) (fun _ _ => rfl) (fun _ _ => rfl) blocks _).trans
      (iterate_permAdvance_permSeek hg hw i blocks.length)
  case start =>
    have h := permSeek_self hg
    rwa [h0] at h

end Sys2Proof.Machine
end

section
/-! The permutator commands (42_permutator R183 to R196): the table of a good unit at position 0, the registers and the tables that
construction, advance and seek leave, the bits of the block a transform writes back to `BLK`, and the tables a dump copies out. -/

namespace Sys2Proof.Machine

-- As in the tests: with every proof in a thread of its own the check runs into its memory limit.
set_option Elab.async false

/-! ### The table of a good unit (42_permutator R184) -/

/-- Settles O30: the facts about the rebuild, for one cycle at a time, put together. -/
theorem rebuildRotatesTheCycles : Obligations.RebuildRotatesTheCycles := fun _ h hw =>
  ⟨fun j _ hx => readByte_rebuild h hw j hx, rebuild_bijective h hw, fun _ ha => readByte_rebuild_above hw ha, rfl⟩

/-- At position 0 no ring is turned, so every value is sent to itself. -/
theorem PermGood.readByte_bperm_of_start {p : Perm} (h : PermGood p) (hw : Mem.wf p.bperm) (h0 : p.cstate = 0#25) {a : Nat}
    (ha : a < 256) : readByte p.bperm a = BitVec.ofNat 8 a := by
  obtain ⟨j, k, hk, rfl⟩ := h.toCyclesOk.place_of ha
  have hcur : p.cur[j].toNat = 0 := by rw [h.cur j, h0, BitVec.toNat_zero, Nat.zero_mod]
  have hread := readByte_rebuild h.toCyclesOk hw j hk
  rw [h.bperm, hcur, Nat.zero_add, Nat.mod_eq_of_lt hk] at hread
  rw [hread, entry, BitVec.ofNat_toNat, BitVec.setWidth_eq]

/-! ### Construction (42_permutator R183, R194) -/

/-- PRM.CONSTRUCT and, on a valid unit, PRM.UPDATE run the same steps (42_permutator R194). -/
theorem permConstruction_frame {k : Fin 2} {s : State} {i : Instr}
    (h : i = .prmConstruct (unitCode (.perm k)) ∨ (i = .prmUpdate (unitCode (.perm k)) ∧ (perm s k).valid = true)) :
    legalIn i s.estate = true ∧ exec i s = command i s (constructPerm k s) := by
  rcases h with rfl | ⟨rfl, hv⟩
  · refine ⟨rfl, ?_⟩
    show execPrmConstruct _ s = _
    rw [execPrmConstruct, onPerm_unit]
  · refine ⟨rfl, ?_⟩
    show execPrmUpdate _ s = _
    rw [execPrmUpdate, onValidPerm_of_valid hv]

theorem constructPerm_of_good {k : Fin 2} {s : State} (hp : permParamsOk s.plen (staged s 256) = true)
    (hb : breaksPrecondition s (.perm k) = false) :
    constructPerm k s =
      .ok (settle s (.perm k) (setPerm k (builtPerm (perm s k) s.plen (staged s 256)) s)) :=
  (if_pos hp).trans (by rw [renewed_of_respected hb])

theorem constructPerm_of_bad {k : Fin 2} {s : State} (hp : ¬ permParamsOk s.plen (staged s 256) = true) :
    constructPerm k s = .error ⟨.badPermParam, unitCode (.perm k)⟩ := if_neg hp

/-- The checks of R183 on what is staged. -/
theorem permParamsOk_staged_iff (s : State) :
    permParamsOk s.plen (staged s 256) = true ↔
      (∀ j : Fin 4, s.plen[j].toNat ≠ 0 ∧ s.plen[j].toNat ≤ 256) ∧
      s.plen[0].toNat + s.plen[1].toNat + s.plen[2].toNat + s.plen[3].toNat = 256 ∧ TableBijective s.stg := by
  rw [permParamsOk_iff, staged_nodup_iff]

/-- The four lengths, moved to registers of another width one by one. -/
theorem ofFn_eq_map {α β : Type} (v : Vector α 4) (f : α → β) : (Vector.ofFn fun j : Fin 4 => f v[j]) = v.map f := by
  ext j hj
  simp

/-- The registers a construction writes, one by one; its two tables have lemmas of their own. -/
theorem builtPerm_eq (p : Perm) (len : Vector Word 4) (randp : List Byte) :
    builtPerm p len randp =
      { len := len.map (·.setWidth 9)
        start := #v[0, BitVec.ofNat 8 len[0].toNat, BitVec.ofNat 8 (len[0].toNat + len[1].toNat),
          BitVec.ofNat 8 (len[0].toNat + len[1].toNat + len[2].toNat)]
        cur := #v[0, 0, 0, 0]
        cstate := 0
        maxst := BitVec.ofNat 25 (len[0].toNat * len[1].toNat * len[2].toNat * len[3].toNat)
        valid := true
        randp := writeBytes p.randp 0 randp
        bperm := (builtPerm p len randp).bperm } := by
  obtain ⟨c0, c1, c2, c3⟩ := cycleStart_eq len
  have hstart : (Vector.ofFn fun j : Fin 4 => BitVec.ofNat 8 (cycleStart len j)) =
      #v[0, BitVec.ofNat 8 len[0].toNat, BitVec.ofNat 8 (len[0].toNat + len[1].toNat),
        BitVec.ofNat 8 (len[0].toNat + len[1].toNat + len[2].toNat)] := by
    rw [← c3, ← c2, ← c1, show (0 : BitVec 8) = BitVec.ofNat 8 (cycleStart len 0) from congrArg (BitVec.ofNat 8) c0.symm]
    rfl
  rw [← ofFn_eq_map, ← hstart]
  rfl

/-- Above the table a construction leaves what stood there. -/
theorem readByte_builtPerm_above {p : Perm} (hw : Mem.wf p.bperm) (len : Vector Word 4) (randp : List Byte) {a : Nat}
    (ha : 256 ≤ a) : readByte (builtPerm p len randp).bperm a = readByte p.bperm a := by
  unfold builtPerm
  exact readByte_rebuild_above (by exact hw) ha

/-- Settles O29: the two commands run one construction, whose unit is good and stands at position 0. -/
theorem prmConstructUpdate : Obligations.PrmConstructUpdate := by
  intro k s i hf hi l good
  obtain ⟨hl, hexec⟩ := permConstruction_frame hi
  have hp : permParamsOk s.plen (staged s 256) = true ↔ good := permParamsOk_staged_iff s
  rw [hexec]
  refine ⟨fun hg hb hr hw => ?good, fun hg => ?bad⟩
  case bad => rw [constructPerm_of_bad (mt hp.1 hg), command_of_error hf hl]
  case good =>
    have hbuilt := builtPerm_good hr hw (hp.2 hg) (staged_length s 256)
    have hwf : Mem.wf (builtPerm (perm s k) s.plen (staged s 256)).bperm := rebuild_wf hw
    rw [constructPerm_of_good (hp.2 hg) hb, command_of_ok hf hl, builtPerm_eq]
    refine ⟨_, _, rfl, writeBytes_wf hr _ _, hwf, readByte_copy hr s.stg 256, fun a => ?identity⟩
    split
    case isTrue ha => exact hbuilt.readByte_bperm_of_start hwf rfl ha
    case isFalse ha => exact readByte_builtPerm_above hw _ _ (Nat.le_of_not_lt ha)

/-! ### ADVANCE and SETINDEX (42_permutator R186, R190) -/

/-- Settles O32: on a unit that holds its invariants each counter fits its register, and the advanced unit holds them too. -/
theorem prmAdvance : Obligations.PrmAdvance := by
  intro k s hf hv hg hw hu p
  refine ⟨permAdvance p, ?exec, rfl, fun j => ?cur, toNat_ofNat_mod_maxst p _ hg.maxstPos, rebuild_wf hw,
    (permAdvance_good hg hw).bperm, fun a ha => ?above⟩
  case exec =>
    show execPrmAdvance _ s = _
    rw [execPrmAdvance, onValidPerm_of_valid hv, mutated_of_settled hu, command_of_ok hf rfl]
  case cur =>
    simp only [permAdvance, rebuild_cur, Fin.getElem_fin, Vector.getElem_ofFn]
    exact toNat_ofNat_mod_len hg.toCyclesOk j _
  case above => rw [permAdvance_eq_seek hg, readByte_permSeek_above hw _ ha]

/-- Settles O35: the sought unit holds the invariants, which fan the state counter into the offsets. -/
theorem prmSetindex : Obligations.PrmSetindex := by
  intro k s hf hv hg hw hb p
  have hq : PermGood (permSeek p (wacc s)) := permSeek_good hg hw (wacc s)
  have hc : (permSeek p (wacc s)).cstate.toNat = wacc s % p.maxst.toNat := toNat_ofNat_mod_maxst p _ hg.maxstPos
  refine ⟨permSeek p (wacc s), ?exec, rfl, hc, fun j => ?cur, rebuild_wf hw, hq.bperm,
    fun a ha => readByte_permSeek_above hw _ ha⟩
  case exec =>
    show execPrmSetindex _ s = _
    rw [execPrmSetindex, onValidPerm_of_valid hv, renewed_of_respected hb, command_of_ok hf rfl]
    rfl
  case cur =>
    rw [hq.cur j, hc]
    rfl

/-! ### The direct transforms (42_permutator R187, R188) -/

/-- A bit of the first `n` bytes of a buffer. -/
theorem blockBit_readBytes (m : Mem) {n i : Nat} (hi : i < 8 * n) : blockBit (readBytes m 0 n) i = bufBit m i := by
  rw [blockBit, readBytes_getD _ _ _ _ (by omega), Nat.zero_add, bufBit]

/-- A bit of a block written to the first bytes of a buffer. -/
theorem bufBit_writeBytes_from_zero {m : Mem} (h : Mem.wf m) {r : List Byte} {i : Nat} (hi : i < 8 * r.length) :
    bufBit (writeBytes m 0 r) i = blockBit r i := by
  rw [← blockBit_readBytes _ hi, readBytes_writeBytes_same h]

/-- Moving a unit by its transform changes none of its marks. -/
theorem marked_setPerm {k : Fin 2} {s : State} (q : Perm) (u : UnitId) : marked (setPerm k q s) u = marked s u := rfl

theorem exec_prmApplyf_of_defined {k : Fin 2} {s : State} (hf : s.faulted = false) (hv : (perm s k).valid = true)
    (hb : s.blkLen.toNat ≤ 32) (hd : UnitDefined s (.perm k)) :
    exec (.prmApplyf (unitCode (.perm k))) s =
      .next (setBlk (permF (perm s k) (blkBlock s)).2 (setPerm k (permAdvance (perm s k)) s)) := by
  show execPrmApplyf _ s = _
  rw [execPrmApplyf, onValidPerm_of_valid hv, directTransform_of_defined hb hd (marked_setPerm _ _) rfl, command_of_ok hf rfl]
  rfl

theorem exec_prmApplyg_of_defined {k : Fin 2} {s : State} (hf : s.faulted = false) (hv : (perm s k).valid = true)
    (hb : s.blkLen.toNat ≤ 32) (hd : UnitDefined s (.perm k)) :
    exec (.prmApplyg (unitCode (.perm k))) s =
      .next (setBlk (permG (perm s k) (blkBlock s)).2 (setPerm k (permAdvance (perm s k)) s)) := by
  show execPrmApplyg _ s = _
  rw [execPrmApplyg, onValidPerm_of_valid hv, directTransform_of_defined hb hd (marked_setPerm _ _) rfl, command_of_ok hf rfl]
  rfl

/-- A block that a transform passes unchanged goes back to where it stands. -/
theorem writeBytes_blkBlock {s : State} (h : Mem.wf s.blk) : writeBytes s.blk 0 (blkBlock s) = s.blk := writeBytes_readBytes h 0 _

/-- Settles O33: bit by bit the block written back is the one F computes, and F moves bits by a bijective table. -/
theorem prmApplyF : Obligations.PrmApplyF := by
  intro k s hf hv hg hb hw hwp hd p
  obtain ⟨hwf, habove, -⟩ := writeBytes_from_zero hw (r := (permF p (blkBlock s)).2) (n := s.blkLen.toNat) (by simp)
  refine ⟨_, exec_prmApplyf_of_defined hf hv hb hd, hwf, habove, fun hfull i hi => ?full, fun hshort => ?short⟩
  case full =>
    have hbit := entry_lt p.bperm i
    have hlen : (blkBlock s).length = 32 := (blkBlock_length s).trans hfull
    calc bufBit (writeBytes s.blk 0 (permF p (blkBlock s)).2) (entry p.bperm i)
      _ = blockBit (permF p (blkBlock s)).2 (entry p.bperm i) :=
          bufBit_writeBytes_from_zero hw (by rw [permF_length, hlen]; exact hbit)
      _ = blockBit (blkBlock s) i := by rw [permF_of_full hlen, blockBit_permuteF_entry (hg.bpermBijective hwp) _ hi]
      _ = bufBit s.blk i := blockBit_readBytes s.blk (by omega)
  case short =>
    show writeBytes s.blk 0 (permF p (blkBlock s)).2 = s.blk
    rw [permF_of_short (by rw [blkBlock_length]; omega), writeBytes_blkBlock hw]

/-- Settles O34: bit by bit the block written back is the one G computes. -/
theorem prmApplyG : Obligations.PrmApplyG := by
  intro k s hf hv hb hw hd p
  obtain ⟨hwf, habove, -⟩ := writeBytes_from_zero hw (r := (permG p (blkBlock s)).2) (n := s.blkLen.toNat) (by simp)
  refine ⟨_, exec_prmApplyg_of_defined hf hv hb hd, hwf, habove, fun hfull i hi => ?full, fun hshort => ?short⟩
  case full =>
    have hbit := entry_lt p.bperm i
    have hlen : (blkBlock s).length = 32 := (blkBlock_length s).trans hfull
    calc bufBit (writeBytes s.blk 0 (permG p (blkBlock s)).2) i
      _ = blockBit (permG p (blkBlock s)).2 i := bufBit_writeBytes_from_zero hw (by rw [permG_length, hlen]; exact hi)
      _ = blockBit (blkBlock s) (entry p.bperm i) := by rw [permG_of_full hlen, blockBit_permuteG _ _ hi]
      _ = bufBit s.blk (entry p.bperm i) := blockBit_readBytes s.blk (by omega)
  case short =>
    show writeBytes s.blk 0 (permG p (blkBlock s)).2 = s.blk
    rw [permG_of_short (by rw [blkBlock_length]; omega), writeBytes_blkBlock hw]

/-! ### DUMP (42_permutator R196) -/

/-- The first `n` bytes of a buffer copied to the bytes of another from `a` on. -/
theorem readByte_copyTo {m : Mem} (h : Mem.wf m) (m' : Mem) (a n x : Nat) :
    readByte (writeBytes m a (readBytes m' 0 n)) x =
      if a ≤ x ∧ x < a + n then readByte m' (x - a) else readByte m x := by
  rw [readByte_writeBytes h, readBytes_length]
  split
  case isTrue hin => rw [readBytes_getD _ _ _ _ (by omega), Nat.zero_add]
  case isFalse => rfl

/-- The two tables a dump copies out, one behind the other. -/
theorem readByte_twoTables {m : Mem} (h : Mem.wf m) (m₁ m₂ : Mem) (a : Nat) :
    readByte (writeBytes (writeBytes m 0 (readBytes m₁ 0 256)) 256 (readBytes m₂ 0 256)) a =
      if a < 256 then readByte m₁ a else if a < 512 then readByte m₂ (a - 256) else readByte m a := by
  rw [readByte_copyTo (writeBytes_wf h _ _), readByte_copy h]
  by_cases h1 : a < 256
  · rw [if_neg (by omega), if_pos h1, if_pos h1]
  · rw [if_neg h1, if_neg h1]
    exact if_congr (by omega) rfl rfl

/-- Settles O36: the dump is two copies into `STG`, one behind the other, and the writes of the lengths. -/
theorem prmDump : Obligations.PrmDump := by
  intro k s hf hv hw p
  refine ⟨_, ?exec, writeBytes_wf (writeBytes_wf hw _ _) _ _, readByte_twoTables hw p.randp p.bperm⟩
  show execPrmDump _ s = _
  rw [execPrmDump, onValidPerm_of_valid hv, command_of_ok hf rfl, ofFn_eq_map p.len]

end Sys2Proof.Machine
end

section
/-! The counter commands (43_counter R221 to R226): `WACC` and `IDX` as the two words and the one value they are, the increment at both
of its ends, and what each command answers. -/

namespace Sys2Proof.Machine

-- As in the tests: with every proof in a thread of its own the check runs into its memory limit.
set_option Elab.async false

/-! ### `WACC` and its two words (10_state R32) -/

/-- The value of `WACC` in 128 bits is its two words side by side. -/
theorem ofNat_wacc (s : State) : BitVec.ofNat 128 (wacc s) = s.waccHi ++ s.waccLo := by
  apply BitVec.eq_of_toNat_eq
  rw [BitVec.toNat_ofNat, Nat.mod_eq_of_lt (wacc_lt s), BitVec.toNat_append, ← Nat.shiftLeft_add_eq_or_of_lt s.waccLo.isLt,
    Nat.shiftLeft_eq, Nat.mul_comm, wacc]

/-- A 128-bit value written to `WACC` goes to its two words. -/
theorem setWacc_toNat (v : BitVec 128) (s : State) :
    setWacc v.toNat s = { s with waccLo := v.extractLsb' 0 64, waccHi := v.extractLsb' 64 64 } := by
  have hhi : BitVec.ofNat 64 (v.toNat / 2 ^ 64) = v.extractLsb' 64 64 := by
    rw [BitVec.extractLsb', Nat.shiftRight_eq_div_pow]
  rw [setWacc, hhi]
  rfl

/-! ### The transforms (43_counter R222, R223) -/

/-- The largest value of the counter is not passed. -/
theorem counterTransformF_of_full {s : State} (h : s.idx.toNat = 2 ^ 128 - 1) (b : List Byte) :
    counterTransformF s b = .error ⟨.wcIncOverflow, unitCode .counter⟩ := by
  have hi : wideInc s.idx.toNat = .error .wcIncOverflow := if_pos h
  simp only [counterTransformF, hi]

theorem passBlock_of_not_marked {s : State} (h : marked s .counter = false) : passBlock s = s := by
  rw [passBlock, h]
  rfl

/-- Passing a block writes `BLK` and draws at most. -/
theorem passBlock_eq (s : State) : passBlock s = { s with blk := (passBlock s).blk, draws := (passBlock s).draws } := by
  unfold passBlock
  split <;> rfl

/-! ### The commands -/

section
variable {s : State}

theorem exec_ctrReset_of_respected (hf : s.faulted = false) (hb : breaksPrecondition s .counter = false) :
    exec .ctrReset s = .next (settle s .counter { s with idx := 0 }) := by
  show execCtrReset s = _
  rw [execCtrReset, renewed_of_respected hb, command_of_ok hf rfl]
  rfl

theorem exec_ctrSetindex_of_respected (hf : s.faulted = false) (hb : breaksPrecondition s .counter = false) :
    exec .ctrSetindex s = .next (settle s .counter { s with idx := s.waccHi ++ s.waccLo }) := by
  show execCtrSetindex s = _
  rw [execCtrSetindex, renewed_of_respected hb, seekCounter, ofNat_wacc, command_of_ok hf rfl]

theorem exec_ctrIndex (hf : s.faulted = false) :
    exec .ctrIndex s = .next { s with
      waccLo := s.idx.extractLsb' 0 64, waccHi := s.idx.extractLsb' 64 64, untracked := false } := by
  show execCtrIndex s = _
  rw [execCtrIndex, setWacc_toNat, command_of_ok hf rfl]
  rfl

theorem exec_ctrUpdate (hf : s.faulted = false) : exec .ctrUpdate s = .next s := command_of_ok hf rfl

/-- The two direct transforms of the counter check the block before their rule. -/
theorem counterApply_frame {i : Instr} (h : i = .ctrApplyf ∨ i = .ctrApplyg) (s : State) :
    legalIn i s.estate = true ∧ ∃ body, exec i s = command i s (withBlock (unitCode .counter) s body) := by
  rcases h with rfl | rfl <;> exact ⟨rfl, _, rfl⟩

theorem exec_counterApply_of_long {i : Instr} (h : i = .ctrApplyf ∨ i = .ctrApplyg) (hf : s.faulted = false)
    (hb : 32 < s.blkLen.toNat) : exec i s = .next (commandFaulted i .badBlockLen (unitCode .counter) s) := by
  obtain ⟨hl, body, hexec⟩ := counterApply_frame h s
  rw [hexec, withBlock_of_long hb, command_of_error hf hl]

theorem exec_ctrApplyf_of_unsettled (hf : s.faulted = false) (hb : s.blkLen.toNat ≤ 32) (hu : unsettled s .counter = true) :
    exec .ctrApplyf s = .next (passBlock (mutated s .counter s)) := by
  show execCtrApplyf s = _
  rw [execCtrApplyf, withBlock_of_short hb, if_pos hu, command_of_ok hf rfl]

theorem exec_ctrApplyf_of_full (hf : s.faulted = false) (hb : s.blkLen.toNat ≤ 32) (hu : unsettled s .counter = false)
    (hi : s.idx.toNat = 2 ^ 128 - 1) :
    exec .ctrApplyf s = .next (commandFaulted .ctrApplyf .wcIncOverflow (unitCode .counter) s) := by
  show execCtrApplyf s = _
  rw [execCtrApplyf, withBlock_of_short hb, hu, counterTransformF_of_full hi]
  exact command_of_error hf rfl

theorem exec_ctrApplyf_of_defined (hf : s.faulted = false) (hb : s.blkLen.toNat ≤ 32) (hd : UnitDefined s .counter)
    (hi : s.idx.toNat ≠ 2 ^ 128 - 1) : exec .ctrApplyf s = .next { s with idx := s.idx + 1 } := by
  obtain ⟨hr, hm⟩ := hd
  have hu : unsettled s .counter = false := unsettled_eq_false.2 ⟨hr, (marked_eq_false.1 hm).1⟩
  have hnext : BitVec.ofNat 128 (s.idx.toNat + 1) = s.idx + 1 := by
    rw [BitVec.ofNat_add, BitVec.ofNat_toNat, BitVec.setWidth_eq]
    rfl
  have hpass : passBlock { s with idx := s.idx + 1 } = { s with idx := s.idx + 1 } := passBlock_of_not_marked hm
  show execCtrApplyf s = _
  rw [execCtrApplyf, withBlock_of_short hb, hu, counterTransformF_of_lt hi, hnext]
  simp only [hpass, Bool.false_eq_true, if_false]
  exact command_of_ok hf rfl

theorem exec_ctrApplyg_of_short (hf : s.faulted = false) (hb : s.blkLen.toNat ≤ 32) :
    exec .ctrApplyg s = .next (passBlock s) := by
  show execCtrApplyg s = _
  rw [execCtrApplyg, withBlock_of_short hb, counterTransformG]
  exact command_of_ok hf rfl

end

/-- Settles O39: a seek takes the two words of `WACC` as one value, and INDEX writes them back. -/
theorem counterCommands : Obligations.CounterCommands := fun _ hf =>
  ⟨unitWord 0x40#8 8#4, unitWord 0x43#8 8#4, unitWord 0x44#8 8#4, unitWord 0x45#8 8#4,
    fun hb => ⟨exec_ctrReset_of_respected hf hb, exec_ctrSetindex_of_respected hf hb⟩, exec_ctrIndex hf, exec_ctrUpdate hf⟩

/-- Settles O40: one case for each way F can end, and one rule for G whatever the state of the counter. -/
theorem counterTransforms : Obligations.CounterTransforms := by
  intro s hf
  refine ⟨unitWord 0x41#8 8#4, unitWord 0x42#8 8#4,
    fun hb => ⟨fun hd hi => ?counted, fun hu hi => ?full, fun hu => ?undefined, fun hm => ?passed, ?passes⟩, fun hb => ?long⟩
  case counted => exact exec_ctrApplyf_of_defined hf hb hd hi
  case full => exact exec_ctrApplyf_of_full hf hb hu hi
  case undefined =>
    exact ⟨_, exec_ctrApplyf_of_unsettled hf hb hu, by rw [passBlock_faulted, mutated_faulted, hf]⟩
  case passed => rw [exec_ctrApplyg_of_short hf hb, passBlock_of_not_marked hm]
  case passes => exact ⟨_, exec_ctrApplyg_of_short hf hb, passBlock_eq s⟩
  case long => exact ⟨exec_counterApply_of_long (.inl rfl) hf hb, exec_counterApply_of_long (.inr rfl) hf hb⟩

end Sys2Proof.Machine
end

section
/-! The wide-counter commands (44_wide_counter R240 to R268): the rule of each command once for every way it can end, the word-level
forms of its result, and the decimal strings of WC.PARSE and WC.TOSTR. -/

namespace Sys2Proof.Machine

-- As in the tests: with every proof in a thread of its own the check runs into its memory limit.
set_option Elab.async false

/-! ### `WACC` written from its two words (10_state R32) -/

/-- A value given by its two words goes to them. -/
theorem setWacc_words {lo : Nat} (h : lo < 2 ^ 64) (hi : Nat) (s : State) :
    setWacc (2 ^ 64 * hi + lo) s = { s with waccLo := BitVec.ofNat 64 lo, waccHi := BitVec.ofNat 64 hi } := by
  have hlo : BitVec.ofNat 64 (2 ^ 64 * hi + lo) = BitVec.ofNat 64 lo := BitVec.eq_of_toNat_eq (Nat.mul_add_mod _ _ _)
  have hhi : (2 ^ 64 * hi + lo) / 2 ^ 64 = hi := by omega
  rw [setWacc, hlo, hhi]

/-- Writing the value that stands there changes nothing. -/
theorem setWacc_wacc (s : State) : setWacc (wacc s) s = s := by
  rw [wacc, setWacc_words s.waccLo.isLt, BitVec.ofNat_toNat, BitVec.ofNat_toNat, BitVec.setWidth_eq, BitVec.setWidth_eq]

/-- The second of two writes stands. -/
theorem setWacc_setWacc (v w : Nat) (s : State) : setWacc v (setWacc w s) = setWacc v s := rfl

theorem wopVal_setWacc (v : Nat) (s : State) : wopVal (setWacc v s) = wopVal s := rfl

theorem wacc_eq_zero_iff (s : State) : wacc s = 0 ↔ s.waccLo = 0 ∧ s.waccHi = 0 := by
  rw [wacc, ← BitVec.toNat_inj, ← BitVec.toNat_inj]
  show _ ↔ s.waccLo.toNat = 0 ∧ s.waccHi.toNat = 0
  omega

/-! ### Commands with one check -/

section
variable {i : Instr} {s t : State} {c : Cause} {p : Prop} [Decidable p]

/-- A command whose one check passes. -/
theorem command_of_passed (hf : s.faulted = false) (hl : legalIn i s.estate = true) (h : ¬ p) :
    command i s (if p then wcTrap c else .ok t) = .next t := by
  rw [if_neg h, command_of_ok hf hl]

/-- A command whose one check raises the fault `c`, which names no unit. -/
theorem command_of_trapped (hf : s.faulted = false) (hl : legalIn i s.estate = true) (h : p) :
    command i s (if p then wcTrap c else .ok t) = .next (commandFaulted i c noUnit s) := by
  rw [if_pos h]
  exact command_of_error hf hl

end

/-! ### Arithmetic (44_wide_counter R240 to R244, R254, R256) -/

section
variable {s : State}

theorem exec_wcAdd_of_fits (hf : s.faulted = false) (h : wacc s + wopVal s < 2 ^ 128) :
    exec .wcAdd s = .next (setWacc (wacc s + wopVal s) s) :=
  command_of_passed hf rfl (Nat.not_le_of_lt h)

theorem exec_wcAdd_of_overflow (hf : s.faulted = false) (h : 2 ^ 128 ≤ wacc s + wopVal s) :
    exec .wcAdd s = .next (commandFaulted .wcAdd .wcAddOverflow noUnit s) :=
  command_of_trapped hf rfl h

theorem exec_wcSub_of_fits (hf : s.faulted = false) (h : wopVal s ≤ wacc s) :
    exec .wcSub s = .next (setWacc (wacc s - wopVal s) s) :=
  command_of_passed hf rfl (Nat.not_lt_of_le h)

theorem exec_wcSub_of_underflow (hf : s.faulted = false) (h : wacc s < wopVal s) :
    exec .wcSub s = .next (commandFaulted .wcSub .wcSubUnderflow noUnit s) :=
  command_of_trapped hf rfl h

theorem exec_wcMul_of_fits (hf : s.faulted = false) (h : wacc s * wopVal s < 2 ^ 128) :
    exec .wcMul s = .next (setWacc (wacc s * wopVal s) s) :=
  command_of_passed hf rfl (Nat.not_le_of_lt h)

theorem exec_wcMul_of_overflow (hf : s.faulted = false) (h : 2 ^ 128 ≤ wacc s * wopVal s) :
    exec .wcMul s = .next (commandFaulted .wcMul .wcMulOverflow noUnit s) :=
  command_of_trapped hf rfl h

theorem exec_wcInc_of_lt (hf : s.faulted = false) (h : wacc s ≠ 2 ^ 128 - 1) :
    exec .wcInc s = .next (setWacc (wacc s + 1) s) := by
  have hi : wideInc (wacc s) = .ok (wacc s + 1) := if_neg h
  show execWcInc s = _
  rw [execWcInc, hi]
  exact command_of_ok hf rfl

theorem exec_wcInc_of_full (hf : s.faulted = false) (h : wacc s = 2 ^ 128 - 1) :
    exec .wcInc s = .next (commandFaulted .wcInc .wcIncOverflow noUnit s) := by
  have hi : wideInc (wacc s) = .error .wcIncOverflow := if_pos h
  show execWcInc s = _
  rw [execWcInc, hi]
  exact command_of_error hf rfl

theorem exec_wcIszero (hf : s.faulted = false) : exec .wcIszero s = .next (setFlagZ (decide (wacc s = 0)) s) :=
  command_of_ok hf rfl

/-! ### Division (44_wide_counter R246 to R252) -/

/-- `WREM <- r` (10_state R33). -/
def setWrem (r : Nat) (s : State) : State := { s with wrem := BitVec.ofNat 64 r }

/-- A remainder is one word. -/
theorem setWrem_wrem {r : Nat} (h : r < 2 ^ 64) (s : State) : (setWrem r s).wrem.toNat = r := Nat.mod_eq_of_lt h

theorem wacc_setWrem (r : Nat) (s : State) : wacc (setWrem r s) = wacc s := rfl

theorem exec_wcDiv_of_ne (hf : s.faulted = false) (h : wopVal s ≠ 0) :
    exec .wcDiv s = .next (setWacc (wacc s / wopVal s) s) :=
  command_of_passed hf rfl h

theorem exec_wcDivmod_of_ne (hf : s.faulted = false) (h : wopVal s ≠ 0) :
    exec .wcDivmod s =
      .next (setWrem (wacc s % wopVal s) (setWacc (wacc s / wopVal s) s)) :=
  command_of_passed hf rfl h

theorem exec_wcMod_of_ne (hf : s.faulted = false) (h : wopVal s ≠ 0) :
    exec .wcMod s = .next (setWrem (wacc s % wopVal s) s) :=
  command_of_passed hf rfl h

/-- The three divisions make one check first (R246). -/
theorem exec_division_of_zero {i : Instr} (hi : i = .wcDiv ∨ i = .wcDivmod ∨ i = .wcMod) (hf : s.faulted = false)
    (h : wopVal s = 0) : exec i s = .next (commandFaulted i .wcDivZero noUnit s) := by
  rcases hi with rfl | rfl | rfl <;> exact command_of_trapped hf rfl h

theorem wopVal_ne_zero (h : s.wop ≠ 0) : wopVal s ≠ 0 := fun h0 => h (BitVec.eq_of_toNat_eq h0)

end

/-! ### Results word by word (44_wide_counter R242, R244, R247) -/

/-- The borrow out of the high word (R242). -/
theorem wide_lt_iff_borrow {lo w : Nat} (hi : Nat) (hw : w < 2 ^ 64) :
    2 ^ 64 * hi + lo < w ↔ (if lo < w then 1 else 0) = 1 ∧ hi = 0 := by
  split <;> omega

/-- The low word of a difference is the difference of the low words (R242). -/
theorem ofNat_wide_sub {lo w : Word} {hi : Nat} (h : w.toNat ≤ 2 ^ 64 * hi + lo.toNat) :
    BitVec.ofNat 64 (2 ^ 64 * hi + lo.toNat - w.toNat) = lo - w := by
  have := w.isLt
  refine BitVec.eq_of_toNat_eq ?_
  rw [BitVec.toNat_ofNat, BitVec.toNat_sub]
  omega

/-- The high word of a difference gives up the borrow (R242). -/
theorem wide_sub_div {lo w hi : Nat} (hlo : lo < 2 ^ 64) (hw : w < 2 ^ 64) (h : w ≤ 2 ^ 64 * hi + lo) :
    (2 ^ 64 * hi + lo - w) / 2 ^ 64 = hi - if lo < w then 1 else 0 := by
  split <;> omega

/-- A product fits when neither the high product nor the sum of the middle words overflows (R244). -/
theorem wide_overflow_iff (p0 p1 : Nat) :
    2 ^ 128 ≤ 2 ^ 64 * p1 + p0 ↔ p1 / 2 ^ 64 ≠ 0 ∨ 2 ^ 64 ≤ p0 / 2 ^ 64 + p1 % 2 ^ 64 := by omega

/-- The two words of a product that fits (R244). -/
theorem wide_words_of_fits {p0 p1 : Nat} (h : 2 ^ 64 * p1 + p0 < 2 ^ 128) :
    (2 ^ 64 * p1 + p0) % 2 ^ 64 = p0 % 2 ^ 64 ∧ (2 ^ 64 * p1 + p0) / 2 ^ 64 = p0 / 2 ^ 64 + p1 % 2 ^ 64 := by omega

theorem wacc_mul (s : State) (w : Nat) : wacc s * w = 2 ^ 64 * (s.waccHi.toNat * w) + s.waccLo.toNat * w := by
  rw [wacc, Nat.add_mul, Nat.mul_assoc]

/-- The second digit of a long division is one word: the remainder carried down is below the divisor (R247). -/
theorem longDivision_digit_lt {d lo : Nat} (hi : Nat) (hd : 0 < d) (hlo : lo < 2 ^ 64) :
    (2 ^ 64 * (hi % d) + lo) / d < 2 ^ 64 := by
  have := Nat.mod_lt hi hd
  exact Nat.div_lt_of_lt_mul (by omega)

/-- The dividend with the high word split by the divisor. -/
theorem longDivision_split (d hi lo : Nat) :
    2 ^ 64 * hi + lo = d * (2 ^ 64 * (hi / d)) + (2 ^ 64 * (hi % d) + lo) := by
  calc
    2 ^ 64 * hi + lo = 2 ^ 64 * (d * (hi / d) + hi % d) + lo := by rw [Nat.div_add_mod]
    _ = d * (2 ^ 64 * (hi / d)) + (2 ^ 64 * (hi % d) + lo) := by ring

/-- The two digits of a long division are the quotient (R247). -/
theorem longDivision_div {d : Nat} (hi lo : Nat) (hd : 0 < d) :
    2 ^ 64 * (hi / d) + (2 ^ 64 * (hi % d) + lo) / d = (2 ^ 64 * hi + lo) / d := by
  rw [longDivision_split d hi lo, Nat.mul_add_div hd]

/-- The last remainder of a long division is the remainder (R247). -/
theorem longDivision_mod (d hi lo : Nat) : (2 ^ 64 * (hi % d) + lo) % d = (2 ^ 64 * hi + lo) % d := by
  rw [longDivision_split d hi lo, Nat.mul_add_mod]

/-- Settles O13: the exact result or the fault of each command, and the words of a difference and of a product. -/
theorem wcAddSubMul : Obligations.WcAddSubMul := by
  intro s hf
  have hlo := s.waccLo.isLt
  have hw := s.wop.isLt
  refine ⟨rfl, rfl, rfl, exec_wcAdd_of_fits hf, exec_wcAdd_of_overflow hf, exec_wcSub_of_fits hf, exec_wcSub_of_underflow hf,
    ⟨?borrow, fun h => ⟨?low, ?high⟩⟩, exec_wcMul_of_fits hf, exec_wcMul_of_overflow hf, ?product⟩
  case borrow => exact wide_lt_iff_borrow _ hw
  case low => exact ofNat_wide_sub h
  case high => exact wide_sub_div hlo hw h
  case product =>
    rw [wacc_mul]
    exact ⟨wide_overflow_iff _ _, wide_words_of_fits⟩

/-- Settles O14: the digits of the long division are the words of the quotient. -/
theorem wcDivisions : Obligations.WcDivisions := by
  intro s hf
  refine ⟨rfl, rfl, rfl, fun hd => ?_, fun h0 i hi => ?zero⟩
  case zero => exact exec_division_of_zero hi hf (congrArg BitVec.toNat h0)
  intro d qHi qLo r
  have hne : wopVal s ≠ 0 := wopVal_ne_zero hd
  have hdigit : qLo < 2 ^ 64 := longDivision_digit_lt _ (Nat.pos_of_ne_zero hne) s.waccLo.isLt
  have hdiv : 2 ^ 64 * qHi + qLo = wacc s / d := longDivision_div _ _ (Nat.pos_of_ne_zero hne)
  have hmod : r = wacc s % d := longDivision_mod _ _ _
  have hwords : setWacc (wacc s / wopVal s) s = { s with waccLo := BitVec.ofNat 64 qLo, waccHi := BitVec.ofNat 64 qHi } := by
    exact (congrArg (setWacc · s) hdiv.symm).trans (setWacc_words hdigit qHi s)
  refine ⟨hdigit, hdiv, hmod, ?div, ?divmod, ?mod⟩
  case div => rw [exec_wcDiv_of_ne hf hne, hwords]
  case divmod =>
    rw [exec_wcDivmod_of_ne hf hne, hwords, hmod]
    rfl
  case mod =>
    rw [exec_wcMod_of_ne hf hne, hmod]
    rfl

/-- Settles O15: the increment at both of its ends, and the flag that says that both words are 0. -/
theorem wcIncIszero : Obligations.WcIncIszero := by
  intro s hf
  refine ⟨rfl, rfl, exec_wcInc_of_lt hf, exec_wcInc_of_full hf, ?_⟩
  rw [exec_wcIszero hf, setFlagZ, decide_eq_decide.2 (wacc_eq_zero_iff s)]

/-! ### Laws of the arithmetic commands (44_wide_counter R243, R253) -/

/-- A command that ended on a block that is not faulted ran its rule. -/
theorem of_stopped_or {i : Instr} {s t : State} {P : Prop} (h : Stopped i s t ∨ P) (hs : s.faulted = false)
    (ht : t.faulted = false) : P := by
  refine h.resolve_left fun hstop => ?_
  obtain ⟨c, u, rfl⟩ := stopped_faulted hstop hs
  exact Bool.noConfusion ht

/-- Settles O18: either command leaves a value on which the other does not fault, and writes back the value it found. -/
theorem addThenSub : Obligations.AddThenSub := by
  intro s t hf
  refine ⟨fun h ht => ?addSub, fun h ht => ?subAdd⟩
  case addSub =>
    obtain ⟨-, hfit, rfl⟩ := of_stopped_or (execWcAdd_inv h) hf ht
    have hsum : wacc (setWacc (wacc s + wopVal s) s) = wacc s + wopVal s := wacc_setWacc hfit s
    have hback : wacc s + wopVal s - wopVal s = wacc s := Nat.add_sub_cancel _ _
    rw [exec_wcSub_of_fits ht (by rw [hsum]; exact Nat.le_add_left _ _), hsum, wopVal_setWacc, hback, setWacc_setWacc,
      setWacc_wacc]
  case subAdd =>
    obtain ⟨-, hfit, rfl⟩ := of_stopped_or (execWcSub_inv h) hf ht
    have hlt := wacc_lt s
    have hdiff : wacc (setWacc (wacc s - wopVal s) s) = wacc s - wopVal s := wacc_setWacc (by omega) s
    have hback : wacc s - wopVal s + wopVal s = wacc s := Nat.sub_add_cancel hfit
    have hfit' : wacc (setWacc (wacc s - wopVal s) s) + wopVal s < 2 ^ 128 := by rwa [hdiff, hback]
    rw [exec_wcAdd_of_fits ht hfit', hdiff, wopVal_setWacc, hback, setWacc_setWacc, setWacc_wacc]

/-- Settles O19: all three commands read the one quotient and the one remainder of `WACC` by `WOP`. -/
theorem divisionLaws : Obligations.DivisionLaws := by
  intro s hf hd
  have hne : wopVal s ≠ 0 := wopVal_ne_zero hd
  have hrem : wacc s % wopVal s < wopVal s := Nat.mod_lt _ (Nat.pos_of_ne_zero hne)
  have hword (u : State) : (setWrem (wacc s % wopVal s) u).wrem.toNat = wacc s % wopVal s :=
    setWrem_wrem (Nat.lt_trans hrem s.wop.isLt) u
  have hquot : wacc (setWacc (wacc s / wopVal s) s) = wacc s / wopVal s :=
    wacc_setWacc (Nat.lt_of_le_of_lt (Nat.div_le_self _ _) (wacc_lt s)) s
  refine ⟨_, _, _, exec_wcDivmod_of_ne hf hne, exec_wcMod_of_ne hf hne, exec_wcDiv_of_ne hf hne, rfl, rfl, ?rebuild, ?below⟩
  case rebuild =>
    rw [wacc_setWrem, hquot, hword]
    exact Nat.div_add_mod' (wacc s) (wopVal s)
  case below =>
    rw [hword]
    exact hrem

/-! ### The scan of WC.PARSE (44_wide_counter R262) -/

theorem isDigit_iff (ch : Byte) : isDigit ch = true ↔ 0x30 ≤ ch.toNat ∧ ch.toNat ≤ 0x39 := decide_eq_true_iff

section
variable {acc : Nat} {ch : Byte}

theorem parseDigits_cons_of_not_digit (h : isDigit ch ≠ true) (rest : List Byte) :
    parseDigits acc (ch :: rest) = .error .wcParse := by
  rw [parseDigits, if_neg h]

theorem parseDigits_cons_of_mul_overflow (h : isDigit ch = true) (hm : 2 ^ 128 ≤ acc * 10) (rest : List Byte) :
    parseDigits acc (ch :: rest) = .error .wcMulOverflow := by
  rw [parseDigits, if_pos h, if_pos hm]

theorem parseDigits_cons_of_add_overflow (h : isDigit ch = true) (hm : acc * 10 < 2 ^ 128)
    (ha : 2 ^ 128 ≤ acc * 10 + (ch.toNat - 0x30)) (rest : List Byte) :
    parseDigits acc (ch :: rest) = .error .wcAddOverflow := by
  rw [parseDigits, if_pos h, if_neg (Nat.not_le_of_lt hm), if_pos ha]

end

/-- A string of digits whose number fits parses to its number. -/
theorem parseDigits_eq_decimalValue {l : List Byte} (hd : ∀ ch ∈ l, isDigit ch = true) (hv : decimalValue l < 2 ^ 128) :
    parseDigits 0 l = .ok (decimalValue l) :=
  parseDigits_of_fits hd hv

section
variable {s : State}

theorem exec_wcParse_of_length (hf : s.faulted = false) (h : s.wstrLen.toNat = 0 ∨ 64 < s.wstrLen.toNat) :
    exec .wcParse s = .next (commandFaulted .wcParse .wcParse noUnit s) := by
  show execWcParse s = _
  rw [execWcParse, if_pos h]
  exact command_of_error hf rfl

/-- Within the length the scan decides, one way or the other. -/
theorem exec_wcParse_of_ok (hf : s.faulted = false) (h1 : 1 ≤ s.wstrLen.toNat) (h2 : s.wstrLen.toNat ≤ 64) {v : Nat}
    (h : parseDigits 0 (readBytes s.wstr 0 s.wstrLen.toNat) = .ok v) : exec .wcParse s = .next (setWacc v s) := by
  show execWcParse s = _
  rw [execWcParse, if_neg (by simp only [Config.strCap]; omega), wstrBytes, h]
  exact command_of_ok hf rfl

theorem exec_wcParse_of_error (hf : s.faulted = false) (h1 : 1 ≤ s.wstrLen.toNat) (h2 : s.wstrLen.toNat ≤ 64) {c : Cause}
    (h : parseDigits 0 (readBytes s.wstr 0 s.wstrLen.toNat) = .error c) :
    exec .wcParse s = .next (commandFaulted .wcParse c noUnit s) := by
  show execWcParse s = _
  rw [execWcParse, if_neg (by simp only [Config.strCap]; omega), wstrBytes, h]
  exact command_of_error hf rfl

end

/-- Settles O16: the scan goes through the digits before a character that fails a check, and that character decides. -/
theorem wcParse : Obligations.WcParse := by
  intro s hf n str digit
  have digits {l : List Byte} (h : ∀ c ∈ l, digit c) : ∀ c ∈ l, isDigit c = true := fun c hc => (isDigit_iff c).2 (h c hc)
  refine ⟨rfl, fun h1 h2 hd hv => ?number, exec_wcParse_of_length hf, fun h1 h2 pre ch post hstr hd hv => ?_⟩
  case number => exact exec_wcParse_of_ok hf h1 h2 (parseDigits_eq_decimalValue (digits hd) hv)
  have scan : parseDigits 0 str = parseDigits (decimalValue pre) (ch :: post) := by
    rw [hstr, parseDigits_append (parseDigits_eq_decimalValue (digits hd) hv)]
  refine ⟨fun h => ?notDigit, fun h hm => ?mulOverflow, fun h hm ha => ?addOverflow⟩
  case notDigit =>
    exact exec_wcParse_of_error hf h1 h2 (scan.trans (parseDigits_cons_of_not_digit (mt (isDigit_iff ch).1 h) post))
  case mulOverflow =>
    exact exec_wcParse_of_error hf h1 h2 (scan.trans (parseDigits_cons_of_mul_overflow ((isDigit_iff ch).2 h) hm post))
  case addOverflow =>
    exact exec_wcParse_of_error hf h1 h2 (scan.trans (parseDigits_cons_of_add_overflow ((isDigit_iff ch).2 h) hm ha post))

/-! ### The string of WC.TOSTR (44_wide_counter R266) -/

theorem decimalString_length_eq {x : Nat} (hx : x < 2 ^ 128) :
    (decimalString x).length = if x = 0 then 1 else Nat.log 10 x + 1 := by
  by_cases h0 : x = 0
  · subst h0
    rfl
  · rw [if_neg h0, decimalString_pos h0 hx, List.length_map, List.length_reverse, Nat.length_digits 10 x (by norm_num) h0]

/-- Each character is its digit of the value, most significant first. -/
theorem decimalString_getD {x a : Nat} (hx : x < 2 ^ 128) (ha : a < (decimalString x).length) :
    (decimalString x).getD a 0#8 = BitVec.ofNat 8 (0x30 + x / 10 ^ ((decimalString x).length - 1 - a) % 10) := by
  by_cases h0 : x = 0
  · subst h0
    obtain rfl : a = 0 := by simpa [decimalString_zero] using ha
    rfl
  · rw [decimalString_pos h0 hx] at ha ⊢
    rw [List.length_map, List.length_reverse] at ha ⊢
    have hk : (Nat.digits 10 x).length - 1 - a < (Nat.digits 10 x).length := by omega
    have hdigit := Nat.getD_digits x ((Nat.digits 10 x).length - 1 - a) (b := 10) (by norm_num)
    rw [List.getD_eq_getElem _ _ hk] at hdigit
    rw [List.getD_eq_getElem _ _ (by simpa using ha), List.getElem_map, List.getElem_reverse, hdigit]

/-- The state WC.TOSTR leaves: the string in `WSTR`, with zero bytes up to byte 63, and its length. -/
def stringWritten (s : State) : State :=
  { s with
    wstr := writeBytes s.wstr 0 (decimalString (wacc s) ++ List.replicate (64 - (decimalString (wacc s)).length) 0#8)
    wstrLen := BitVec.ofNat 7 (decimalString (wacc s)).length }

section
variable {s : State}

theorem exec_wcTostr (hf : s.faulted = false) : exec .wcTostr s = .next (stringWritten s) := command_of_ok hf rfl

theorem stringWritten_wstrLen (s : State) : (stringWritten s).wstrLen.toNat = (decimalString (wacc s)).length := by
  obtain ⟨-, h⟩ := decimalString_length (wacc_lt s)
  exact Nat.mod_eq_of_lt (by omega)

/-- A byte of the string, of the padding, or above both. -/
theorem readByte_stringWritten (hw : Mem.wf s.wstr) (a : Nat) :
    readByte (stringWritten s).wstr a =
      if a < (decimalString (wacc s)).length then (decimalString (wacc s)).getD a 0#8
      else if a < 64 then 0 else readByte s.wstr a := by
  obtain ⟨-, hl⟩ := decimalString_length (wacc_lt s)
  rw [stringWritten, readByte_writeBytes hw, List.length_append, List.length_replicate, Nat.sub_zero]
  by_cases h1 : a < (decimalString (wacc s)).length
  · rw [if_pos (by omega), if_pos h1, List.getD_append _ _ _ _ h1]
  · rw [if_neg h1]
    by_cases h2 : a < 64
    · rw [if_pos (by omega), if_pos h2, List.getD_append_right _ _ _ _ (by omega), List.getD_replicate _ (by omega)]
      rfl
    · rw [if_neg (by omega), if_neg h2]

/-- The string reads back. -/
theorem readBytes_stringWritten (hw : Mem.wf s.wstr) :
    readBytes (stringWritten s).wstr 0 (stringWritten s).wstrLen.toNat = decimalString (wacc s) := by
  rw [stringWritten_wstrLen]
  refine List.ext_getElem (readBytes_length _ _ _) fun k _ hk => ?_
  rw [readBytes_getElem, Nat.zero_add, readByte_stringWritten hw, if_pos hk, List.getD_eq_getElem _ _ hk]

end

/-- Settles O17: the length and the characters of the string are those of the decimal digits. -/
theorem wcTostr : Obligations.WcTostr := by
  intro s hf hw x n
  have hlen : (decimalString x).length = n := decimalString_length_eq (wacc_lt s)
  obtain ⟨-, hle⟩ := decimalString_length (wacc_lt s)
  refine ⟨rfl, hlen ▸ hle, (stringWritten s).wstr, ?exec, writeBytes_wf hw _ _, fun a => ?byte⟩
  case exec => rw [exec_wcTostr hf, stringWritten, hlen]
  case byte =>
    rw [readByte_stringWritten hw, ← hlen]
    exact ite_congr rfl (decimalString_getD (wacc_lt s)) fun _ => rfl

/-! ### Strings and values undo each other (44_wide_counter R268) -/

/-- The digit a character stands for (R260). -/
def digitValue (ch : Byte) : Nat := ch.toNat - 0x30

theorem digitValue_lt {ch : Byte} (h : isDigit ch = true) : digitValue ch < 10 := by
  obtain ⟨-, h2⟩ := (isDigit_iff ch).1 h
  unfold digitValue
  omega

/-- The character of a digit's value is the digit. -/
theorem ofNat_digitValue {ch : Byte} (h : isDigit ch = true) : BitVec.ofNat 8 (0x30 + digitValue ch) = ch := by
  obtain ⟨h1, -⟩ := (isDigit_iff ch).1 h
  rw [digitValue, Nat.add_sub_cancel' h1, BitVec.ofNat_toNat, BitVec.setWidth_eq]

theorem digitValue_ne_zero {ch : Byte} (h : isDigit ch = true) (h0 : ch ≠ 0x30#8) : digitValue ch ≠ 0 := by
  intro hv
  rw [← ofNat_digitValue h, hv] at h0
  exact h0 rfl

theorem decimalValue_eq_ofDigits (l : List Byte) : decimalValue l = Nat.ofDigits 10 (l.map digitValue).reverse := by
  rw [← foldl_reverse_digits, List.reverse_reverse, List.foldl_map]
  rfl

/-- Leading zeros do not count. -/
theorem decimalValue_dropWhile (l : List Byte) : decimalValue (l.dropWhile (· = 0x30#8)) = decimalValue l := by
  induction l with
  | nil => rfl
  | cons ch t ih =>
    by_cases h : ch = 0x30#8
    · subst h
      rw [List.dropWhile_cons_of_pos (by simp), ih]
      rfl
    · rw [List.dropWhile_cons_of_neg (by simpa using h)]

section
variable {ch : Byte} {t : List Byte}

/-- The decimal digits of the number of a string that does not begin with a zero. -/
theorem digits_decimalValue (hd : ∀ c ∈ ch :: t, isDigit c = true) (h0 : ch ≠ 0x30#8) :
    Nat.digits 10 (decimalValue (ch :: t)) = ((ch :: t).map digitValue).reverse := by
  rw [decimalValue_eq_ofDigits]
  refine Nat.digits_ofDigits 10 (by norm_num) _ (fun d hm => ?digit) fun _ => ?leading
  case digit =>
    obtain ⟨c, hc, rfl⟩ := List.mem_map.1 (List.mem_reverse.1 hm)
    exact digitValue_lt (hd c hc)
  case leading =>
    rw [List.getLast_reverse]
    exact digitValue_ne_zero (hd ch List.mem_cons_self) h0

/-- A string of digits that does not begin with a zero is the string of its number. -/
theorem decimalString_of_no_leading_zero (hd : ∀ c ∈ ch :: t, isDigit c = true) (h0 : ch ≠ 0x30#8)
    (hv : decimalValue (ch :: t) < 2 ^ 128) : decimalString (decimalValue (ch :: t)) = ch :: t := by
  have hdigits := digits_decimalValue hd h0
  have hne : decimalValue (ch :: t) ≠ 0 := by
    intro hz
    rw [hz] at hdigits
    simp at hdigits
  rw [decimalString_pos hne hv, hdigits, List.reverse_reverse, List.map_map]
  exact (List.map_congr_left fun c hc => ofNat_digitValue (hd c hc)).trans (List.map_id _)

end

/-- The string of the number of a string of digits is that string without its leading zeros. -/
theorem decimalString_decimalValue {l : List Byte} (hd : ∀ c ∈ l, isDigit c = true) (hv : decimalValue l < 2 ^ 128) :
    decimalString (decimalValue l) =
      if l.dropWhile (· = 0x30#8) = [] then [0x30#8] else l.dropWhile (· = 0x30#8) := by
  rw [← decimalValue_dropWhile] at hv ⊢
  have hd' : ∀ c ∈ l.dropWhile (· = 0x30#8), isDigit c = true := fun c hc => hd c ((List.dropWhile_sublist _).mem hc)
  cases hl : l.dropWhile (· = 0x30#8) with
  | nil => exact decimalString_zero
  | cons ch t =>
    have h0 : ch ≠ 0x30#8 := by
      have := List.head_dropWhile_not (· = 0x30#8) (l := l) (by simp [hl])
      simpa [hl] using this
    rw [hl] at hd' hv
    rw [if_neg (List.cons_ne_nil _ _), decimalString_of_no_leading_zero hd' h0 hv]

/-- Settles O20: the string WC.TOSTR leaves reads back, and the decimal digits of a number are unique. -/
theorem parseAndTostr : Obligations.ParseAndTostr := by
  intro s hf hw
  refine ⟨⟨stringWritten s, exec_wcTostr hf, hf, rfl, ?parse⟩, fun t h ht => ?tostr⟩
  case parse =>
    obtain ⟨h1, h2⟩ := decimalString_length (wacc_lt s)
    rw [← stringWritten_wstrLen] at h1 h2
    have hscan : parseDigits 0 (readBytes (stringWritten s).wstr 0 (stringWritten s).wstrLen.toNat) = .ok (wacc s) := by
      rw [readBytes_stringWritten hw, parseDigits_decimalString (wacc_lt s)]
    rw [exec_wcParse_of_ok (s := stringWritten s) hf h1 (Nat.le_trans h2 (by norm_num)) hscan]
    exact congrArg _ (setWacc_wacc (stringWritten s))
  case tostr =>
    obtain ⟨-, -, -, v, hscan, rfl⟩ := of_stopped_or (execWcParse_inv h) hf ht
    obtain ⟨hd, hval, hv⟩ := parseDigits_ok hscan (by norm_num)
    change v = decimalValue _ at hval
    refine ⟨stringWritten (setWacc v s), exec_wcTostr ht, ?_⟩
    rw [readBytes_stringWritten (s := setWacc v s) hw, wacc_setWacc hv, hval]
    exact decimalString_decimalValue hd (hval ▸ hv)

end Sys2Proof.Machine
end

section
/-! The host's save and load (45_keystream_host R292): what a dump stages is what a construction needs to make the dumped unit again, at
block index 0. -/

namespace Sys2Proof.Machine

-- As in the tests: with every proof in a thread of its own the check runs into its memory limit.
set_option Elab.async false

/-! ### A rotor -/

/-- What a rotor dump leaves, with the staging memory `m` (41_rotor R162). -/
def rotorDumped (r : Rotor) (m : Mem) (s : State) : State :=
  { s with stg := m, psize := r.size.setWidth 64, pstart := r.start.setWidth 64, pstep := r.step.setWidth 64 }

section
variable (r : Rotor) (m : Mem) (s : State)

/-- The dumped registers, wider than they were, hold the values of the unit. -/
theorem rotorDumped_psize : (rotorDumped r m s).psize.toNat = r.size.toNat := BitVec.toNat_setWidth_of_le (by omega)

theorem rotorDumped_pstart : (rotorDumped r m s).pstart.toNat = r.start.toNat := BitVec.toNat_setWidth_of_le (by omega)

theorem rotorDumped_pstep : (rotorDumped r m s).pstep.toNat = r.step.toNat := BitVec.toNat_setWidth_of_le (by omega)

end

/-- The parameters of a good rotor pass the checks of 41_rotor R152. -/
theorem RotorGood.params {r : Rotor} (h : RotorGood r) :
    256 ≤ r.size.toNat ∧ r.size.toNat ≤ 4095 ∧ r.start.toNat < r.size.toNat ∧ r.step.toNat ≠ 0 ∧ r.step.toNat < r.size.toNat :=
  ⟨h.sizeMin, Nat.le_of_lt_succ r.size.isLt, h.startLt, Nat.ne_of_gt h.stepPos, h.stepLt⟩

/-- A bit of bytes that two buffers share. -/
theorem bufBit_congr {m m' : Mem} {n : Nat} (h : ∀ a < n, readByte m a = readByte m' a) {j : Nat} (hj : j < 8 * n) :
    bufBit m j = bufBit m' j := by
  rw [bufBit, bufBit, h _ (by omega)]

/-- A buffer with the data bits of a good rotor and their mirror is, as far as a window reaches, the rotor's buffer. -/
theorem RotorGood.bufBit_of_data {r : Rotor} (h : RotorGood r) {m : Mem}
    (hdata : ∀ j < r.size.toNat, bufBit m j = bufBit r.buf j) (hmirror : Mirrored r.size.toNat m) {j : Nat}
    (hj : j < r.size.toNat + 256) : bufBit m j = bufBit r.buf j := by
  rcases Nat.lt_or_ge j r.size.toNat with hlt | hge
  · exact hdata j hlt
  · have hi : j - r.size.toNat < 256 := by omega
    have hsize : 256 ≤ r.size.toNat := h.sizeMin
    have hb := hmirror _ hi
    have hr := h.mirrored _ hi
    rw [Nat.add_sub_cancel' hge] at hb hr
    rw [hb, hr, hdata _ (by omega)]

/-- A rotor dumped from `k` and constructed at `k'` (R292). -/
theorem rotor_dump_construct {s t : State} {k k' : Fin 6} (hf : s.faulted = false) (hm : MemoriesOk s)
    (hv : (rotor s k).valid = true) (hg : RotorGood (rotor s k)) (hb : breaksPrecondition s (.rotor k') = false)
    (hd : exec (.rotDump (unitCode (.rotor k))) s = .next t) :
    ∃ v m, exec (.rotConstruct (unitCode (.rotor k'))) t = .next v ∧
      rotor v k' = { rotor s k with current := (rotor s k).start, buf := m } ∧
      ∀ j, j < (rotor s k).size.toNat + 256 → bufBit m j = bufBit (rotor s k).buf j := by
  obtain ⟨stg, hexec, -, hstg⟩ := rotDump k s hf hv hm.stg.1
  obtain rfl : t = rotorDumped (rotor s k) stg s := Host.Outcome.next.inj (hd.symm.trans hexec)
  obtain ⟨hgood, -⟩ := rotConstructUpdate k' (rotorDumped (rotor s k) stg s) _ hf (.inl rfl)
  simp only [rotorDumped_psize, rotorDumped_pstart, rotorDumped_pstep, BitVec.ofNat_toNat, BitVec.setWidth_eq] at hgood
  obtain ⟨m, hrun, -, hdata, hmirror, -, -⟩ := hgood hg.params hb (hm.rbuf k').1
  refine ⟨_, m, hrun, ?unit, fun j hj => hg.bufBit_of_data (fun j hj => ?data) hmirror hj⟩
  case unit => rw [rotor_settle, rotor_setRotor, if_pos rfl, ← hv]
  case data =>
    rw [hdata j hj]
    exact bufBit_congr (n := (rotor s k).size.toNat / 8 + 1) (fun a ha => (hstg a).trans (if_pos (by omega))) (by omega)

/-! ### A permutator -/

/-- A rebuild depends on what stood in the table's place through the bytes above it alone. -/
theorem rebuild_congr {p : Perm} (h : CyclesOk p) (hm : Mem.wf p.bperm) {b : Mem} (hb : Mem.wf b)
    (above : ∀ a, 256 ≤ a → readByte b a = readByte p.bperm a) : rebuild { p with bperm := b } = rebuild p := by
  have htable := rebuild_bperm_congr (q := { p with bperm := b }) h hm hb rfl rfl rfl rfl above
  show { p with bperm := (rebuild { p with bperm := b }).bperm } = { p with bperm := (rebuild p).bperm }
  rw [htable]

/-- Outside its space a buffer reads as nothing was written. -/
theorem memOk.readByte_above {n : Nat} {m : Mem} (h : memOk n m) {a : Nat} (ha : n ≤ a) : readByte m a = 0#8 := by
  obtain ⟨-, hin⟩ := h
  induction m with
  | nil => rfl
  | cons c m ih =>
    have hc : c.1 < n := hin c (by simp)
    rw [readByte, if_neg (by omega)]
    exact ih fun d hd => hin d (by simp [hd])

/-- The whole of a buffer, copied over another of the same space. -/
theorem memOk.copy_all {n : Nat} {m m' : Mem} (h : memOk n m) (h' : memOk n m') : Machine.writeBytes m 0 (readBytes m' 0 n) = m' := by
  refine mem_ext (writeBytes_wf h.1 _ _) h'.1 fun a => ?_
  rw [readByte_copy h.1]
  split
  case isTrue => rfl
  case isFalse ha => rw [h.readByte_above (by omega), h'.readByte_above (by omega)]

/-- The lengths of a permutator, staged in 64 bits and taken back to their 9. -/
theorem staged_lengths (len : Vector (BitVec 9) 4) :
    (Vector.ofFn fun j : Fin 4 => (len.map (BitVec.setWidth 64))[j].setWidth 9) = len := by
  ext1 j hj
  simp

/-- The lengths of a permutator that holds its invariants place its cycles where they are. -/
theorem PermGood.start_eq {p : Perm} (h : PermGood p) :
    (Vector.ofFn fun j : Fin 4 => BitVec.ofNat 8 (cycleStart (p.len.map (BitVec.setWidth 64)) j)) = p.start := by
  have place (j : Fin 4) : cycleStart (p.len.map (BitVec.setWidth 64)) j = p.start[j].toNat := by
    obtain ⟨c0, c1, c2, c3⟩ := cycleStart_eq (p.len.map (BitVec.setWidth 64))
    simp only [Vector.getElem_map, BitVec.toNat_setWidth_of_le (show 9 ≤ 64 by omega)] at c1 c2 c3
    obtain ⟨h0, h1, h2, h3⟩ := And.intro h.start0 (And.intro h.start1 (And.intro h.start2 h.start3))
    rcases cycle_cases j with rfl | rfl | rfl | rfl
    · exact c0.trans h0.symm
    · exact c1.trans (show _ = p.start[1].toNat by omega)
    · exact c2.trans (show _ = p.start[2].toNat by omega)
    · exact c3.trans (show _ = p.start[3].toNat by omega)
  ext1 j hj
  simp [place]

/-- What a permutator dump leaves, with the staging memory `m` (42_permutator R196). -/
def permDumped (p : Perm) (m : Mem) (s : State) : State := { s with stg := m, plen := p.len.map (BitVec.setWidth 64) }

/-- The dumped lengths, wider than they were, hold the values of the unit. -/
theorem permDumped_plen (p : Perm) (m : Mem) (s : State) {j : Nat} (hj : j < 4) :
    (permDumped p m s).plen[j].toNat = p.len[j].toNat := by
  simp only [permDumped, Vector.getElem_map, BitVec.toNat_setWidth_of_le (show 9 ≤ 64 by omega)]

/-- A construction from the lengths and the table of a permutator is a seek of it to index 0 (42_permutator R183, R190). -/
theorem PermGood.builtPerm_eq_seek {p old : Perm} (h : PermGood p) (hv : p.valid = true) (hr : memOk 256 p.randp)
    (hb : memOk 256 p.bperm) (hr' : memOk 256 old.randp) (hb' : memOk 256 old.bperm) :
    builtPerm old (p.len.map (BitVec.setWidth 64)) (readBytes p.randp 0 256) = permSeek p 0 := by
  have hproduct : BitVec.ofNat 25 (p.len[0].toNat * p.len[1].toNat * p.len[2].toNat * p.len[3].toNat) = p.maxst := by
    rw [← h.maxst, BitVec.ofNat_toNat, BitVec.setWidth_eq]
  have hzero : (Vector.ofFn fun j : Fin 4 => BitVec.ofNat 8 (0 % p.maxst.toNat % p.len[j].toNat)) = Vector.replicate 4 0#8 := by
    ext1 j hj
    simp
  have hsought : CyclesOk { p with cstate := 0#25, cur := Vector.replicate 4 0#8 } := { h.toCyclesOk with }
  have habove (a : Nat) (ha : 256 ≤ a) : readByte old.bperm a = readByte p.bperm a := by
    rw [hb'.readByte_above ha, hb.readByte_above ha]
  unfold builtPerm permSeek
  rw [hzero, staged_lengths, h.start_eq, hr'.copy_all hr]
  simp only [Vector.getElem_map, BitVec.toNat_setWidth_of_le (show 9 ≤ 64 by omega)]
  rw [hproduct, ← hv, Nat.zero_mod]
  exact rebuild_congr hsought hb.1 hb'.1 habove

/-- A permutator dumped from `k` and constructed at `k'` (R292). -/
theorem perm_dump_construct {s t : State} {k k' : Fin 2} (hf : s.faulted = false) (hm : MemoriesOk s)
    (hv : (perm s k).valid = true) (hg : PermGood (perm s k)) (hb : breaksPrecondition s (.perm k') = false)
    (hd : exec (.prmDump (unitCode (.perm k))) s = .next t) :
    ∃ v, exec (.prmConstruct (unitCode (.perm k'))) t = .next v ∧ perm v k' = permSeek (perm s k) 0 := by
  obtain ⟨stg, hexec, -, hstg⟩ := prmDump k s hf hv hm.stg.1
  obtain rfl : t = permDumped (perm s k) stg s := Host.Outcome.next.inj (hd.symm.trans hexec)
  have hread (a : Nat) (ha : a < 256) : readByte stg a = readByte (perm s k).randp a := by rw [hstg, if_pos ha]
  have hstaged : staged (permDumped (perm s k) stg s) 256 = readBytes (perm s k).randp 0 256 :=
    readBytes_congr fun a ha => hread _ (by omega)
  have hok : permParamsOk (permDumped (perm s k) stg s).plen (staged (permDumped (perm s k) stg s) 256) = true :=
    (permParamsOk_staged_iff _).2 ⟨fun j => ?lengths, ?sum, ?table⟩
  case lengths =>
    have h1 := hg.lenPos j
    have h2 := hg.len_le j
    rw [Fin.getElem_fin] at h1 h2 ⊢
    rw [permDumped_plen]
    omega
  case sum => simpa only [permDumped_plen] using hg.lenSum
  case table =>
    intro i j hi hj e
    exact hg.randp i j hi hj ((hread i hi).symm.trans (e.trans (hread j hj)))
  obtain ⟨hl, hrun⟩ := permConstruction_frame (k := k') (s := permDumped (perm s k) stg s) (.inl rfl)
  rw [constructPerm_of_good hok hb, command_of_ok (by exact hf) hl] at hrun
  refine ⟨_, hrun, ?_⟩
  rw [perm_settle, perm_setPerm, if_pos rfl, hstaged]
  exact hg.builtPerm_eq_seek hv (hm.randp k) (hm.bperm k) (hm.randp k') (hm.bperm k')

/-- Settles O58: for each kind of unit, the dump stages what the construction reads. -/
theorem dumpAndLoad : Obligations.DumpAndLoad := fun _ _ hf hm =>
  ⟨fun _ _ hv hg hb hd => rotor_dump_construct hf hm hv hg hb hd, fun _ _ hv hg hb hd => perm_dump_construct hf hm hv hg hb hd⟩

end Sys2Proof.Machine
end

section
/-! The block a source's read sends through its pipeline (45_keystream_host R282), whatever the units make of it, undefined ones included:
it is at one spot at a time, and when it has come out the pipeline is built and quiescent as before. -/

namespace Sys2Proof.Machine

-- As in the tests: with every proof in a thread of its own the check runs into its memory limit.
set_option Elab.async false

/-! ### The chain with one block in it -/

/-- The chain holds one block, at `spot`, and nothing else; off the chain, it is empty. -/
structure OnlyAt (spot : Spot) (x : State) : Prop where
  slots : ∀ k, (slot x k).v = true ↔ spot = .slot k
  hands : ∀ p, (worker x p).st = .hold ↔ spot = .hand p

section
variable {spot : Spot} {x y : State}

theorem OnlyAt.same (h : OnlyAt spot x) (hxy : SamePipeline x y) : OnlyAt spot y :=
  ⟨fun k => by rw [hxy.slotV]; exact h.slots k, fun p => by rw [hxy.st]; exact h.hands p⟩

/-- A quiescent pipeline holds no block (46_pipeline R306). -/
theorem onlyAt_of_quiescent (h : quiescent x = true) : OnlyAt .waiting x := by
  obtain ⟨-, hslots, hworkers⟩ := quiescent_iff.1 h
  exact ⟨fun k => ⟨fun hv => Bool.noConfusion ((hslots k).symm.trans hv), nofun⟩, fun p => ⟨fun hp => (hworkers p hp).elim, nofun⟩⟩

/-- The chain of a block that has come out is empty. -/
theorem OnlyAt.quiescent (h : OnlyAt .out x) (hc : x.closing = false) : quiescent x = true :=
  quiescent_iff.2 ⟨hc, fun k => Bool.of_not_eq_true fun hv => (nomatch (h.slots k).1 hv), fun p hp => (nomatch (h.hands p).1 hp)⟩

theorem OnlyAt.push (h : OnlyAt .waiting x) (bytes : List Byte) : OnlyAt (.slot 0) (pushBlock bytes x) := by
  refine ⟨fun k => ?_, fun p => ⟨fun hp => (nomatch (h.hands p).1 hp), nofun⟩⟩
  rw [slot_pushBlock]
  split
  case isTrue hk => simp [hk]
  case isFalse hk => exact ⟨fun hv => (nomatch (h.slots k).1 hv), fun e => (hk (Spot.slot.inj e).symm).elim⟩

theorem OnlyAt.pop {k : Fin 10} (h : OnlyAt (.slot k) x) : OnlyAt .out (popBlock k x) := by
  refine ⟨fun j => ⟨fun hj => ?_, nofun⟩, fun p => ?_⟩
  · rw [slot_popBlock] at hj
    split at hj
    case isTrue => cases hj
    case isFalse hne => exact (hne (Spot.slot.inj ((h.slots j).1 hj)).symm).elim
  · rw [worker_popBlock]
    exact ⟨fun hp => (nomatch (h.hands p).1 hp), nofun⟩

theorem OnlyAt.take {p : Fin 9} (h : OnlyAt (.slot (leftSlot p)) x) (r : List Byte) (last : Bool) :
    OnlyAt (.hand p) (takeBlock p r last x) := by
  refine ⟨fun k => ⟨fun hk => ?_, nofun⟩, fun q => ?_⟩
  · rw [slot_takeBlock] at hk
    split at hk
    case isTrue => cases hk
    case isFalse hne => exact (hne (Spot.slot.inj ((h.slots k).1 hk)).symm).elim
  · rw [worker_takeBlock]
    split
    case isTrue hq => simp [hq]
    case isFalse hq => exact ⟨fun hst => (nomatch (h.hands q).1 hst), fun e => (hq (Spot.hand.inj e).symm).elim⟩

theorem OnlyAt.send {p : Fin 9} (h : OnlyAt (.hand p) x) : OnlyAt (.slot (rightSlot p)) (workerSend p x) := by
  refine ⟨fun k => ?_, fun q => ⟨fun hq => ?_, nofun⟩⟩
  · rw [slot_workerSend]
    split
    case isTrue hk => simp [hk]
    case isFalse hk => exact ⟨fun hv => (nomatch (h.slots k).1 hv), fun e => (hk (Spot.slot.inj e).symm).elim⟩
  · rw [worker_workerSend] at hq
    split at hq
    case isTrue => dsimp only at hq; split at hq <;> cases hq
    case isFalse hne => exact (hne (Spot.hand.inj ((h.hands q).1 hq)).symm).elim

end

/-! ### A push and its pop -/

/-- What the host has left to do, and what it got back, with the block at a spot. -/
def HostSide (bytes : List Byte) (x : State) : Spot → Prop
  | .waiting => x.hostq = [.push bytes, .pop] ∧ x.replies = []
  | .slot _ | .hand _ => x.hostq = [.pop] ∧ x.replies = []
  | .out => x.hostq = [] ∧ ∃ r, x.replies = [.block r] ∧ r.length ≤ 32

/-- A built pipeline that is not closing, with the block of a push and its pop at a spot. -/
structure InTransit (bytes : List Byte) (spot : Spot) (x : State) : Prop where
  arbiter : ArbiterOk x
  memories : MemoriesOk x
  built : built x = true
  closing : x.closing = false
  only : OnlyAt spot x
  host : HostSide bytes x spot

section
variable {bytes : List Byte} {spot : Spot} {x y : State}

/-- A step that leaves the chain and the host's side alone leaves the block where it is. -/
theorem InTransit.same (h : InTransit bytes spot x) (hxy : SamePipeline x y) (hm : MemoriesOk y) (hq : y.hostq = x.hostq)
    (hr : y.replies = x.replies) : InTransit bytes spot y where
  arbiter := h.arbiter.same hxy
  memories := hm
  built := (built_eq hxy.estate).trans h.built
  closing := hxy.closing.trans h.closing
  only := h.only.same hxy
  host := by
    have host := h.host
    cases spot <;> simpa only [HostSide, hq, hr] using host

/-- Only the sentinel has length 0, and a pipeline that is not closing has none (46_pipeline R322). -/
theorem InTransit.slotLen_ne_zero (h : InTransit bytes spot x) {k : Fin 10} (hv : (slot x k).v = true) : (slot x k).len ≠ 0#6 :=
  fun hl => Bool.noConfusion ((h.arbiter.sentinelInSlot k ⟨hv, hl⟩).1.symm.trans h.closing)

/-- The worker's transform answers the host nothing. -/
theorem workerTransform_outside {p : Fin 9} {b r : List Byte} (h : workerTransform p x b = some (.ok (y, r))) :
    y.hostq = x.hostq ∧ y.replies = x.replies := by
  obtain ⟨u, v, r', -, hv, -, he⟩ := workerTransform_ok h
  obtain rfl : y = (blockOut u v r').1 := congrArg Prod.fst he
  rw [blockOut_hostq, blockOut_replies]
  rcases hv with ⟨-, rfl⟩ | ⟨-, hv⟩
  · exact ⟨by simp, by simp⟩
  · cases hv <;> exact ⟨rfl, rfl⟩

/-- A worker's turn leaves the block at a spot. -/
theorem InTransit.workerTurn (h : InTransit bytes spot x) {p : Fin 9} (hturn : workerTurn p x = .next y) :
    ∃ spot', InTransit bytes spot' y := by
  have ha := h.arbiter.workerTurn hturn
  have hm := h.memories.workerTurn hturn
  have host := h.host
  rcases workerTurn_cases hturn with ⟨-, -, rfl⟩ | ⟨hr, hl, rfl⟩ | ⟨-, -, e, -, rfl⟩ | ⟨hr, hl, v, r, ht, rfl⟩ | ⟨-, hs, rfl⟩
  · exact ⟨spot, h⟩
  · exact (h.slotLen_ne_zero (receiveEnabled_iff.1 hr).2.2 hl).elim
  · exact ⟨spot, h.same (.raiseFault _ _ _ _ x) hm (raiseFault_hostq ..) (raiseFault_replies ..)⟩
  · obtain rfl := (h.only.slots _).1 (receiveEnabled_iff.1 hr).2.2
    obtain ⟨hpipe, -⟩ := workerTransform_pipeline ht
    obtain ⟨hq, hre⟩ := workerTransform_outside ht
    exact ⟨.hand p, ha, hm, (built_eq hpipe.estate).trans h.built, hpipe.closing.trans h.closing,
      (h.only.same hpipe).take r false, hq.trans host.1, hre.trans host.2⟩
  · obtain rfl := (h.only.hands p).1 (sendEnabled_iff.1 hs).2.1
    exact ⟨.slot (rightSlot p), ha, hm, h.built, h.closing, h.only.send, host⟩

theorem samePipeline_setHostq (x : State) (q : List HostAction) : SamePipeline x { x with hostq := q } :=
  .of_eq rfl rfl rfl rfl rfl rfl rfl rfl rfl

theorem MemoriesOk.setHostq (h : MemoriesOk x) (q : List HostAction) : MemoriesOk { x with hostq := q } := { h with }

/-- The push happens (46_pipeline R312). -/
theorem InTransit.push (h : InTransit bytes .waiting x) (hne : bytes ≠ []) (hl : bytes.length ≤ 32) (hready : inReady x = true) :
    InTransit bytes (.slot 0) (pushBlock bytes { x with hostq := [.pop] }) where
  arbiter := (h.arbiter.same (samePipeline_setHostq x [.pop])).push hl hready
  memories := (h.memories.setHostq [.pop]).push hl
  built := h.built
  closing := by
    show (x.closing || bytes.isEmpty) = false
    simp [h.closing, hne]
  only := (h.only.same (samePipeline_setHostq x [.pop])).push bytes
  host := ⟨rfl, h.host.2⟩

/-- The pop happens (46_pipeline R314): what comes out is the block, at most 32 bytes long. -/
theorem InTransit.pop {k : Fin 10} (h : InTransit bytes (.slot k) x) (hk : outSlot x = some k) (hvalid : outValid x = true) :
    InTransit bytes .out (popBlock k { x with hostq := [] }) := by
  have hv : (slot x k).v = true := (h.only.slots k).2 rfl
  have hlen : (slot { x with hostq := [] } k).len ≠ 0#6 := h.slotLen_ne_zero hv
  have hpipe := samePipeline_setHostq x []
  have hkeeps : (popBlock k { x with hostq := [] }).estate = x.estate ∧ (popBlock k { x with hostq := [] }).closing = x.closing ∧
      (popBlock k { x with hostq := [] }).hostq = [] ∧
      (popBlock k { x with hostq := [] }).replies = x.replies ++ [.block (slotBlock (slot x k))] := by
    simp only [popBlock, if_neg hlen]
    exact ⟨rfl, rfl, rfl, rfl⟩
  obtain ⟨hestate, hclosing, hhostq, hreplies⟩ := hkeeps
  refine ⟨(h.arbiter.same hpipe).pop hk hvalid, (h.memories.setHostq []).pop k, (built_eq hestate).trans h.built,
    hclosing.trans h.closing, (h.only.same hpipe).pop, hhostq, slotBlock (slot x k), ?_, ?_⟩
  · rw [hreplies, h.host.2, List.nil_append]
  · rw [slotBlock, readBytes_length]
    exact h.memories.slotLen k hv

/-- Where the pop is not blocked, the block is at the output end (46_pipeline R313). -/
theorem OnlyAt.of_outValid (h : OnlyAt spot x) (hvalid : outValid x = true) : ∃ k, outSlot x = some k ∧ spot = .slot k := by
  unfold outValid at hvalid
  cases hk : outSlot x with
  | none => simp [hk] at hvalid
  | some k =>
    simp only [hk, Bool.and_eq_true] at hvalid
    exact ⟨k, rfl, (h.slots k).1 hvalid.2⟩

/-- The pop happens or is blocked. -/
theorem InTransit.popTurn (h : InTransit bytes spot x) (hq : x.hostq = [.pop]) (hturn : hostTurn x = .next y) :
    ∃ spot', InTransit bytes spot' y := by
  simp only [Machine.hostTurn, hq, actionBlocked, Bool.not_eq_true'] at hturn
  split at hturn
  case isTrue =>
    cases hturn
    exact ⟨spot, h⟩
  case isFalse hb =>
    have hvalid : outValid x = true := by simpa using hb
    obtain ⟨k, hk, rfl⟩ := h.only.of_outValid hvalid
    have hk' : outSlot { x with hostq := [] } = some k := hk
    simp only [performAction, hk'] at hturn
    cases hturn
    exact ⟨.out, h.pop hk hvalid⟩

/-- The host's turn leaves the block at a spot: it pushes it, pops it, or is blocked. -/
theorem InTransit.hostTurn (h : InTransit bytes spot x) (hne : bytes ≠ []) (hl : bytes.length ≤ 32)
    (hturn : hostTurn x = .next y) : ∃ spot', InTransit bytes spot' y := by
  cases spot with
  | slot k => exact h.popTurn h.host.1 hturn
  | hand p => exact h.popTurn h.host.1 hturn
  | out =>
    simp only [Machine.hostTurn, h.host.1] at hturn
    cases hturn
    exact ⟨.out, h⟩
  | waiting =>
    simp only [Machine.hostTurn, h.host.1, actionBlocked, performAction, Config.blockBytes, hl, decide_true, Bool.true_and,
      if_true, Bool.not_eq_true'] at hturn
    split at hturn
    case isTrue =>
      cases hturn
      exact ⟨.waiting, h⟩
    case isFalse hb =>
      cases hturn
      exact ⟨.slot 0, h.push hne hl (by simpa using hb)⟩

/-- No RESET is pending, so the host gives nothing up (70_reset R390). -/
theorem InTransit.hostResetTurn (h : InTransit bytes spot x) : hostResetTurn x = .next x := by
  have host := h.host
  unfold Machine.hostResetTurn
  cases spot <;> simp only [host.1]

theorem InTransit.step (h : InTransit bytes spot x) (hne : bytes ≠ []) (hl : bytes.length ≤ 32) (hstep : step x = .next y) :
    ∃ spot', InTransit bytes spot' y := by
  obtain ⟨d, q, hturn⟩ := step_cases hstep
  have h' : InTransit bytes spot { x with draws := d, sched := q } :=
    h.same (.of_eq rfl rfl rfl rfl rfl rfl rfl rfl rfl) { h.memories with } rfl rfl
  rcases hturn with ⟨p, hp⟩ | hp | hp
  · exact h'.workerTurn hp
  · exact h'.hostTurn hne hl hp
  · rw [h'.hostResetTurn] at hp
    cases hp
    exact ⟨spot, h'⟩

theorem InTransit.run (hne : bytes ≠ []) (hl : bytes.length ≤ 32) {n : Nat} (h : InTransit bytes spot x)
    (hrun : runSteps n x = some y) : ∃ spot', InTransit bytes spot' y := by
  induction n generalizing spot x with
  | zero =>
    cases hrun
    exact ⟨spot, h⟩
  | succ n ih =>
    rw [runSteps] at hrun
    split at hrun
    · rename_i z hz
      obtain ⟨spot', h'⟩ := h.step hne hl hz
      exact ih h' hrun
    · cases hrun
    · cases hrun

/-- With a block returned, it is out. -/
theorem InTransit.out_of_replies (h : InTransit bytes spot x) {r : List Byte} (hr : x.replies = [.block r]) :
    spot = .out ∧ r.length ≤ 32 := by
  have host := h.host
  cases spot with
  | out =>
    obtain ⟨-, r', hr', hlen⟩ := host
    cases hr.symm.trans hr'
    exact ⟨rfl, hlen⟩
  | _ =>
    obtain ⟨-, hnil⟩ := host
    cases hr.symm.trans hnil

end

/-- A push and its pop of a block leave a quiescent pipeline built and quiescent, and what comes out fits a block (R282). -/
theorem pushPop_keeps {s t : State} {bytes r : List Byte} (ha : ArbiterOk s) (hm : MemoriesOk s) (hb : built s = true)
    (hquiet : quiescent s = true) (hne : bytes ≠ []) (hl : bytes.length ≤ 32) (h : pushPop bytes s = some (r, t)) :
    built t = true ∧ quiescent t = true ∧ r.length ≤ 32 := by
  obtain ⟨v, hrun, hr, rfl⟩ := pushPop_ok h
  have start : InTransit bytes .waiting
      { s with sched := throughSchedule s.nb.toNat, hostq := [.push bytes, .pop], replies := [] } :=
    ⟨ha.same (.of_eq rfl rfl rfl rfl rfl rfl rfl rfl rfl), { hm with }, hb, (quiescent_iff.1 hquiet).1,
      onlyAt_of_quiescent hquiet, rfl, rfl⟩
  obtain ⟨spot, hv⟩ := start.run hne hl hrun
  obtain ⟨rfl, hlen⟩ := hv.out_of_replies hr
  exact ⟨hv.built, hv.only.quiescent hv.closing, hlen⟩

theorem probeBytes_length (n : Nat) (last : List Byte) : (probeBytes n last).length = 32 := by simp [probeBytes]

/-- Each read keeps a source a source (R282). -/
theorem SourceOk.readOne {src src' : KeystreamSource} {b : Byte} (h : SourceOk src) (ha : ArbiterOk src.block)
    (hm : MemoriesOk src.block) (hr : readOne src = some (b, src')) : SourceOk src' := by
  rcases readOne_ok hr with ⟨hb, rfl⟩ | ⟨-, rest, t, hp, rfl⟩
  · exact ⟨h.built, h.quiescent, h.left, (List.getElem?_eq_some_iff.1 hb).1⟩
  · have hprobe := probeBytes_length src.probes src.left
    obtain ⟨hb, hq, hlen⟩ := pushPop_keeps ha hm h.built h.quiescent (List.ne_nil_of_length_pos (by omega)) hprobe.le hp
    exact ⟨hb, hq, hlen, by simp⟩

end Sys2Proof.Machine
end

section
/-! The values the host draws from a source (45_keystream_host R283, R284, R288, R289): whatever bytes the source gives, they are in range,
and a drawn table or ordering is a permutation. -/

namespace Sys2Proof.Machine

-- As in the tests: with every proof in a thread of its own the check runs into its memory limit.
set_option Elab.async false

/-! ### `Intn` and `Perm` (R283, R284) -/

section
variable {fuel : Nat} {src src' : KeystreamSource}

/-- A candidate is answered only where it is below the bound (R283). -/
theorem intn_lt {max v : Nat} (h : intn fuel max src = some (v, src')) : v < max := by
  induction fuel generalizing src with
  | zero =>
    match max, h with
    | 1, h => cases h; exact Nat.zero_lt_one
  | succ fuel ih =>
    match max, h with
    | 1, h => cases h; exact Nat.zero_lt_one
    | max + 2, h =>
      rw [intn] at h
      · split at h
        · cases h
        · split at h
          case isTrue hlt => cases h; exact hlt
          case isFalse => exact ih h
      all_goals omega

/-- Swapping two places keeps the elements. -/
theorem swapPlaces_perm {a : List Nat} {i j : Nat} (hi : i < a.length) (hj : j < a.length) : (swapPlaces a i j).Perm a := by
  rw [swapPlaces, List.getD_eq_getElem _ _ hi, List.getD_eq_getElem _ _ hj]
  exact List.set_set_perm hi hj

/-- The loop only swaps places, each inside the list (R284). -/
theorem shuffle_perm {i : Nat} {a b : List Nat} (hi : i < a.length ∨ i = 0)
    (h : shuffle fuel i a src = some (b, src')) : b.Perm a := by
  induction i generalizing a src with
  | zero =>
    cases h
    exact .refl _
  | succ i ih =>
    rw [shuffle] at h
    split at h
    · cases h
    · rename_i j src'' hj
      have hlt := intn_lt hj
      have hswap : (swapPlaces a (i + 1) j).Perm a := swapPlaces_perm (by omega) (by omega)
      have hlen := hswap.length_eq
      exact (ih (by omega) h).trans hswap

theorem permDraw_perm {n : Nat} {a : List Nat} (h : permDraw fuel n src = some (a, src')) : a.Perm (List.range n) :=
  shuffle_perm (by rw [List.length_range]; omega) h

/-! ### A rotor Update (R288) -/

theorem drawStep_go_range {size v n : Nat} (h : drawStep.go fuel size n src = some (v, src')) : 1 ≤ v ∧ v < size := by
  induction n generalizing src with
  | zero => cases h
  | succ n ih =>
    rw [drawStep.go] at h
    split at h
    · cases h
    · exact ih h
    · rename_i hv
      cases h
      exact ⟨Nat.succ_pos _, intn_lt hv⟩

/-- Either way of drawing it, the step is not 0 and below the size. -/
theorem drawStep_range {how : StepDraw} {size v : Nat} (h : drawStep how fuel size src = some (v, src')) : 1 ≤ v ∧ v < size := by
  cases how with
  | redrawn => exact drawStep_go_range h
  | shifted =>
    unfold drawStep at h
    dsimp only at h
    split at h
    · cases h
    · rename_i hv
      have hlt := intn_lt hv
      cases h
      omega

/-- The value of a draw is one R288 allows for a rotor of `size` bits. -/
def RotorDrawn (size : Nat) (v : RotorValues) : RotorDraw → Prop
  | .start => v.start < size
  | .step => 1 ≤ v.step ∧ v.step < size
  | .fresh => v.fresh.length = (size + 7) / 8

/-- A draw gives its own value and leaves the others. -/
theorem drawRotorValue_drawn {o : DrawOrder} {size : Nat} {d : RotorDraw} {v v' : RotorValues}
    (h : drawRotorValue o fuel size d v src = some (v', src')) :
    RotorDrawn size v' d ∧ ∀ e, RotorDrawn size v e → RotorDrawn size v' e := by
  rcases drawRotorValue_ok h with ⟨rfl, x, hx, rfl⟩ | ⟨rfl, x, hx, rfl⟩ | ⟨rfl, x, hx, rfl⟩
  · refine ⟨intn_lt hx, fun e he => ?_⟩
    cases e
    case start => exact intn_lt hx
    all_goals exact he
  · refine ⟨drawStep_range hx, fun e he => ?_⟩
    cases e
    case step => exact drawStep_range hx
    all_goals exact he
  · refine ⟨readKeystream_length hx, fun e he => ?_⟩
    cases e
    case fresh => exact readKeystream_length hx
    all_goals exact he

theorem drawRotorValues_drawn {o : DrawOrder} {size : Nat} {ds : List RotorDraw} {v v' : RotorValues}
    (h : drawRotorValues o fuel size ds v src = some (v', src')) :
    (∀ d ∈ ds, RotorDrawn size v' d) ∧ ∀ e, RotorDrawn size v e → RotorDrawn size v' e := by
  induction ds generalizing v src with
  | nil =>
    cases h
    exact ⟨nofun, fun _ he => he⟩
  | cons d ds ih =>
    rw [drawRotorValues] at h
    split at h
    · cases h
    · rename_i hd
      obtain ⟨hown, hothers⟩ := drawRotorValue_drawn hd
      obtain ⟨hrest, hkept⟩ := ih h
      exact ⟨List.forall_mem_cons.2 ⟨hkept d hown, hrest⟩, fun e he => hkept e (hothers e he)⟩

/-- In whatever order they are drawn, the three values are in range (R288). -/
theorem drawRotor_drawn {o : DrawOrder} {size : Nat} {v : RotorValues} (ho : o.ok) (h : drawRotor o fuel size src = some (v, src'))
    (d : RotorDraw) : RotorDrawn size v d :=
  (drawRotorValues_drawn h).1 d (ho.1.mem_iff.2 (by cases d <;> simp))

/-! ### A permutator Update (R289) -/

/-- The value of a draw is the permutation R289 says. -/
def PermDrawn (v : PermValues) : PermDraw → Prop
  | .table => v.table.Perm (List.range 256)
  | .ordering => v.ordering.Perm (List.range 4)

/-- Everything one draw of a permutator Update can do (R289). -/
theorem drawPermValue_ok {d : PermDraw} {v v' : PermValues} (h : drawPermValue fuel d v src = some (v', src')) :
    (d = .table ∧ ∃ a, permDraw fuel 256 src = some (a, src') ∧ v' = { v with table := a }) ∨
    (d = .ordering ∧ ∃ a, permDraw fuel 4 src = some (a, src') ∧ v' = { v with ordering := a }) := by
  cases d <;> obtain ⟨⟨a, x⟩, ha, he⟩ := Option.map_eq_some_iff.1 h <;> cases he
  · exact .inl ⟨rfl, a, ha, rfl⟩
  · exact .inr ⟨rfl, a, ha, rfl⟩

/-- A draw gives its own value and leaves the other. -/
theorem drawPermValue_drawn {d : PermDraw} {v v' : PermValues} (h : drawPermValue fuel d v src = some (v', src')) :
    PermDrawn v' d ∧ ∀ e, PermDrawn v e → PermDrawn v' e := by
  rcases drawPermValue_ok h with ⟨rfl, a, ha, rfl⟩ | ⟨rfl, a, ha, rfl⟩
  · refine ⟨permDraw_perm ha, fun e he => ?_⟩
    cases e
    case table => exact permDraw_perm ha
    case ordering => exact he
  · refine ⟨permDraw_perm ha, fun e he => ?_⟩
    cases e
    case table => exact he
    case ordering => exact permDraw_perm ha

theorem drawPermValues_drawn {ds : List PermDraw} {v v' : PermValues}
    (h : drawPermValues fuel ds v src = some (v', src')) :
    (∀ d ∈ ds, PermDrawn v' d) ∧ ∀ e, PermDrawn v e → PermDrawn v' e := by
  induction ds generalizing v src with
  | nil =>
    cases h
    exact ⟨nofun, fun _ he => he⟩
  | cons d ds ih =>
    rw [drawPermValues] at h
    split at h
    · cases h
    · rename_i hd
      obtain ⟨hown, hothers⟩ := drawPermValue_drawn hd
      obtain ⟨hrest, hkept⟩ := ih h
      exact ⟨List.forall_mem_cons.2 ⟨hkept d hown, hrest⟩, fun e he => hkept e (hothers e he)⟩

/-- A drawn ordering puts the four lengths in some order. -/
theorem orderedLengths_perm (o : DrawOrder) (lengths : Vector Nat 4) {a : List Nat} (h : a.Perm (List.range 4)) :
    (orderedLengths o lengths a).toList.Perm lengths.toList := by
  have hp : (reorder o.reordering a lengths.toList).Perm lengths.toList := reorder_perm _ (by simpa using h)
  have hlen : (reorder o.reordering a lengths.toList).length = 4 := by simpa using hp.length_eq
  have hlist : (orderedLengths o lengths a).toList = reorder o.reordering a lengths.toList := by
    refine List.ext_getElem (by simp [hlen]) fun i hi hi' => ?_
    simp [orderedLengths, hi']
  rw [hlist]
  exact hp

/-- In whatever order they are drawn, the lengths are reordered and the table lists every value (R289). -/
theorem drawPerm_perm {o : DrawOrder} {lengths l : Vector Nat 4} {table : List Byte} (ho : o.ok)
    (h : drawPerm o fuel lengths src = some ((l, table), src')) :
    l.toList.Perm lengths.toList ∧ table.Perm ((List.range 256).map (BitVec.ofNat 8)) := by
  unfold drawPerm at h
  split at h
  · cases h
  · rename_i v x hv
    have drawn (d : PermDraw) : PermDrawn v d := (drawPermValues_drawn hv).1 d (ho.2.mem_iff.2 (by cases d <;> simp))
    cases h
    exact ⟨orderedLengths_perm o lengths (drawn .ordering), (drawn .table).map _⟩

end

/-- Settles O59, one lemma per draw; a read on which a new block goes through the pipeline is `pushPop_keeps`. -/
theorem keystreamDraws : Obligations.KeystreamDraws := by
  refine ⟨fun s hb hq => ⟨⟨hb, hq, Nat.zero_le _, Nat.le_refl 0⟩, rfl, rfl⟩, fun _ _ _ hsrc ha hm hr => hsrc.readOne ha hm hr,
    fun _ _ _ _ _ h => intn_lt h, fun _ _ _ _ _ h => permDraw_perm h, fun _ _ _ _ _ _ ho h => ?rotor,
    fun _ _ _ _ _ _ _ ho h => drawPerm_perm ho h⟩
  have drawn := drawRotor_drawn ho h
  obtain ⟨hpos, hlt⟩ := drawn .step
  exact ⟨drawn .start, hpos, hlt, drawn .fresh⟩

end Sys2Proof.Machine
end

section
/-! The engine state along a step (46_pipeline R301, R322): the arbiter's invariants hold after every step, and only four host actions
change `ESTATE`. -/

namespace Sys2Proof.Machine

-- As in the tests: with every proof in a thread of its own the check runs into its memory limit.
set_option Elab.async false

/-! ### The arbiter (46_pipeline R322) -/

/-- Settles O50: a step is a move of a worker or of the host, and each move keeps the invariants. -/
theorem stepKeepsArbiter : Obligations.StepKeepsArbiter := fun _ _ a h => a.step h

/-! ### `ESTATE` (46_pipeline R301) -/

section
variable {s t : State}

/-- No worker changes the engine state. -/
theorem workerTurn_estate {p : Fin 9} (h : workerTurn p s = .next t) : t.estate = s.estate := by
  rcases workerTurn_cases h with ⟨-, -, rfl⟩ | ⟨-, -, rfl⟩ | ⟨-, -, e, -, rfl⟩ | ⟨-, -, t', r, ht, rfl⟩ | ⟨-, -, rfl⟩
  · rfl
  · rfl
  · exact raiseFault_estate _ _ _ _ s
  · exact (workerTransform_pipeline ht).1.estate
  · rfl

/-- The pop of the sentinel ends the pipeline, any other leaves the engine state alone (46_pipeline R314). -/
theorem popBlock_estate (k : Fin 10) (s : State) :
    (popBlock k s).estate = if (slot s k).len = 0#6 then .closed else s.estate := by
  unfold popBlock
  dsimp only
  split <;> rfl

/-- An action that happens at the output end finds a pipeline built and a block there (46_pipeline R313). -/
theorem outValid_of_pop {k : Fin 10} (hb : actionBlocked s .pop = false) (hk : outSlot s = some k) :
    built s = true ∧ (slot s k).v = true := by
  have ho : outValid s = true := by simpa [actionBlocked] using hb
  simp only [outValid, hk, Bool.and_eq_true] at ho
  obtain ⟨⟨-, hbuilt⟩, hv⟩ := ho
  exact ⟨hbuilt, hv⟩

/-- The rows of the transition table that host action `x` stands for (46_pipeline R301). -/
inductive EStateEvent (x : HostAction) (s t : State) : Prop where
  | none : t.estate = s.estate → EStateEvent x s t
  | reset : x = .reset → t.estate = .created → EStateEvent x s t
  | init : x = .cmd 0x01000000#32 → s.estate = .created → t.estate = .initialized → EStateEvent x s t
  | build : x = .cmd 0x03000000#32 → s.estate = .initialized ∨ s.estate = .closed →
      (s.dir = .encrypt ∧ t.estate = .encBuilt) ∨ (s.dir = .decrypt ∧ t.estate = .decBuilt) → EStateEvent x s t
  | close (k : Fin 10) : x = .pop → built s = true → t.estate = .closed → outSlot s = some k → slotSentinel s k → EStateEvent x s t

/-- The state a build leaves is that of the direction it was built in (46_pipeline R303). -/
theorem buildPipeline_estate (h : s.dir ≠ .none) :
    (s.dir = .encrypt ∧ (buildPipeline s).estate = .encBuilt) ∨ (s.dir = .decrypt ∧ (buildPipeline s).estate = .decBuilt) := by
  have he : (buildPipeline s).estate = builtState s.dir := rfl
  cases hd : s.dir with
  | none => exact (h hd).elim
  | encrypt => exact .inl ⟨rfl, by rw [he, hd]; rfl⟩
  | decrypt => exact .inr ⟨rfl, by rw [he, hd]; rfl⟩

theorem runCommand_event {w : Cmd} (h : runCommand w s = .next t) : EStateEvent (.cmd w) s t := by
  rcases runCommand_cases h with ⟨e, -, rfl⟩ | ⟨i, hi, h⟩
  · exact .none (raiseFault_estate _ _ _ _ s)
  · have hw := encode_of_decode hi
    rcases exec_pipeline h with h | ⟨rfl, -, he, rfl⟩ | ⟨rfl, -, he, -, -, hd, rfl⟩
    · exact .none h.estate
    · exact .init (by rw [← hw]; rfl) he rfl
    · exact .build (by rw [← hw]; rfl) he (buildPipeline_estate hd)

theorem performAction_event {x : HostAction} (hb : actionBlocked s x = false) (h : performAction x s = .next t) :
    EStateEvent x s t := by
  rcases performAction_cases h with ⟨a, v, -, rfl⟩ | ⟨a, -, rfl⟩ | ⟨w, rfl, h⟩ | ⟨bytes, -, -, rfl⟩ | ⟨bytes, -, -, rfl⟩ |
    ⟨k, rfl, hk, rfl⟩ | ⟨-, -, rfl⟩ | ⟨rfl, rfl⟩
  · exact .none (SamePipeline.hostWrite a v s).estate
  · exact .none (SamePipeline.hostRead a s).estate
  · exact runCommand_event h
  · exact .none rfl
  · exact .none (raiseFault_estate _ _ _ _ s)
  · obtain ⟨hbuilt, hv⟩ := outValid_of_pop hb hk
    by_cases hl : (slot s k).len = 0#6
    · exact .close k rfl hbuilt ((popBlock_estate k s).trans (if_pos hl)) hk ⟨hv, hl⟩
    · exact .none ((popBlock_estate k s).trans (if_neg hl))
  · exact .none rfl
  · exact .reset rfl rfl

end

/-- Settles O12: a step that changes `ESTATE` is a turn of the host, and its action is one of the table. -/
theorem engineStateTransitions : Obligations.EngineStateTransitions := by
  intro s t h
  obtain ⟨d, q, ⟨p, h⟩ | h | h⟩ := step_cases h
  · exact .inl (workerTurn_estate (s := { s with draws := d, sched := q }) h)
  · rcases hostTurn_cases h with rfl | ⟨x, rest, hq, hb, h⟩
    · exact .inl rfl
    have hq : s.hostq = x :: rest := hq
    have hb : actionBlocked { s with draws := d, sched := q, hostq := rest } x = false := by cases x <;> exact hb
    rw [hq]
    cases performAction_event hb h with
    | none h => exact .inl h
    | reset hx h => exact .inr (.inl ⟨h, by simp [hx]⟩)
    | init hx he h => exact .inr (.inr (.inl ⟨congrArg some hx, he, h⟩))
    | build hx he h => exact .inr (.inr (.inr (.inl ⟨congrArg some hx, he, h⟩)))
    | close k hx hbuilt h hk hs => exact .inr (.inr (.inr (.inr ⟨congrArg some hx, hbuilt, h, k, hk, hs⟩)))
  · rcases hostResetTurn_cases h with rfl | ⟨x, rest, hq, -, rfl⟩
    · exact .inl rfl
    have hq : s.hostq = x :: .reset :: rest := hq
    exact .inr (.inl ⟨rfl, by rw [hq]; simp⟩)

end Sys2Proof.Machine
end

section
/-! The system commands and the engine state each command asks for (46_pipeline R302, R315, R316, R320): four commands ask for one, and
no rule of a command raises `ILLEGAL_STATE` by itself. -/

namespace Sys2Proof.Machine

-- As in the tests: with every proof in a thread of its own the check runs into its memory limit.
set_option Elab.async false

/-! ### NOP, ENG.INIT and ENG.SETDIR -/

section
variable {s : State}

theorem exec_engInit_of_created (hf : s.faulted = false) (h : s.estate = .created) :
    exec .engInit s = .next { s with estate := .initialized } :=
  command_of_ok hf (by rw [h]; rfl)

/-- A command outside its engine states raises `ILLEGAL_STATE` (30_encoding R103 step 5). -/
theorem exec_of_illegal {i : Instr} (hf : s.faulted = false) (hl : legalIn i s.estate = false) :
    exec i s = .next (commandFaulted i .illegalState (unitOfInstr i) s) := by
  obtain ⟨body, h⟩ := exec_is_command i s
  rw [h, command_of_illegal hf hl]

theorem exec_engInit_of_not_created (hf : s.faulted = false) (h : s.estate ≠ .created) :
    exec .engInit s = .next (commandFaulted .engInit .illegalState 0xF s) :=
  exec_of_illegal hf (beq_eq_false_iff_ne.2 h)

/-- The word of ENG.SETDIR: its opcode above 16 zero bits and the direction. -/
theorem encode_engSetdir (d : Byte) : encode (.engSetdir d) = 0x020000#24 ++ d := by
  rw [show 0x020000#24 = 0x02#8 ++ 0#16 from rfl, BitVec.append_assoc]
  rfl

theorem exec_engSetdir_of_dir {d : Byte} {x : Dir} (hf : s.faulted = false) (h : dirOfCode d = some x) :
    exec (.engSetdir d) s = .next { s with dir := x } := by
  show execEngSetdir d s = _
  rw [execEngSetdir, h]
  exact command_of_ok hf rfl

theorem exec_engSetdir_of_no_dir {d : Byte} (hf : s.faulted = false) (h : dirOfCode d = none) :
    exec (.engSetdir d) s = .next (commandFaulted (.engSetdir d) .badDirection 0xF s) := by
  show execEngSetdir d s = _
  rw [execEngSetdir, h]
  exact command_of_error hf rfl

end

/-- Settles O41: each command has one rule, ENG.INIT one engine state and ENG.SETDIR two directions. -/
theorem nopInitSetdir : Obligations.NopInitSetdir := by
  intro s hf
  refine ⟨rfl, rfl, encode_engSetdir, command_of_ok hf rfl,
    exec_engInit_of_created hf, exec_engInit_of_not_created hf, exec_engSetdir_of_dir hf rfl, exec_engSetdir_of_dir hf rfl,
    fun d h1 h2 => exec_engSetdir_of_no_dir hf ((if_neg h1).trans (if_neg h2))⟩

/-! ### No rule raises `ILLEGAL_STATE` (46_pipeline R302) -/

/-- What the rule of a command may answer in a state that is not faulted: a state that is not faulted, or a fault of its own. -/
def OwnAnswer : Except Trap State → Prop
  | .ok t => t.faulted = false
  | .error e => e.cause ≠ .illegalState

section
variable {s : State}

theorem OwnAnswer.onRotor {u : UnitCode} {body : Fin 6 → Except Trap State} (h : ∀ k, OwnAnswer (body k)) :
    OwnAnswer (onRotor u body) := by
  unfold Machine.onRotor
  split
  · exact nofun
  · exact h _

theorem OwnAnswer.onPerm {u : UnitCode} {body : Fin 2 → Except Trap State} (h : ∀ k, OwnAnswer (body k)) :
    OwnAnswer (onPerm u body) := by
  unfold Machine.onPerm
  split
  · exact nofun
  · exact h _

theorem OwnAnswer.ite {p : Prop} [Decidable p] {x y : Except Trap State} (hx : OwnAnswer x) (hy : OwnAnswer y) :
    OwnAnswer (if p then x else y) := by
  split
  · exact hx
  · exact hy

theorem OwnAnswer.onValidRotor {u : UnitCode} {body : Fin 6 → Except Trap State} (h : ∀ k, OwnAnswer (body k)) :
    OwnAnswer (onValidRotor u s body) :=
  .onRotor fun k => .ite (h k) nofun

theorem OwnAnswer.onValidPerm {u : UnitCode} {body : Fin 2 → Except Trap State} (h : ∀ k, OwnAnswer (body k)) :
    OwnAnswer (onValidPerm u s body) :=
  .onPerm fun k => .ite (h k) nofun

theorem OwnAnswer.withBlock {u : UnitCode} {body : List Byte → Except Trap State} (h : ∀ b, OwnAnswer (body b)) :
    OwnAnswer (withBlock u s body) :=
  .ite nofun (h _)

theorem OwnAnswer.onBlockBit {n : Byte} {body : Except Trap State} (h : OwnAnswer body) : OwnAnswer (onBlockBit n s body) :=
  .withBlock fun _ => .ite nofun h

theorem OwnAnswer.wcTrap {c : Cause} (h : c ≠ .illegalState) : OwnAnswer (wcTrap c) := h

/-- A direct transform by a rule that raises nothing and leaves `FAULTED` alone. -/
theorem OwnAnswer.directTransform {u : UnitId} {f : State → List Byte → Except Trap (State × List Byte)} (hs : s.faulted = false)
    (hf : ∀ b, ∃ t r, f s b = .ok (t, r) ∧ t.faulted = s.faulted) : OwnAnswer (directTransform u s f) := by
  cases h : Machine.directTransform u s f with
  | ok t =>
    refine (directTransform_faulted h fun b t r h => ?_).trans hs
    obtain ⟨t', r', hb, ht⟩ := hf b
    rw [hb] at h
    cases h
    exact ht
  | error e =>
    unfold Machine.directTransform Machine.withBlock at h
    split at h
    · cases h
      exact nofun
    · dsimp only at h
      split at h
      · cases h
      · split at h
        · rename_i he
          obtain ⟨t, r, hb, -⟩ := hf (blkBlock s)
          rw [(transformBlock_error he).2] at hb
          cases hb
        · cases h

theorem OwnAnswer.constructRotor (k : Fin 6) (hs : s.faulted = false) : OwnAnswer (constructRotor k s) :=
  .ite ((renewed_faulted _ _ _).trans hs) nofun

theorem OwnAnswer.constructPerm (k : Fin 2) (hs : s.faulted = false) : OwnAnswer (constructPerm k s) :=
  .ite ((renewed_faulted _ _ _).trans hs) nofun

/-- The faults of a seek are those of its arithmetic (41_rotor R158). -/
theorem rotorSeek_error {r : Rotor} {i : Nat} {c : Cause} (h : rotorSeek r i = .error c) : c ≠ .illegalState := by
  unfold rotorSeek at h
  split at h
  · cases h
  · split at h
    · cases h
      exact nofun
    · split at h <;> cases h
      exact nofun

theorem seekUnit_error {u : UnitId} {e : Trap} (h : seekUnit u s = .error e) : e.cause ≠ .illegalState := by
  cases u with
  | rotor k =>
    simp only [seekUnit, seekRotor] at h
    split at h
    · rename_i c hc
      split at h <;> cases h
      exact rotorSeek_error hc
    · cases h
  | perm k => cases h
  | counter => cases h

theorem seekAll_error {b : State} {ids : List UnitId} {e : Trap} (h : seekAll b s ids = .error e) : e.cause ≠ .illegalState := by
  induction ids generalizing s with
  | nil => cases h
  | cons u rest ih =>
    unfold seekAll at h
    split at h
    · rename_i he
      cases h
      exact seekUnit_error he
    · exact ih h

theorem OwnAnswer.seekAll {ids : List UnitId} (hs : s.faulted = false) : OwnAnswer (seekAll s s ids) := by
  cases h : Machine.seekAll s s ids with
  | ok t => exact (seekAll_faulted h).trans hs
  | error e => exact seekAll_error h

/-- The faults of `CheckOrder` (46_pipeline R303). -/
theorem checkOrder_error {e : Trap} (h : checkOrder s = .error e) : e.cause = .badOrder ∨ e.cause = .unitNotValid := by
  unfold checkOrder at h
  split at h
  · cases h
    exact .inl rfl
  · obtain ⟨-, -, -, -, -, ⟨hc, -⟩ | ⟨hc, -⟩⟩ := checkEntries_error h
    · exact .inl hc
    · exact .inr hc

/-- A rule that begins with `CheckOrder`. -/
theorem OwnAnswer.ofCheckOrder {body : List UnitId → Except Trap State} (h : ∀ ids, OwnAnswer (body ids)) :
    OwnAnswer (match checkOrder s with | .error e => .error e | .ok ids => body ids) := by
  split
  · rename_i e he
    show e.cause ≠ _
    rcases checkOrder_error he with hc | hc <;> rw [hc] <;> exact nofun
  · exact h _

/-- The faults of a string are those of its scan (44_wide_counter R262). -/
theorem parseDigits_error {acc : Nat} {l : List Byte} {c : Cause} (h : parseDigits acc l = .error c) : c ≠ .illegalState := by
  induction l generalizing acc with
  | nil => cases h
  | cons ch t ih =>
    unfold parseDigits at h
    split at h
    · split at h
      · cases h
        exact nofun
      · split at h
        · cases h
          exact nofun
        · exact ih h
    · cases h
      exact nofun

theorem wideInc_error {v : Nat} {c : Cause} (h : wideInc v = .error c) : c ≠ .illegalState := by
  unfold wideInc at h
  split at h <;> cases h
  exact nofun

end

/-- Every command runs a rule that raises a fault of its own or none. -/
theorem exec_rule (i : Instr) {s : State} (hs : s.faulted = false) :
    ∃ body, exec i s = command i s body ∧ OwnAnswer body := by
  have rotorF (k : Fin 6) (b : List Byte) : ∃ t r, rotorTransformF k s b = .ok (t, r) ∧ t.faulted = s.faulted := ⟨_, _, rfl, rfl⟩
  have rotorG (k : Fin 6) (b : List Byte) : ∃ t r, rotorTransformG k s b = .ok (t, r) ∧ t.faulted = s.faulted := ⟨_, _, rfl, rfl⟩
  have permF (k : Fin 2) (b : List Byte) : ∃ t r, permTransformF k s b = .ok (t, r) ∧ t.faulted = s.faulted := ⟨_, _, rfl, rfl⟩
  have permG (k : Fin 2) (b : List Byte) : ∃ t r, permTransformG k s b = .ok (t, r) ∧ t.faulted = s.faulted := ⟨_, _, rfl, rfl⟩
  have renewed (u : UnitId) {t : State} (ht : t.faulted = s.faulted) : OwnAnswer (.ok (renewed s u t)) :=
    ((renewed_faulted s u t).trans ht).trans hs
  have mutated (u : UnitId) {t : State} (ht : t.faulted = s.faulted) : OwnAnswer (.ok (mutated s u t)) :=
    ((mutated_faulted s u t).trans ht).trans hs
  cases i with
  | nop | engInit | wcIszero | wcTostr | ctrIndex | ctrUpdate =>
    refine ⟨.ok _, rfl, ?_⟩
    exact hs
  | engSetdir d =>
    refine ⟨_, rfl, ?_⟩
    split
    · exact nofun
    · exact hs
  | engBuild => exact ⟨_, rfl, .ite nofun (.ofCheckOrder fun _ => .ite nofun hs)⟩
  | engSetindex => exact ⟨_, rfl, .ofCheckOrder fun _ => .seekAll hs⟩
  | engIndex => exact ⟨_, rfl, .ofCheckOrder fun _ => .ite hs hs⟩
  | wcAdd | wcSub | wcMul | wcDiv | wcDivmod | wcMod => exact ⟨_, rfl, .ite nofun hs⟩
  | wcInc =>
    refine ⟨_, rfl, ?_⟩
    split
    · exact .wcTrap (wideInc_error ‹_›)
    · exact hs
  | wcParse =>
    refine ⟨_, rfl, .ite nofun ?_⟩
    split
    · exact .wcTrap (parseDigits_error ‹_›)
    · exact hs
  | rotConstruct u => exact ⟨_, rfl, .onRotor fun k => .constructRotor k hs⟩
  | rotApplyf u => exact ⟨_, rfl, .onValidRotor fun k => .directTransform hs (rotorF k)⟩
  | rotApplyg u => exact ⟨_, rfl, .onValidRotor fun k => .directTransform hs (rotorG k)⟩
  | rotSetindex u =>
    refine ⟨_, rfl, .onValidRotor fun k => ?_⟩
    split
    · rename_i e he
      exact seekUnit_error (u := .rotor k) he
    · exact renewed _ (seekRotor_faulted ‹_›)
  | rotIndex u | rotDump u => exact ⟨_, rfl, .onValidRotor fun _ => hs⟩
  | rotUpdate u => exact ⟨_, rfl, .onValidRotor fun k => .constructRotor k hs⟩
  | prmConstruct u => exact ⟨_, rfl, .onPerm fun k => .constructPerm k hs⟩
  | prmApplyf u => exact ⟨_, rfl, .onValidPerm fun k => .directTransform hs (permF k)⟩
  | prmApplyg u => exact ⟨_, rfl, .onValidPerm fun k => .directTransform hs (permG k)⟩
  | prmSetindex u => exact ⟨_, rfl, .onValidPerm fun k => renewed _ rfl⟩
  | prmIndex u | prmDump u => exact ⟨_, rfl, .onValidPerm fun _ => hs⟩
  | prmUpdate u => exact ⟨_, rfl, .onValidPerm fun k => .constructPerm k hs⟩
  | prmAdvance u | prmRebuild u => exact ⟨_, rfl, .onValidPerm fun k => mutated _ rfl⟩
  | ctrReset | ctrSetindex =>
    refine ⟨.ok _, rfl, ?_⟩
    exact renewed _ rfl
  | ctrApplyf =>
    refine ⟨_, rfl, .withBlock fun b => .ite (((passBlock_faulted _).trans (mutated_faulted _ _ _)).trans hs) ?_⟩
    split
    · rename_i e he
      obtain ⟨-, -, rfl⟩ := unitTransformF_error (u := .counter) he
      exact nofun
    · rename_i t r ht
      obtain ⟨-, rfl, -⟩ := counterTransformF_ok ht
      exact (passBlock_faulted _).trans hs
  | ctrApplyg => exact ⟨_, rfl, .withBlock fun b => (passBlock_faulted _).trans hs⟩
  | bitGet n | bitSet n | bitClr n => exact ⟨_, rfl, .onBlockBit hs⟩

/-- No other cause has the code of `ILLEGAL_STATE` (60_exceptions R352). -/
theorem eq_illegalState_of_causeCode {c : Cause} (h : causeCode c = causeCode .illegalState) : c = .illegalState := by
  cases c <;> first | rfl | exact absurd h (by decide)

/-- A command that raises `ILLEGAL_STATE` does so for its engine state. -/
theorem illegalIn_of_illegalState {i : Instr} {s t : State} (hf : s.faulted = false) (h : exec i s = .next t)
    (hc : t.fault.cause = causeCode .illegalState) (ht : t.faulted = true) : legalIn i s.estate = false := by
  obtain ⟨body, hbody, hown⟩ := exec_rule i hf
  rw [hbody] at h
  rcases command_cases h with ⟨hf', -⟩ | ⟨-, hl, -⟩ | ⟨-, -, e, rfl, rfl⟩ | ⟨-, -, rfl⟩
  · rw [hf] at hf'
    cases hf'
  · exact hl
  · exact (hown (eq_illegalState_of_causeCode hc)).elim
  · rw [show t.faulted = false from hown] at ht
    cases ht

/-- Settles O42: four commands outside their states, and a command that is legal in every state cannot raise `ILLEGAL_STATE`. -/
theorem illegalStateFaults : Obligations.IllegalStateFaults := by
  intro s hf
  refine ⟨exec_engInit_of_not_created hf, fun h1 h2 => exec_of_illegal hf ?build, fun h => ⟨exec_of_illegal hf ?seek,
    exec_of_illegal hf ?index⟩, fun i t h hc ht => ?only⟩
  case build => rw [legalIn, beq_eq_false_iff_ne.2 h1, beq_eq_false_iff_ne.2 h2, Bool.or_self]
  case seek => rw [h]; rfl
  case index => rw [h]; rfl
  case only =>
    by_contra hn
    obtain ⟨h1, h2, h3, h4⟩ : i ≠ .engInit ∧ i ≠ .engBuild ∧ i ≠ .engSetindex ∧ i ≠ .engIndex := by simpa using hn
    have hl := illegalIn_of_illegalState hf h hc ht
    rw [legalIn_of_not_engine h1 h2 h3 h4] at hl
    cases hl

end Sys2Proof.Machine
end

section
/-! `CheckOrder` on a stage list whose entries can stand and on one with an entry that cannot (46_pipeline R303), and the two commands
that read the stage list and leave the units alone: ENG.INDEX and ENG.BUILD (R303, R318). -/

namespace Sys2Proof.Machine

-- As in the tests: with every proof in a thread of its own the check runs into its memory limit.
set_option Elab.async false

/-! ### `CheckOrder` (46_pipeline R303) -/

section
variable {s : State}

/-- Entries that can stand are passed over: what the check then answers a fault to decides. -/
theorem checkEntries_append_error {seen pre rest : List UnitCode} {e : Trap}
    (hv : ∀ u ∈ pre, ∃ id, unitOfCode u = some id ∧ unitValid s id = true) (hn : pre.Nodup) (hs : ∀ u ∈ pre, u ∉ seen)
    (h : checkEntries s (seen ++ pre) rest = .error e) : checkEntries s seen (pre ++ rest) = .error e := by
  induction pre generalizing seen with
  | nil => simpa using h
  | cons u pre ih =>
    obtain ⟨⟨id, hid, hvalid⟩, hv⟩ := List.forall_mem_cons.1 hv
    obtain ⟨hu, hs⟩ := List.forall_mem_cons.1 hs
    obtain ⟨hup, hn⟩ := List.nodup_cons.1 hn
    have hrest : checkEntries s (seen ++ [u]) (pre ++ rest) = .error e := by
      refine ih hv hn (fun v hv hm => ?_) (by simpa using h)
      rcases List.mem_append.1 hm with hm | hm
      · exact hs v hv hm
      · exact hup (List.mem_singleton.1 hm ▸ hv)
    simp only [List.cons_append, checkEntries, hid, if_neg hu, hvalid, if_true, hrest]

/-- The entries before place `p` of the stage list. -/
theorem stageList_take {p : Nat} (hp : p ≤ s.nst.toNat) : (stageList s).take p = (List.range p).map (orderEntry s) := by
  rw [stageList, ← List.map_take, List.take_range, Nat.min_eq_left hp]

/-- The stage list from place `p` on. -/
theorem stageList_split {p : Nat} (hp : p < s.nst.toNat) :
    stageList s = (List.range p).map (orderEntry s) ++ orderEntry s p :: (stageList s).drop (p + 1) := by
  have hlen : p < (stageList s).length := by rwa [stageList_length]
  rw [← stageList_take (Nat.le_of_lt hp), ← stageList_get s hp, ← List.drop_eq_getElem_cons hlen, List.take_append_drop]

theorem mem_entries_before {p : Nat} {u : UnitCode} :
    u ∈ (List.range p).map (orderEntry s) ↔ ∃ q < p, orderEntry s q = u := by
  simp

/-- Entries that can stand are pairwise different. -/
theorem nodup_entries_before {p : Nat} (h : ∀ q < p, StageOk s q) : ((List.range p).map (orderEntry s)).Nodup := by
  refine List.Nodup.map_on (fun q hq r hr he => ?_) List.nodup_range
  rw [List.mem_range] at hq hr
  rcases Nat.lt_trichotomy q r with hqr | hqr | hqr
  · exact ((h r hr).2 q hqr he).elim
  · exact hqr
  · exact ((h q hq).2 r hqr he.symm).elim

/-- The fault the statements call `CheckOrder`'s is the one it raises. -/
theorem checkOrder_of_fault {c : Cause} {u : UnitCode} (h : CheckOrderFault s c u) : checkOrder s = .error ⟨c, u⟩ := by
  rcases h with ⟨hn, rfl, rfl⟩ | ⟨hn, p, hp, hbefore, rfl, hu⟩
  · exact if_pos hn
  · have hfirst : checkEntries s ([] ++ (List.range p).map (orderEntry s)) (orderEntry s p :: (stageList s).drop (p + 1)) =
        .error ⟨c, orderEntry s p⟩ := by
      rw [List.nil_append, checkEntries]
      rcases hu with ⟨rfl, hnone | hseen⟩ | ⟨rfl, hnew, id, hid, hvalid⟩
      · simp only [hnone]
      · split
        · rfl
        · rw [if_pos (mem_entries_before.2 hseen)]
      · have hnew : orderEntry s p ∉ (List.range p).map (orderEntry s) := fun hm => by
          obtain ⟨q, hq, he⟩ := mem_entries_before.1 hm
          exact hnew q hq he
        simp only [hid, if_neg hnew, hvalid, Bool.false_eq_true, if_false]
    rw [checkOrder, if_neg (Nat.not_lt.2 hn), stageList_split hp]
    refine checkEntries_append_error (fun v hv => ?_) (nodup_entries_before hbefore) (fun _ _ => List.not_mem_nil) hfirst
    obtain ⟨q, hq, rfl⟩ := mem_entries_before.1 hv
    exact (hbefore q hq).1

/-- A stage list of entries that can stand passes the check. -/
theorem checkOrder_of_stageOk (hn : s.nst.toNat ≤ 9) (h : ∀ p < s.nst.toNat, StageOk s p) : ∃ ids, checkOrder s = .ok ids := by
  cases hc : checkOrder s with
  | ok ids => exact ⟨ids, rfl⟩
  | error e =>
    rw [checkOrder, if_neg (Nat.not_lt.2 hn)] at hc
    obtain ⟨pre, u, post, hlist, -, hbad⟩ := checkEntries_error hc
    have hp : pre.length < s.nst.toNat := by
      rw [← stageList_length, hlist]
      simp
    have hentry : orderEntry s pre.length = u := by
      rw [← stageList_get s hp]
      simp [hlist]
    have hbefore : pre = (List.range pre.length).map (orderEntry s) := by
      rw [← stageList_take (Nat.le_of_lt hp), hlist, List.take_left]
    obtain ⟨⟨id, hid, hvalid⟩, hnew⟩ := h _ hp
    rw [hentry] at hid hnew
    rcases hbad with ⟨-, hnone | hseen⟩ | ⟨-, id', hid', hvalid'⟩
    · rw [hnone] at hid
      cases hid
    · rw [List.nil_append, hbefore, mem_entries_before] at hseen
      obtain ⟨q, hq, he⟩ := hseen
      exact (hnew q hq he).elim
    · rw [hid'] at hid
      cases hid
      rw [hvalid] at hvalid'
      cases hvalid'

/-- A unit is in the stage list when the check answers it. -/
theorem mem_units_iff {ids : List UnitId} (h : checkOrder s = .ok ids) (u : UnitId) : u ∈ ids ↔ unitCode u ∈ stageList s := by
  obtain ⟨-, hlist, -, -⟩ := checkOrder_ok_iff.1 h
  rw [← hlist, List.mem_map]
  exact ⟨fun hu => ⟨u, hu, rfl⟩, fun ⟨v, hv, he⟩ => unitCode_injective he ▸ hv⟩

/-! ### ENG.INDEX (46_pipeline R318) -/

/-- Every engine state but the first allows the two commands on the positions (46_pipeline R302). -/
theorem legalIn_of_not_created {e : EState} (h : e ≠ .created) :
    legalIn .engSetindex e = true ∧ legalIn .engIndex e = true := by
  simp [legalIn, h]

theorem exec_engIndex_of_checkOrder_error {e : Trap} (hf : s.faulted = false) (hl : s.estate ≠ .created)
    (h : checkOrder s = .error e) : exec .engIndex s = .next (commandFaulted .engIndex e.cause e.unit s) := by
  show execEngIndex s = _
  rw [execEngIndex, h]
  exact command_of_error hf (legalIn_of_not_created hl).2

theorem exec_engIndex_of_counter {ids : List UnitId} (hf : s.faulted = false) (hl : s.estate ≠ .created)
    (h : checkOrder s = .ok ids) (hm : .counter ∈ ids) :
    exec .engIndex s = .next { s with
      waccLo := s.idx.extractLsb' 0 64, waccHi := s.idx.extractLsb' 64 64, untracked := false } := by
  show execEngIndex s = _
  simp only [execEngIndex, h, if_pos hm, setWacc_toNat]
  exact command_of_ok hf (legalIn_of_not_created hl).2

theorem exec_engIndex_of_no_counter {ids : List UnitId} (hf : s.faulted = false) (hl : s.estate ≠ .created)
    (h : checkOrder s = .ok ids) (hm : .counter ∉ ids) : exec .engIndex s = .next { s with untracked := true } := by
  show execEngIndex s = _
  simp only [execEngIndex, h, if_neg hm]
  exact command_of_ok hf (legalIn_of_not_created hl).2

end

/-- Settles O45: `CheckOrder` decides first, then whether the counter is among the units it answers. -/
theorem engIndex : Obligations.EngIndex := by
  intro s hf hl
  refine ⟨fun c u h => exec_engIndex_of_checkOrder_error hf hl (checkOrder_of_fault h), fun hn h => ?_⟩
  obtain ⟨ids, hids⟩ := checkOrder_of_stageOk hn h
  have hmem : UnitId.counter ∈ ids ↔ 8#4 ∈ stageList s := mem_units_iff hids .counter
  exact ⟨fun hm => exec_engIndex_of_counter hf hl hids (hmem.2 hm),
    fun hm => exec_engIndex_of_no_counter hf hl hids (mt hmem.1 hm)⟩

/-! ### ENG.BUILD (46_pipeline R303) -/

section
variable {s t : State}

theorem legalIn_engBuild {e : EState} (h : e = .initialized ∨ e = .closed) : legalIn .engBuild e = true := by
  rcases h with rfl | rfl <;> rfl

theorem exec_engBuild_of_empty (hf : s.faulted = false) (hl : s.estate = .initialized ∨ s.estate = .closed)
    (hn : s.nst.toNat = 0) : exec .engBuild s = .next (commandFaulted .engBuild .emptyStageList 0xF s) := by
  show execEngBuild s = _
  rw [execEngBuild, if_pos (BitVec.eq_of_toNat_eq hn)]
  exact command_of_error hf (legalIn_engBuild hl)

theorem exec_engBuild_of_checkOrder_error {e : Trap} (hf : s.faulted = false) (hl : s.estate = .initialized ∨ s.estate = .closed)
    (hn : s.nst.toNat ≠ 0) (h : checkOrder s = .error e) :
    exec .engBuild s = .next (commandFaulted .engBuild e.cause e.unit s) := by
  have hn : s.nst ≠ 0#4 := fun e => hn (by rw [e]; rfl)
  show execEngBuild s = _
  rw [execEngBuild, if_neg hn, h]
  exact command_of_error hf (legalIn_engBuild hl)

theorem exec_engBuild_of_no_dir {ids : List UnitId} (hf : s.faulted = false) (hl : s.estate = .initialized ∨ s.estate = .closed)
    (hn : s.nst.toNat ≠ 0) (h : checkOrder s = .ok ids) (hd : s.dir = .none) :
    exec .engBuild s = .next (commandFaulted .engBuild .badDirection 0xF s) := by
  have hn : s.nst ≠ 0#4 := fun e => hn (by rw [e]; rfl)
  show execEngBuild s = _
  simp only [execEngBuild, if_neg hn, h, if_pos hd]
  exact command_of_error hf (legalIn_engBuild hl)

theorem exec_engBuild_of_ok {ids : List UnitId} (hf : s.faulted = false) (hl : s.estate = .initialized ∨ s.estate = .closed)
    (hn : s.nst.toNat ≠ 0) (h : checkOrder s = .ok ids) (hd : s.dir ≠ .none) :
    exec .engBuild s = .next (buildPipeline s) := by
  have hn : s.nst ≠ 0#4 := fun e => hn (by rw [e]; rfl)
  show execEngBuild s = _
  simp only [execEngBuild, if_neg hn, h, if_neg hd]
  exact command_of_ok hf (legalIn_engBuild hl)

/-- A stage list that `CheckOrder` refuses has an entry. -/
theorem CheckOrderFault.nst_ne_zero {c : Cause} {u : UnitCode} (h : CheckOrderFault s c u) : s.nst.toNat ≠ 0 := by
  rcases h with ⟨h, -⟩ | ⟨-, p, h, -⟩ <;> omega

/-- An encryption pipeline runs in the stored order. -/
theorem boundUnit_of_encrypt (hd : s.dir = .encrypt) {p : Nat} (hp : p < s.nst.toNat) : boundUnit s p = orderEntry s p := by
  rw [boundUnit, if_pos hp, hd]

/-- A decryption pipeline runs in the reversed order. -/
theorem boundUnit_of_decrypt (hd : s.dir = .decrypt) {p : Nat} (hp : p < s.nst.toNat) :
    boundUnit s p = orderEntry s (s.nst.toNat - 1 - p) := by
  rw [boundUnit, if_pos hp, hd]

theorem boundUnit_of_ge {p : Nat} (hp : s.nst.toNat ≤ p) : boundUnit s p = 0 := if_neg (Nat.not_lt.2 hp)

theorem tainted_build (s : State) (u : UnitId) : (buildPipeline s).tainted[unitIndex u] = false := by simp [buildPipeline]

/-- The built pipeline of `t` is that of `s`. -/
def SameBuilt (s t : State) : Prop :=
  t.nb = s.nb ∧ t.bdir = s.bdir ∧ t.binding = s.binding ∧ t.workers = s.workers ∧ t.slots = s.slots ∧
    t.closing = s.closing ∧ t.estate = s.estate

theorem Quiet.sameBuilt (h : Quiet s t) : SameBuilt s t := by
  obtain ⟨hnb, hbdir, hbinding, hclosing⟩ := h.config
  obtain ⟨hslots, hworkers⟩ := h.chain
  exact ⟨hnb, hbdir, hbinding, hworkers, hslots, hclosing, h.estate⟩

/-- ENG.SETDIR writes `DIR` alone. -/
theorem execEngSetdir_quiet {d : Byte} (h : exec (.engSetdir d) s = .next t) : Quiet s t := by
  rcases execEngSetdir_inv h with h | ⟨-, x, -, rfl⟩
  · exact (WritesRegisters.of_stopped h).toQuiet
  · exact {}

end

/-- Settles O43: the checks in their order, what a build writes, and three writes that leave it alone. -/
theorem engBuild : Obligations.EngBuild := by
  refine ⟨fun s hf hl => ?commands, fun s t v d h => ?later⟩
  case commands =>
    intro n
    refine ⟨rfl, fun h1 h9 h hd => ?built, exec_engBuild_of_empty hf hl,
      fun c u h => exec_engBuild_of_checkOrder_error hf hl h.nst_ne_zero (checkOrder_of_fault h), fun h1 h9 h hd => ?nodir⟩
    case built =>
      obtain ⟨ids, hids⟩ := checkOrder_of_stageOk h9 h
      refine ⟨_, exec_engBuild_of_ok hf hl (Nat.one_le_iff_ne_zero.1 h1) hids hd, rfl, fun he => ⟨?_, fun p hp => ?_⟩,
        fun he => ⟨?_, fun p hp => ?_⟩, fun p hp => ?_, worker_build s, slot_build s, tainted_build s⟩
      · exact congrArg builtState he
      · rw [binding_build, boundUnit_of_encrypt he hp]
      · exact congrArg builtState he
      · rw [binding_build, boundUnit_of_decrypt he hp]
      · rw [binding_build, boundUnit_of_ge hp]
    case nodir =>
      obtain ⟨ids, hids⟩ := checkOrder_of_stageOk h9 h
      exact exec_engBuild_of_no_dir hf hl (Nat.one_le_iff_ne_zero.1 h1) hids hd
  case later =>
    have hq : Quiet s t := by
      rcases h with rfl | rfl | h
      · exact .hostWrite _ v s
      · exact .hostWrite _ v s
      · exact execEngSetdir_quiet h
    exact hq.sameBuilt

end Sys2Proof.Machine
end

section
/-! ENG.SETINDEX (46_pipeline R317): the seeks of a stage list one after the other. Each finds its own unit as the command found it, since
the units are different, and the two marks of R319 decide for every unit as they did at the start. -/

namespace Sys2Proof.Machine

-- As in the tests: with every proof in a thread of its own the check runs into its memory limit.
set_option Elab.async false

/-! ### Lists of seeks -/

section
variable {b s t x y : State} {u v : UnitId}

theorem seekAll_cons_of_ok (h : seekUnit u x = .ok t) (rest : List UnitId) :
    seekAll b x (u :: rest) = seekAll b (renewed b u t) rest := by
  simp only [seekAll, h]

theorem seekAll_cons_of_error {e : Trap} (h : seekUnit u x = .error e) (rest : List UnitId) :
    seekAll b x (u :: rest) = .error e := by
  simp only [seekAll, h]

theorem seekAll_append_of_ok {pre : List UnitId} (h : seekAll b x pre = .ok y) (post : List UnitId) :
    seekAll b x (pre ++ post) = seekAll b y post := by
  induction pre generalizing x with
  | nil =>
    cases h
    rfl
  | cons u pre ih =>
    cases hu : seekUnit u x with
    | error e =>
      rw [seekAll_cons_of_error hu] at h
      cases h
    | ok t =>
      rw [seekAll_cons_of_ok hu] at h
      rw [List.cons_append, seekAll_cons_of_ok hu, ih h]

/-! ### What one seek leaves of the other units -/

/-- The table of the nine units is in the order of the unit ids. -/
theorem unitCode_eq_unitIndex (u : UnitId) : unitCode u = BitVec.ofNat 4 (unitIndex u).val := by cases u <;> rfl

theorem unitIndex_injective (h : unitIndex u = unitIndex v) : u = v :=
  unitCode_injective (by rw [unitCode_eq_unitIndex, unitCode_eq_unitIndex, h])

/-- Only the unit's own mark is written when it is given a new state. -/
theorem renewed_loose_other (huv : u ≠ v) (b t : State) : (renewed b u t).loose[unitIndex v] = t.loose[unitIndex v] := by
  have hval : (unitIndex u).val ≠ (unitIndex v).val := fun e => huv (unitIndex_injective (Fin.ext e))
  have hset (c : Bool) : (t.loose.set (unitIndex u) c)[unitIndex v] = t.loose[unitIndex v] := Vector.getElem_set_ne _ _ hval
  unfold renewed breach settle
  split
  · exact hset true
  · split
    · exact hset false
    · rfl

/-- What is outside `P` is as it was. -/
theorem Owned.sameAt {P : UnitId → Prop} (h : Owned b P s t) (hu : ¬ P u) : SameAt s t (.unit u) := by
  cases u with
  | rotor k => exact h.rotor k hu
  | perm k => exact h.perm k hu
  | counter => exact h.idx hu

/-- A seek writes units alone. -/
theorem seekUnit_frame (h : seekUnit u x = .ok t) : t = { x with rotors := t.rotors, perms := t.perms, idx := t.idx } := by
  cases u with
  | rotor k => rcases seekRotor_ok h with ⟨c, -, rfl⟩ | ⟨-, -, rfl⟩ <;> rfl
  | perm k =>
    cases h
    rfl
  | counter =>
    cases h
    rfl

/-- Unit `u` is in `x` as it is in `s`, its mark included. -/
def Untouched (s x : State) (u : UnitId) : Prop := SameAt s x (.unit u) ∧ x.loose[unitIndex u] = s.loose[unitIndex u]

theorem Untouched.seek (h : Untouched s x v) (hu : seekUnit u x = .ok t) (huv : u ≠ v) : Untouched s (renewed b u t) v := by
  have htouch : Touches b (· = u) x (renewed b u t) := (Touches.seekUnit (P := (· = u)) rfl hu).renewed rfl
  refine ⟨h.1.trans ((Owned.touches htouch).sameAt huv.symm), ?_⟩
  rw [renewed_loose_other huv, seekUnit_frame hu]
  exact h.2

/-! ### What the seeks before leave for the next one -/

/-- The pipeline and `WACC` are in `x` as they are in `s`. -/
structure SeekScene (s x : State) : Prop where
  pipeline : SamePipeline s x
  wacc : wacc x = wacc s

theorem SeekScene.refl (s : State) : SeekScene s s := ⟨.refl s, rfl⟩

theorem SeekScene.seek (h : SeekScene s x) (hu : seekUnit u x = .ok t) (b : State) : SeekScene s (renewed b u t) where
  pipeline := (h.pipeline.trans (.seekUnit hu)).renewed b u
  wacc := by
    have hw : Machine.wacc t = Machine.wacc x := by rw [seekUnit_frame hu]; rfl
    rw [← h.wacc, ← hw]
    simp only [Machine.wacc, renewed_waccHi, renewed_waccLo]

theorem SamePipeline.quiescent (h : SamePipeline s x) : quiescent x = quiescent s := by
  rw [Bool.eq_iff_iff, quiescent_iff, quiescent_iff]
  simp only [h.closing, h.slotV, h.st]

theorem SamePipeline.liveBound (h : SamePipeline s x) (c : UnitCode) : liveBound x c = liveBound s c := by
  simp only [Machine.liveBound, liveWorker, built_eq h.estate, h.nb, h.st, h.binding]

theorem SamePipeline.breaksPrecondition (h : SamePipeline s x) (u : UnitId) :
    breaksPrecondition x u = breaksPrecondition s u := by
  rw [Machine.breaksPrecondition, h.liveBound, h.quiescent]
  rfl

/-- The precondition of R319 decides for an untouched unit as it did at the start. -/
theorem SeekScene.unsettled (h : SeekScene s x) (hu : Untouched s x u) : unsettled x u = unsettled s u := by
  rw [Machine.unsettled, Machine.unsettled, h.pipeline.breaksPrecondition, hu.2]

/-- No fault comes from the seek of this unit: it is no rotor, its arithmetic overflows nothing, or it is undefined. -/
def Seekable (s : State) (u : UnitId) : Prop :=
  ∀ k, u = .rotor k → (∃ c, rotorSeek (rotor s k) (wacc s) = .ok c) ∨ unsettled s (.rotor k) = true

theorem SeekScene.seekable (h : SeekScene s x) (hu : Untouched s x u) (hs : Seekable s u) : Seekable x u := by
  rintro k rfl
  have hr : rotor x k = rotor s k := hu.1
  rw [h.unsettled hu, hr, h.wacc]
  exact hs k rfl

theorem Seekable.seekUnit_ok (h : Seekable x u) : ∃ t, seekUnit u x = .ok t := by
  cases u with
  | rotor k =>
    rcases h k rfl with ⟨c, hc⟩ | hu
    · exact ⟨_, seekRotor_of_ok hc⟩
    · exact seekRotor_of_unsettled hu
  | perm k => exact ⟨_, rfl⟩
  | counter => exact ⟨_, rfl⟩

/-- Seeks of other units leave a unit as it was. -/
theorem Untouched.seekAll {ids : List UnitId} (h : Untouched s x v) (hids : seekAll b x ids = .ok y) (hv : v ∉ ids) :
    Untouched s y v := by
  induction ids generalizing x with
  | nil =>
    cases hids
    exact h
  | cons u rest ih =>
    obtain ⟨hvu, hrest⟩ := not_or.1 (mt List.mem_cons.2 hv)
    cases ht : seekUnit u x with
    | error e =>
      rw [seekAll_cons_of_error ht] at hids
      cases hids
    | ok t =>
      rw [seekAll_cons_of_ok ht] at hids
      exact ih (h.seek ht (Ne.symm hvu)) hids hrest

/-- The seeks of different units, none of which faults, all happen. -/
theorem seekAll_of_seekable {ids : List UnitId} (hx : SeekScene s x) (hn : ids.Nodup) (hids : ∀ u ∈ ids, Untouched s x u)
    (hs : ∀ u ∈ ids, Seekable s u) : ∃ y, seekAll b x ids = .ok y ∧ SeekScene s y := by
  induction ids generalizing x with
  | nil => exact ⟨x, rfl, hx⟩
  | cons u rest ih =>
    obtain ⟨hur, hn⟩ := List.nodup_cons.1 hn
    obtain ⟨hu, hids⟩ := List.forall_mem_cons.1 hids
    obtain ⟨hsu, hs⟩ := List.forall_mem_cons.1 hs
    obtain ⟨t, ht⟩ := (hx.seekable hu hsu).seekUnit_ok
    have hrest : ∀ v ∈ rest, Untouched s (renewed b u t) v := fun v hv => (hids v hv).seek ht fun e => hur (e ▸ hv)
    obtain ⟨y, hy, hscene⟩ := ih (hx.seek ht b) hn hrest hs
    exact ⟨y, (seekAll_cons_of_ok ht rest).trans hy, hscene⟩

theorem Untouched.refl (s : State) (u : UnitId) : Untouched s s u := ⟨.refl s _, rfl⟩

/-- The first rotor of the list whose seek faults decides the fault (46_pipeline R317). -/
theorem seekAll_of_overflow {pre post : List UnitId} {k : Fin 6} {c : Cause} (hn : (pre ++ .rotor k :: post).Nodup)
    (hpre : ∀ u ∈ pre, Seekable s u) (hu : unsettled s (.rotor k) = false)
    (hc : rotorSeek (rotor s k) (wacc s) = .error c) :
    seekAll s s (pre ++ .rotor k :: post) = .error ⟨c, unitCode (.rotor k)⟩ := by
  obtain ⟨hnpre, -, hdisjoint⟩ := List.nodup_append'.1 hn
  obtain ⟨y, hy, hscene⟩ := seekAll_of_seekable (b := s) (.refl s) hnpre (fun u _ => .refl s u) hpre
  have hk : Untouched s y (.rotor k) := (Untouched.refl s _).seekAll hy fun hm => hdisjoint hm (by simp)
  have hr : rotor y k = rotor s k := hk.1
  have hseek : seekUnit (.rotor k) y = .error ⟨c, unitCode (.rotor k)⟩ :=
    seekRotor_of_error (by rw [hr, hscene.wacc, hc]) ((hscene.unsettled hk).trans hu)
  rw [seekAll_append_of_ok hy, seekAll_cons_of_error hseek]

/-! ### Where the seeks leave the units -/

/-- Unit `u` of `t` is at `WACC`, from where it was in `s` (46_pipeline R317). -/
def Sought (s t : State) : UnitId → Prop
  | .rotor k => ∀ c, rotorSeek (rotor s k) (wacc s) = .ok c → rotor t k = { rotor s k with current := c }
  | .perm k => perm t k = permSeek (perm s k) (wacc s)
  | .counter => t.idx = s.waccHi ++ s.waccLo

theorem SeekScene.sought (h : SeekScene s x) (hu : Untouched s x u) (ht : seekUnit u x = .ok t) : Sought s t u := by
  cases u with
  | rotor k =>
    intro c hc
    have hr : rotor x k = rotor s k := hu.1
    rw [← hr, ← h.wacc] at hc
    have ht : seekRotor k x = .ok t := ht
    rw [seekRotor_of_ok hc] at ht
    cases ht
    rw [rotor_setRotor, if_pos rfl, hr]
  | perm k =>
    have hp : perm x k = perm s k := hu.1
    cases ht
    show perm (seekPerm k x) k = _
    rw [seekPerm, perm_setPerm, if_pos rfl, hp, h.wacc]
  | counter =>
    cases ht
    show BitVec.ofNat 128 (Machine.wacc x) = _
    rw [h.wacc, ofNat_wacc]

theorem Sought.congr (h : Sought s x u) (hy : SameAt x y (.unit u)) : Sought s y u := by
  cases u with
  | rotor k => exact fun c hc => Eq.trans hy (h c hc)
  | perm k => exact Eq.trans hy h
  | counter => exact Eq.trans hy h

theorem settle_sameAt (s : State) (u : UnitId) (t : State) : ∀ pl, SameAt t (settle s u t) pl := by
  rw [settle_eq]
  exact SameAt.refl t

theorem settle_loose_eq (s : State) (u : UnitId) (t : State) :
    (settle s u t).loose[unitIndex u] = (t.loose[unitIndex u] && !quiescent s) := by
  unfold settle
  cases quiescent s <;> simp

/-- Under R319 of 46_pipeline every unit of the list is sought, and settled at a quiescent point. -/
theorem seekAll_sought {ids : List UnitId} (hx : SeekScene s x) (hn : ids.Nodup) (hids : ∀ u ∈ ids, Untouched s x u)
    (hb : ∀ u ∈ ids, breaksPrecondition s u = false) (h : seekAll s x ids = .ok y) :
    ∀ u ∈ ids, Sought s y u ∧ y.loose[unitIndex u] = (s.loose[unitIndex u] && !quiescent s) := by
  induction ids generalizing x with
  | nil => exact fun _ hu => (List.not_mem_nil hu).elim
  | cons u rest ih =>
    obtain ⟨hur, hn⟩ := List.nodup_cons.1 hn
    obtain ⟨hu, hids⟩ := List.forall_mem_cons.1 hids
    obtain ⟨hbu, hb⟩ := List.forall_mem_cons.1 hb
    cases ht : seekUnit u x with
    | error e =>
      rw [seekAll_cons_of_error ht] at h
      cases h
    | ok t =>
      rw [seekAll_cons_of_ok ht] at h
      have hrest : ∀ v ∈ rest, Untouched s (renewed s u t) v := fun v hv => (hids v hv).seek ht fun e => hur (e ▸ hv)
      refine List.forall_mem_cons.2 ⟨?_, ih (hx.seek ht s) hn hrest hb h⟩
      obtain ⟨hkept, hmark⟩ := (Untouched.refl (renewed s u t) u).seekAll h hur
      rw [renewed_of_respected hbu] at hkept hmark
      refine ⟨((hx.sought hu ht).congr (settle_sameAt s u t _)).congr hkept, ?_⟩
      rw [hmark, settle_loose_eq, seekUnit_frame ht]
      exact congrArg (· && !quiescent s) hu.2

/-- The two states differ in the units and the marks of undefined units alone. -/
def SameButUnits (s t : State) : Prop :=
  ∃ rotors perms idx loose, t = { s with rotors := rotors, perms := perms, idx := idx, loose := loose }

theorem SameButUnits.trans (h : SameButUnits s t) (h' : SameButUnits t y) : SameButUnits s y := by
  obtain ⟨_, _, _, _, rfl⟩ := h
  obtain ⟨r, p, i, l, rfl⟩ := h'
  exact ⟨r, p, i, l, rfl⟩

/-- Under R319 of 46_pipeline the seeks write units and their marks alone. -/
theorem seekAll_frame {ids : List UnitId} (hb : ∀ u ∈ ids, breaksPrecondition s u = false) (h : seekAll s x ids = .ok y) :
    SameButUnits x y := by
  induction ids generalizing x with
  | nil =>
    cases h
    exact ⟨_, _, _, _, rfl⟩
  | cons u rest ih =>
    obtain ⟨hbu, hb⟩ := List.forall_mem_cons.1 hb
    cases ht : seekUnit u x with
    | error e =>
      rw [seekAll_cons_of_error ht] at h
      cases h
    | ok t =>
      rw [seekAll_cons_of_ok ht, renewed_of_respected hbu] at h
      have hseek : SameButUnits x t := ⟨_, _, _, x.loose, seekUnit_frame ht⟩
      have hsettle : SameButUnits t (settle s u t) := ⟨_, _, _, _, settle_eq s u t⟩
      exact (hseek.trans hsettle).trans (ih hb h)

/-! ### The command -/

theorem exec_engSetindex_of_checkOrder_error {e : Trap} (hf : s.faulted = false) (hl : s.estate ≠ .created)
    (h : checkOrder s = .error e) : exec .engSetindex s = .next (commandFaulted .engSetindex e.cause e.unit s) := by
  show execEngSetindex s = _
  rw [execEngSetindex, h]
  exact command_of_error hf (legalIn_of_not_created hl).1

theorem exec_engSetindex_of_seekAll_error {ids : List UnitId} {e : Trap} (hf : s.faulted = false) (hl : s.estate ≠ .created)
    (hids : checkOrder s = .ok ids) (h : seekAll s s ids = .error e) :
    exec .engSetindex s = .next (commandFaulted .engSetindex e.cause e.unit s) := by
  show execEngSetindex s = _
  rw [execEngSetindex, hids]
  dsimp only
  rw [h, command_of_error hf (legalIn_of_not_created hl).1]

theorem exec_engSetindex_of_seekAll_ok {ids : List UnitId} (hf : s.faulted = false) (hl : s.estate ≠ .created)
    (hids : checkOrder s = .ok ids) (h : seekAll s s ids = .ok t) : exec .engSetindex s = .next t := by
  show execEngSetindex s = _
  rw [execEngSetindex, hids]
  dsimp only
  rw [h, command_of_ok hf (legalIn_of_not_created hl).1]

/-- `CheckOrder` answers pairwise different units. -/
theorem checkOrder_nodup {ids : List UnitId} (h : checkOrder s = .ok ids) : ids.Nodup := by
  obtain ⟨-, hlist, hn, -⟩ := checkOrder_ok_iff.1 h
  rw [← hlist] at hn
  exact hn.of_map _

/-- The units `CheckOrder` answers, cut at a place of the stage list. -/
theorem checkOrder_split {ids : List UnitId} (h : checkOrder s = .ok ids) {p : Nat} (hp : p < s.nst.toNat)
    (he : orderEntry s p = unitCode u) :
    ∃ pre post, ids = pre ++ u :: post ∧ ∀ v ∈ pre, ∃ q < p, orderEntry s q = unitCode v := by
  obtain ⟨-, hlist, -, -⟩ := checkOrder_ok_iff.1 h
  rw [stageList_split hp] at hlist
  obtain ⟨pre, rest, rfl, hpre, hrest⟩ := List.map_eq_append_iff.1 hlist
  obtain ⟨w, post, rfl, hw, -⟩ := List.map_eq_cons_iff.1 hrest
  obtain rfl : w = u := unitCode_injective (hw.trans he)
  refine ⟨pre, post, rfl, fun v hv => mem_entries_before.1 ?_⟩
  rw [← hpre]
  exact List.mem_map_of_mem hv

end

/-- Settles O44: `CheckOrder` decides first, then the first seek that faults; without one every unit of the list is sought, and under R319
of 46_pipeline nothing else is touched. -/
theorem engSetindex : Obligations.EngSetindex := by
  intro s hf hl
  refine ⟨fun c u h => exec_engSetindex_of_checkOrder_error hf hl (checkOrder_of_fault h), fun hn h => ?_⟩
  obtain ⟨ids, hids⟩ := checkOrder_of_stageOk hn h
  have hnodup := checkOrder_nodup hids
  have hmem := mem_units_iff hids
  refine ⟨fun hb hc => ?placed, fun p hp k c he hu hc hbefore => ?overflow, fun hs => ?runs⟩
  case placed =>
    have hb : ∀ u ∈ ids, breaksPrecondition s u = false := fun u hu => hb u ((hmem u).1 hu)
    have hs : ∀ u ∈ ids, Seekable s u := by
      rintro _ hu k rfl
      exact .inl (hc k ((hmem _).1 hu))
    obtain ⟨t, ht, -⟩ := seekAll_of_seekable (b := s) (.refl s) hnodup (fun u _ => .refl s u) hs
    have hin := seekAll_sought (.refl s) hnodup (fun u _ => .refl s u) hb ht
    have hout (u : UnitId) (hu : unitCode u ∉ stageList s) : Untouched s t u :=
      (Untouched.refl s u).seekAll ht (mt (hmem u).1 hu)
    have sought {u : UnitId} (hu : unitCode u ∈ stageList s) : Sought s t u := (hin u ((hmem u).2 hu)).1
    refine ⟨t, exec_engSetindex_of_seekAll_ok hf hl hids ht, ?frame, fun k c hk => sought hk c, fun k hk => (hout _ hk).1,
      fun k hk => sought hk, fun k hk => (hout _ hk).1, fun h8 => sought h8, fun h8 => (hout _ h8).1, fun u => ?mark⟩
    case frame =>
      obtain ⟨_, _, _, _, rfl⟩ := seekAll_frame hb ht
      rfl
    case mark =>
      by_cases hu : unitCode u ∈ stageList s
      · rw [(hin u ((hmem u).2 hu)).2, decide_eq_true hu, Bool.and_true]
      · rw [(hout u hu).2, decide_eq_false hu, Bool.and_false, Bool.not_false, Bool.and_true]
  case overflow =>
    obtain ⟨pre, post, rfl, hpre⟩ := checkOrder_split hids hp he
    have hs : ∀ u ∈ pre, Seekable s u := by
      rintro _ hv j rfl
      obtain ⟨q, hq, hqe⟩ := hpre _ hv
      exact hbefore q hq j hqe
    rw [he]
    exact exec_engSetindex_of_seekAll_error hf hl hids (seekAll_of_overflow hnodup hs hu hc)
  case runs =>
    have hs : ∀ u ∈ ids, Seekable s u := by
      rintro _ hu k rfl
      exact hs k ((hmem _).1 hu)
    obtain ⟨t, ht, -⟩ := seekAll_of_seekable (b := s) (.refl s) hnodup (fun u _ => .refl s u) hs
    exact ⟨t, exec_engSetindex_of_seekAll_ok hf hl hids ht, (seekAll_faulted ht).trans hf⟩

end Sys2Proof.Machine
end

section
/-! The two steps of a worker and the two stream actions (46_pipeline R307 to R314): what each leaves in the slot it takes a block out of
and in the one it puts it into. -/

namespace Sys2Proof.Machine

-- As in the tests: with every proof in a thread of its own the check runs into its memory limit.
set_option Elab.async false

/-! ### Step 1 of a worker (46_pipeline R307) -/

section
variable {s t : State} {p : Fin 9} {u : UnitId} {b r : List Byte}

/-- Step 1 where the state it ends in shows the slot and the worker as they were: the slot is emptied, the worker holds the block. -/
theorem takeBlock_of_same {q : Slot} (hs : slot t (leftSlot p) = q) (hw : worker t p = worker s p) (hr : r.length = q.len.toNat)
    (last : Bool) :
    takeBlock p r last t =
      setWorker p { st := .hold, hlen := q.len, hdata := writeBytes (worker s p).hdata 0 r, last := last }
        (setSlot (leftSlot p) { q with v := false } t) := by
  simp only [takeBlock, hs, hw, hr, BitVec.ofNat_toNat, BitVec.setWidth_eq]

/-- A transform leaves the chain as it was. -/
theorem IsUnitWrite.sameChain {f : State → List Byte → Except Trap (State × List Byte)} (hf : IsUnitWrite f u)
    (h : f s b = .ok (t, r)) : (∀ k, slot t k = slot s k) ∧ ∀ p, worker t p = worker s p := by
  obtain ⟨w, hw, rfl, -⟩ := hf s t b r h
  exact ⟨fun k => w.sameAt (pl := .slot k) (by rw [hw]; nofun) s, fun p => w.sameAt (pl := .worker p) (by rw [hw]; nofun) s⟩

/-- The transform of the direction that was built. -/
theorem builtTransform_eq_ok_iff :
    s.bdir ≠ .none ∧ builtTransform s u s b = .ok (t, r) ↔
      (s.bdir = .encrypt ∧ unitTransformF u s b = .ok (t, r)) ∨ (s.bdir = .decrypt ∧ unitTransformG u s b = .ok (t, r)) := by
  unfold builtTransform
  cases s.bdir <;> simp

/-- A defined unit: the block goes through its transform. -/
theorem workerTurn_of_defined (h : receiveEnabled s p = true) (hl : (slot s (leftSlot p)).len ≠ 0#6)
    (hu : unitOfCode s.binding[p] = some u) (hm : marked s u = false) (hd : s.bdir ≠ .none)
    (hf : builtTransform s u s (slotBlock (slot s (leftSlot p))) = .ok (t, r)) :
    r.length = (slot s (leftSlot p)).len.toNat ∧
      workerTurn p s = .next
        (setWorker p { st := .hold, hlen := (slot s (leftSlot p)).len, hdata := writeBytes (worker s p).hdata 0 r, last := false }
          (setSlot (leftSlot p) { slot s (leftSlot p) with v := false } t)) := by
  have hlen : r.length = (slot s (leftSlot p)).len.toNat := (builtTransform_length hf).trans (by simp [slotBlock])
  obtain ⟨hslot, hworker⟩ := (builtTransform_isUnitWrite s u).sameChain hf
  refine ⟨hlen, ?_⟩
  rw [workerTurn_of_transform h hl ((workerTransform_iff hu hd hm).2 hf), takeBlock_of_same (hslot _) (hworker p) hlen]

/-- A worker whose transform faults records the fault and moves nothing. -/
theorem workerTurn_of_error {e : Trap} (h : receiveEnabled s p = true) (hl : (slot s (leftSlot p)).len ≠ 0#6)
    (he : workerTransform p s (slotBlock (slot s (leftSlot p))) = some (.error e)) :
    workerTurn p s = .next (workerFault p e s) := by
  rw [workerTurn_of_receive h]
  simp only [workerReceive, if_neg hl, he]

/-- The counter's transform faults at its largest value. -/
theorem workerTransform_of_full (hu : unitOfCode s.binding[p] = some .counter) (hloose : s.loose[unitIndex .counter] = false)
    (hd : s.bdir = .encrypt) (hi : s.idx.toNat = 2 ^ 128 - 1) (b : List Byte) :
    workerTransform p s b = some (.error ⟨.wcIncOverflow, unitCode .counter⟩) := by
  have hf : unitTransformF .counter s b = .error ⟨.wcIncOverflow, unitCode .counter⟩ := counterTransformF_of_full hi b
  rw [workerTransform_of_bound hu (by rw [hd]; nofun), builtTransform, if_pos hd, transformBlock, hloose]
  simp only [hf, Bool.false_eq_true, if_false]

/-- An undefined unit hands on undefined data of the same length. -/
theorem workerTransform_of_loose (hu : unitOfCode s.binding[p] = some u) (hloose : s.loose[unitIndex u] = true)
    (hd : s.bdir ≠ .none) (b : List Byte) : workerTransform p s b = some (.ok (blockOut u (scramble u s) b)) := by
  rw [workerTransform_of_bound hu hd, transformBlock, if_pos hloose]

/-- An undefined unit: some block of the same length goes on, and there is no fault (46_pipeline R319). -/
theorem workerTurn_of_loose (h : receiveEnabled s p = true) (hl : (slot s (leftSlot p)).len ≠ 0#6)
    (hu : unitOfCode s.binding[p] = some u) (hloose : s.loose[unitIndex u] = true) (hd : s.bdir ≠ .none) :
    ∃ t r, r.length = (slot s (leftSlot p)).len.toNat ∧ t.faulted = s.faulted ∧
      workerTurn p s = .next
        (setWorker p { st := .hold, hlen := (slot s (leftSlot p)).len, hdata := writeBytes (worker s p).hdata 0 r, last := false }
          (setSlot (leftSlot p) { slot s (leftSlot p) with v := false } t)) := by
  have ht := workerTransform_of_loose hu hloose hd (slotBlock (slot s (leftSlot p)))
  have hlen := blockOut_length u (scramble u s) (slotBlock (slot s (leftSlot p)))
  have hfaulted := blockOut_faulted u (scramble u s) (slotBlock (slot s (leftSlot p)))
  have hslots := blockOut_slots u (scramble u s) (slotBlock (slot s (leftSlot p)))
  have hworkers := blockOut_workers u (scramble u s) (slotBlock (slot s (leftSlot p)))
  generalize blockOut u (scramble u s) (slotBlock (slot s (leftSlot p))) = x at ht hlen hfaulted hslots hworkers
  rw [slotBlock, readBytes_length] at hlen
  rw [scramble_faulted] at hfaulted
  have hslot : slot x.1 (leftSlot p) = slot s (leftSlot p) := by simp only [slot, hslots, scramble_slots]
  have hworker : worker x.1 p = worker s p := by simp only [worker, hworkers, scramble_workers]
  refine ⟨x.1, x.2, hlen, hfaulted, ?_⟩
  rw [workerTurn_of_transform h hl ht, takeBlock_of_same hslot hworker hlen]

end

/-! ### PUSH and POP (46_pipeline R310 to R314) -/

section
variable {s : State}

/-- A host blocked at a port has no effect but to use its turn up. -/
theorem hostTurn_of_blocked {x : HostAction} {rest : List HostAction} (hq : s.hostq = x :: rest) (hb : actionBlocked s x = true) :
    hostTurn s = .next s := by
  simp [hostTurn, hq, hb]

theorem inReady_iff (hf : s.faulted = false) :
    inReady s = true ↔ built s = true ∧ s.closing = false ∧ (slot s 0).v = false := by
  simp [inReady, hf, and_assoc]

theorem outValid_iff {k : Fin 10} (hf : s.faulted = false) (hk : outSlot s = some k) :
    outValid s = true ↔ built s = true ∧ (slot s k).v = true := by
  simp [outValid, hf, hk]

theorem actionBlocked_push_of_short {bytes : List Byte} (h : bytes.length ≤ 32) :
    actionBlocked s (.push bytes) = !inReady s := by
  simp [actionBlocked, h]

theorem actionBlocked_push_of_long {bytes : List Byte} (h : 32 < bytes.length) : actionBlocked s (.push bytes) = false := by
  simp [actionBlocked, Nat.not_le_of_lt h]

theorem performAction_push_of_short {bytes : List Byte} (h : bytes.length ≤ 32) :
    performAction (.push bytes) s = .next (pushBlock bytes s) := if_pos h

theorem performAction_push_of_long {bytes : List Byte} (h : 32 < bytes.length) :
    performAction (.push bytes) s = .next (pushFault bytes s) := if_neg (Nat.not_le_of_lt h)

/-- The pop of a block of data (46_pipeline R314). -/
theorem popBlock_of_data {k : Fin 10} (h : (slot s k).len ≠ 0#6) :
    popBlock k s =
      setSlot k { slot s k with v := false } { s with replies := s.replies ++ [.block (slotBlock (slot s k))] } :=
  if_neg h

/-- The pop of the sentinel closes the pipeline besides. -/
theorem popBlock_of_sentinel {k : Fin 10} (h : (slot s k).len = 0#6) :
    popBlock k s =
      { setSlot k { slot s k with v := false } { s with replies := s.replies ++ [.block (slotBlock (slot s k))] } with
        estate := .closed, closing := false } :=
  if_pos h

theorem performAction_pop {k : Fin 10} (hk : outSlot s = some k) : performAction .pop s = .next (popBlock k s) := by
  simp only [performAction, hk]

end

/-! ### The obligations: the model has their names, so these stand in a namespace of their own -/

namespace Arbiter

/-- Settles O46: the sentinel, a block through a defined unit, the one fault, and a block through an undefined unit. -/
theorem workerReceive : Obligations.WorkerReceive := by
  intro p s h q b
  obtain ⟨hf, -, -⟩ := receiveEnabled_iff.1 h
  refine ⟨fun hl => ?sentinel, fun u hl hu hm hw t r ht => ?block, fun hl hu hloose hd hi => ?full,
    fun u hl hu hloose hd => ?undefined⟩
  case sentinel => exact workerTurn_of_sentinel h hl
  case block =>
    obtain ⟨hd, ht⟩ := builtTransform_eq_ok_iff.2 ht
    obtain ⟨hlen, hturn⟩ := workerTurn_of_defined h hl hu hm hd ht
    obtain ⟨hwf, habove, hread⟩ := writeBytes_from_zero hw hlen
    exact ⟨_, hturn, hwf, hread, hlen, habove⟩
  case full =>
    rw [workerTurn_of_error h hl (workerTransform_of_full hu hloose hd hi _), workerFault, raiseFault_of_not_faulted hf]
    rfl
  case undefined =>
    obtain ⟨t, r, hlen, hfaulted, hturn⟩ := workerTurn_of_loose h hl hu hloose hd
    refine ⟨_, hturn, hfaulted.trans hf, (slot_setSlot _ _ _ t).trans (if_pos rfl), ?_⟩
    rw [worker_setWorker, if_pos rfl]
    exact ⟨rfl, rfl, rfl⟩

/-- Settles O47: the bytes of the held block are copied over those of the right slot. -/
theorem workerSend : Obligations.WorkerSend := by
  intro p s h hw w
  exact ⟨_, workerTurn_of_send h, writeBytes_wf hw _ _, readByte_copy hw w.hdata w.hlen.toNat⟩

/-- Settles O48: a blocked host's turn, the two predicates of readiness, and the writes of each action that happens. -/
theorem pushPop : Obligations.PushPop := by
  refine ⟨fun s x rest hq hb => ⟨hostTurn_of_blocked hq hb, fun hturn => ?step⟩,
    fun s hf => ⟨fun bytes hb => ⟨?ready, fun hw => ?push⟩, fun bytes hb => ⟨actionBlocked_push_of_long hb, ?long⟩,
      fun k hk => ?pop⟩⟩
  case step =>
    obtain ⟨d, q, e⟩ := nextTurn_frame s
    rw [step_of_host hturn,
      hostTurn_of_blocked ((nextTurn_hostq s).trans hq) ((actionBlocked_nextTurn s x).trans hb), e]
    exact ⟨_, rfl, rfl⟩
  case ready => rw [actionBlocked_push_of_short hb, Bool.not_eq_false', inReady_iff hf]
  case push =>
    obtain ⟨hwf, habove, hread⟩ := writeBytes_from_zero hw (r := bytes) rfl
    refine ⟨_, ?_, hwf, hread, habove⟩
    have hempty : bytes.isEmpty = decide (bytes.length = 0) := by cases bytes <;> rfl
    rw [performAction_push_of_short hb, pushBlock, hempty]
  case long =>
    rw [performAction_push_of_long hb, pushFault, raiseFault_of_not_faulted hf]
    rfl
  case pop =>
    have ho := outSlot_of_val hk
    refine ⟨by rw [show actionBlocked s .pop = !outValid s from rfl, Bool.not_eq_false', outValid_iff hf ho], ?_⟩
    intro q t
    rw [performAction_pop ho]
    exact ⟨fun hl => congrArg _ (popBlock_of_data hl), fun hl => congrArg _ (popBlock_of_sentinel hl)⟩

end Arbiter

end Sys2Proof.Machine
end

section
/-! The round trip of one block (46_pipeline R330, R331): a fold over different units is a list of writes to them, so where it starts from
matters in those units alone; and the G transform of a unit undoes the F transform while it moves the unit as F did. -/

namespace Sys2Proof.Machine

-- As in the tests: with every proof in a thread of its own the check runs into its memory limit.
set_option Elab.async false

/-! ### A fold as a list of writes -/

section
variable {s s' t : State} {f : UnitId → State → List Byte → Except Trap (State × List Byte)} {us : List UnitId} {b r : List Byte}

theorem SameAt.symm {pl : Place} (h : SameAt s s' pl) : SameAt s' s pl :=
  match pl, h with
  | .unit (.rotor _), h | .unit (.perm _), h | .unit .counter, h | .slot _, h | .worker _, h => Eq.symm h

/-- A write leaves alike what was alike. -/
theorem Write.apply_sameAt (w : Write) {pl : Place} (h : SameAt s s' pl) : SameAt (w.apply s) (w.apply s') pl := by
  by_cases hw : w.place = pl
  · subst hw
    cases w <;> simp [SameAt, Write.place, Write.apply]
  · exact ((w.sameAt hw s).symm.trans h).trans (w.sameAt hw s')

/-- A fold of unit writes is a list of writes to its units, the same from every state that holds the same in them. -/
theorem foldStages_writes (hf : ∀ u, IsUnitWrite (f u) u) (h : foldStages f us s b = .ok (t, r)) :
    ∃ ws : List Write, (∀ w ∈ ws, ∃ u ∈ us, w.place = .unit u) ∧ t = applyAll ws s ∧
      ∀ s', (∀ u ∈ us, SameAt s s' (.unit u)) → foldStages f us s' b = .ok (applyAll ws s', r) := by
  induction us generalizing s b with
  | nil =>
    cases h
    exact ⟨[], nofun, rfl, fun _ _ => rfl⟩
  | cons u us ih =>
    rw [foldStages] at h
    split at h
    · cases h
    · rename_i v c hu
      obtain ⟨w, hw, rfl, hsame⟩ := hf u _ _ _ _ hu
      obtain ⟨ws, hws, rfl, hrest⟩ := ih h
      refine ⟨w :: ws, List.forall_mem_cons.2 ⟨⟨u, by simp, hw⟩, fun w hw => ?_⟩, rfl, fun s' hs' => ?_⟩
      · obtain ⟨v, hv, he⟩ := hws w hw
        exact ⟨v, by simp [hv], he⟩
      · obtain ⟨hu', hus⟩ := List.forall_mem_cons.1 hs'
        rw [foldStages, hsame s' hu']
        exact hrest _ fun v hv => w.apply_sameAt (hus v hv)

/-- A fold leaves a unit alone that is not one of its stages. -/
theorem foldStages_sameAt (hf : ∀ u, IsUnitWrite (f u) u) (h : foldStages f us s b = .ok (t, r)) {u : UnitId} (hu : u ∉ us) :
    SameAt s t (.unit u) := by
  obtain ⟨ws, hws, rfl, -⟩ := foldStages_writes hf h
  refine applyAll_sameAt (fun w hw he => ?_) s
  obtain ⟨v, hv, hplace⟩ := hws w hw
  rw [hplace] at he
  cases he
  exact hu hv

/-- A write to another unit passes through a fold. -/
theorem foldStages_apply (hf : ∀ u, IsUnitWrite (f u) u) (h : foldStages f us s b = .ok (t, r)) {w : Write} {u : UnitId}
    (hw : w.place = .unit u) (hu : u ∉ us) : foldStages f us (w.apply s) b = .ok (w.apply t, r) := by
  obtain ⟨ws, hws, rfl, hsame⟩ := foldStages_writes hf h
  have hdisjoint : ∀ v ∈ ws, v.place ≠ w.place := fun v hv he => by
    obtain ⟨x, hx, hplace⟩ := hws v hv
    rw [hplace, hw] at he
    cases he
    exact hu hx
  rw [apply_applyAll hdisjoint]
  refine hsame _ fun x hx => w.sameAt (fun he => ?_) s
  rw [hw] at he
  cases he
  exact hu hx

end

/-! ### One stage there and back (46_pipeline R331) -/

section
variable {s t : State} {u : UnitId} {x y : List Byte}

/-- The permutator units of the list have a bijective table, so that G can undo F (42_permutator R189). -/
def TablesOk (s : State) (u : UnitId) : Prop := ∀ k, u = .perm k → TableBijective (perm s k).bperm

/-- The G transform takes the block back and moves its unit as F did, but for the counter, which G does not move (43_counter R223). -/
theorem unitTransformG_undoes (hg : TablesOk s u) (h : unitTransformF u s x = .ok (t, y)) :
    unitTransformG u s y = .ok ({ t with idx := s.idx }, x) := by
  rcases unitTransformF_ok h with ⟨k, rfl, rfl, rfl⟩ | ⟨k, rfl, rfl, rfl⟩ | ⟨rfl, -, rfl, rfl⟩
  · show rotorTransformG k s _ = _
    rw [rotorTransformG, rotorG_rotorF]
    rfl
  · show permTransformG k s _ = _
    rw [permTransformG, permG_permF (hg k rfl)]
    rfl
  · rfl

/-- A unit whose invariants hold has a bijective table. -/
theorem UnitsOk.tablesOk (hm : MemoriesOk s) (ho : UnitsOk s) (hv : unitValid s u = true) : TablesOk s u := by
  rintro k rfl
  exact (ho.perms k hv).bpermBijective (hm.bperm k).1

theorem TablesOk.congr (h : TablesOk s u) (hs : SameAt s t (.unit u)) : TablesOk t u := by
  rintro k rfl
  have hp : perm t k = perm s k := hs
  rw [hp]
  exact h k rfl

/-- One stage there and back, from every state that holds the same in its unit: F is a write to the unit and G another, which differ in
the counter alone. -/
theorem stage_roundTrip (hg : TablesOk s u) (h : unitTransformF u s x = .ok (t, y)) :
    ∃ w v : Write, v.place = .unit u ∧ t = w.apply s ∧ ∀ s', SameAt s s' (.unit u) →
      unitTransformG u s' y = .ok (v.apply s', x) ∧ v.apply s' = { w.apply s' with idx := s'.idx } := by
  obtain ⟨w, -, rfl, hF⟩ := unitTransformF_isUnitWrite u _ _ _ _ h
  obtain ⟨v, hv, -, hG⟩ := unitTransformG_isUnitWrite u _ _ _ _ (unitTransformG_undoes hg h)
  refine ⟨w, v, hv, rfl, fun s' hs => ⟨hG s' hs, ?_⟩⟩
  have hback := unitTransformG_undoes (hg.congr hs) (hF s' hs)
  rw [hG s' hs] at hback
  exact congrArg Prod.fst (Except.ok.inj hback)

/-- The last stage of the F fold is the first of the G fold; behind it the way back is the one of the stages before. -/
theorem foldStages_roundTrip {us : List UnitId} (hn : us.Nodup) (hg : ∀ u ∈ us, TablesOk s u)
    (h : foldStages unitTransformF us s x = .ok (t, y)) :
    foldStages unitTransformG us.reverse s y = .ok ({ t with idx := s.idx }, x) := by
  induction us using List.reverseRecOn generalizing t y with
  | nil =>
    cases h
    rfl
  | append_singleton us u ih =>
    obtain ⟨hnus, -, hdisjoint⟩ := List.nodup_append'.1 hn
    have hu : u ∉ us := fun hm => hdisjoint hm (List.mem_singleton_self u)
    obtain ⟨v, z, hus⟩ := foldStages_append_ok h
    have hlast : unitTransformF u v z = .ok (t, y) := foldStages_single (by rwa [foldStages_append hus] at h)
    have hsv : SameAt s v (.unit u) := foldStages_sameAt unitTransformF_isUnitWrite hus hu
    have hvidx : SameAt v { v with idx := s.idx } (.unit u) := by
      cases u with
      | rotor k | perm k => rfl
      | counter => exact hsv.symm
    obtain ⟨w, w', hplace, rfl, hstage⟩ := stage_roundTrip ((hg u (by simp)).congr hsv) hlast
    have hrest := foldStages_apply unitTransformG_isUnitWrite (ih hnus (fun w hw => hg w (by simp [hw])) hus) hplace
      (mt List.mem_reverse.1 hu)
    have hend : w'.apply { v with idx := s.idx } = { w.apply v with idx := s.idx } :=
      (hstage _ hvidx).2.trans (by cases w <;> rfl)
    rw [List.reverse_append, List.reverse_singleton, List.singleton_append, foldStages, (hstage s hsv.symm).1, ← hend]
    exact hrest

end

/-- Settles O57: the fold there and back, over units whose invariants hold. -/
theorem roundTripOfTheFold : Obligations.RoundTripOfTheFold := fun _ _ _ _ _ hm ho hn hv h =>
  ⟨_, foldStages_roundTrip hn (fun u hu => ho.tablesOk hm (hv u hu)) h, rfl⟩

end Sys2Proof.Machine
end

section
/-! The frozen block (60_exceptions R355): while `FAULTED` is 1 an action of the host that is not a RESET is dropped, blocked or a read of a
register, and no turn of any agent changes the block. -/

namespace Sys2Proof.Machine

-- As in the tests: with every proof in a thread of its own the check runs into its memory limit.
set_option Elab.async false

section
variable {s t u : State}

theorem sameBlock_refl (s : State) : sameBlock s s := rfl

theorem sameBlock_trans (hst : sameBlock s t) (htu : sameBlock t u) : sameBlock s u := by
  rw [hst] at htu
  exact htu

theorem sameBlock_nextTurn (s : State) : sameBlock s (nextTurn s).2 := by
  obtain ⟨d, q, e⟩ := nextTurn_frame s
  rw [e]
  rfl

/-! ### The actions of the host on a faulted block -/

theorem runCommand_of_faulted (h : s.faulted = true) (w : Cmd) : runCommand w s = .next s := by
  cases hw : decode w with
  | error e => simp only [runCommand, hw, raiseFault_of_faulted h]
  | ok i => simp only [runCommand, hw, exec_of_faulted h]

theorem hostWrite_of_faulted (h : s.faulted = true) (a : RegNum) (v : Word) : hostWrite a v s = s := if_pos h

theorem registerFault_of_faulted (h : s.faulted = true) (a : RegNum) : registerFault a s = s := raiseFault_of_faulted h _ _ _ _

theorem pushFault_of_faulted (h : s.faulted = true) (bytes : List Byte) : pushFault bytes s = s := raiseFault_of_faulted h _ _ _ _

/-- A read records no fault: a number with no register reads 0 and that is all. -/
theorem hostRead_of_faulted (h : s.faulted = true) (a : RegNum) :
    hostRead a s = { s with replies := s.replies ++ [.value (((regOf a.toNat).map (readReg s)).getD 0)] } := by
  rcases hostRead_cases a s with ⟨r, hr, e⟩ | ⟨hr, e⟩
  · rw [e, hr]
    rfl
  · rw [e, hr]
    exact registerFault_of_faulted (s := { s with replies := s.replies ++ [.value 0#64] }) h a

theorem inReady_of_faulted (h : s.faulted = true) : inReady s = false := by simp [inReady, h]

theorem outValid_of_faulted (h : s.faulted = true) : outValid s = false := by simp [outValid, h]

theorem actionBlocked_push_of_faulted (h : s.faulted = true) {bytes : List Byte} (hb : bytes.length ≤ 32) :
    actionBlocked s (.push bytes) = true := by
  rw [actionBlocked_push_of_short hb, inReady_of_faulted h, Bool.not_false]

theorem actionBlocked_pop_of_faulted (h : s.faulted = true) : actionBlocked s .pop = true := by
  rw [show actionBlocked s .pop = !outValid s from rfl, outValid_of_faulted h, Bool.not_false]

theorem performAction_push_of_faulted (h : s.faulted = true) {bytes : List Byte} (hb : 32 < bytes.length) :
    performAction (.push bytes) s = .next s := by
  rw [performAction_push_of_long hb, pushFault_of_faulted h]

/-- The READY bits and `QUIESCENT` (10_state R25, 46_pipeline R306). -/
theorem statusWord_of_faulted (h : s.faulted = true) :
    (statusWord s).getLsbD 8 = false ∧ (statusWord s).getLsbD 9 = false ∧ (statusWord s).getLsbD 10 = false := by
  obtain ⟨-, -, -, -, -, -, -, -, hin, hout, hquiescent, -⟩ := statusFields s
  exact ⟨hin.trans (inReady_of_faulted h), hout.trans (outValid_of_faulted h), by rw [hquiescent, h]; rfl⟩

/-! ### The turns on a faulted block -/

/-- Of the actions that happen, only the RESET changes the block. -/
theorem performAction_sameBlock {x : HostAction} (h : s.faulted = true) (hb : actionBlocked s x = false) (hx : x ≠ .reset)
    (ht : performAction x s = .next t) : sameBlock s t := by
  rcases performAction_cases ht with ⟨a, v, rfl, rfl⟩ | ⟨a, rfl, rfl⟩ | ⟨w, rfl, hw⟩ | ⟨bytes, rfl, hl, -⟩ |
    ⟨bytes, rfl, -, rfl⟩ | ⟨k, rfl, -, -⟩ | ⟨-, -, rfl⟩ | ⟨rfl, -⟩
  · exact (hostWrite_of_faulted h a v).symm ▸ sameBlock_refl s
  · rw [hostRead_of_faulted h]
    rfl
  · rw [runCommand_of_faulted h] at hw
    cases hw
    rfl
  · exact absurd ((actionBlocked_push_of_faulted h hl).symm.trans hb) nofun
  · exact (pushFault_of_faulted h bytes).symm ▸ sameBlock_refl s
  · exact absurd ((actionBlocked_pop_of_faulted h).symm.trans hb) nofun
  · exact sameBlock_refl _
  · exact absurd rfl hx

/-- Only the oldest pending action can happen. -/
theorem hostTurn_sameBlock (h : s.faulted = true) (hq : s.hostq[0]? ≠ some .reset) (ht : hostTurn s = .next t) :
    sameBlock s t := by
  rcases hostTurn_cases ht with rfl | ⟨x, rest, hx, hb, ht⟩
  · exact sameBlock_refl t
  · have hreset : x ≠ .reset := by
      rintro rfl
      simp [hx] at hq
    have hb' : actionBlocked { s with hostq := rest } x = false := by
      cases x <;> exact hb
    exact sameBlock_trans (t := { s with hostq := rest }) rfl (performAction_sameBlock h hb' hreset ht)

/-- A blocked port is given up only for a RESET that is the second pending action (log 5). -/
theorem hostResetTurn_sameBlock (hq : s.hostq[1]? ≠ some .reset) (ht : hostResetTurn s = .next t) : sameBlock s t := by
  rcases hostResetTurn_cases ht with rfl | ⟨x, rest, hx, -, -⟩
  · exact sameBlock_refl t
  · simp [hx] at hq

/-- No agent's turn changes a faulted block while neither of the next two pending actions is a RESET. -/
theorem takeTurn_sameBlock (h : s.faulted = true) (hq : HostAction.reset ∉ s.hostq.take 2) (turn : Turn) :
    ∃ t, takeTurn turn s = .next t ∧ sameBlock s t := by
  cases turn with
  | worker p => exact ⟨s, workerTurn_of_faulted h p, sameBlock_refl s⟩
  | host =>
    obtain ⟨t, ht⟩ := hostTurn_answers s
    exact ⟨t, ht, hostTurn_sameBlock h (fun hx => hq (List.mem_of_getElem? (i := 0) (by simpa using hx))) ht⟩
  | hostReset =>
    obtain ⟨t, ht⟩ := hostResetTurn_answers s
    exact ⟨t, ht, hostResetTurn_sameBlock (fun hx => hq (List.mem_of_getElem? (i := 1) (by simpa using hx))) ht⟩

/-- Choosing the turn leaves the block and the host's actions alone, so the step is the turn's. -/
theorem step_sameBlock (h : s.faulted = true) (hq : HostAction.reset ∉ s.hostq.take 2) :
    ∃ t, step s = .next t ∧ sameBlock s t := by
  have hf : (nextTurn s).2.faulted = true := by
    rw [sameBlock_nextTurn s]
    exact h
  obtain ⟨t, ht, hs⟩ := takeTurn_sameBlock hf (by rwa [nextTurn_hostq]) (nextTurn s).1
  exact ⟨t, ht, sameBlock_trans (sameBlock_nextTurn s) hs⟩

end

/-- Settles O7: each action of the host is dropped, blocked or a read, and so no turn of an agent changes the block. -/
theorem frozenWhileFaulted : Obligations.FrozenWhileFaulted := by
  intro s h
  obtain ⟨hin, hout, hquiescent⟩ := statusWord_of_faulted h
  exact ⟨fun w => runCommand_of_faulted h w, fun a v => congrArg _ (hostWrite_of_faulted h a v),
    fun p => workerTurn_of_faulted h p, fun _ hb => actionBlocked_push_of_faulted h hb, actionBlocked_pop_of_faulted h,
    fun _ hb => ⟨actionBlocked_push_of_long hb, performAction_push_of_faulted h hb⟩, hin, hout, hquiescent,
    fun a => congrArg _ (hostRead_of_faulted h a), step_sameBlock h⟩

end Sys2Proof.Machine
end
